-- ==== Sys2Proof/Word.lean ====
section
/-! DEFINITION. The word types of the HX4 (R3, R10) and the plainest views of them. -/

namespace Sys2Proof

/-- A 64-bit scalar register, predicate, control register or queue word (R10). -/
abbrev W64 := BitVec 64
/-- A 32-bit vector element, accumulator element or instruction word (R10, R27). -/
abbrev W32 := BitVec 32
/-- One byte of memory (R4). -/
abbrev Byte := BitVec 8
/-- The 64 lanes of a vector register, lane 0 first (R6, R10). -/
abbrev Vec := List W32
/-- The 64 lanes of an address vector, lane 0 first (R10). -/
abbrev XVec := List W64
/-- A sparse table: key and value pairs; a key that is not listed has the table's default. -/
abbrev SMap (α : Type) := List (Nat × α)

/-- `bits x hi lo` of the manual's pseudocode, as a number. -/
def bitsOf (x hi lo : Nat) : Nat := (x >>> lo) % 2 ^ (hi + 1 - lo)

end Sys2Proof
end

