-- ==== Sys2Proof/Syntax.lean ====
section
/-! DEFINITION. The steps of the opcode table (R37, R38, R95 file "What each step holds"): one constructor a row. The
first 210 are instruction words, with the fields of the word; the rest are what the engines, the scheduler, the fabric,
the error logic, the partition monitor and the debugger do, each with the parameters that say which one does it: a `wave` is the number
of an access strand, 32 × its unit + its wave's place in the unit. -/

namespace Sys2Proof

/-- The kinds of strand (R8). -/
inductive StrandKind where
  | access
  | compute
  | seq
  deriving DecidableEq, Repr

/-- How a control-register instruction changes its register: sys.csrw, sys.csrs or sys.csrc (R355). -/
inductive CsrOp where
  | write
  | set
  | clear
  deriving DecidableEq, Repr

/-- A member's exchange post as the arbiter receives it (R290, R296). -/
structure ExPost where
  xseq : Nat
  epoch : Nat
  rowbytes : Nat
  caprows : Nat
  spill : Bool
  spillrows : Nat
  demand : List Nat
  deriving DecidableEq, Repr

/-- Where a soft error strikes (the storage of R363). -/
inductive ErrLoc where
  | scalar (wave strand reg : Nat)
  | pred (wave strand reg : Nat)
  | vector (wave reg lane : Nat)
  | address (wave reg lane : Nat)
  | queue (wave code idx lane : Nat)
  | ctl (wave strand num : Nat)
  | mailbox (cluster slot idx : Nat) (done : Bool)
  | creel (cluster word : Nat)
  | acc (cluster elem : Nat)
  | granule (pa : Nat)
  | translation (die : Nat)
  | logic (die : Nat)
  deriving DecidableEq, Repr

/-- The steps of the machine, one constructor for each row of the opcode table. -/
inductive Instr where
  /-- add (R101). -/
  | add (w : Bool) (d : BitVec 8) (a : BitVec 8) (b : BitVec 8)
  /-- sub (R101). -/
  | sub (w : Bool) (d : BitVec 8) (a : BitVec 8) (b : BitVec 8)
  /-- mul (R101). -/
  | mul (w : Bool) (d : BitVec 8) (a : BitVec 8) (b : BitVec 8)
  /-- mulh (R101). -/
  | mulh (w : Bool) (d : BitVec 8) (a : BitVec 8) (b : BitVec 8)
  /-- mulhu (R101). -/
  | mulhu (w : Bool) (d : BitVec 8) (a : BitVec 8) (b : BitVec 8)
  /-- and (R101). -/
  | and (w : Bool) (d : BitVec 8) (a : BitVec 8) (b : BitVec 8)
  /-- or (R101). -/
  | or (w : Bool) (d : BitVec 8) (a : BitVec 8) (b : BitVec 8)
  /-- xor (R101). -/
  | xor (w : Bool) (d : BitVec 8) (a : BitVec 8) (b : BitVec 8)
  /-- sll (R101). -/
  | sll (w : Bool) (d : BitVec 8) (a : BitVec 8) (b : BitVec 8)
  /-- srl (R101). -/
  | srl (w : Bool) (d : BitVec 8) (a : BitVec 8) (b : BitVec 8)
  /-- sra (R101). -/
  | sra (w : Bool) (d : BitVec 8) (a : BitVec 8) (b : BitVec 8)
  /-- slt (R101). -/
  | slt (w : Bool) (d : BitVec 8) (a : BitVec 8) (b : BitVec 8)
  /-- sltu (R101). -/
  | sltu (w : Bool) (d : BitVec 8) (a : BitVec 8) (b : BitVec 8)
  /-- div (R102). -/
  | div (w : Bool) (d : BitVec 8) (a : BitVec 8) (b : BitVec 8)
  /-- divu (R102). -/
  | divu (w : Bool) (d : BitVec 8) (a : BitVec 8) (b : BitVec 8)
  /-- rem (R102). -/
  | rem (w : Bool) (d : BitVec 8) (a : BitVec 8) (b : BitVec 8)
  /-- addi (R103). -/
  | addi (w : Bool) (d : BitVec 8) (i : BitVec 16)
  /-- movi (R103). -/
  | movi (w : Bool) (d : BitVec 8) (i : BitVec 16)
  /-- orhi (R103). -/
  | orhi (w : Bool) (d : BitVec 8) (i : BitVec 16)
  /-- andi (R103). -/
  | andi (w : Bool) (d : BitVec 8) (i : BitVec 16)
  /-- remu (R103). -/
  | remu (w : Bool) (d : BitVec 8) (i : BitVec 16)
  /-- sun.clz (R104). -/
  | sunClz (w : Bool) (d : BitVec 8) (a : BitVec 8)
  /-- sun.ctz (R104). -/
  | sunCtz (w : Bool) (d : BitVec 8) (a : BitVec 8)
  /-- sun.popc (R104). -/
  | sunPopc (w : Bool) (d : BitVec 8) (a : BitVec 8)
  /-- sun.sext8 (R104). -/
  | sunSext8 (w : Bool) (d : BitVec 8) (a : BitVec 8)
  /-- sun.sext16 (R104). -/
  | sunSext16 (w : Bool) (d : BitVec 8) (a : BitVec 8)
  /-- sun.sext32 (R104). -/
  | sunSext32 (w : Bool) (d : BitVec 8) (a : BitVec 8)
  /-- sun.zext8 (R104). -/
  | sunZext8 (w : Bool) (d : BitVec 8) (a : BitVec 8)
  /-- sun.zext16 (R104). -/
  | sunZext16 (w : Bool) (d : BitVec 8) (a : BitVec 8)
  /-- sun.zext32 (R104). -/
  | sunZext32 (w : Bool) (d : BitVec 8) (a : BitVec 8)
  /-- sun.neg (R104). -/
  | sunNeg (w : Bool) (d : BitVec 8) (a : BitVec 8)
  /-- sun.not (R104). -/
  | sunNot (w : Bool) (d : BitVec 8) (a : BitVec 8)
  /-- beq (R105). -/
  | beq (w : Bool) (a : BitVec 6) (b : BitVec 6) (f : BitVec 12)
  /-- bne (R105). -/
  | bne (w : Bool) (a : BitVec 6) (b : BitVec 6) (f : BitVec 12)
  /-- blt (R105). -/
  | blt (w : Bool) (a : BitVec 6) (b : BitVec 6) (f : BitVec 12)
  /-- bge (R105). -/
  | bge (w : Bool) (a : BitVec 6) (b : BitVec 6) (f : BitVec 12)
  /-- bltu (R105). -/
  | bltu (w : Bool) (a : BitVec 6) (b : BitVec 6) (f : BitVec 12)
  /-- bgeu (R105). -/
  | bgeu (w : Bool) (a : BitVec 6) (b : BitVec 6) (f : BitVec 12)
  /-- loop (R42). -/
  | loop (w : Bool) (a : BitVec 6) (k : BitVec 6) (f : BitVec 12)
  /-- jmp (R106). -/
  | jmp (w : Bool) (f : BitVec 24)
  /-- call (R106). -/
  | call (w : Bool) (f : BitVec 24)
  /-- jr (R107). -/
  | jr (w : Bool) (d : BitVec 8) (a : BitVec 8)
  /-- mode (R36). -/
  | mode (w : Bool) (i : BitVec 16)
  /-- sys.nop (R355). -/
  | sysNop (w : Bool)
  /-- sys.trap (R355). -/
  | sysTrap (w : Bool) (i : BitVec 16)
  /-- sys.ret (R357). -/
  | sysRet (w : Bool)
  /-- sys.csrr (R355). -/
  | sysCsrr (w : Bool) (s : BitVec 6) (c : BitVec 10)
  /-- sys.csrw (R355). -/
  | sysCsrw (w : Bool) (s : BitVec 6) (c : BitVec 10)
  /-- sys.csrs (R355). -/
  | sysCsrs (w : Bool) (s : BitVec 6) (c : BitVec 10)
  /-- sys.csrc (R355). -/
  | sysCsrc (w : Bool) (s : BitVec 6) (c : BitVec 10)
  /-- sys.yield (R367). -/
  | sysYield (w : Bool)
  /-- xadd (R108). -/
  | xadd (w : Bool) (d : BitVec 8) (a : BitVec 8) (b : BitVec 8)
  /-- xaddsc (R108). -/
  | xaddsc (w : Bool) (d : BitVec 8) (a : BitVec 8) (b : BitVec 8)
  /-- xmulsc (R108). -/
  | xmulsc (w : Bool) (d : BitVec 8) (a : BitVec 8) (b : BitVec 8)
  /-- xshl (R108). -/
  | xshl (w : Bool) (d : BitVec 8) (a : BitVec 8) (b : BitVec 8)
  /-- xiota (R108). -/
  | xiota (w : Bool) (d : BitVec 8) (a : BitVec 8) (b : BitVec 8)
  /-- xcmp.eq (R109). -/
  | xcmpEq (w : Bool) (p : BitVec 4) (a : BitVec 8) (b : BitVec 8)
  /-- xcmp.ne (R109). -/
  | xcmpNe (w : Bool) (p : BitVec 4) (a : BitVec 8) (b : BitVec 8)
  /-- xcmp.lt (R109). -/
  | xcmpLt (w : Bool) (p : BitVec 4) (a : BitVec 8) (b : BitVec 8)
  /-- xcmp.ge (R109). -/
  | xcmpGe (w : Bool) (p : BitVec 4) (a : BitVec 8) (b : BitVec 8)
  /-- xcmp.ltu (R109). -/
  | xcmpLtu (w : Bool) (p : BitVec 4) (a : BitVec 8) (b : BitVec 8)
  /-- xcmp.geu (R109). -/
  | xcmpGeu (w : Bool) (p : BitVec 4) (a : BitVec 8) (b : BitVec 8)
  /-- vadd (R110). -/
  | vadd (w : Bool) (d : BitVec 8) (a : BitVec 8) (b : BitVec 8)
  /-- vsub (R110). -/
  | vsub (w : Bool) (d : BitVec 8) (a : BitVec 8) (b : BitVec 8)
  /-- vmul (R110). -/
  | vmul (w : Bool) (d : BitVec 8) (a : BitVec 8) (b : BitVec 8)
  /-- vmulh (R110). -/
  | vmulh (w : Bool) (d : BitVec 8) (a : BitVec 8) (b : BitVec 8)
  /-- vmin (R110). -/
  | vmin (w : Bool) (d : BitVec 8) (a : BitVec 8) (b : BitVec 8)
  /-- vmax (R110). -/
  | vmax (w : Bool) (d : BitVec 8) (a : BitVec 8) (b : BitVec 8)
  /-- vand (R110). -/
  | vand (w : Bool) (d : BitVec 8) (a : BitVec 8) (b : BitVec 8)
  /-- vor (R110). -/
  | vor (w : Bool) (d : BitVec 8) (a : BitVec 8) (b : BitVec 8)
  /-- vxor (R110). -/
  | vxor (w : Bool) (d : BitVec 8) (a : BitVec 8) (b : BitVec 8)
  /-- vshl (R110). -/
  | vshl (w : Bool) (d : BitVec 8) (a : BitVec 8) (b : BitVec 8)
  /-- vshr (R110). -/
  | vshr (w : Bool) (d : BitVec 8) (a : BitVec 8) (b : BitVec 8)
  /-- vabsd (R110). -/
  | vabsd (w : Bool) (d : BitVec 8) (a : BitVec 8) (b : BitVec 8)
  /-- vmac (R110). -/
  | vmac (w : Bool) (d : BitVec 8) (a : BitVec 8) (b : BitVec 8)
  /-- vsel (R111). -/
  | vsel (w : Bool) (d : BitVec 8) (a : BitVec 8) (b : BitVec 8)
  /-- vun.clz (R112). -/
  | vunClz (w : Bool) (d : BitVec 8) (a : BitVec 8)
  /-- vun.ffs (R112). -/
  | vunFfs (w : Bool) (d : BitVec 8) (a : BitVec 8)
  /-- vun.popc (R112). -/
  | vunPopc (w : Bool) (d : BitVec 8) (a : BitVec 8)
  /-- vun.neg (R112). -/
  | vunNeg (w : Bool) (d : BitVec 8) (a : BitVec 8)
  /-- vun.abs (R112). -/
  | vunAbs (w : Bool) (d : BitVec 8) (a : BitVec 8)
  /-- vun.not (R112). -/
  | vunNot (w : Bool) (d : BitVec 8) (a : BitVec 8)
  /-- vun.mov (R112). -/
  | vunMov (w : Bool) (d : BitVec 8) (a : BitVec 8)
  /-- vcmp.eq (R114). -/
  | vcmpEq (w : Bool) (p : BitVec 4) (a : BitVec 8) (b : BitVec 8)
  /-- vcmp.ne (R114). -/
  | vcmpNe (w : Bool) (p : BitVec 4) (a : BitVec 8) (b : BitVec 8)
  /-- vcmp.lt (R114). -/
  | vcmpLt (w : Bool) (p : BitVec 4) (a : BitVec 8) (b : BitVec 8)
  /-- vcmp.ge (R114). -/
  | vcmpGe (w : Bool) (p : BitVec 4) (a : BitVec 8) (b : BitVec 8)
  /-- vcmp.le (R114). -/
  | vcmpLe (w : Bool) (p : BitVec 4) (a : BitVec 8) (b : BitVec 8)
  /-- vcmp.gt (R114). -/
  | vcmpGt (w : Bool) (p : BitVec 4) (a : BitVec 8) (b : BitVec 8)
  /-- vcmp.ord (R114). -/
  | vcmpOrd (w : Bool) (p : BitVec 4) (a : BitVec 8) (b : BitVec 8)
  /-- vcmp.unord (R114). -/
  | vcmpUnord (w : Bool) (p : BitVec 4) (a : BitVec 8) (b : BitVec 8)
  /-- fadd (R117). -/
  | fadd (w : Bool) (d : BitVec 8) (a : BitVec 8) (b : BitVec 8)
  /-- fsub (R117). -/
  | fsub (w : Bool) (d : BitVec 8) (a : BitVec 8) (b : BitVec 8)
  /-- fmul (R117). -/
  | fmul (w : Bool) (d : BitVec 8) (a : BitVec 8) (b : BitVec 8)
  /-- fma (R117). -/
  | fma (w : Bool) (d : BitVec 8) (a : BitVec 8) (b : BitVec 8)
  /-- fmin (R118). -/
  | fmin (w : Bool) (d : BitVec 8) (a : BitVec 8) (b : BitVec 8)
  /-- fmax (R118). -/
  | fmax (w : Bool) (d : BitVec 8) (a : BitVec 8) (b : BitVec 8)
  /-- fun.neg (R119). -/
  | funNeg (w : Bool) (d : BitVec 8) (a : BitVec 8)
  /-- fun.abs (R119). -/
  | funAbs (w : Bool) (d : BitVec 8) (a : BitVec 8)
  /-- fun.sqrt (R119). -/
  | funSqrt (w : Bool) (d : BitVec 8) (a : BitVec 8)
  /-- fun.rint (R119). -/
  | funRint (w : Bool) (d : BitVec 8) (a : BitVec 8)
  /-- cvt (R120). -/
  | cvt (w : Bool) (d : BitVec 8) (a : BitVec 8) (t : BitVec 8)
  /-- sfu.sinpi (R121). -/
  | sfuSinpi (w : Bool) (d : BitVec 8) (a : BitVec 8)
  /-- sfu.cospi (R121). -/
  | sfuCospi (w : Bool) (d : BitVec 8) (a : BitVec 8)
  /-- sfu.exp2 (R121). -/
  | sfuExp2 (w : Bool) (d : BitVec 8) (a : BitVec 8)
  /-- sfu.log2 (R121). -/
  | sfuLog2 (w : Bool) (d : BitVec 8) (a : BitVec 8)
  /-- sfu.rcp (R121). -/
  | sfuRcp (w : Bool) (d : BitVec 8) (a : BitVec 8)
  /-- sfu.rsqrt (R121). -/
  | sfuRsqrt (w : Bool) (d : BitVec 8) (a : BitVec 8)
  /-- vmovi (R113). -/
  | vmovi (w : Bool) (d : BitVec 8) (i : BitVec 16)
  /-- vmovhi (R113). -/
  | vmovhi (w : Bool) (d : BitVec 8) (i : BitVec 16)
  /-- scan.add (R123). -/
  | scanAdd (w : Bool) (d : BitVec 8) (a : BitVec 8)
  /-- scan.min (R123). -/
  | scanMin (w : Bool) (d : BitVec 8) (a : BitVec 8)
  /-- scan.max (R123). -/
  | scanMax (w : Bool) (d : BitVec 8) (a : BitVec 8)
  /-- scan.and (R123). -/
  | scanAnd (w : Bool) (d : BitVec 8) (a : BitVec 8)
  /-- scan.or (R123). -/
  | scanOr (w : Bool) (d : BitVec 8) (a : BitVec 8)
  /-- scan.xor (R123). -/
  | scanXor (w : Bool) (d : BitVec 8) (a : BitVec 8)
  /-- scan.addx (R123). -/
  | scanAddx (w : Bool) (d : BitVec 8) (a : BitVec 8)
  /-- scan.minx (R123). -/
  | scanMinx (w : Bool) (d : BitVec 8) (a : BitVec 8)
  /-- scan.maxx (R123). -/
  | scanMaxx (w : Bool) (d : BitVec 8) (a : BitVec 8)
  /-- scan.andx (R123). -/
  | scanAndx (w : Bool) (d : BitVec 8) (a : BitVec 8)
  /-- scan.orx (R123). -/
  | scanOrx (w : Bool) (d : BitVec 8) (a : BitVec 8)
  /-- scan.xorx (R123). -/
  | scanXorx (w : Bool) (d : BitVec 8) (a : BitVec 8)
  /-- vred.add (R124). -/
  | vredAdd (w : Bool) (d : BitVec 8) (a : BitVec 8)
  /-- vred.min (R124). -/
  | vredMin (w : Bool) (d : BitVec 8) (a : BitVec 8)
  /-- vred.max (R124). -/
  | vredMax (w : Bool) (d : BitVec 8) (a : BitVec 8)
  /-- vred.and (R124). -/
  | vredAnd (w : Bool) (d : BitVec 8) (a : BitVec 8)
  /-- vred.or (R124). -/
  | vredOr (w : Bool) (d : BitVec 8) (a : BitVec 8)
  /-- vred.xor (R124). -/
  | vredXor (w : Bool) (d : BitVec 8) (a : BitVec 8)
  /-- vperm (R125). -/
  | vperm (w : Bool) (d : BitVec 8) (a : BitVec 8) (b : BitVec 8)
  /-- vxshuf (R126). -/
  | vxshuf (w : Bool) (d : BitVec 8) (a : BitVec 8) (b : BitVec 8)
  /-- vbcast (R127). -/
  | vbcast (w : Bool) (d : BitVec 8) (a : BitVec 8) (b : BitVec 8)
  /-- cq.vpop (R129). -/
  | cqVpop (w : Bool) (d : BitVec 8) (a : BitVec 8)
  /-- cq.vpush (R129). -/
  | cqVpush (w : Bool) (d : BitVec 8) (a : BitVec 8)
  /-- cq.hpop (R129). -/
  | cqHpop (w : Bool) (d : BitVec 8)
  /-- cq.hpush (R129). -/
  | cqHpush (w : Bool) (a : BitVec 8)
  /-- vgetr (R128). -/
  | vgetr (w : Bool) (d : BitVec 8) (a : BitVec 8) (b : BitVec 8)
  /-- vsetr (R128). -/
  | vsetr (w : Bool) (d : BitVec 8) (a : BitVec 8) (b : BitVec 8)
  /-- plog.and (R115). -/
  | plogAnd (w : Bool) (d : BitVec 4) (a : BitVec 4) (b : BitVec 4)
  /-- plog.or (R115). -/
  | plogOr (w : Bool) (d : BitVec 4) (a : BitVec 4) (b : BitVec 4)
  /-- plog.xor (R115). -/
  | plogXor (w : Bool) (d : BitVec 4) (a : BitVec 4) (b : BitVec 4)
  /-- plog.andn (R115). -/
  | plogAndn (w : Bool) (d : BitVec 4) (a : BitVec 4) (b : BitVec 4)
  /-- plog.not (R115). -/
  | plogNot (w : Bool) (d : BitVec 4) (a : BitVec 4)
  /-- plog.mov (R115). -/
  | plogMov (w : Bool) (d : BitVec 4) (a : BitVec 4)
  /-- pred.popc (R116). -/
  | predPopc (w : Bool) (d : BitVec 8) (a : BitVec 8)
  /-- pred.any (R116). -/
  | predAny (w : Bool) (d : BitVec 8) (a : BitVec 8)
  /-- pred.all (R116). -/
  | predAll (w : Bool) (d : BitVec 8) (a : BitVec 8)
  /-- pred.first (R116). -/
  | predFirst (w : Bool) (d : BitVec 8) (a : BitVec 8)
  /-- pred.mask (R116). -/
  | predMask (w : Bool) (d : BitVec 8) (a : BitVec 8)
  /-- ld (R189). -/
  | ld (w : Bool) (q : BitVec 6) (b : BitVec 6) (x : BitVec 5) (z : BitVec 2) (r : BitVec 2) (s : BitVec 3)
  /-- st (R190). -/
  | st (w : Bool) (q : BitVec 6) (b : BitVec 6) (x : BitVec 5) (z : BitVec 2) (r : BitVec 2) (s : BitVec 3)
  /-- lds (R191). -/
  | lds (w : Bool) (q : BitVec 6) (b : BitVec 6) (z : BitVec 2) (r : BitVec 2) (s : BitVec 3)
  /-- sts (R191). -/
  | sts (w : Bool) (q : BitVec 6) (b : BitVec 6) (z : BitVec 2) (r : BitVec 2) (s : BitVec 3)
  /-- stc (R191). -/
  | stc (w : Bool) (q : BitVec 6) (b : BitVec 6) (z : BitVec 2) (r : BitVec 2) (s : BitVec 3)
  /-- cld (R189). -/
  | cld (w : Bool) (q : BitVec 6) (b : BitVec 6) (x : BitVec 5) (z : BitVec 2) (r : BitVec 2) (s : BitVec 3)
  /-- cst (R190). -/
  | cst (w : Bool) (q : BitVec 6) (b : BitVec 6) (x : BitVec 5) (z : BitVec 2) (r : BitVec 2) (s : BitVec 3)
  /-- cldf (R193). -/
  | cldf (w : Bool) (q : BitVec 6) (b : BitVec 6) (x : BitVec 5)
  /-- cste (R193). -/
  | cste (w : Bool) (q : BitVec 6) (b : BitVec 6) (x : BitVec 5)
  /-- aadd (R224). -/
  | aadd (w : Bool) (q : BitVec 6) (b : BitVec 6) (x : BitVec 5) (z : BitVec 1) (r : BitVec 2) (s : BitVec 3)
  /-- aswap (R224). -/
  | aswap (w : Bool) (q : BitVec 6) (b : BitVec 6) (x : BitVec 5) (z : BitVec 1) (r : BitVec 2) (s : BitVec 3)
  /-- acas (R224). -/
  | acas (w : Bool) (q : BitVec 6) (b : BitVec 6) (x : BitVec 5) (z : BitVec 1) (r : BitVec 2) (s : BitVec 3)
  /-- amin (R224). -/
  | amin (w : Bool) (q : BitVec 6) (b : BitVec 6) (x : BitVec 5) (z : BitVec 1) (r : BitVec 2) (s : BitVec 3)
  /-- amax (R224). -/
  | amax (w : Bool) (q : BitVec 6) (b : BitVec 6) (x : BitVec 5) (z : BitVec 1) (r : BitVec 2) (s : BitVec 3)
  /-- aor (R224). -/
  | aor (w : Bool) (q : BitVec 6) (b : BitVec 6) (x : BitVec 5) (z : BitVec 1) (r : BitVec 2) (s : BitVec 3)
  /-- aand (R224). -/
  | aand (w : Bool) (q : BitVec 6) (b : BitVec 6) (x : BitVec 5) (z : BitVec 1) (r : BitVec 2) (s : BitVec 3)
  /-- aq.hpush (R197). -/
  | aqHpush (w : Bool) (a : BitVec 8)
  /-- aq.hpop (R197). -/
  | aqHpop (w : Bool) (d : BitVec 8)
  /-- aq.xpop (R197). -/
  | aqXpop (w : Bool) (d : BitVec 8) (a : BitVec 8)
  /-- aq.xpops (R197). -/
  | aqXpops (w : Bool) (d : BitVec 8) (a : BitVec 8)
  /-- aq.eqw (R197). -/
  | aqEqw (w : Bool) (d : BitVec 8) (a : BitVec 8)
  /-- aq.eqr (R197). -/
  | aqEqr (w : Bool) (d : BitVec 8) (a : BitVec 8)
  /-- sync.acq (R230). -/
  | syncAcq (w : Bool) (k : BitVec 1) (s : BitVec 3) (j : BitVec 12)
  /-- sync.rel (R230). -/
  | syncRel (w : Bool) (k : BitVec 1) (s : BitVec 3) (j : BitVec 12)
  /-- sync.fence (R230). -/
  | syncFence (w : Bool) (s : BitVec 3)
  /-- sync.gbar (R231). -/
  | syncGbar (w : Bool) (k : BitVec 1)
  /-- copy.publish (R206). -/
  | copyPublish (w : Bool) (s : BitVec 6) (n : BitVec 10)
  /-- copy.bclose (R203). -/
  | copyBclose (w : Bool) (s : BitVec 6)
  /-- copy.bwait (R203). -/
  | copyBwait (w : Bool) (s : BitVec 6)
  /-- task.spawn (R258). -/
  | taskSpawn (w : Bool) (s : BitVec 6) (k : BitVec 1)
  /-- task.tlwait (R267). -/
  | taskTlwait (w : Bool) (s : BitVec 6) (i : BitVec 10)
  /-- task.tlsig (R267). -/
  | taskTlsig (w : Bool) (s : BitVec 6) (i : BitVec 10)
  /-- task.marm (R207). -/
  | taskMarm (w : Bool) (s : BitVec 6)
  /-- task.mwait (R208). -/
  | taskMwait (w : Bool) (s : BitVec 6)
  /-- task.ddec (R263). -/
  | taskDdec (w : Bool) (s : BitVec 6)
  /-- task.wjoin (R195). -/
  | taskWjoin (w : Bool) (s : BitVec 6) (k : BitVec 1) (t : BitVec 4)
  /-- task.wleave (R195). -/
  | taskWleave (w : Bool) (s : BitVec 6)
  /-- task.cancel (R269). -/
  | taskCancel (w : Bool) (s : BitVec 6) (k : BitVec 1) (l : BitVec 2)
  /-- scout.open (R174). -/
  | scoutOpen (w : Bool) (s : BitVec 6) (n : BitVec 6)
  /-- scout.take (R175). -/
  | scoutTake (w : Bool) (s : BitVec 6) (c : BitVec 1) (k : BitVec 1) (n : BitVec 6)
  /-- scout.close (R176). -/
  | scoutClose (w : Bool) (s : BitVec 6) (n : BitVec 6)
  /-- scout.verdict (R177). -/
  | scoutVerdict (w : Bool) (s : BitVec 6) (k : BitVec 1)
  /-- tree.create (R312). -/
  | treeCreate (w : Bool) (s : BitVec 6)
  /-- tree.fork (R313). -/
  | treeFork (w : Bool) (s : BitVec 6)
  /-- tree.append (R313). -/
  | treeAppend (w : Bool) (s : BitVec 6)
  /-- tree.prune (R314). -/
  | treePrune (w : Bool) (s : BitVec 6)
  /-- tree.commit (R315). -/
  | treeCommit (w : Bool) (s : BitVec 6)
  /-- tree.ahead (R316). -/
  | treeAhead (w : Bool) (s : BitVec 6) (g : BitVec 1) (t : BitVec 1) (k : BitVec 1)
  /-- tree.handover (R317). -/
  | treeHandover (w : Bool) (s : BitVec 6)
  /-- tree.tokrdy (R329). -/
  | treeTokrdy (w : Bool) (s : BitVec 6) (k : BitVec 1)
  /-- tree.destroy (R318). -/
  | treeDestroy (w : Bool) (s : BitVec 6)
  /-- xch.dpost (R298). -/
  | xchDpost (w : Bool) (s : BitVec 6)
  /-- xch.dcal (R298). -/
  | xchDcal (w : Bool) (s : BitVec 6) (k : BitVec 1)
  /-- xch.tsend (R282). -/
  | xchTsend (w : Bool) (s : BitVec 6)
  /-- xch.coll (R285). -/
  | xchColl (w : Bool) (s : BitVec 6)
  /-- xch.rcnt (R298). -/
  | xchRcnt (w : Bool) (s : BitVec 6) (o : BitVec 2) (c : BitVec 8)
  /-- mmul (R146). -/
  | mmul (w : Bool) (d : BitVec 8) (a : BitVec 8) (b : BitVec 8)
  /-- mzero (R147). -/
  | mzero (w : Bool) (d : BitVec 8) (a : BitVec 8)
  /-- mfill (R148). -/
  | mfill (w : Bool) (d : BitVec 8) (a : BitVec 8) (c : BitVec 8)
  /-- mdrain (R148). -/
  | mdrain (w : Bool) (d : BitVec 8) (a : BitVec 8) (c : BitVec 8)
  /-- mfmt (R149). -/
  | mfmt (w : Bool) (d : BitVec 8) (a : BitVec 8)
  /-- msacc (R150). -/
  | msacc (w : Bool) (d : BitVec 8) (a : BitVec 8) (b : BitVec 8)
  /-- SEQ_MBOX (R135). -/
  | seqMbox (w : Bool) (s : BitVec 6)
  /-- SEQ_POST (R136). -/
  | seqPost (w : Bool) (s : BitVec 6)
  /-- SEQ_CLIENT (R135). -/
  | seqClient (w : Bool) (o : CsrOp) (s : BitVec 6)
  /-- VWIN (R40). -/
  | vwin (w : Bool) (o : CsrOp) (s : BitVec 6)
  /-- STATUS_BRK (R354). -/
  | statusBrk (w : Bool) (s : BitVec 6)
  /-- TRAP_MODE (R354). -/
  | trapMode (w : Bool) (o : CsrOp) (s : BitVec 6)
  /-- COPY (R199). -/
  | copy (wave : Nat)
  /-- GATHER (R201). -/
  | gather (wave : Nat)
  /-- COMPLETION (R200). -/
  | completion (wave eng idx : Nat)
  /-- MASK (R320). -/
  | mask (wave : Nat)
  /-- STAT (R179). -/
  | stat (wave : Nat)
  /-- TOL (R179). -/
  | tol (wave : Nat)
  /-- EQ2_WORD (R288). -/
  | eq2Word (wave : Nat)
  /-- EQ5_WORD (R297). -/
  | eq5Word (wave : Nat)
  /-- COLLECTIVE_COMPLETION (R288). -/
  | collectiveCompletion (coll status : Nat)
  /-- EXCHANGE_COMPLETION (R297). -/
  | exchangeCompletion (part group status : Nat)
  /-- FULL_EMPTY_PERFORM (R193). -/
  | fullEmptyPerform (wave : Nat)
  /-- GBAR_DEPARTURE (R231). -/
  | gbarDeparture (unit : Nat)
  /-- ACCESS_ACCEPT (R215). -/
  | accessAccept (id : Nat)
  /-- REPLAY (R211). -/
  | replay (id : Nat)
  /-- ATOMIC_PERFORM (R223). -/
  | atomicPerform (id : Nat)
  /-- ERROR_REPLY (R362). -/
  | errorReply (id : Nat)
  /-- MONITOR_WAKE (R208). -/
  | monitorWake (wave : Nat)
  /-- MWAIT_TIMEOUT (R208). -/
  | mwaitTimeout (wave : Nat)
  /-- COURIER_TOKEN (R278). -/
  | courierToken (core : Nat)
  /-- MIGRATION (R184). -/
  | migration (space va frame : Nat)
  /-- COUNTER_HALVING (R184). -/
  | counterHalving
  /-- TOLERANCE_COMPARE (R167). -/
  | toleranceCompare (cluster stream : Nat)
  /-- COMMIT (R170). -/
  | commit (unit : Nat)
  /-- SQUASH (R171). -/
  | squash (unit : Nat)
  /-- GRAPH_PACKET (R245). -/
  | graphPacket (part queue : Nat)
  /-- TIMELINE_WAIT_PACKET (R245). -/
  | timelineWaitPacket (part queue : Nat)
  /-- TIMELINE_SIGNAL_PACKET (R245). -/
  | timelineSignalPacket (part queue : Nat)
  /-- PHASE_END_PACKET (R245). -/
  | phaseEndPacket (part queue : Nat)
  /-- AGE_INTERVAL (R247). -/
  | ageInterval (part queue : Nat)
  /-- GANG_PLACEMENT (R253). -/
  | gangPlacement (part queue cluster : Nat) (slots : List Nat) (off : Nat)
  /-- SPROUT_PLACEMENT (R257). -/
  | sproutPlacement (part launch cluster slot off : Nat)
  /-- RETIREMENT (R255). -/
  | retirement (unit : Nat)
  /-- NODE_COMPLETION (R261). -/
  | nodeCompletion (part gid node : Nat)
  /-- LAUNCH_COMPLETION (R268). -/
  | launchCompletion (part launch : Nat)
  /-- GRAPH_COMPLETION (R264). -/
  | graphCompletion (part gid : Nat)
  /-- TIMELINE_RELEASE (R266). -/
  | timelineRelease (wave : Nat)
  /-- PREEMPTION_REQUEST (R366). -/
  | preemptionRequest (unit : Nat)
  /-- PREEMPTION_WITHDRAW (R366). -/
  | preemptionWithdraw (unit : Nat)
  /-- DEADLINE (R368). -/
  | deadline (unit : Nat)
  /-- SAVE (R369). -/
  | save (unit : Nat)
  /-- RESTORE (R370). -/
  | restore (unit cluster : Nat) (slots : List Nat)
  /-- HOST_POSTED_WRITE (R273). -/
  | hostPostedWrite (fn addr : Nat) (bytes : List Byte)
  /-- HOST_READ (R273). -/
  | hostRead (fn addr len : Nat)
  /-- TRIGGER_FIRE (R282). -/
  | triggerFire (slot : Nat)
  /-- RECEIVE_COUNTER_ARRIVAL (R279). -/
  | receiveCounterArrival (part counter addr : Nat) (bytes : List Byte)
  /-- CHUNK_ARRIVAL (R289). -/
  | chunkArrival (part group seq chunk rank : Nat) (bytes : List Byte)
  /-- CHUNK_RETRY (R289). -/
  | chunkRetry (part idx : Nat)
  /-- POST (R296). -/
  | post (part group rank : Nat) (p : ExPost)
  /-- POST_TIMEOUT (R296). -/
  | postTimeout (part group : Nat)
  /-- GRANT (R291). -/
  | grant (part group : Nat)
  /-- HEARTBEAT (R296). -/
  | heartbeat (part group : Nat)
  /-- GO (R296). -/
  | go (part group epoch : Nat)
  /-- ARBITER_SILENCE (R296). -/
  | arbiterSilence (part group : Nat)
  /-- QUANTUM_ARRIVAL (R294). -/
  | quantumArrival (part group convoy : Nat) (bytes : List Byte)
  /-- RING_HEAD_ADVANCE (R327). -/
  | ringHeadAdvance (part tree : Nat)
  /-- TOKRDY_RELEASE (R329). -/
  | tokrdyRelease (wave : Nat)
  /-- SPILL (R323). -/
  | spill (part die : Nat)
  /-- PAGE_FETCH (R324). -/
  | pageFetch (part tree page : Nat)
  /-- UNCORRECTABLE_ERROR (R363). -/
  | uncorrectableError (loc : ErrLoc)
  /-- CORRECTED_ERROR (R363). -/
  | correctedError (loc : ErrLoc)
  /-- FLIT_RETRY (R378). -/
  | flitRetry
  /-- RETRAIN (R378). -/
  | retrain
  /-- FEC_RETRY (R378). -/
  | fecRetry (part fibre : Nat)
  /-- FIBRE_REMOVAL (R378). -/
  | fibreRemoval (part fibre : Nat)
  /-- FATAL_ERROR (R379). -/
  | fatalError (die : Nat)
  /-- WARM_RESET (R383). -/
  | warmReset (die : Nat)
  /-- POWER_CAP (R389). -/
  | powerCap (die : Nat)
  /-- THERMAL_TRIP (R389). -/
  | thermalTrip (die : Nat)
  /-- BOOT (R346). -/
  | boot
  /-- SPACE_COMMIT (R341). -/
  | spaceCommit (part space va pages : Nat)
  /-- QUEUE_SET (R343). -/
  | queueSet (part queue addr : Nat)
  /-- QUEUE_STOP (R343). -/
  | queueStop (part queue : Nat)
  /-- TIMELINE_SET (R343). -/
  | timelineSet (part timeline : Nat) (x : W64)
  /-- ARB_READMIT (R343). -/
  | arbReadmit (part group dev : Nat)
  /-- ATTEST (R348). -/
  | attest (part nonce report : Nat)
  /-- TELEMETRY (R390). -/
  | telemetry
  /-- TELEMETRY_REFRESH (R390). -/
  | telemetryRefresh
  /-- SETCAP (R390). -/
  | setcap (watts : Nat)
  /-- DIERESET_BEGIN (R390). -/
  | dieresetBegin (die : Nat)
  /-- DIERESET_QUERY (R390). -/
  | dieresetQuery (die : Nat)
  /-- DIEOFF (R390). -/
  | dieoff (die : Nat)
  /-- BOOTSTAT (R390). -/
  | bootstat
  /-- STOP (R376). -/
  | stop (part launch pos : Nat)
  /-- RESUME (R377). -/
  | resume (part launch pos : Nat)
  /-- STEP (R377). -/
  | step (part launch pos strand : Nat)
  /-- RELEASE (R377). -/
  | release (part launch pos : Nat)
  /-- SELECT (R392). -/
  | select (part die i : Nat) (x : W64)
  /-- VALUE (R392). -/
  | value (part die i : Nat) (x : W64)
  /-- FREEZE (R392). -/
  | freeze (part die : Nat) (x : W64)
  /-- TILE_STEP (R143). -/
  | tileStep (cluster idx : Nat)
  /-- LINK_RETRAINED (R378). -/
  | linkRetrained (ok : Bool)
  /-- POWER_BELOW_CAP (R389). -/
  | powerBelowCap (die : Nat)
  /-- PARTITION_START (R347). -/
  | partitionStart (part image : Nat)
  /-- PARTITION_TEARDOWN (R335). -/
  | partitionTeardown (part : Nat)
  deriving DecidableEq, Repr

end Sys2Proof
end

