-- ==== Sys2Proof/WellFormed.lean ====
section
/-! DEFINITION. The field limits of each instruction (R11, R29, R36, R42, R130, R151, R178, R186, R225, R232, R270,
R299, R310, R355): the checks that R39 makes last, for the strand kind that executes the word. -/

namespace Sys2Proof

/-- Control register `n` is assigned in a strand of kind `k` (R134, R353). -/
def csrAssigned (k : StrandKind) (n : Nat) : Bool :=
  let common := decide (n < 0x20) || (decide (0x50 ≤ n) && decide (n ≤ 0x53)) || n == 0x55 || n == 0x56 || n == 0x58
    || n == 0x5A || n == 0x60
  match k with
  | .access => common || n == 0x20 || n == 0x40 || n == 0x41 || n == 0x54 || n == 0x59
  | .compute => common || n == 0x20 || n == 0x21 || n == 0x40 || n == 0x54
  | .seq => common || (decide (0x1C0 ≤ n) && decide (n ≤ 0x1C4))

/-- A scalar register number (R29). -/
def okS (x : BitVec 8) : Bool := decide (x.toNat ≤ 63)
/-- An address vector, tile or similar number up to 31 (R29). -/
def okX (x : BitVec 8) : Bool := decide (x.toNat ≤ 31)
/-- A shape-record pair or scale pair: even, 2 to 62 (R11, R151). -/
def okPair (x : BitVec 8) : Bool := decide (x.toNat % 2 = 0) && decide (2 ≤ x.toNat) && decide (x.toNat ≤ 62)
/-- The mode word values that MODE accepts (R36). -/
def okMode (m : BitVec 16) : Bool :=
  decide ((m.extractLsb' 8 4).toNat ≤ 8) && decide ((m.extractLsb' 5 3).toNat ≤ 4) && (m.extractLsb' 0 3 == 0#3)
/-- ord and scope of a memory form: the ord values it lists, scope up to `top`, and no scope without an ord (R29, R186). -/
def okOrd (plainOnly relForm acqForm : Bool) (top : Nat) (r : BitVec 2) (s : BitVec 3) : Bool :=
  decide (s.toNat ≤ top) && (r == 0#2 || (!plainOnly && ((acqForm && r == 1#2) || (relForm && r == 2#2)
    || (acqForm && relForm && r == 3#2)))) && (r != 0#2 || s == 0#3)
/-- A queue code 0 to 7, lq0 to lq7 (R185). -/
def okLq (q : BitVec 6) : Bool := decide (q.toNat ≤ 7)
/-- A queue code 8 to 11, wq0 to wq3 (R185). -/
def okWq (q : BitVec 6) : Bool := decide (8 ≤ q.toNat) && decide (q.toNat ≤ 11)

/-- The field limits of an instruction for a strand of kind `k`. A step that is no instruction word has none. -/
def Instr.wf (k : StrandKind) : Instr → Bool
  | .add _ d a b => okS d && okS a && okS b
  | .sub _ d a b => okS d && okS a && okS b
  | .mul _ d a b => okS d && okS a && okS b
  | .mulh _ d a b => okS d && okS a && okS b
  | .mulhu _ d a b => okS d && okS a && okS b
  | .and _ d a b => okS d && okS a && okS b
  | .or _ d a b => okS d && okS a && okS b
  | .xor _ d a b => okS d && okS a && okS b
  | .sll _ d a b => okS d && okS a && okS b
  | .srl _ d a b => okS d && okS a && okS b
  | .sra _ d a b => okS d && okS a && okS b
  | .slt _ d a b => okS d && okS a && okS b
  | .sltu _ d a b => okS d && okS a && okS b
  | .div _ d a b => okS d && okS a && okS b
  | .divu _ d a b => okS d && okS a && okS b
  | .rem _ d a b => okS d && okS a && okS b
  | .addi _ d _ => okS d
  | .movi _ d _ => okS d
  | .orhi _ d _ => okS d
  | .andi _ d _ => okS d
  | .remu _ d _ => okS d
  | .sunClz _ d a => okS d && okS a
  | .sunCtz _ d a => okS d && okS a
  | .sunPopc _ d a => okS d && okS a
  | .sunSext8 _ d a => okS d && okS a
  | .sunSext16 _ d a => okS d && okS a
  | .sunSext32 _ d a => okS d && okS a
  | .sunZext8 _ d a => okS d && okS a
  | .sunZext16 _ d a => okS d && okS a
  | .sunZext32 _ d a => okS d && okS a
  | .sunNeg _ d a => okS d && okS a
  | .sunNot _ d a => okS d && okS a
  | .beq _ _ _ _ => true
  | .bne _ _ _ _ => true
  | .blt _ _ _ _ => true
  | .bge _ _ _ _ => true
  | .bltu _ _ _ _ => true
  | .bgeu _ _ _ _ => true
  | .loop _ _ n _ => (k == .compute || n == 0#6)
  | .jmp _ _ => true
  | .call _ _ => true
  | .jr _ d a => okS d && okS a
  | .mode _ i => okMode i
  | .sysNop _ => true
  | .sysTrap _ _ => true
  | .sysRet _ => true
  | .sysCsrr _ _ c => csrAssigned k c.toNat && c != 0x1C0#10
  | .sysCsrw _ _ c => csrAssigned k c.toNat && c != 0x1C1#10 && c != 0x1C2#10 && c != 0x021#10 && c != 0x054#10
  | .sysCsrs _ _ c => csrAssigned k c.toNat && c != 0x1C2#10 && c != 0x021#10 && c != 0x054#10
  | .sysCsrc _ _ c => csrAssigned k c.toNat && c != 0x1C2#10 && c != 0x021#10 && c != 0x054#10 && c != 0x041#10
  | .sysYield _ => true
  | .xadd _ d a b => okX d && okX a && okX b
  | .xaddsc _ d a b => okX d && okX a && okS b
  | .xmulsc _ d a b => okX d && okX a && okS b
  | .xshl _ d a b => okX d && okX a && okS b
  | .xiota _ d a b => okX d && okS a && okS b
  | .xcmpEq _ _ a b => okX a && okX b
  | .xcmpNe _ _ a b => okX a && okX b
  | .xcmpLt _ _ a b => okX a && okX b
  | .xcmpGe _ _ a b => okX a && okX b
  | .xcmpLtu _ _ a b => okX a && okX b
  | .xcmpGeu _ _ a b => okX a && okX b
  | .vadd _ _ _ _ => true
  | .vsub _ _ _ _ => true
  | .vmul _ _ _ _ => true
  | .vmulh _ _ _ _ => true
  | .vmin _ _ _ _ => true
  | .vmax _ _ _ _ => true
  | .vand _ _ _ _ => true
  | .vor _ _ _ _ => true
  | .vxor _ _ _ _ => true
  | .vshl _ _ _ _ => true
  | .vshr _ _ _ _ => true
  | .vabsd _ _ _ _ => true
  | .vmac _ _ _ _ => true
  | .vsel _ _ _ _ => true
  | .vunClz _ _ _ => true
  | .vunFfs _ _ _ => true
  | .vunPopc _ _ _ => true
  | .vunNeg _ _ _ => true
  | .vunAbs _ _ _ => true
  | .vunNot _ _ _ => true
  | .vunMov _ _ _ => true
  | .vcmpEq _ _ _ _ => true
  | .vcmpNe _ _ _ _ => true
  | .vcmpLt _ _ _ _ => true
  | .vcmpGe _ _ _ _ => true
  | .vcmpLe _ _ _ _ => true
  | .vcmpGt _ _ _ _ => true
  | .vcmpOrd _ _ _ _ => true
  | .vcmpUnord _ _ _ _ => true
  | .fadd _ _ _ _ => true
  | .fsub _ _ _ _ => true
  | .fmul _ _ _ _ => true
  | .fma _ _ _ _ => true
  | .fmin _ _ _ _ => true
  | .fmax _ _ _ _ => true
  | .funNeg _ _ _ => true
  | .funAbs _ _ _ => true
  | .funSqrt _ _ _ => true
  | .funRint _ _ _ => true
  | .cvt _ _ _ t => decide (t.toNat ≤ 8)
  | .sfuSinpi _ _ _ => true
  | .sfuCospi _ _ _ => true
  | .sfuExp2 _ _ _ => true
  | .sfuLog2 _ _ _ => true
  | .sfuRcp _ _ _ => true
  | .sfuRsqrt _ _ _ => true
  | .vmovi _ _ _ => true
  | .vmovhi _ _ _ => true
  | .scanAdd _ _ _ => true
  | .scanMin _ _ _ => true
  | .scanMax _ _ _ => true
  | .scanAnd _ _ _ => true
  | .scanOr _ _ _ => true
  | .scanXor _ _ _ => true
  | .scanAddx _ _ _ => true
  | .scanMinx _ _ _ => true
  | .scanMaxx _ _ _ => true
  | .scanAndx _ _ _ => true
  | .scanOrx _ _ _ => true
  | .scanXorx _ _ _ => true
  | .vredAdd _ d _ => okS d
  | .vredMin _ d _ => okS d
  | .vredMax _ d _ => okS d
  | .vredAnd _ d _ => okS d
  | .vredOr _ d _ => okS d
  | .vredXor _ d _ => okS d
  | .vperm _ _ _ _ => true
  | .vxshuf _ _ _ b => okS b
  | .vbcast _ _ a b => okS a && okS b
  | .cqVpop _ _ a => decide (a.toNat ≤ 7)
  | .cqVpush _ d _ => decide (d.toNat ≤ 3)
  | .cqHpop _ d => okS d
  | .cqHpush _ a => okS a
  | .vgetr _ _ _ _ => true
  | .vsetr _ _ _ _ => true
  | .plogAnd _ _ _ _ => true
  | .plogOr _ _ _ _ => true
  | .plogXor _ _ _ _ => true
  | .plogAndn _ _ _ _ => true
  | .plogNot _ _ _ => true
  | .plogMov _ _ _ => true
  | .predPopc _ d a => okS d && decide (a.toNat ≤ 15)
  | .predAny _ d a => okS d && decide (a.toNat ≤ 15)
  | .predAll _ d a => okS d && decide (a.toNat ≤ 15)
  | .predFirst _ d a => okS d && decide (a.toNat ≤ 15)
  | .predMask _ d a => okS d && decide (a.toNat ≤ 15)
  | .ld _ q _ _ z r s => okLq q && decide (z.toNat ≤ 2) && okOrd false false true 5 r s
  | .st _ q _ _ z r s => okWq q && decide (z.toNat ≤ 2) && okOrd false true false 5 r s
  | .lds _ _ _ _ r s => okOrd false false true 5 r s
  | .sts _ _ _ _ r s => okOrd false true false 5 r s
  | .stc _ _ _ _ r s => okOrd false true false 5 r s
  | .cld _ q _ _ z r s => okLq q && decide (z.toNat ≤ 2) && okOrd false false true 2 r s
  | .cst _ q _ _ z r s => okWq q && decide (z.toNat ≤ 2) && okOrd false true false 2 r s
  | .cldf _ q _ _ => okLq q
  | .cste _ q _ _ => okWq q
  | .aadd _ _ _ _ _ r s => okOrd false true true 5 r s
  | .aswap _ _ _ _ _ r s => okOrd false true true 5 r s
  | .acas _ _ _ _ _ r s => okOrd false true true 5 r s
  | .amin _ _ _ _ _ r s => okOrd false true true 5 r s
  | .amax _ _ _ _ _ r s => okOrd false true true 5 r s
  | .aor _ _ _ _ _ r s => okOrd false true true 5 r s
  | .aand _ _ _ _ _ r s => okOrd false true true 5 r s
  | .aqHpush _ a => okS a
  | .aqHpop _ d => okS d
  | .aqXpop _ d a => okX d && decide (a.toNat ≤ 3)
  | .aqXpops _ d a => okX d && decide (a.toNat ≤ 3)
  | .aqEqw _ d a => decide (d.toNat ≤ 6) && okS a
  | .aqEqr _ d a => okS d && decide (a.toNat ≤ 6)
  | .syncAcq _ k s j => decide (s.toNat ≤ 5) && (k == 0#1 || (decide (s.toNat ≤ 2) && j == 0#12))
  | .syncRel _ k s j => decide (s.toNat ≤ 5) && (k == 0#1 || (decide (s.toNat ≤ 2) && j == 0#12))
  | .syncFence _ s => decide (s.toNat ≤ 5)
  | .syncGbar _ _ => true
  | .copyPublish _ _ _ => true
  | .copyBclose _ _ => true
  | .copyBwait _ _ => true
  | .taskSpawn _ _ _ => true
  | .taskTlwait _ _ _ => true
  | .taskTlsig _ _ _ => true
  | .taskMarm _ _ => true
  | .taskMwait _ _ => true
  | .taskDdec _ _ => true
  | .taskWjoin _ _ _ _ => true
  | .taskWleave _ _ => true
  | .taskCancel _ _ _ _ => true
  | .scoutOpen _ _ _ => true
  | .scoutTake _ _ _ _ _ => true
  | .scoutClose _ _ _ => true
  | .scoutVerdict _ _ _ => true
  | .treeCreate _ _ => true
  | .treeFork _ _ => true
  | .treeAppend _ _ => true
  | .treePrune _ _ => true
  | .treeCommit _ _ => true
  | .treeAhead _ _ _ _ _ => true
  | .treeHandover _ _ => true
  | .treeTokrdy _ _ _ => true
  | .treeDestroy _ _ => true
  | .xchDpost _ _ => true
  | .xchDcal _ _ _ => true
  | .xchTsend _ _ => true
  | .xchColl _ _ => true
  | .xchRcnt _ _ o _ => decide (o.toNat ≤ 2)
  | .mmul _ d a b => okX d && okPair a && okPair b
  | .mzero _ d a => okX d && okX a && decide (d.toNat ≤ a.toNat)
  | .mfill _ d a c => okX d && okPair a && (c == 0#8 || c == 8#8)
  | .mdrain _ d a c => okX d && okPair a && (decide (c.toNat ≤ 4) || c == 8#8)
  | .mfmt _ d a => decide (d.toNat ≤ 7) && okS a
  | .msacc _ d a b => okX d && okX a && okPair b
  | .seqMbox _ _ => k == .seq
  | .seqPost _ _ => k == .seq
  | .seqClient _ _ _ => k == .seq
  | .vwin _ _ _ => k == .compute
  | .statusBrk _ _ => k == .access
  | .trapMode _ _ _ => k == .access || k == .compute
  | .copy _ => true
  | .gather _ => true
  | .completion _ _ _ => true
  | .mask _ => true
  | .stat _ => true
  | .tol _ => true
  | .eq2Word _ => true
  | .eq5Word _ => true
  | .collectiveCompletion _ _ => true
  | .exchangeCompletion _ _ _ => true
  | .fullEmptyPerform _ => true
  | .gbarDeparture _ => true
  | .accessAccept _ => true
  | .replay _ => true
  | .atomicPerform _ => true
  | .errorReply _ => true
  | .monitorWake _ => true
  | .mwaitTimeout _ => true
  | .courierToken _ => true
  | .migration _ _ _ => true
  | .counterHalving => true
  | .toleranceCompare _ _ => true
  | .commit _ => true
  | .squash _ => true
  | .graphPacket _ _ => true
  | .timelineWaitPacket _ _ => true
  | .timelineSignalPacket _ _ => true
  | .phaseEndPacket _ _ => true
  | .ageInterval _ _ => true
  | .gangPlacement _ _ _ _ _ => true
  | .sproutPlacement _ _ _ _ _ => true
  | .retirement _ => true
  | .nodeCompletion _ _ _ => true
  | .launchCompletion _ _ => true
  | .graphCompletion _ _ => true
  | .timelineRelease _ => true
  | .preemptionRequest _ => true
  | .preemptionWithdraw _ => true
  | .deadline _ => true
  | .save _ => true
  | .restore _ _ _ => true
  | .hostPostedWrite _ _ _ => true
  | .hostRead _ _ _ => true
  | .triggerFire _ => true
  | .receiveCounterArrival _ _ _ _ => true
  | .chunkArrival _ _ _ _ _ _ => true
  | .chunkRetry _ _ => true
  | .post _ _ _ _ => true
  | .postTimeout _ _ => true
  | .grant _ _ => true
  | .heartbeat _ _ => true
  | .go _ _ _ => true
  | .arbiterSilence _ _ => true
  | .quantumArrival _ _ _ _ => true
  | .ringHeadAdvance _ _ => true
  | .tokrdyRelease _ => true
  | .spill _ _ => true
  | .pageFetch _ _ _ => true
  | .uncorrectableError _ => true
  | .correctedError _ => true
  | .flitRetry => true
  | .retrain => true
  | .fecRetry _ _ => true
  | .fibreRemoval _ _ => true
  | .fatalError _ => true
  | .warmReset _ => true
  | .powerCap _ => true
  | .thermalTrip _ => true
  | .boot => true
  | .spaceCommit _ _ _ _ => true
  | .queueSet _ _ _ => true
  | .queueStop _ _ => true
  | .timelineSet _ _ _ => true
  | .arbReadmit _ _ _ => true
  | .attest _ _ _ => true
  | .telemetry => true
  | .telemetryRefresh => true
  | .setcap _ => true
  | .dieresetBegin _ => true
  | .dieresetQuery _ => true
  | .dieoff _ => true
  | .bootstat => true
  | .stop _ _ _ => true
  | .resume _ _ _ => true
  | .step _ _ _ _ => true
  | .release _ _ _ => true
  | .select _ _ _ _ => true
  | .value _ _ _ _ => true
  | .freeze _ _ _ => true
  | .tileStep _ _ => true
  | .linkRetrained _ => true
  | .powerBelowCap _ => true
  | .partitionStart _ _ => true
  | .partitionTeardown _ => true

/-- The field limits hold for some strand kind. -/
def Instr.wellFormed (i : Instr) : Bool := i.wf .access || i.wf .compute || i.wf .seq

end Sys2Proof
end

