-- ==== Sys2Proof/Decode.lean ====
section
/-! DEFINITION. Decoding of an instruction word (R27, R28, R37, R38), the order of the decode checks (R39), and after it
the encoder, from the same tables. -/

namespace Sys2Proof

/-- The two causes of the illegal-instruction trap (R39). -/
inductive DecodeCause where
  | unassigned
  | wrongStrand
  deriving DecidableEq, Repr

/-- The primary opcode, bits 30:24 (R27). -/
def opOf (w : BitVec 32) : Nat := (w.extractLsb' 24 7).toNat

/-- The strands that may execute a primary opcode: access, compute, sequencer; all false where it is unassigned (R37). -/
def opStrands (op : Nat) : Bool × Bool × Bool :=
  if op ≤ 0x14 then (true, true, true)
  else if op = 0x16 then (true, true, true)
  else if 0x18 ≤ op ∧ op ≤ 0x21 then (true, true, true)
  else if op = 0x22 then (true, true, false)
  else if op = 0x23 then (true, true, true)
  else if 0x24 ≤ op ∧ op ≤ 0x29 then (true, false, false)
  else if 0x30 ≤ op ∧ op ≤ 0x4A then (false, true, false)
  else if 0x50 ≤ op ∧ op ≤ 0x59 then (false, true, false)
  else if 0x60 ≤ op ∧ op ≤ 0x76 then (true, false, false)
  else if 0x78 ≤ op ∧ op ≤ 0x7D then (false, false, true)
  else (false, false, false)

/-- Check 1 of R39: the opcode is assigned. -/
def opAssigned (op : Nat) : Bool := (opStrands op).1 || (opStrands op).2.1 || (opStrands op).2.2

/-- Check 2 of R39: the opcode is assigned to the strand's kind. -/
def opAllowed (op : Nat) : StrandKind → Bool
  | .access => (opStrands op).1
  | .compute => (opStrands op).2.1
  | .seq => (opStrands op).2.2

/-- Check 4 of R39 (R13): a vector load that names a wq, or a vector store that names an lq. Such a qr is outside the op's queue range as
well (R186), which check 5 would find. DEDUCED, unsafe (log entry 5). -/
def queueDirectionBad (w : BitVec 32) : Bool :=
  let op := opOf w
  let q := (w.extractLsb' 18 6).toNat
  if op = 0x60 ∨ op = 0x65 ∨ op = 0x67 then decide (8 ≤ q ∧ q ≤ 11)
  else if op = 0x61 ∨ op = 0x66 ∨ op = 0x68 then decide (q < 8)
  else false

/-- The words of primary opcode 0x00 (R37, R38). -/
def decodeOp00 (w : BitVec 32) : Option Instr :=
  some (.add (w.getLsbD 31) (w.extractLsb' 16 8) (w.extractLsb' 8 8) (w.extractLsb' 0 8))

/-- The words of primary opcode 0x01 (R37, R38). -/
def decodeOp01 (w : BitVec 32) : Option Instr :=
  some (.sub (w.getLsbD 31) (w.extractLsb' 16 8) (w.extractLsb' 8 8) (w.extractLsb' 0 8))

/-- The words of primary opcode 0x02 (R37, R38). -/
def decodeOp02 (w : BitVec 32) : Option Instr :=
  some (.mul (w.getLsbD 31) (w.extractLsb' 16 8) (w.extractLsb' 8 8) (w.extractLsb' 0 8))

/-- The words of primary opcode 0x03 (R37, R38). -/
def decodeOp03 (w : BitVec 32) : Option Instr :=
  some (.mulh (w.getLsbD 31) (w.extractLsb' 16 8) (w.extractLsb' 8 8) (w.extractLsb' 0 8))

/-- The words of primary opcode 0x04 (R37, R38). -/
def decodeOp04 (w : BitVec 32) : Option Instr :=
  some (.mulhu (w.getLsbD 31) (w.extractLsb' 16 8) (w.extractLsb' 8 8) (w.extractLsb' 0 8))

/-- The words of primary opcode 0x05 (R37, R38). -/
def decodeOp05 (w : BitVec 32) : Option Instr :=
  some (.and (w.getLsbD 31) (w.extractLsb' 16 8) (w.extractLsb' 8 8) (w.extractLsb' 0 8))

/-- The words of primary opcode 0x06 (R37, R38). -/
def decodeOp06 (w : BitVec 32) : Option Instr :=
  some (.or (w.getLsbD 31) (w.extractLsb' 16 8) (w.extractLsb' 8 8) (w.extractLsb' 0 8))

/-- The words of primary opcode 0x07 (R37, R38). -/
def decodeOp07 (w : BitVec 32) : Option Instr :=
  some (.xor (w.getLsbD 31) (w.extractLsb' 16 8) (w.extractLsb' 8 8) (w.extractLsb' 0 8))

/-- The words of primary opcode 0x08 (R37, R38). -/
def decodeOp08 (w : BitVec 32) : Option Instr :=
  some (.sll (w.getLsbD 31) (w.extractLsb' 16 8) (w.extractLsb' 8 8) (w.extractLsb' 0 8))

/-- The words of primary opcode 0x09 (R37, R38). -/
def decodeOp09 (w : BitVec 32) : Option Instr :=
  some (.srl (w.getLsbD 31) (w.extractLsb' 16 8) (w.extractLsb' 8 8) (w.extractLsb' 0 8))

/-- The words of primary opcode 0x0A (R37, R38). -/
def decodeOp0A (w : BitVec 32) : Option Instr :=
  some (.sra (w.getLsbD 31) (w.extractLsb' 16 8) (w.extractLsb' 8 8) (w.extractLsb' 0 8))

/-- The words of primary opcode 0x0B (R37, R38). -/
def decodeOp0B (w : BitVec 32) : Option Instr :=
  some (.slt (w.getLsbD 31) (w.extractLsb' 16 8) (w.extractLsb' 8 8) (w.extractLsb' 0 8))

/-- The words of primary opcode 0x0C (R37, R38). -/
def decodeOp0C (w : BitVec 32) : Option Instr :=
  some (.sltu (w.getLsbD 31) (w.extractLsb' 16 8) (w.extractLsb' 8 8) (w.extractLsb' 0 8))

/-- The words of primary opcode 0x0D (R37, R38). -/
def decodeOp0D (w : BitVec 32) : Option Instr :=
  some (.div (w.getLsbD 31) (w.extractLsb' 16 8) (w.extractLsb' 8 8) (w.extractLsb' 0 8))

/-- The words of primary opcode 0x0E (R37, R38). -/
def decodeOp0E (w : BitVec 32) : Option Instr :=
  some (.divu (w.getLsbD 31) (w.extractLsb' 16 8) (w.extractLsb' 8 8) (w.extractLsb' 0 8))

/-- The words of primary opcode 0x0F (R37, R38). -/
def decodeOp0F (w : BitVec 32) : Option Instr :=
  some (.rem (w.getLsbD 31) (w.extractLsb' 16 8) (w.extractLsb' 8 8) (w.extractLsb' 0 8))

/-- The words of primary opcode 0x10 (R37, R38). -/
def decodeOp10 (w : BitVec 32) : Option Instr :=
  some (.addi (w.getLsbD 31) (w.extractLsb' 16 8) (w.extractLsb' 0 16))

/-- The words of primary opcode 0x11 (R37, R38). -/
def decodeOp11 (w : BitVec 32) : Option Instr :=
  some (.movi (w.getLsbD 31) (w.extractLsb' 16 8) (w.extractLsb' 0 16))

/-- The words of primary opcode 0x12 (R37, R38). -/
def decodeOp12 (w : BitVec 32) : Option Instr :=
  some (.orhi (w.getLsbD 31) (w.extractLsb' 16 8) (w.extractLsb' 0 16))

/-- The words of primary opcode 0x13 (R37, R38). -/
def decodeOp13 (w : BitVec 32) : Option Instr :=
  some (.andi (w.getLsbD 31) (w.extractLsb' 16 8) (w.extractLsb' 0 16))

/-- The words of primary opcode 0x14 (R37, R38). -/
def decodeOp14 (w : BitVec 32) : Option Instr :=
  some (.remu (w.getLsbD 31) (w.extractLsb' 16 8) (w.extractLsb' 0 16))

/-- The words of primary opcode 0x16 (R37, R38). -/
def decodeOp16 (w : BitVec 32) : Option Instr :=
  if w.extractLsb' 0 8 = 0x0#8 then some (.sunClz (w.getLsbD 31) (w.extractLsb' 16 8) (w.extractLsb' 8 8)) else
  if w.extractLsb' 0 8 = 0x1#8 then some (.sunCtz (w.getLsbD 31) (w.extractLsb' 16 8) (w.extractLsb' 8 8)) else
  if w.extractLsb' 0 8 = 0x2#8 then some (.sunPopc (w.getLsbD 31) (w.extractLsb' 16 8) (w.extractLsb' 8 8)) else
  if w.extractLsb' 0 8 = 0x3#8 then some (.sunSext8 (w.getLsbD 31) (w.extractLsb' 16 8) (w.extractLsb' 8 8)) else
  if w.extractLsb' 0 8 = 0x4#8 then some (.sunSext16 (w.getLsbD 31) (w.extractLsb' 16 8) (w.extractLsb' 8 8)) else
  if w.extractLsb' 0 8 = 0x5#8 then some (.sunSext32 (w.getLsbD 31) (w.extractLsb' 16 8) (w.extractLsb' 8 8)) else
  if w.extractLsb' 0 8 = 0x6#8 then some (.sunZext8 (w.getLsbD 31) (w.extractLsb' 16 8) (w.extractLsb' 8 8)) else
  if w.extractLsb' 0 8 = 0x7#8 then some (.sunZext16 (w.getLsbD 31) (w.extractLsb' 16 8) (w.extractLsb' 8 8)) else
  if w.extractLsb' 0 8 = 0x8#8 then some (.sunZext32 (w.getLsbD 31) (w.extractLsb' 16 8) (w.extractLsb' 8 8)) else
  if w.extractLsb' 0 8 = 0x9#8 then some (.sunNeg (w.getLsbD 31) (w.extractLsb' 16 8) (w.extractLsb' 8 8)) else
  if w.extractLsb' 0 8 = 0xa#8 then some (.sunNot (w.getLsbD 31) (w.extractLsb' 16 8) (w.extractLsb' 8 8)) else
  none

/-- The words of primary opcode 0x18 (R37, R38). -/
def decodeOp18 (w : BitVec 32) : Option Instr :=
  some (.beq (w.getLsbD 31) (w.extractLsb' 18 6) (w.extractLsb' 12 6) (w.extractLsb' 0 12))

/-- The words of primary opcode 0x19 (R37, R38). -/
def decodeOp19 (w : BitVec 32) : Option Instr :=
  some (.bne (w.getLsbD 31) (w.extractLsb' 18 6) (w.extractLsb' 12 6) (w.extractLsb' 0 12))

/-- The words of primary opcode 0x1A (R37, R38). -/
def decodeOp1A (w : BitVec 32) : Option Instr :=
  some (.blt (w.getLsbD 31) (w.extractLsb' 18 6) (w.extractLsb' 12 6) (w.extractLsb' 0 12))

/-- The words of primary opcode 0x1B (R37, R38). -/
def decodeOp1B (w : BitVec 32) : Option Instr :=
  some (.bge (w.getLsbD 31) (w.extractLsb' 18 6) (w.extractLsb' 12 6) (w.extractLsb' 0 12))

/-- The words of primary opcode 0x1C (R37, R38). -/
def decodeOp1C (w : BitVec 32) : Option Instr :=
  some (.bltu (w.getLsbD 31) (w.extractLsb' 18 6) (w.extractLsb' 12 6) (w.extractLsb' 0 12))

/-- The words of primary opcode 0x1D (R37, R38). -/
def decodeOp1D (w : BitVec 32) : Option Instr :=
  some (.bgeu (w.getLsbD 31) (w.extractLsb' 18 6) (w.extractLsb' 12 6) (w.extractLsb' 0 12))

/-- The words of primary opcode 0x1E (R37, R38). -/
def decodeOp1E (w : BitVec 32) : Option Instr :=
  some (.loop (w.getLsbD 31) (w.extractLsb' 18 6) (w.extractLsb' 12 6) (w.extractLsb' 0 12))

/-- The words of primary opcode 0x1F (R37, R38). -/
def decodeOp1F (w : BitVec 32) : Option Instr :=
  some (.jmp (w.getLsbD 31) (w.extractLsb' 0 24))

/-- The words of primary opcode 0x20 (R37, R38). -/
def decodeOp20 (w : BitVec 32) : Option Instr :=
  some (.call (w.getLsbD 31) (w.extractLsb' 0 24))

/-- The words of primary opcode 0x21 (R37, R38). -/
def decodeOp21 (w : BitVec 32) : Option Instr :=
  if w.extractLsb' 0 8 = 0x0#8 then some (.jr (w.getLsbD 31) (w.extractLsb' 16 8) (w.extractLsb' 8 8)) else
  none

/-- The words of primary opcode 0x22 (R37, R38). -/
def decodeOp22 (w : BitVec 32) : Option Instr :=
  if w.extractLsb' 16 8 = 0x0#8 then some (.mode (w.getLsbD 31) (w.extractLsb' 0 16)) else
  none

/-- The words of primary opcode 0x23 (R37, R38). -/
def decodeOp23 (w : BitVec 32) : Option Instr :=
  if w.extractLsb' 0 24 = 0x0#24 then some (.sysNop (w.getLsbD 31)) else
  if w.extractLsb' 16 8 = 0x1#8 then some (.sysTrap (w.getLsbD 31) (w.extractLsb' 0 16)) else
  if w.extractLsb' 0 24 = 0x20000#24 then some (.sysRet (w.getLsbD 31)) else
  if w.extractLsb' 16 8 = 0x3#8 ∧ w.extractLsb' 0 10 = 0x1C0#10 then some (.seqMbox (w.getLsbD 31) (w.extractLsb' 10 6)) else
  if w.extractLsb' 16 8 = 0x3#8 then some (.sysCsrr (w.getLsbD 31) (w.extractLsb' 10 6) (w.extractLsb' 0 10)) else
  if w.extractLsb' 16 8 = 0x4#8 ∧ w.extractLsb' 0 10 = 0x1C1#10 then some (.seqPost (w.getLsbD 31) (w.extractLsb' 10 6)) else
  if w.extractLsb' 16 8 = 0x4#8 ∧ w.extractLsb' 0 10 = 0x1C2#10 then some (.seqClient (w.getLsbD 31) .write (w.extractLsb' 10 6)) else
  if w.extractLsb' 16 8 = 0x4#8 ∧ w.extractLsb' 0 10 = 0x021#10 then some (.vwin (w.getLsbD 31) .write (w.extractLsb' 10 6)) else
  if w.extractLsb' 16 8 = 0x4#8 ∧ w.extractLsb' 0 10 = 0x054#10 then some (.trapMode (w.getLsbD 31) .write (w.extractLsb' 10 6)) else
  if w.extractLsb' 16 8 = 0x4#8 then some (.sysCsrw (w.getLsbD 31) (w.extractLsb' 10 6) (w.extractLsb' 0 10)) else
  if w.extractLsb' 16 8 = 0x5#8 ∧ w.extractLsb' 0 10 = 0x1C2#10 then some (.seqClient (w.getLsbD 31) .set (w.extractLsb' 10 6)) else
  if w.extractLsb' 16 8 = 0x5#8 ∧ w.extractLsb' 0 10 = 0x021#10 then some (.vwin (w.getLsbD 31) .set (w.extractLsb' 10 6)) else
  if w.extractLsb' 16 8 = 0x5#8 ∧ w.extractLsb' 0 10 = 0x054#10 then some (.trapMode (w.getLsbD 31) .set (w.extractLsb' 10 6)) else
  if w.extractLsb' 16 8 = 0x5#8 then some (.sysCsrs (w.getLsbD 31) (w.extractLsb' 10 6) (w.extractLsb' 0 10)) else
  if w.extractLsb' 16 8 = 0x6#8 ∧ w.extractLsb' 0 10 = 0x1C2#10 then some (.seqClient (w.getLsbD 31) .clear (w.extractLsb' 10 6)) else
  if w.extractLsb' 16 8 = 0x6#8 ∧ w.extractLsb' 0 10 = 0x021#10 then some (.vwin (w.getLsbD 31) .clear (w.extractLsb' 10 6)) else
  if w.extractLsb' 16 8 = 0x6#8 ∧ w.extractLsb' 0 10 = 0x054#10 then some (.trapMode (w.getLsbD 31) .clear (w.extractLsb' 10 6)) else
  if w.extractLsb' 16 8 = 0x6#8 ∧ w.extractLsb' 0 10 = 0x041#10 then some (.statusBrk (w.getLsbD 31) (w.extractLsb' 10 6)) else
  if w.extractLsb' 16 8 = 0x6#8 then some (.sysCsrc (w.getLsbD 31) (w.extractLsb' 10 6) (w.extractLsb' 0 10)) else
  if w.extractLsb' 0 24 = 0x70000#24 then some (.sysYield (w.getLsbD 31)) else
  none

/-- The words of primary opcode 0x24 (R37, R38). -/
def decodeOp24 (w : BitVec 32) : Option Instr :=
  some (.xadd (w.getLsbD 31) (w.extractLsb' 16 8) (w.extractLsb' 8 8) (w.extractLsb' 0 8))

/-- The words of primary opcode 0x25 (R37, R38). -/
def decodeOp25 (w : BitVec 32) : Option Instr :=
  some (.xaddsc (w.getLsbD 31) (w.extractLsb' 16 8) (w.extractLsb' 8 8) (w.extractLsb' 0 8))

/-- The words of primary opcode 0x26 (R37, R38). -/
def decodeOp26 (w : BitVec 32) : Option Instr :=
  some (.xmulsc (w.getLsbD 31) (w.extractLsb' 16 8) (w.extractLsb' 8 8) (w.extractLsb' 0 8))

/-- The words of primary opcode 0x27 (R37, R38). -/
def decodeOp27 (w : BitVec 32) : Option Instr :=
  some (.xshl (w.getLsbD 31) (w.extractLsb' 16 8) (w.extractLsb' 8 8) (w.extractLsb' 0 8))

/-- The words of primary opcode 0x28 (R37, R38). -/
def decodeOp28 (w : BitVec 32) : Option Instr :=
  some (.xiota (w.getLsbD 31) (w.extractLsb' 16 8) (w.extractLsb' 8 8) (w.extractLsb' 0 8))

/-- The words of primary opcode 0x29 (R37, R38). -/
def decodeOp29 (w : BitVec 32) : Option Instr :=
  if w.extractLsb' 20 4 = 0x0#4 then some (.xcmpEq (w.getLsbD 31) (w.extractLsb' 16 4) (w.extractLsb' 8 8) (w.extractLsb' 0 8)) else
  if w.extractLsb' 20 4 = 0x1#4 then some (.xcmpNe (w.getLsbD 31) (w.extractLsb' 16 4) (w.extractLsb' 8 8) (w.extractLsb' 0 8)) else
  if w.extractLsb' 20 4 = 0x2#4 then some (.xcmpLt (w.getLsbD 31) (w.extractLsb' 16 4) (w.extractLsb' 8 8) (w.extractLsb' 0 8)) else
  if w.extractLsb' 20 4 = 0x3#4 then some (.xcmpGe (w.getLsbD 31) (w.extractLsb' 16 4) (w.extractLsb' 8 8) (w.extractLsb' 0 8)) else
  if w.extractLsb' 20 4 = 0x4#4 then some (.xcmpLtu (w.getLsbD 31) (w.extractLsb' 16 4) (w.extractLsb' 8 8) (w.extractLsb' 0 8)) else
  if w.extractLsb' 20 4 = 0x5#4 then some (.xcmpGeu (w.getLsbD 31) (w.extractLsb' 16 4) (w.extractLsb' 8 8) (w.extractLsb' 0 8)) else
  none

/-- The words of primary opcode 0x30 (R37, R38). -/
def decodeOp30 (w : BitVec 32) : Option Instr :=
  some (.vadd (w.getLsbD 31) (w.extractLsb' 16 8) (w.extractLsb' 8 8) (w.extractLsb' 0 8))

/-- The words of primary opcode 0x31 (R37, R38). -/
def decodeOp31 (w : BitVec 32) : Option Instr :=
  some (.vsub (w.getLsbD 31) (w.extractLsb' 16 8) (w.extractLsb' 8 8) (w.extractLsb' 0 8))

/-- The words of primary opcode 0x32 (R37, R38). -/
def decodeOp32 (w : BitVec 32) : Option Instr :=
  some (.vmul (w.getLsbD 31) (w.extractLsb' 16 8) (w.extractLsb' 8 8) (w.extractLsb' 0 8))

/-- The words of primary opcode 0x33 (R37, R38). -/
def decodeOp33 (w : BitVec 32) : Option Instr :=
  some (.vmulh (w.getLsbD 31) (w.extractLsb' 16 8) (w.extractLsb' 8 8) (w.extractLsb' 0 8))

/-- The words of primary opcode 0x34 (R37, R38). -/
def decodeOp34 (w : BitVec 32) : Option Instr :=
  some (.vmin (w.getLsbD 31) (w.extractLsb' 16 8) (w.extractLsb' 8 8) (w.extractLsb' 0 8))

/-- The words of primary opcode 0x35 (R37, R38). -/
def decodeOp35 (w : BitVec 32) : Option Instr :=
  some (.vmax (w.getLsbD 31) (w.extractLsb' 16 8) (w.extractLsb' 8 8) (w.extractLsb' 0 8))

/-- The words of primary opcode 0x36 (R37, R38). -/
def decodeOp36 (w : BitVec 32) : Option Instr :=
  some (.vand (w.getLsbD 31) (w.extractLsb' 16 8) (w.extractLsb' 8 8) (w.extractLsb' 0 8))

/-- The words of primary opcode 0x37 (R37, R38). -/
def decodeOp37 (w : BitVec 32) : Option Instr :=
  some (.vor (w.getLsbD 31) (w.extractLsb' 16 8) (w.extractLsb' 8 8) (w.extractLsb' 0 8))

/-- The words of primary opcode 0x38 (R37, R38). -/
def decodeOp38 (w : BitVec 32) : Option Instr :=
  some (.vxor (w.getLsbD 31) (w.extractLsb' 16 8) (w.extractLsb' 8 8) (w.extractLsb' 0 8))

/-- The words of primary opcode 0x39 (R37, R38). -/
def decodeOp39 (w : BitVec 32) : Option Instr :=
  some (.vshl (w.getLsbD 31) (w.extractLsb' 16 8) (w.extractLsb' 8 8) (w.extractLsb' 0 8))

/-- The words of primary opcode 0x3A (R37, R38). -/
def decodeOp3A (w : BitVec 32) : Option Instr :=
  some (.vshr (w.getLsbD 31) (w.extractLsb' 16 8) (w.extractLsb' 8 8) (w.extractLsb' 0 8))

/-- The words of primary opcode 0x3B (R37, R38). -/
def decodeOp3B (w : BitVec 32) : Option Instr :=
  some (.vabsd (w.getLsbD 31) (w.extractLsb' 16 8) (w.extractLsb' 8 8) (w.extractLsb' 0 8))

/-- The words of primary opcode 0x3C (R37, R38). -/
def decodeOp3C (w : BitVec 32) : Option Instr :=
  some (.vmac (w.getLsbD 31) (w.extractLsb' 16 8) (w.extractLsb' 8 8) (w.extractLsb' 0 8))

/-- The words of primary opcode 0x3D (R37, R38). -/
def decodeOp3D (w : BitVec 32) : Option Instr :=
  some (.vsel (w.getLsbD 31) (w.extractLsb' 16 8) (w.extractLsb' 8 8) (w.extractLsb' 0 8))

/-- The words of primary opcode 0x3E (R37, R38). -/
def decodeOp3E (w : BitVec 32) : Option Instr :=
  if w.extractLsb' 0 8 = 0x0#8 then some (.vunClz (w.getLsbD 31) (w.extractLsb' 16 8) (w.extractLsb' 8 8)) else
  if w.extractLsb' 0 8 = 0x1#8 then some (.vunFfs (w.getLsbD 31) (w.extractLsb' 16 8) (w.extractLsb' 8 8)) else
  if w.extractLsb' 0 8 = 0x2#8 then some (.vunPopc (w.getLsbD 31) (w.extractLsb' 16 8) (w.extractLsb' 8 8)) else
  if w.extractLsb' 0 8 = 0x3#8 then some (.vunNeg (w.getLsbD 31) (w.extractLsb' 16 8) (w.extractLsb' 8 8)) else
  if w.extractLsb' 0 8 = 0x4#8 then some (.vunAbs (w.getLsbD 31) (w.extractLsb' 16 8) (w.extractLsb' 8 8)) else
  if w.extractLsb' 0 8 = 0x5#8 then some (.vunNot (w.getLsbD 31) (w.extractLsb' 16 8) (w.extractLsb' 8 8)) else
  if w.extractLsb' 0 8 = 0x6#8 then some (.vunMov (w.getLsbD 31) (w.extractLsb' 16 8) (w.extractLsb' 8 8)) else
  none

/-- The words of primary opcode 0x3F (R37, R38). -/
def decodeOp3F (w : BitVec 32) : Option Instr :=
  if w.extractLsb' 20 4 = 0x0#4 then some (.vcmpEq (w.getLsbD 31) (w.extractLsb' 16 4) (w.extractLsb' 8 8) (w.extractLsb' 0 8)) else
  if w.extractLsb' 20 4 = 0x1#4 then some (.vcmpNe (w.getLsbD 31) (w.extractLsb' 16 4) (w.extractLsb' 8 8) (w.extractLsb' 0 8)) else
  if w.extractLsb' 20 4 = 0x2#4 then some (.vcmpLt (w.getLsbD 31) (w.extractLsb' 16 4) (w.extractLsb' 8 8) (w.extractLsb' 0 8)) else
  if w.extractLsb' 20 4 = 0x3#4 then some (.vcmpGe (w.getLsbD 31) (w.extractLsb' 16 4) (w.extractLsb' 8 8) (w.extractLsb' 0 8)) else
  if w.extractLsb' 20 4 = 0x4#4 then some (.vcmpLe (w.getLsbD 31) (w.extractLsb' 16 4) (w.extractLsb' 8 8) (w.extractLsb' 0 8)) else
  if w.extractLsb' 20 4 = 0x5#4 then some (.vcmpGt (w.getLsbD 31) (w.extractLsb' 16 4) (w.extractLsb' 8 8) (w.extractLsb' 0 8)) else
  if w.extractLsb' 20 4 = 0x6#4 then some (.vcmpOrd (w.getLsbD 31) (w.extractLsb' 16 4) (w.extractLsb' 8 8) (w.extractLsb' 0 8)) else
  if w.extractLsb' 20 4 = 0x7#4 then some (.vcmpUnord (w.getLsbD 31) (w.extractLsb' 16 4) (w.extractLsb' 8 8) (w.extractLsb' 0 8)) else
  none

/-- The words of primary opcode 0x40 (R37, R38). -/
def decodeOp40 (w : BitVec 32) : Option Instr :=
  some (.fadd (w.getLsbD 31) (w.extractLsb' 16 8) (w.extractLsb' 8 8) (w.extractLsb' 0 8))

/-- The words of primary opcode 0x41 (R37, R38). -/
def decodeOp41 (w : BitVec 32) : Option Instr :=
  some (.fsub (w.getLsbD 31) (w.extractLsb' 16 8) (w.extractLsb' 8 8) (w.extractLsb' 0 8))

/-- The words of primary opcode 0x42 (R37, R38). -/
def decodeOp42 (w : BitVec 32) : Option Instr :=
  some (.fmul (w.getLsbD 31) (w.extractLsb' 16 8) (w.extractLsb' 8 8) (w.extractLsb' 0 8))

/-- The words of primary opcode 0x43 (R37, R38). -/
def decodeOp43 (w : BitVec 32) : Option Instr :=
  some (.fma (w.getLsbD 31) (w.extractLsb' 16 8) (w.extractLsb' 8 8) (w.extractLsb' 0 8))

/-- The words of primary opcode 0x44 (R37, R38). -/
def decodeOp44 (w : BitVec 32) : Option Instr :=
  some (.fmin (w.getLsbD 31) (w.extractLsb' 16 8) (w.extractLsb' 8 8) (w.extractLsb' 0 8))

/-- The words of primary opcode 0x45 (R37, R38). -/
def decodeOp45 (w : BitVec 32) : Option Instr :=
  some (.fmax (w.getLsbD 31) (w.extractLsb' 16 8) (w.extractLsb' 8 8) (w.extractLsb' 0 8))

/-- The words of primary opcode 0x46 (R37, R38). -/
def decodeOp46 (w : BitVec 32) : Option Instr :=
  if w.extractLsb' 0 8 = 0x0#8 then some (.funNeg (w.getLsbD 31) (w.extractLsb' 16 8) (w.extractLsb' 8 8)) else
  if w.extractLsb' 0 8 = 0x1#8 then some (.funAbs (w.getLsbD 31) (w.extractLsb' 16 8) (w.extractLsb' 8 8)) else
  if w.extractLsb' 0 8 = 0x2#8 then some (.funSqrt (w.getLsbD 31) (w.extractLsb' 16 8) (w.extractLsb' 8 8)) else
  if w.extractLsb' 0 8 = 0x3#8 then some (.funRint (w.getLsbD 31) (w.extractLsb' 16 8) (w.extractLsb' 8 8)) else
  none

/-- The words of primary opcode 0x47 (R37, R38). -/
def decodeOp47 (w : BitVec 32) : Option Instr :=
  some (.cvt (w.getLsbD 31) (w.extractLsb' 16 8) (w.extractLsb' 8 8) (w.extractLsb' 0 8))

/-- The words of primary opcode 0x48 (R37, R38). -/
def decodeOp48 (w : BitVec 32) : Option Instr :=
  if w.extractLsb' 0 8 = 0x0#8 then some (.sfuSinpi (w.getLsbD 31) (w.extractLsb' 16 8) (w.extractLsb' 8 8)) else
  if w.extractLsb' 0 8 = 0x1#8 then some (.sfuCospi (w.getLsbD 31) (w.extractLsb' 16 8) (w.extractLsb' 8 8)) else
  if w.extractLsb' 0 8 = 0x2#8 then some (.sfuExp2 (w.getLsbD 31) (w.extractLsb' 16 8) (w.extractLsb' 8 8)) else
  if w.extractLsb' 0 8 = 0x3#8 then some (.sfuLog2 (w.getLsbD 31) (w.extractLsb' 16 8) (w.extractLsb' 8 8)) else
  if w.extractLsb' 0 8 = 0x4#8 then some (.sfuRcp (w.getLsbD 31) (w.extractLsb' 16 8) (w.extractLsb' 8 8)) else
  if w.extractLsb' 0 8 = 0x5#8 then some (.sfuRsqrt (w.getLsbD 31) (w.extractLsb' 16 8) (w.extractLsb' 8 8)) else
  none

/-- The words of primary opcode 0x49 (R37, R38). -/
def decodeOp49 (w : BitVec 32) : Option Instr :=
  some (.vmovi (w.getLsbD 31) (w.extractLsb' 16 8) (w.extractLsb' 0 16))

/-- The words of primary opcode 0x4A (R37, R38). -/
def decodeOp4A (w : BitVec 32) : Option Instr :=
  some (.vmovhi (w.getLsbD 31) (w.extractLsb' 16 8) (w.extractLsb' 0 16))

/-- The words of primary opcode 0x50 (R37, R38). -/
def decodeOp50 (w : BitVec 32) : Option Instr :=
  if w.extractLsb' 0 8 = 0x0#8 then some (.scanAdd (w.getLsbD 31) (w.extractLsb' 16 8) (w.extractLsb' 8 8)) else
  if w.extractLsb' 0 8 = 0x1#8 then some (.scanMin (w.getLsbD 31) (w.extractLsb' 16 8) (w.extractLsb' 8 8)) else
  if w.extractLsb' 0 8 = 0x2#8 then some (.scanMax (w.getLsbD 31) (w.extractLsb' 16 8) (w.extractLsb' 8 8)) else
  if w.extractLsb' 0 8 = 0x3#8 then some (.scanAnd (w.getLsbD 31) (w.extractLsb' 16 8) (w.extractLsb' 8 8)) else
  if w.extractLsb' 0 8 = 0x4#8 then some (.scanOr (w.getLsbD 31) (w.extractLsb' 16 8) (w.extractLsb' 8 8)) else
  if w.extractLsb' 0 8 = 0x5#8 then some (.scanXor (w.getLsbD 31) (w.extractLsb' 16 8) (w.extractLsb' 8 8)) else
  if w.extractLsb' 0 8 = 0x10#8 then some (.scanAddx (w.getLsbD 31) (w.extractLsb' 16 8) (w.extractLsb' 8 8)) else
  if w.extractLsb' 0 8 = 0x11#8 then some (.scanMinx (w.getLsbD 31) (w.extractLsb' 16 8) (w.extractLsb' 8 8)) else
  if w.extractLsb' 0 8 = 0x12#8 then some (.scanMaxx (w.getLsbD 31) (w.extractLsb' 16 8) (w.extractLsb' 8 8)) else
  if w.extractLsb' 0 8 = 0x13#8 then some (.scanAndx (w.getLsbD 31) (w.extractLsb' 16 8) (w.extractLsb' 8 8)) else
  if w.extractLsb' 0 8 = 0x14#8 then some (.scanOrx (w.getLsbD 31) (w.extractLsb' 16 8) (w.extractLsb' 8 8)) else
  if w.extractLsb' 0 8 = 0x15#8 then some (.scanXorx (w.getLsbD 31) (w.extractLsb' 16 8) (w.extractLsb' 8 8)) else
  none

/-- The words of primary opcode 0x51 (R37, R38). -/
def decodeOp51 (w : BitVec 32) : Option Instr :=
  if w.extractLsb' 0 8 = 0x0#8 then some (.vredAdd (w.getLsbD 31) (w.extractLsb' 16 8) (w.extractLsb' 8 8)) else
  if w.extractLsb' 0 8 = 0x1#8 then some (.vredMin (w.getLsbD 31) (w.extractLsb' 16 8) (w.extractLsb' 8 8)) else
  if w.extractLsb' 0 8 = 0x2#8 then some (.vredMax (w.getLsbD 31) (w.extractLsb' 16 8) (w.extractLsb' 8 8)) else
  if w.extractLsb' 0 8 = 0x3#8 then some (.vredAnd (w.getLsbD 31) (w.extractLsb' 16 8) (w.extractLsb' 8 8)) else
  if w.extractLsb' 0 8 = 0x4#8 then some (.vredOr (w.getLsbD 31) (w.extractLsb' 16 8) (w.extractLsb' 8 8)) else
  if w.extractLsb' 0 8 = 0x5#8 then some (.vredXor (w.getLsbD 31) (w.extractLsb' 16 8) (w.extractLsb' 8 8)) else
  none

/-- The words of primary opcode 0x52 (R37, R38). -/
def decodeOp52 (w : BitVec 32) : Option Instr :=
  some (.vperm (w.getLsbD 31) (w.extractLsb' 16 8) (w.extractLsb' 8 8) (w.extractLsb' 0 8))

/-- The words of primary opcode 0x53 (R37, R38). -/
def decodeOp53 (w : BitVec 32) : Option Instr :=
  some (.vxshuf (w.getLsbD 31) (w.extractLsb' 16 8) (w.extractLsb' 8 8) (w.extractLsb' 0 8))

/-- The words of primary opcode 0x54 (R37, R38). -/
def decodeOp54 (w : BitVec 32) : Option Instr :=
  some (.vbcast (w.getLsbD 31) (w.extractLsb' 16 8) (w.extractLsb' 8 8) (w.extractLsb' 0 8))

/-- The words of primary opcode 0x55 (R37, R38). -/
def decodeOp55 (w : BitVec 32) : Option Instr :=
  if w.extractLsb' 0 8 = 0x0#8 then some (.cqVpop (w.getLsbD 31) (w.extractLsb' 16 8) (w.extractLsb' 8 8)) else
  if w.extractLsb' 0 8 = 0x1#8 then some (.cqVpush (w.getLsbD 31) (w.extractLsb' 16 8) (w.extractLsb' 8 8)) else
  if w.extractLsb' 0 16 = 0x2#16 then some (.cqHpop (w.getLsbD 31) (w.extractLsb' 16 8)) else
  if w.extractLsb' 16 8 = 0x0#8 ∧ w.extractLsb' 0 8 = 0x3#8 then some (.cqHpush (w.getLsbD 31) (w.extractLsb' 8 8)) else
  none

/-- The words of primary opcode 0x56 (R37, R38). -/
def decodeOp56 (w : BitVec 32) : Option Instr :=
  some (.vgetr (w.getLsbD 31) (w.extractLsb' 16 8) (w.extractLsb' 8 8) (w.extractLsb' 0 8))

/-- The words of primary opcode 0x57 (R37, R38). -/
def decodeOp57 (w : BitVec 32) : Option Instr :=
  some (.vsetr (w.getLsbD 31) (w.extractLsb' 16 8) (w.extractLsb' 8 8) (w.extractLsb' 0 8))

/-- The words of primary opcode 0x58 (R37, R38). -/
def decodeOp58 (w : BitVec 32) : Option Instr :=
  if w.extractLsb' 20 4 = 0x0#4 ∧ w.extractLsb' 12 4 = 0x0#4 ∧ w.extractLsb' 4 4 = 0x0#4 then some (.plogAnd (w.getLsbD 31) (w.extractLsb' 16 4) (w.extractLsb' 8 4) (w.extractLsb' 0 4)) else
  if w.extractLsb' 20 4 = 0x1#4 ∧ w.extractLsb' 12 4 = 0x0#4 ∧ w.extractLsb' 4 4 = 0x0#4 then some (.plogOr (w.getLsbD 31) (w.extractLsb' 16 4) (w.extractLsb' 8 4) (w.extractLsb' 0 4)) else
  if w.extractLsb' 20 4 = 0x2#4 ∧ w.extractLsb' 12 4 = 0x0#4 ∧ w.extractLsb' 4 4 = 0x0#4 then some (.plogXor (w.getLsbD 31) (w.extractLsb' 16 4) (w.extractLsb' 8 4) (w.extractLsb' 0 4)) else
  if w.extractLsb' 20 4 = 0x3#4 ∧ w.extractLsb' 12 4 = 0x0#4 ∧ w.extractLsb' 4 4 = 0x0#4 then some (.plogAndn (w.getLsbD 31) (w.extractLsb' 16 4) (w.extractLsb' 8 4) (w.extractLsb' 0 4)) else
  if w.extractLsb' 20 4 = 0x4#4 ∧ w.extractLsb' 12 4 = 0x0#4 ∧ w.extractLsb' 0 8 = 0x0#8 then some (.plogNot (w.getLsbD 31) (w.extractLsb' 16 4) (w.extractLsb' 8 4)) else
  if w.extractLsb' 20 4 = 0x5#4 ∧ w.extractLsb' 12 4 = 0x0#4 ∧ w.extractLsb' 0 8 = 0x0#8 then some (.plogMov (w.getLsbD 31) (w.extractLsb' 16 4) (w.extractLsb' 8 4)) else
  none

/-- The words of primary opcode 0x59 (R37, R38). -/
def decodeOp59 (w : BitVec 32) : Option Instr :=
  if w.extractLsb' 0 8 = 0x0#8 then some (.predPopc (w.getLsbD 31) (w.extractLsb' 16 8) (w.extractLsb' 8 8)) else
  if w.extractLsb' 0 8 = 0x1#8 then some (.predAny (w.getLsbD 31) (w.extractLsb' 16 8) (w.extractLsb' 8 8)) else
  if w.extractLsb' 0 8 = 0x2#8 then some (.predAll (w.getLsbD 31) (w.extractLsb' 16 8) (w.extractLsb' 8 8)) else
  if w.extractLsb' 0 8 = 0x3#8 then some (.predFirst (w.getLsbD 31) (w.extractLsb' 16 8) (w.extractLsb' 8 8)) else
  if w.extractLsb' 0 8 = 0x4#8 then some (.predMask (w.getLsbD 31) (w.extractLsb' 16 8) (w.extractLsb' 8 8)) else
  none

/-- The words of primary opcode 0x60 (R37, R38). -/
def decodeOp60 (w : BitVec 32) : Option Instr :=
  some (.ld (w.getLsbD 31) (w.extractLsb' 18 6) (w.extractLsb' 12 6) (w.extractLsb' 7 5) (w.extractLsb' 5 2) (w.extractLsb' 3 2) (w.extractLsb' 0 3))

/-- The words of primary opcode 0x61 (R37, R38). -/
def decodeOp61 (w : BitVec 32) : Option Instr :=
  some (.st (w.getLsbD 31) (w.extractLsb' 18 6) (w.extractLsb' 12 6) (w.extractLsb' 7 5) (w.extractLsb' 5 2) (w.extractLsb' 3 2) (w.extractLsb' 0 3))

/-- The words of primary opcode 0x62 (R37, R38). -/
def decodeOp62 (w : BitVec 32) : Option Instr :=
  if w.extractLsb' 7 5 = 0x0#5 then some (.lds (w.getLsbD 31) (w.extractLsb' 18 6) (w.extractLsb' 12 6) (w.extractLsb' 5 2) (w.extractLsb' 3 2) (w.extractLsb' 0 3)) else
  none

/-- The words of primary opcode 0x63 (R37, R38). -/
def decodeOp63 (w : BitVec 32) : Option Instr :=
  if w.extractLsb' 7 5 = 0x0#5 then some (.sts (w.getLsbD 31) (w.extractLsb' 18 6) (w.extractLsb' 12 6) (w.extractLsb' 5 2) (w.extractLsb' 3 2) (w.extractLsb' 0 3)) else
  none

/-- The words of primary opcode 0x64 (R37, R38). -/
def decodeOp64 (w : BitVec 32) : Option Instr :=
  if w.extractLsb' 7 5 = 0x0#5 then some (.stc (w.getLsbD 31) (w.extractLsb' 18 6) (w.extractLsb' 12 6) (w.extractLsb' 5 2) (w.extractLsb' 3 2) (w.extractLsb' 0 3)) else
  none

/-- The words of primary opcode 0x65 (R37, R38). -/
def decodeOp65 (w : BitVec 32) : Option Instr :=
  some (.cld (w.getLsbD 31) (w.extractLsb' 18 6) (w.extractLsb' 12 6) (w.extractLsb' 7 5) (w.extractLsb' 5 2) (w.extractLsb' 3 2) (w.extractLsb' 0 3))

/-- The words of primary opcode 0x66 (R37, R38). -/
def decodeOp66 (w : BitVec 32) : Option Instr :=
  some (.cst (w.getLsbD 31) (w.extractLsb' 18 6) (w.extractLsb' 12 6) (w.extractLsb' 7 5) (w.extractLsb' 5 2) (w.extractLsb' 3 2) (w.extractLsb' 0 3))

/-- The words of primary opcode 0x67 (R37, R38). -/
def decodeOp67 (w : BitVec 32) : Option Instr :=
  if w.extractLsb' 0 7 = 0x40#7 then some (.cldf (w.getLsbD 31) (w.extractLsb' 18 6) (w.extractLsb' 12 6) (w.extractLsb' 7 5)) else
  none

/-- The words of primary opcode 0x68 (R37, R38). -/
def decodeOp68 (w : BitVec 32) : Option Instr :=
  if w.extractLsb' 0 7 = 0x40#7 then some (.cste (w.getLsbD 31) (w.extractLsb' 18 6) (w.extractLsb' 12 6) (w.extractLsb' 7 5)) else
  none

/-- The words of primary opcode 0x69 (R37, R38). -/
def decodeOp69 (w : BitVec 32) : Option Instr :=
  if w.extractLsb' 6 1 = 0x1#1 then some (.aadd (w.getLsbD 31) (w.extractLsb' 18 6) (w.extractLsb' 12 6) (w.extractLsb' 7 5) (w.extractLsb' 5 1) (w.extractLsb' 3 2) (w.extractLsb' 0 3)) else
  none

/-- The words of primary opcode 0x6A (R37, R38). -/
def decodeOp6A (w : BitVec 32) : Option Instr :=
  if w.extractLsb' 6 1 = 0x1#1 then some (.aswap (w.getLsbD 31) (w.extractLsb' 18 6) (w.extractLsb' 12 6) (w.extractLsb' 7 5) (w.extractLsb' 5 1) (w.extractLsb' 3 2) (w.extractLsb' 0 3)) else
  none

/-- The words of primary opcode 0x6B (R37, R38). -/
def decodeOp6B (w : BitVec 32) : Option Instr :=
  if w.extractLsb' 6 1 = 0x1#1 then some (.acas (w.getLsbD 31) (w.extractLsb' 18 6) (w.extractLsb' 12 6) (w.extractLsb' 7 5) (w.extractLsb' 5 1) (w.extractLsb' 3 2) (w.extractLsb' 0 3)) else
  none

/-- The words of primary opcode 0x6C (R37, R38). -/
def decodeOp6C (w : BitVec 32) : Option Instr :=
  if w.extractLsb' 6 1 = 0x1#1 then some (.amin (w.getLsbD 31) (w.extractLsb' 18 6) (w.extractLsb' 12 6) (w.extractLsb' 7 5) (w.extractLsb' 5 1) (w.extractLsb' 3 2) (w.extractLsb' 0 3)) else
  none

/-- The words of primary opcode 0x6D (R37, R38). -/
def decodeOp6D (w : BitVec 32) : Option Instr :=
  if w.extractLsb' 6 1 = 0x1#1 then some (.amax (w.getLsbD 31) (w.extractLsb' 18 6) (w.extractLsb' 12 6) (w.extractLsb' 7 5) (w.extractLsb' 5 1) (w.extractLsb' 3 2) (w.extractLsb' 0 3)) else
  none

/-- The words of primary opcode 0x6E (R37, R38). -/
def decodeOp6E (w : BitVec 32) : Option Instr :=
  if w.extractLsb' 6 1 = 0x1#1 then some (.aor (w.getLsbD 31) (w.extractLsb' 18 6) (w.extractLsb' 12 6) (w.extractLsb' 7 5) (w.extractLsb' 5 1) (w.extractLsb' 3 2) (w.extractLsb' 0 3)) else
  none

/-- The words of primary opcode 0x6F (R37, R38). -/
def decodeOp6F (w : BitVec 32) : Option Instr :=
  if w.extractLsb' 6 1 = 0x1#1 then some (.aand (w.getLsbD 31) (w.extractLsb' 18 6) (w.extractLsb' 12 6) (w.extractLsb' 7 5) (w.extractLsb' 5 1) (w.extractLsb' 3 2) (w.extractLsb' 0 3)) else
  none

/-- The words of primary opcode 0x70 (R37, R38). -/
def decodeOp70 (w : BitVec 32) : Option Instr :=
  if w.extractLsb' 16 8 = 0x0#8 ∧ w.extractLsb' 0 8 = 0x0#8 then some (.aqHpush (w.getLsbD 31) (w.extractLsb' 8 8)) else
  if w.extractLsb' 0 16 = 0x1#16 then some (.aqHpop (w.getLsbD 31) (w.extractLsb' 16 8)) else
  if w.extractLsb' 0 8 = 0x2#8 then some (.aqXpop (w.getLsbD 31) (w.extractLsb' 16 8) (w.extractLsb' 8 8)) else
  if w.extractLsb' 0 8 = 0x3#8 then some (.aqXpops (w.getLsbD 31) (w.extractLsb' 16 8) (w.extractLsb' 8 8)) else
  if w.extractLsb' 0 8 = 0x4#8 then some (.aqEqw (w.getLsbD 31) (w.extractLsb' 16 8) (w.extractLsb' 8 8)) else
  if w.extractLsb' 0 8 = 0x5#8 then some (.aqEqr (w.getLsbD 31) (w.extractLsb' 16 8) (w.extractLsb' 8 8)) else
  none

/-- The words of primary opcode 0x71 (R37, R38). -/
def decodeOp71 (w : BitVec 32) : Option Instr :=
  if w.extractLsb' 16 8 = 0x0#8 then some (.syncAcq (w.getLsbD 31) (w.extractLsb' 15 1) (w.extractLsb' 12 3) (w.extractLsb' 0 12)) else
  if w.extractLsb' 16 8 = 0x1#8 then some (.syncRel (w.getLsbD 31) (w.extractLsb' 15 1) (w.extractLsb' 12 3) (w.extractLsb' 0 12)) else
  if w.extractLsb' 15 9 = 0x4#9 ∧ w.extractLsb' 0 12 = 0x0#12 then some (.syncFence (w.getLsbD 31) (w.extractLsb' 12 3)) else
  if w.extractLsb' 1 23 = 0x18000#23 then some (.syncGbar (w.getLsbD 31) (w.extractLsb' 0 1)) else
  none

/-- The words of primary opcode 0x72 (R37, R38). -/
def decodeOp72 (w : BitVec 32) : Option Instr :=
  if w.extractLsb' 16 8 = 0x0#8 then some (.copyPublish (w.getLsbD 31) (w.extractLsb' 10 6) (w.extractLsb' 0 10)) else
  if w.extractLsb' 16 8 = 0x1#8 ∧ w.extractLsb' 0 10 = 0x0#10 then some (.copyBclose (w.getLsbD 31) (w.extractLsb' 10 6)) else
  if w.extractLsb' 16 8 = 0x2#8 ∧ w.extractLsb' 0 10 = 0x0#10 then some (.copyBwait (w.getLsbD 31) (w.extractLsb' 10 6)) else
  none

/-- The words of primary opcode 0x73 (R37, R38). -/
def decodeOp73 (w : BitVec 32) : Option Instr :=
  if w.extractLsb' 16 8 = 0x0#8 ∧ w.extractLsb' 1 9 = 0x0#9 then some (.taskSpawn (w.getLsbD 31) (w.extractLsb' 10 6) (w.extractLsb' 0 1)) else
  if w.extractLsb' 16 8 = 0x1#8 then some (.taskTlwait (w.getLsbD 31) (w.extractLsb' 10 6) (w.extractLsb' 0 10)) else
  if w.extractLsb' 16 8 = 0x2#8 then some (.taskTlsig (w.getLsbD 31) (w.extractLsb' 10 6) (w.extractLsb' 0 10)) else
  if w.extractLsb' 16 8 = 0x3#8 ∧ w.extractLsb' 0 10 = 0x0#10 then some (.taskMarm (w.getLsbD 31) (w.extractLsb' 10 6)) else
  if w.extractLsb' 16 8 = 0x4#8 ∧ w.extractLsb' 0 10 = 0x0#10 then some (.taskMwait (w.getLsbD 31) (w.extractLsb' 10 6)) else
  if w.extractLsb' 16 8 = 0x5#8 ∧ w.extractLsb' 0 10 = 0x0#10 then some (.taskDdec (w.getLsbD 31) (w.extractLsb' 10 6)) else
  if w.extractLsb' 16 8 = 0x6#8 ∧ w.extractLsb' 5 5 = 0x0#5 then some (.taskWjoin (w.getLsbD 31) (w.extractLsb' 10 6) (w.extractLsb' 4 1) (w.extractLsb' 0 4)) else
  if w.extractLsb' 16 8 = 0x7#8 ∧ w.extractLsb' 0 10 = 0x0#10 then some (.taskWleave (w.getLsbD 31) (w.extractLsb' 10 6)) else
  if w.extractLsb' 16 8 = 0x8#8 ∧ w.extractLsb' 3 7 = 0x0#7 then some (.taskCancel (w.getLsbD 31) (w.extractLsb' 10 6) (w.extractLsb' 2 1) (w.extractLsb' 0 2)) else
  none

/-- The words of primary opcode 0x74 (R37, R38). -/
def decodeOp74 (w : BitVec 32) : Option Instr :=
  if w.extractLsb' 16 8 = 0x0#8 ∧ w.extractLsb' 6 4 = 0x0#4 then some (.scoutOpen (w.getLsbD 31) (w.extractLsb' 10 6) (w.extractLsb' 0 6)) else
  if w.extractLsb' 16 8 = 0x1#8 ∧ w.extractLsb' 8 2 = 0x0#2 then some (.scoutTake (w.getLsbD 31) (w.extractLsb' 10 6) (w.extractLsb' 7 1) (w.extractLsb' 6 1) (w.extractLsb' 0 6)) else
  if w.extractLsb' 16 8 = 0x2#8 ∧ w.extractLsb' 6 4 = 0x0#4 then some (.scoutClose (w.getLsbD 31) (w.extractLsb' 10 6) (w.extractLsb' 0 6)) else
  if w.extractLsb' 16 8 = 0x3#8 ∧ w.extractLsb' 1 9 = 0x0#9 then some (.scoutVerdict (w.getLsbD 31) (w.extractLsb' 10 6) (w.extractLsb' 0 1)) else
  none

/-- The words of primary opcode 0x75 (R37, R38). -/
def decodeOp75 (w : BitVec 32) : Option Instr :=
  if w.extractLsb' 16 8 = 0x0#8 ∧ w.extractLsb' 0 10 = 0x0#10 then some (.treeCreate (w.getLsbD 31) (w.extractLsb' 10 6)) else
  if w.extractLsb' 16 8 = 0x1#8 ∧ w.extractLsb' 0 10 = 0x0#10 then some (.treeFork (w.getLsbD 31) (w.extractLsb' 10 6)) else
  if w.extractLsb' 16 8 = 0x2#8 ∧ w.extractLsb' 0 10 = 0x0#10 then some (.treeAppend (w.getLsbD 31) (w.extractLsb' 10 6)) else
  if w.extractLsb' 16 8 = 0x3#8 ∧ w.extractLsb' 0 10 = 0x0#10 then some (.treePrune (w.getLsbD 31) (w.extractLsb' 10 6)) else
  if w.extractLsb' 16 8 = 0x4#8 ∧ w.extractLsb' 0 10 = 0x0#10 then some (.treeCommit (w.getLsbD 31) (w.extractLsb' 10 6)) else
  if w.extractLsb' 16 8 = 0x5#8 ∧ w.extractLsb' 3 7 = 0x0#7 then some (.treeAhead (w.getLsbD 31) (w.extractLsb' 10 6) (w.extractLsb' 2 1) (w.extractLsb' 1 1) (w.extractLsb' 0 1)) else
  if w.extractLsb' 16 8 = 0x6#8 ∧ w.extractLsb' 0 10 = 0x0#10 then some (.treeHandover (w.getLsbD 31) (w.extractLsb' 10 6)) else
  if w.extractLsb' 16 8 = 0x7#8 ∧ w.extractLsb' 1 9 = 0x0#9 then some (.treeTokrdy (w.getLsbD 31) (w.extractLsb' 10 6) (w.extractLsb' 0 1)) else
  if w.extractLsb' 16 8 = 0x8#8 ∧ w.extractLsb' 0 10 = 0x0#10 then some (.treeDestroy (w.getLsbD 31) (w.extractLsb' 10 6)) else
  none

/-- The words of primary opcode 0x76 (R37, R38). -/
def decodeOp76 (w : BitVec 32) : Option Instr :=
  if w.extractLsb' 16 8 = 0x0#8 ∧ w.extractLsb' 0 10 = 0x0#10 then some (.xchDpost (w.getLsbD 31) (w.extractLsb' 10 6)) else
  if w.extractLsb' 16 8 = 0x1#8 ∧ w.extractLsb' 1 9 = 0x0#9 then some (.xchDcal (w.getLsbD 31) (w.extractLsb' 10 6) (w.extractLsb' 0 1)) else
  if w.extractLsb' 16 8 = 0x2#8 ∧ w.extractLsb' 0 10 = 0x0#10 then some (.xchTsend (w.getLsbD 31) (w.extractLsb' 10 6)) else
  if w.extractLsb' 16 8 = 0x3#8 ∧ w.extractLsb' 0 10 = 0x0#10 then some (.xchColl (w.getLsbD 31) (w.extractLsb' 10 6)) else
  if w.extractLsb' 16 8 = 0x4#8 then some (.xchRcnt (w.getLsbD 31) (w.extractLsb' 10 6) (w.extractLsb' 8 2) (w.extractLsb' 0 8)) else
  none

/-- The words of primary opcode 0x78 (R37, R38). -/
def decodeOp78 (w : BitVec 32) : Option Instr :=
  some (.mmul (w.getLsbD 31) (w.extractLsb' 16 8) (w.extractLsb' 8 8) (w.extractLsb' 0 8))

/-- The words of primary opcode 0x79 (R37, R38). -/
def decodeOp79 (w : BitVec 32) : Option Instr :=
  if w.extractLsb' 0 8 = 0x0#8 then some (.mzero (w.getLsbD 31) (w.extractLsb' 16 8) (w.extractLsb' 8 8)) else
  none

/-- The words of primary opcode 0x7A (R37, R38). -/
def decodeOp7A (w : BitVec 32) : Option Instr :=
  some (.mfill (w.getLsbD 31) (w.extractLsb' 16 8) (w.extractLsb' 8 8) (w.extractLsb' 0 8))

/-- The words of primary opcode 0x7B (R37, R38). -/
def decodeOp7B (w : BitVec 32) : Option Instr :=
  some (.mdrain (w.getLsbD 31) (w.extractLsb' 16 8) (w.extractLsb' 8 8) (w.extractLsb' 0 8))

/-- The words of primary opcode 0x7C (R37, R38). -/
def decodeOp7C (w : BitVec 32) : Option Instr :=
  if w.extractLsb' 0 8 = 0x0#8 then some (.mfmt (w.getLsbD 31) (w.extractLsb' 16 8) (w.extractLsb' 8 8)) else
  none

/-- The words of primary opcode 0x7D (R37, R38). -/
def decodeOp7D (w : BitVec 32) : Option Instr :=
  some (.msacc (w.getLsbD 31) (w.extractLsb' 16 8) (w.extractLsb' 8 8) (w.extractLsb' 0 8))

/-- The instruction a word stands for, by its opcode and sub-op and its must-be-zero bits; none where no row of the
table fits (checks 1 and 3 of R39, and the must-be-zero part of check 5). -/
def decodeWord (w : BitVec 32) : Option Instr :=
  match opOf w with
  | 0x00 => decodeOp00 w
  | 0x01 => decodeOp01 w
  | 0x02 => decodeOp02 w
  | 0x03 => decodeOp03 w
  | 0x04 => decodeOp04 w
  | 0x05 => decodeOp05 w
  | 0x06 => decodeOp06 w
  | 0x07 => decodeOp07 w
  | 0x08 => decodeOp08 w
  | 0x09 => decodeOp09 w
  | 0x0A => decodeOp0A w
  | 0x0B => decodeOp0B w
  | 0x0C => decodeOp0C w
  | 0x0D => decodeOp0D w
  | 0x0E => decodeOp0E w
  | 0x0F => decodeOp0F w
  | 0x10 => decodeOp10 w
  | 0x11 => decodeOp11 w
  | 0x12 => decodeOp12 w
  | 0x13 => decodeOp13 w
  | 0x14 => decodeOp14 w
  | 0x16 => decodeOp16 w
  | 0x18 => decodeOp18 w
  | 0x19 => decodeOp19 w
  | 0x1A => decodeOp1A w
  | 0x1B => decodeOp1B w
  | 0x1C => decodeOp1C w
  | 0x1D => decodeOp1D w
  | 0x1E => decodeOp1E w
  | 0x1F => decodeOp1F w
  | 0x20 => decodeOp20 w
  | 0x21 => decodeOp21 w
  | 0x22 => decodeOp22 w
  | 0x23 => decodeOp23 w
  | 0x24 => decodeOp24 w
  | 0x25 => decodeOp25 w
  | 0x26 => decodeOp26 w
  | 0x27 => decodeOp27 w
  | 0x28 => decodeOp28 w
  | 0x29 => decodeOp29 w
  | 0x30 => decodeOp30 w
  | 0x31 => decodeOp31 w
  | 0x32 => decodeOp32 w
  | 0x33 => decodeOp33 w
  | 0x34 => decodeOp34 w
  | 0x35 => decodeOp35 w
  | 0x36 => decodeOp36 w
  | 0x37 => decodeOp37 w
  | 0x38 => decodeOp38 w
  | 0x39 => decodeOp39 w
  | 0x3A => decodeOp3A w
  | 0x3B => decodeOp3B w
  | 0x3C => decodeOp3C w
  | 0x3D => decodeOp3D w
  | 0x3E => decodeOp3E w
  | 0x3F => decodeOp3F w
  | 0x40 => decodeOp40 w
  | 0x41 => decodeOp41 w
  | 0x42 => decodeOp42 w
  | 0x43 => decodeOp43 w
  | 0x44 => decodeOp44 w
  | 0x45 => decodeOp45 w
  | 0x46 => decodeOp46 w
  | 0x47 => decodeOp47 w
  | 0x48 => decodeOp48 w
  | 0x49 => decodeOp49 w
  | 0x4A => decodeOp4A w
  | 0x50 => decodeOp50 w
  | 0x51 => decodeOp51 w
  | 0x52 => decodeOp52 w
  | 0x53 => decodeOp53 w
  | 0x54 => decodeOp54 w
  | 0x55 => decodeOp55 w
  | 0x56 => decodeOp56 w
  | 0x57 => decodeOp57 w
  | 0x58 => decodeOp58 w
  | 0x59 => decodeOp59 w
  | 0x60 => decodeOp60 w
  | 0x61 => decodeOp61 w
  | 0x62 => decodeOp62 w
  | 0x63 => decodeOp63 w
  | 0x64 => decodeOp64 w
  | 0x65 => decodeOp65 w
  | 0x66 => decodeOp66 w
  | 0x67 => decodeOp67 w
  | 0x68 => decodeOp68 w
  | 0x69 => decodeOp69 w
  | 0x6A => decodeOp6A w
  | 0x6B => decodeOp6B w
  | 0x6C => decodeOp6C w
  | 0x6D => decodeOp6D w
  | 0x6E => decodeOp6E w
  | 0x6F => decodeOp6F w
  | 0x70 => decodeOp70 w
  | 0x71 => decodeOp71 w
  | 0x72 => decodeOp72 w
  | 0x73 => decodeOp73 w
  | 0x74 => decodeOp74 w
  | 0x75 => decodeOp75 w
  | 0x76 => decodeOp76 w
  | 0x78 => decodeOp78 w
  | 0x79 => decodeOp79 w
  | 0x7A => decodeOp7A w
  | 0x7B => decodeOp7B w
  | 0x7C => decodeOp7C w
  | 0x7D => decodeOp7D w
  | _ => none

/-- The instruction the decoder reads from the one word of a table row: bit 0 is the least significant bit of the word
(R27: every instruction is one 32-bit word, little-endian in memory); the bits above `nbits` are 0. -/
def decodeTableWord (nbits w : Nat) : Option Instr := decodeWord (BitVec.ofNat 32 (w % 2 ^ nbits))

/-- Every decode check of R39, in its order, for a strand of kind `k`: the instruction, or the cause of the trap. -/
def decodeCheck (k : StrandKind) (w : BitVec 32) : Except DecodeCause Instr :=
  if !opAssigned (opOf w) then .error .unassigned
  else if !opAllowed (opOf w) k then .error .wrongStrand
  else if queueDirectionBad w then .error .wrongStrand
  else match decodeWord w with
    | none => .error .unassigned
    | some i => if i.wf k then .ok i else .error .unassigned

/-- The sub-op of a control-register change (R355). -/
def csrSub : CsrOp → BitVec 8
  | .write => 0x04#8
  | .set => 0x05#8
  | .clear => 0x06#8

/-- The word of an instruction; none for the steps that are no instruction words. -/
def encode : Instr → Option (BitVec 32)
  | .add w d a b => some (BitVec.ofBool w ++ 0x0#7 ++ d ++ a ++ b)
  | .sub w d a b => some (BitVec.ofBool w ++ 0x1#7 ++ d ++ a ++ b)
  | .mul w d a b => some (BitVec.ofBool w ++ 0x2#7 ++ d ++ a ++ b)
  | .mulh w d a b => some (BitVec.ofBool w ++ 0x3#7 ++ d ++ a ++ b)
  | .mulhu w d a b => some (BitVec.ofBool w ++ 0x4#7 ++ d ++ a ++ b)
  | .and w d a b => some (BitVec.ofBool w ++ 0x5#7 ++ d ++ a ++ b)
  | .or w d a b => some (BitVec.ofBool w ++ 0x6#7 ++ d ++ a ++ b)
  | .xor w d a b => some (BitVec.ofBool w ++ 0x7#7 ++ d ++ a ++ b)
  | .sll w d a b => some (BitVec.ofBool w ++ 0x8#7 ++ d ++ a ++ b)
  | .srl w d a b => some (BitVec.ofBool w ++ 0x9#7 ++ d ++ a ++ b)
  | .sra w d a b => some (BitVec.ofBool w ++ 0xa#7 ++ d ++ a ++ b)
  | .slt w d a b => some (BitVec.ofBool w ++ 0xb#7 ++ d ++ a ++ b)
  | .sltu w d a b => some (BitVec.ofBool w ++ 0xc#7 ++ d ++ a ++ b)
  | .div w d a b => some (BitVec.ofBool w ++ 0xd#7 ++ d ++ a ++ b)
  | .divu w d a b => some (BitVec.ofBool w ++ 0xe#7 ++ d ++ a ++ b)
  | .rem w d a b => some (BitVec.ofBool w ++ 0xf#7 ++ d ++ a ++ b)
  | .addi w d i => some (BitVec.ofBool w ++ 0x10#7 ++ d ++ i)
  | .movi w d i => some (BitVec.ofBool w ++ 0x11#7 ++ d ++ i)
  | .orhi w d i => some (BitVec.ofBool w ++ 0x12#7 ++ d ++ i)
  | .andi w d i => some (BitVec.ofBool w ++ 0x13#7 ++ d ++ i)
  | .remu w d i => some (BitVec.ofBool w ++ 0x14#7 ++ d ++ i)
  | .sunClz w d a => some (BitVec.ofBool w ++ 0x16#7 ++ d ++ a ++ 0x0#8)
  | .sunCtz w d a => some (BitVec.ofBool w ++ 0x16#7 ++ d ++ a ++ 0x1#8)
  | .sunPopc w d a => some (BitVec.ofBool w ++ 0x16#7 ++ d ++ a ++ 0x2#8)
  | .sunSext8 w d a => some (BitVec.ofBool w ++ 0x16#7 ++ d ++ a ++ 0x3#8)
  | .sunSext16 w d a => some (BitVec.ofBool w ++ 0x16#7 ++ d ++ a ++ 0x4#8)
  | .sunSext32 w d a => some (BitVec.ofBool w ++ 0x16#7 ++ d ++ a ++ 0x5#8)
  | .sunZext8 w d a => some (BitVec.ofBool w ++ 0x16#7 ++ d ++ a ++ 0x6#8)
  | .sunZext16 w d a => some (BitVec.ofBool w ++ 0x16#7 ++ d ++ a ++ 0x7#8)
  | .sunZext32 w d a => some (BitVec.ofBool w ++ 0x16#7 ++ d ++ a ++ 0x8#8)
  | .sunNeg w d a => some (BitVec.ofBool w ++ 0x16#7 ++ d ++ a ++ 0x9#8)
  | .sunNot w d a => some (BitVec.ofBool w ++ 0x16#7 ++ d ++ a ++ 0xa#8)
  | .beq w a b f => some (BitVec.ofBool w ++ 0x18#7 ++ a ++ b ++ f)
  | .bne w a b f => some (BitVec.ofBool w ++ 0x19#7 ++ a ++ b ++ f)
  | .blt w a b f => some (BitVec.ofBool w ++ 0x1a#7 ++ a ++ b ++ f)
  | .bge w a b f => some (BitVec.ofBool w ++ 0x1b#7 ++ a ++ b ++ f)
  | .bltu w a b f => some (BitVec.ofBool w ++ 0x1c#7 ++ a ++ b ++ f)
  | .bgeu w a b f => some (BitVec.ofBool w ++ 0x1d#7 ++ a ++ b ++ f)
  | .loop w a k f => some (BitVec.ofBool w ++ 0x1e#7 ++ a ++ k ++ f)
  | .jmp w f => some (BitVec.ofBool w ++ 0x1f#7 ++ f)
  | .call w f => some (BitVec.ofBool w ++ 0x20#7 ++ f)
  | .jr w d a => some (BitVec.ofBool w ++ 0x21#7 ++ d ++ a ++ 0x0#8)
  | .mode w i => some (BitVec.ofBool w ++ 0x22#7 ++ 0x0#8 ++ i)
  | .sysNop w => some (BitVec.ofBool w ++ 0x23#7 ++ 0x0#24)
  | .sysTrap w i => some (BitVec.ofBool w ++ 0x23#7 ++ 0x1#8 ++ i)
  | .sysRet w => some (BitVec.ofBool w ++ 0x23#7 ++ 0x20000#24)
  | .sysCsrr w s c => some (BitVec.ofBool w ++ 0x23#7 ++ 0x3#8 ++ s ++ c)
  | .sysCsrw w s c => some (BitVec.ofBool w ++ 0x23#7 ++ 0x4#8 ++ s ++ c)
  | .sysCsrs w s c => some (BitVec.ofBool w ++ 0x23#7 ++ 0x5#8 ++ s ++ c)
  | .sysCsrc w s c => some (BitVec.ofBool w ++ 0x23#7 ++ 0x6#8 ++ s ++ c)
  | .sysYield w => some (BitVec.ofBool w ++ 0x23#7 ++ 0x70000#24)
  | .xadd w d a b => some (BitVec.ofBool w ++ 0x24#7 ++ d ++ a ++ b)
  | .xaddsc w d a b => some (BitVec.ofBool w ++ 0x25#7 ++ d ++ a ++ b)
  | .xmulsc w d a b => some (BitVec.ofBool w ++ 0x26#7 ++ d ++ a ++ b)
  | .xshl w d a b => some (BitVec.ofBool w ++ 0x27#7 ++ d ++ a ++ b)
  | .xiota w d a b => some (BitVec.ofBool w ++ 0x28#7 ++ d ++ a ++ b)
  | .xcmpEq w p a b => some (BitVec.ofBool w ++ 0x29#7 ++ 0x0#4 ++ p ++ a ++ b)
  | .xcmpNe w p a b => some (BitVec.ofBool w ++ 0x29#7 ++ 0x1#4 ++ p ++ a ++ b)
  | .xcmpLt w p a b => some (BitVec.ofBool w ++ 0x29#7 ++ 0x2#4 ++ p ++ a ++ b)
  | .xcmpGe w p a b => some (BitVec.ofBool w ++ 0x29#7 ++ 0x3#4 ++ p ++ a ++ b)
  | .xcmpLtu w p a b => some (BitVec.ofBool w ++ 0x29#7 ++ 0x4#4 ++ p ++ a ++ b)
  | .xcmpGeu w p a b => some (BitVec.ofBool w ++ 0x29#7 ++ 0x5#4 ++ p ++ a ++ b)
  | .vadd w d a b => some (BitVec.ofBool w ++ 0x30#7 ++ d ++ a ++ b)
  | .vsub w d a b => some (BitVec.ofBool w ++ 0x31#7 ++ d ++ a ++ b)
  | .vmul w d a b => some (BitVec.ofBool w ++ 0x32#7 ++ d ++ a ++ b)
  | .vmulh w d a b => some (BitVec.ofBool w ++ 0x33#7 ++ d ++ a ++ b)
  | .vmin w d a b => some (BitVec.ofBool w ++ 0x34#7 ++ d ++ a ++ b)
  | .vmax w d a b => some (BitVec.ofBool w ++ 0x35#7 ++ d ++ a ++ b)
  | .vand w d a b => some (BitVec.ofBool w ++ 0x36#7 ++ d ++ a ++ b)
  | .vor w d a b => some (BitVec.ofBool w ++ 0x37#7 ++ d ++ a ++ b)
  | .vxor w d a b => some (BitVec.ofBool w ++ 0x38#7 ++ d ++ a ++ b)
  | .vshl w d a b => some (BitVec.ofBool w ++ 0x39#7 ++ d ++ a ++ b)
  | .vshr w d a b => some (BitVec.ofBool w ++ 0x3a#7 ++ d ++ a ++ b)
  | .vabsd w d a b => some (BitVec.ofBool w ++ 0x3b#7 ++ d ++ a ++ b)
  | .vmac w d a b => some (BitVec.ofBool w ++ 0x3c#7 ++ d ++ a ++ b)
  | .vsel w d a b => some (BitVec.ofBool w ++ 0x3d#7 ++ d ++ a ++ b)
  | .vunClz w d a => some (BitVec.ofBool w ++ 0x3e#7 ++ d ++ a ++ 0x0#8)
  | .vunFfs w d a => some (BitVec.ofBool w ++ 0x3e#7 ++ d ++ a ++ 0x1#8)
  | .vunPopc w d a => some (BitVec.ofBool w ++ 0x3e#7 ++ d ++ a ++ 0x2#8)
  | .vunNeg w d a => some (BitVec.ofBool w ++ 0x3e#7 ++ d ++ a ++ 0x3#8)
  | .vunAbs w d a => some (BitVec.ofBool w ++ 0x3e#7 ++ d ++ a ++ 0x4#8)
  | .vunNot w d a => some (BitVec.ofBool w ++ 0x3e#7 ++ d ++ a ++ 0x5#8)
  | .vunMov w d a => some (BitVec.ofBool w ++ 0x3e#7 ++ d ++ a ++ 0x6#8)
  | .vcmpEq w p a b => some (BitVec.ofBool w ++ 0x3f#7 ++ 0x0#4 ++ p ++ a ++ b)
  | .vcmpNe w p a b => some (BitVec.ofBool w ++ 0x3f#7 ++ 0x1#4 ++ p ++ a ++ b)
  | .vcmpLt w p a b => some (BitVec.ofBool w ++ 0x3f#7 ++ 0x2#4 ++ p ++ a ++ b)
  | .vcmpGe w p a b => some (BitVec.ofBool w ++ 0x3f#7 ++ 0x3#4 ++ p ++ a ++ b)
  | .vcmpLe w p a b => some (BitVec.ofBool w ++ 0x3f#7 ++ 0x4#4 ++ p ++ a ++ b)
  | .vcmpGt w p a b => some (BitVec.ofBool w ++ 0x3f#7 ++ 0x5#4 ++ p ++ a ++ b)
  | .vcmpOrd w p a b => some (BitVec.ofBool w ++ 0x3f#7 ++ 0x6#4 ++ p ++ a ++ b)
  | .vcmpUnord w p a b => some (BitVec.ofBool w ++ 0x3f#7 ++ 0x7#4 ++ p ++ a ++ b)
  | .fadd w d a b => some (BitVec.ofBool w ++ 0x40#7 ++ d ++ a ++ b)
  | .fsub w d a b => some (BitVec.ofBool w ++ 0x41#7 ++ d ++ a ++ b)
  | .fmul w d a b => some (BitVec.ofBool w ++ 0x42#7 ++ d ++ a ++ b)
  | .fma w d a b => some (BitVec.ofBool w ++ 0x43#7 ++ d ++ a ++ b)
  | .fmin w d a b => some (BitVec.ofBool w ++ 0x44#7 ++ d ++ a ++ b)
  | .fmax w d a b => some (BitVec.ofBool w ++ 0x45#7 ++ d ++ a ++ b)
  | .funNeg w d a => some (BitVec.ofBool w ++ 0x46#7 ++ d ++ a ++ 0x0#8)
  | .funAbs w d a => some (BitVec.ofBool w ++ 0x46#7 ++ d ++ a ++ 0x1#8)
  | .funSqrt w d a => some (BitVec.ofBool w ++ 0x46#7 ++ d ++ a ++ 0x2#8)
  | .funRint w d a => some (BitVec.ofBool w ++ 0x46#7 ++ d ++ a ++ 0x3#8)
  | .cvt w d a t => some (BitVec.ofBool w ++ 0x47#7 ++ d ++ a ++ t)
  | .sfuSinpi w d a => some (BitVec.ofBool w ++ 0x48#7 ++ d ++ a ++ 0x0#8)
  | .sfuCospi w d a => some (BitVec.ofBool w ++ 0x48#7 ++ d ++ a ++ 0x1#8)
  | .sfuExp2 w d a => some (BitVec.ofBool w ++ 0x48#7 ++ d ++ a ++ 0x2#8)
  | .sfuLog2 w d a => some (BitVec.ofBool w ++ 0x48#7 ++ d ++ a ++ 0x3#8)
  | .sfuRcp w d a => some (BitVec.ofBool w ++ 0x48#7 ++ d ++ a ++ 0x4#8)
  | .sfuRsqrt w d a => some (BitVec.ofBool w ++ 0x48#7 ++ d ++ a ++ 0x5#8)
  | .vmovi w d i => some (BitVec.ofBool w ++ 0x49#7 ++ d ++ i)
  | .vmovhi w d i => some (BitVec.ofBool w ++ 0x4a#7 ++ d ++ i)
  | .scanAdd w d a => some (BitVec.ofBool w ++ 0x50#7 ++ d ++ a ++ 0x0#8)
  | .scanMin w d a => some (BitVec.ofBool w ++ 0x50#7 ++ d ++ a ++ 0x1#8)
  | .scanMax w d a => some (BitVec.ofBool w ++ 0x50#7 ++ d ++ a ++ 0x2#8)
  | .scanAnd w d a => some (BitVec.ofBool w ++ 0x50#7 ++ d ++ a ++ 0x3#8)
  | .scanOr w d a => some (BitVec.ofBool w ++ 0x50#7 ++ d ++ a ++ 0x4#8)
  | .scanXor w d a => some (BitVec.ofBool w ++ 0x50#7 ++ d ++ a ++ 0x5#8)
  | .scanAddx w d a => some (BitVec.ofBool w ++ 0x50#7 ++ d ++ a ++ 0x10#8)
  | .scanMinx w d a => some (BitVec.ofBool w ++ 0x50#7 ++ d ++ a ++ 0x11#8)
  | .scanMaxx w d a => some (BitVec.ofBool w ++ 0x50#7 ++ d ++ a ++ 0x12#8)
  | .scanAndx w d a => some (BitVec.ofBool w ++ 0x50#7 ++ d ++ a ++ 0x13#8)
  | .scanOrx w d a => some (BitVec.ofBool w ++ 0x50#7 ++ d ++ a ++ 0x14#8)
  | .scanXorx w d a => some (BitVec.ofBool w ++ 0x50#7 ++ d ++ a ++ 0x15#8)
  | .vredAdd w d a => some (BitVec.ofBool w ++ 0x51#7 ++ d ++ a ++ 0x0#8)
  | .vredMin w d a => some (BitVec.ofBool w ++ 0x51#7 ++ d ++ a ++ 0x1#8)
  | .vredMax w d a => some (BitVec.ofBool w ++ 0x51#7 ++ d ++ a ++ 0x2#8)
  | .vredAnd w d a => some (BitVec.ofBool w ++ 0x51#7 ++ d ++ a ++ 0x3#8)
  | .vredOr w d a => some (BitVec.ofBool w ++ 0x51#7 ++ d ++ a ++ 0x4#8)
  | .vredXor w d a => some (BitVec.ofBool w ++ 0x51#7 ++ d ++ a ++ 0x5#8)
  | .vperm w d a b => some (BitVec.ofBool w ++ 0x52#7 ++ d ++ a ++ b)
  | .vxshuf w d a b => some (BitVec.ofBool w ++ 0x53#7 ++ d ++ a ++ b)
  | .vbcast w d a b => some (BitVec.ofBool w ++ 0x54#7 ++ d ++ a ++ b)
  | .cqVpop w d a => some (BitVec.ofBool w ++ 0x55#7 ++ d ++ a ++ 0x0#8)
  | .cqVpush w d a => some (BitVec.ofBool w ++ 0x55#7 ++ d ++ a ++ 0x1#8)
  | .cqHpop w d => some (BitVec.ofBool w ++ 0x55#7 ++ d ++ 0x2#16)
  | .cqHpush w a => some (BitVec.ofBool w ++ 0x55#7 ++ 0x0#8 ++ a ++ 0x3#8)
  | .vgetr w d a b => some (BitVec.ofBool w ++ 0x56#7 ++ d ++ a ++ b)
  | .vsetr w d a b => some (BitVec.ofBool w ++ 0x57#7 ++ d ++ a ++ b)
  | .plogAnd w d a b => some (BitVec.ofBool w ++ 0x58#7 ++ 0x0#4 ++ d ++ 0x0#4 ++ a ++ 0x0#4 ++ b)
  | .plogOr w d a b => some (BitVec.ofBool w ++ 0x58#7 ++ 0x1#4 ++ d ++ 0x0#4 ++ a ++ 0x0#4 ++ b)
  | .plogXor w d a b => some (BitVec.ofBool w ++ 0x58#7 ++ 0x2#4 ++ d ++ 0x0#4 ++ a ++ 0x0#4 ++ b)
  | .plogAndn w d a b => some (BitVec.ofBool w ++ 0x58#7 ++ 0x3#4 ++ d ++ 0x0#4 ++ a ++ 0x0#4 ++ b)
  | .plogNot w d a => some (BitVec.ofBool w ++ 0x58#7 ++ 0x4#4 ++ d ++ 0x0#4 ++ a ++ 0x0#8)
  | .plogMov w d a => some (BitVec.ofBool w ++ 0x58#7 ++ 0x5#4 ++ d ++ 0x0#4 ++ a ++ 0x0#8)
  | .predPopc w d a => some (BitVec.ofBool w ++ 0x59#7 ++ d ++ a ++ 0x0#8)
  | .predAny w d a => some (BitVec.ofBool w ++ 0x59#7 ++ d ++ a ++ 0x1#8)
  | .predAll w d a => some (BitVec.ofBool w ++ 0x59#7 ++ d ++ a ++ 0x2#8)
  | .predFirst w d a => some (BitVec.ofBool w ++ 0x59#7 ++ d ++ a ++ 0x3#8)
  | .predMask w d a => some (BitVec.ofBool w ++ 0x59#7 ++ d ++ a ++ 0x4#8)
  | .ld w q b x z r s => some (BitVec.ofBool w ++ 0x60#7 ++ q ++ b ++ x ++ z ++ r ++ s)
  | .st w q b x z r s => some (BitVec.ofBool w ++ 0x61#7 ++ q ++ b ++ x ++ z ++ r ++ s)
  | .lds w q b z r s => some (BitVec.ofBool w ++ 0x62#7 ++ q ++ b ++ 0x0#5 ++ z ++ r ++ s)
  | .sts w q b z r s => some (BitVec.ofBool w ++ 0x63#7 ++ q ++ b ++ 0x0#5 ++ z ++ r ++ s)
  | .stc w q b z r s => some (BitVec.ofBool w ++ 0x64#7 ++ q ++ b ++ 0x0#5 ++ z ++ r ++ s)
  | .cld w q b x z r s => some (BitVec.ofBool w ++ 0x65#7 ++ q ++ b ++ x ++ z ++ r ++ s)
  | .cst w q b x z r s => some (BitVec.ofBool w ++ 0x66#7 ++ q ++ b ++ x ++ z ++ r ++ s)
  | .cldf w q b x => some (BitVec.ofBool w ++ 0x67#7 ++ q ++ b ++ x ++ 0x40#7)
  | .cste w q b x => some (BitVec.ofBool w ++ 0x68#7 ++ q ++ b ++ x ++ 0x40#7)
  | .aadd w q b x z r s => some (BitVec.ofBool w ++ 0x69#7 ++ q ++ b ++ x ++ 0x1#1 ++ z ++ r ++ s)
  | .aswap w q b x z r s => some (BitVec.ofBool w ++ 0x6a#7 ++ q ++ b ++ x ++ 0x1#1 ++ z ++ r ++ s)
  | .acas w q b x z r s => some (BitVec.ofBool w ++ 0x6b#7 ++ q ++ b ++ x ++ 0x1#1 ++ z ++ r ++ s)
  | .amin w q b x z r s => some (BitVec.ofBool w ++ 0x6c#7 ++ q ++ b ++ x ++ 0x1#1 ++ z ++ r ++ s)
  | .amax w q b x z r s => some (BitVec.ofBool w ++ 0x6d#7 ++ q ++ b ++ x ++ 0x1#1 ++ z ++ r ++ s)
  | .aor w q b x z r s => some (BitVec.ofBool w ++ 0x6e#7 ++ q ++ b ++ x ++ 0x1#1 ++ z ++ r ++ s)
  | .aand w q b x z r s => some (BitVec.ofBool w ++ 0x6f#7 ++ q ++ b ++ x ++ 0x1#1 ++ z ++ r ++ s)
  | .aqHpush w a => some (BitVec.ofBool w ++ 0x70#7 ++ 0x0#8 ++ a ++ 0x0#8)
  | .aqHpop w d => some (BitVec.ofBool w ++ 0x70#7 ++ d ++ 0x1#16)
  | .aqXpop w d a => some (BitVec.ofBool w ++ 0x70#7 ++ d ++ a ++ 0x2#8)
  | .aqXpops w d a => some (BitVec.ofBool w ++ 0x70#7 ++ d ++ a ++ 0x3#8)
  | .aqEqw w d a => some (BitVec.ofBool w ++ 0x70#7 ++ d ++ a ++ 0x4#8)
  | .aqEqr w d a => some (BitVec.ofBool w ++ 0x70#7 ++ d ++ a ++ 0x5#8)
  | .syncAcq w k s j => some (BitVec.ofBool w ++ 0x71#7 ++ 0x0#8 ++ k ++ s ++ j)
  | .syncRel w k s j => some (BitVec.ofBool w ++ 0x71#7 ++ 0x1#8 ++ k ++ s ++ j)
  | .syncFence w s => some (BitVec.ofBool w ++ 0x71#7 ++ 0x4#9 ++ s ++ 0x0#12)
  | .syncGbar w k => some (BitVec.ofBool w ++ 0x71#7 ++ 0x18000#23 ++ k)
  | .copyPublish w s n => some (BitVec.ofBool w ++ 0x72#7 ++ 0x0#8 ++ s ++ n)
  | .copyBclose w s => some (BitVec.ofBool w ++ 0x72#7 ++ 0x1#8 ++ s ++ 0x0#10)
  | .copyBwait w s => some (BitVec.ofBool w ++ 0x72#7 ++ 0x2#8 ++ s ++ 0x0#10)
  | .taskSpawn w s k => some (BitVec.ofBool w ++ 0x73#7 ++ 0x0#8 ++ s ++ 0x0#9 ++ k)
  | .taskTlwait w s i => some (BitVec.ofBool w ++ 0x73#7 ++ 0x1#8 ++ s ++ i)
  | .taskTlsig w s i => some (BitVec.ofBool w ++ 0x73#7 ++ 0x2#8 ++ s ++ i)
  | .taskMarm w s => some (BitVec.ofBool w ++ 0x73#7 ++ 0x3#8 ++ s ++ 0x0#10)
  | .taskMwait w s => some (BitVec.ofBool w ++ 0x73#7 ++ 0x4#8 ++ s ++ 0x0#10)
  | .taskDdec w s => some (BitVec.ofBool w ++ 0x73#7 ++ 0x5#8 ++ s ++ 0x0#10)
  | .taskWjoin w s k t => some (BitVec.ofBool w ++ 0x73#7 ++ 0x6#8 ++ s ++ 0x0#5 ++ k ++ t)
  | .taskWleave w s => some (BitVec.ofBool w ++ 0x73#7 ++ 0x7#8 ++ s ++ 0x0#10)
  | .taskCancel w s k l => some (BitVec.ofBool w ++ 0x73#7 ++ 0x8#8 ++ s ++ 0x0#7 ++ k ++ l)
  | .scoutOpen w s n => some (BitVec.ofBool w ++ 0x74#7 ++ 0x0#8 ++ s ++ 0x0#4 ++ n)
  | .scoutTake w s c k n => some (BitVec.ofBool w ++ 0x74#7 ++ 0x1#8 ++ s ++ 0x0#2 ++ c ++ k ++ n)
  | .scoutClose w s n => some (BitVec.ofBool w ++ 0x74#7 ++ 0x2#8 ++ s ++ 0x0#4 ++ n)
  | .scoutVerdict w s k => some (BitVec.ofBool w ++ 0x74#7 ++ 0x3#8 ++ s ++ 0x0#9 ++ k)
  | .treeCreate w s => some (BitVec.ofBool w ++ 0x75#7 ++ 0x0#8 ++ s ++ 0x0#10)
  | .treeFork w s => some (BitVec.ofBool w ++ 0x75#7 ++ 0x1#8 ++ s ++ 0x0#10)
  | .treeAppend w s => some (BitVec.ofBool w ++ 0x75#7 ++ 0x2#8 ++ s ++ 0x0#10)
  | .treePrune w s => some (BitVec.ofBool w ++ 0x75#7 ++ 0x3#8 ++ s ++ 0x0#10)
  | .treeCommit w s => some (BitVec.ofBool w ++ 0x75#7 ++ 0x4#8 ++ s ++ 0x0#10)
  | .treeAhead w s g t k => some (BitVec.ofBool w ++ 0x75#7 ++ 0x5#8 ++ s ++ 0x0#7 ++ g ++ t ++ k)
  | .treeHandover w s => some (BitVec.ofBool w ++ 0x75#7 ++ 0x6#8 ++ s ++ 0x0#10)
  | .treeTokrdy w s k => some (BitVec.ofBool w ++ 0x75#7 ++ 0x7#8 ++ s ++ 0x0#9 ++ k)
  | .treeDestroy w s => some (BitVec.ofBool w ++ 0x75#7 ++ 0x8#8 ++ s ++ 0x0#10)
  | .xchDpost w s => some (BitVec.ofBool w ++ 0x76#7 ++ 0x0#8 ++ s ++ 0x0#10)
  | .xchDcal w s k => some (BitVec.ofBool w ++ 0x76#7 ++ 0x1#8 ++ s ++ 0x0#9 ++ k)
  | .xchTsend w s => some (BitVec.ofBool w ++ 0x76#7 ++ 0x2#8 ++ s ++ 0x0#10)
  | .xchColl w s => some (BitVec.ofBool w ++ 0x76#7 ++ 0x3#8 ++ s ++ 0x0#10)
  | .xchRcnt w s o c => some (BitVec.ofBool w ++ 0x76#7 ++ 0x4#8 ++ s ++ o ++ c)
  | .mmul w d a b => some (BitVec.ofBool w ++ 0x78#7 ++ d ++ a ++ b)
  | .mzero w d a => some (BitVec.ofBool w ++ 0x79#7 ++ d ++ a ++ 0x0#8)
  | .mfill w d a c => some (BitVec.ofBool w ++ 0x7a#7 ++ d ++ a ++ c)
  | .mdrain w d a c => some (BitVec.ofBool w ++ 0x7b#7 ++ d ++ a ++ c)
  | .mfmt w d a => some (BitVec.ofBool w ++ 0x7c#7 ++ d ++ a ++ 0x0#8)
  | .msacc w d a b => some (BitVec.ofBool w ++ 0x7d#7 ++ d ++ a ++ b)
  | .seqMbox w s => some (BitVec.ofBool w ++ 0x23#7 ++ 0x3#8 ++ s ++ 0x1C0#10)
  | .seqPost w s => some (BitVec.ofBool w ++ 0x23#7 ++ 0x4#8 ++ s ++ 0x1C1#10)
  | .seqClient w o s => some (BitVec.ofBool w ++ 0x23#7 ++ csrSub o ++ s ++ 0x1C2#10)
  | .vwin w o s => some (BitVec.ofBool w ++ 0x23#7 ++ csrSub o ++ s ++ 0x021#10)
  | .trapMode w o s => some (BitVec.ofBool w ++ 0x23#7 ++ csrSub o ++ s ++ 0x054#10)
  | .statusBrk w s => some (BitVec.ofBool w ++ 0x23#7 ++ 0x6#8 ++ s ++ 0x041#10)
  | .copy _ => none
  | .gather _ => none
  | .completion _ _ _ => none
  | .mask _ => none
  | .stat _ => none
  | .tol _ => none
  | .eq2Word _ => none
  | .eq5Word _ => none
  | .collectiveCompletion _ _ => none
  | .exchangeCompletion _ _ _ => none
  | .fullEmptyPerform _ => none
  | .gbarDeparture _ => none
  | .accessAccept _ => none
  | .replay _ => none
  | .atomicPerform _ => none
  | .errorReply _ => none
  | .monitorWake _ => none
  | .mwaitTimeout _ => none
  | .courierToken _ => none
  | .migration _ _ _ => none
  | .counterHalving => none
  | .toleranceCompare _ _ => none
  | .commit _ => none
  | .squash _ => none
  | .graphPacket _ _ => none
  | .timelineWaitPacket _ _ => none
  | .timelineSignalPacket _ _ => none
  | .phaseEndPacket _ _ => none
  | .ageInterval _ _ => none
  | .gangPlacement _ _ _ _ _ => none
  | .sproutPlacement _ _ _ _ _ => none
  | .retirement _ => none
  | .nodeCompletion _ _ _ => none
  | .launchCompletion _ _ => none
  | .graphCompletion _ _ => none
  | .timelineRelease _ => none
  | .preemptionRequest _ => none
  | .preemptionWithdraw _ => none
  | .deadline _ => none
  | .save _ => none
  | .restore _ _ _ => none
  | .hostPostedWrite _ _ _ => none
  | .hostRead _ _ _ => none
  | .triggerFire _ => none
  | .receiveCounterArrival _ _ _ _ => none
  | .chunkArrival _ _ _ _ _ _ => none
  | .chunkRetry _ _ => none
  | .post _ _ _ _ => none
  | .postTimeout _ _ => none
  | .grant _ _ => none
  | .heartbeat _ _ => none
  | .go _ _ _ => none
  | .arbiterSilence _ _ => none
  | .quantumArrival _ _ _ _ => none
  | .ringHeadAdvance _ _ => none
  | .tokrdyRelease _ => none
  | .spill _ _ => none
  | .pageFetch _ _ _ => none
  | .uncorrectableError _ => none
  | .correctedError _ => none
  | .flitRetry => none
  | .retrain => none
  | .fecRetry _ _ => none
  | .fibreRemoval _ _ => none
  | .fatalError _ => none
  | .warmReset _ => none
  | .powerCap _ => none
  | .thermalTrip _ => none
  | .boot => none
  | .spaceCommit _ _ _ _ => none
  | .queueSet _ _ _ => none
  | .queueStop _ _ => none
  | .timelineSet _ _ _ => none
  | .arbReadmit _ _ _ => none
  | .attest _ _ _ => none
  | .telemetry => none
  | .telemetryRefresh => none
  | .setcap _ => none
  | .dieresetBegin _ => none
  | .dieresetQuery _ => none
  | .dieoff _ => none
  | .bootstat => none
  | .stop _ _ _ => none
  | .resume _ _ _ => none
  | .step _ _ _ _ => none
  | .release _ _ _ => none
  | .select _ _ _ _ => none
  | .value _ _ _ _ => none
  | .freeze _ _ _ => none
  | .tileStep _ _ => none
  | .linkRetrained _ => none
  | .powerBelowCap _ => none
  | .partitionStart _ _ => none
  | .partitionTeardown _ => none

end Sys2Proof
end

