-- ==== Sys2Proof/Config.lean ====
section
/-! DEFINITION. What the manual leaves open: constants without a body, so that nothing can be proved of a value of
theirs, and the fixed figures of the device (R6, R26). -/

namespace Sys2Proof

/-- The free choice number `tag` made in the step whose counter is `n`: which of several outcomes that the manual
allows occurs (R33, R199, R220, R253). DESIGN CHOICE, safe (log entry 7). -/
opaque Config.pick (n tag : Nat) : Nat
/-- An undefined byte, for the step counter `n` and the address `a` (R312). DESIGN CHOICE, safe (log entry 7). -/
opaque Config.freeByte (n a : Nat) : Byte
/-- An undefined word that no rule fixes, for the step counter `n`. DESIGN CHOICE, safe (log entry 7). -/
opaque Config.freeWord (n tag : Nat) : W64
/-- The cycles, past the first, that the step with counter `n` takes (timing is not modelled). -/
opaque Config.extraCycles (n : Nat) : Nat
/-- SHA3-512, which the manual names and does not define (R73, R345, R348). DESIGN CHOICE, safe (log entry 15). -/
opaque Config.sha3 : List Byte → List Byte
/-- ML-DSA-87 verification of a signature over a message under a public key (R73). -/
opaque Config.mldsaVerify : List Byte → List Byte → List Byte → Bool
/-- ML-DSA-87 signature over a message under a secret key (R348). -/
opaque Config.mldsaSign : List Byte → List Byte → List Byte
/-- Fuse key digest `i`, 0 to 3 (R345). -/
opaque Config.fuseDigest : Nat → List Byte
/-- Fuse revocation bits 3:0 (R345). -/
opaque Config.fuseRevoked : BitVec 4
/-- The device serial number (R348). -/
opaque Config.serial : W64
/-- Telemetry byte `i` of the refresh made at step counter `n` (R390). -/
opaque Config.telemetryByte (n i : Nat) : Byte
/-- The binary32 result of special function `f` at `x` where 400 bits of its exact value do not decide the rounding. -/
opaque Config.sfuFree (f : Nat) (x : W32) : W32

/-- The host completes the PCIe AtomicOp `op` at a host address, or holds it in a CXL.cache-coherent region (R274). -/
opaque Config.hostAtomic (pa op : Nat) : Bool

/-- A host address lies in a CXL.cache-coherent region, whose lines may be held in private caches (R273). -/
opaque Config.cxlCached (pa : Nat) : Bool

/-- This device's number among the peers of its fabric (R21, R284, R296). DESIGN CHOICE, safe (log entry 15). -/
opaque Config.deviceNumber : Nat

/-- The destination of a triggered send faults at another device, for the step counter `n` and the trigger's slot (R282). DESIGN CHOICE,
safe (log entry 37). -/
opaque Config.farFault (n slot : Nat) : Bool

/-- The management mailbox's page, and where in it past the three words the telemetry record stands (R390). -/
opaque Config.mailboxPage : Nat
opaque Config.telemetryAt : Nat

/-- Die 1 HBM holds the monitor's standby copy in this 2 MiB frame, by number (R380). -/
opaque Config.standbyFrame : Nat → Bool

/-- Where the image of workgroup `g`, from 1 on, is mapped for a debugger whose first image stands at an address (R375). -/
opaque Config.imagePlace (base g : Nat) : Nat

/-- Where the debug block of a partition is mapped in its debugger's guest space (R375). -/
opaque Config.debugBlock (part : Nat) : Nat

/-- The identity seed that is fused into the device: 32 bytes (R345). -/
opaque Config.identitySeed : List Byte
/-- ML-DSA-87 key generation from a 32-byte seed, which the manual names and does not define: the secret and the public key (R348). -/
opaque Config.mldsaKeys : List Byte → List Byte × List Byte

/-- Clusters of the device and of one die (R6). -/
def Config.clusters : Nat := 288
/-- Clusters of one die (R6). -/
def Config.clustersPerDie : Nat := 144
/-- Lanes of a wave (R6). -/
def Config.lanes : Nat := 64
/-- Entries of every queue (R12). -/
def Config.queueDepth : Nat := 8
/-- Bytes of one creel (R16). -/
def Config.creelBytes : Nat := 4194304
/-- Cycles for which a private cache may keep a copy older than its home (R243). -/
def Config.staleCycles : Nat := 8192

end Sys2Proof
end

