-- ==== Sys2Proof/Machine/Store.lean ====
section
/-! DEFINITION. Sparse tables, canonical byte memories, lanes, and little-endian byte strings (R3, R4). -/

namespace Sys2Proof.Machine

/-- The value a table holds for key `k`, or `d` where it lists none. -/
def SMap.get {α : Type} (d : α) : SMap α → Nat → α
  | [], _ => d
  | (j, v) :: m, k => if j = k then v else SMap.get d m k

/-- The table without key `k`. -/
def SMap.del {α : Type} : SMap α → Nat → SMap α
  | [], _ => []
  | (j, v) :: m, k => if j = k then SMap.del m k else (j, v) :: SMap.del m k

/-- Insert before the first greater key. -/
def SMap.insert {α : Type} (k : Nat) (v : α) : SMap α → SMap α
  | [] => [(k, v)]
  | (j, w) :: m => if k < j then (k, v) :: (j, w) :: m else (j, w) :: SMap.insert k v m

/-- The table with `k` bound to `v`. -/
def SMap.put {α : Type} (k : Nat) (v : α) (m : SMap α) : SMap α := SMap.insert k v (SMap.del m k)

/-- Whether the table lists `k`. -/
def SMap.has {α : Type} : SMap α → Nat → Bool
  | [], _ => false
  | (j, _) :: m, k => if j = k then true else SMap.has m k

/-- The listed value of `k`, if any. -/
def SMap.find {α : Type} : SMap α → Nat → Option α
  | [], _ => none
  | (j, v) :: m, k => if j = k then some v else SMap.find m k

/-- Change the value of `k` by `f`, from `d` where none is listed. -/
def SMap.upd {α : Type} (d : α) (k : Nat) (f : α → α) (m : SMap α) : SMap α := SMap.put k (f (SMap.get d m k)) m

/-- Apply `f` to every listed value. -/
def SMap.mapVals {α : Type} (f : Nat → α → α) (m : SMap α) : SMap α := m.map fun e => (e.1, f e.1 e.2)

/-- What a byte that no write has reached reads as: 0. DESIGN CHOICE, unsafe (log entry 2). -/
def Mem.unlisted : Byte := 0#8

/-- Read one byte of a byte memory. -/
def Mem.read (m : List (Nat × Byte)) (a : Nat) : Byte := SMap.get Mem.unlisted m a

/-- Write one byte, keeping the canonical form: a byte equal to the unlisted value is not listed. -/
def Mem.write (m : List (Nat × Byte)) (a : Nat) (b : Byte) : List (Nat × Byte) :=
  if b = Mem.unlisted then SMap.del m a else SMap.put a b m

/-- Addresses strictly rising. -/
def Mem.sorted : List (Nat × Byte) → Bool
  | [] => true
  | [_] => true
  | (a, _) :: (b, w) :: m => decide (a < b) && Mem.sorted ((b, w) :: m)

/-- The canonical form of a byte memory: addresses strictly rising, no entry that an unlisted address would read as. -/
def Mem.wf (m : List (Nat × Byte)) : Bool := Mem.sorted m && m.all fun e => decide (e.2 ≠ Mem.unlisted)

/-- Write consecutive bytes from address `a`. -/
def Mem.writes (m : List (Nat × Byte)) (a : Nat) : List Byte → List (Nat × Byte)
  | [] => m
  | b :: bs => Mem.writes (Mem.write m a b) (a + 1) bs

/-- Replace `n` bytes from address `a` by those of a function of the offset, keeping the canonical form. -/
def Mem.splice (m : List (Nat × Byte)) (a n : Nat) (f : Nat → Byte) : List (Nat × Byte) :=
  (m.filter fun e => decide (e.1 < a))
    ++ (((List.range n).map fun i => (a + i, f i)).filter fun e => decide (e.2 ≠ Mem.unlisted))
    ++ m.filter fun e => decide (a + n ≤ e.1)

/-- `n` bytes from address `a`, lowest first. -/
def Mem.bytes (m : List (Nat × Byte)) (a n : Nat) : List Byte := (List.range n).map fun i => Mem.read m (a + i)

/-- The number whose little-endian bytes are given (R4). -/
def leNat : List Byte → Nat
  | [] => 0
  | b :: bs => b.toNat + 256 * leNat bs

/-- The `n` little-endian bytes of a number (R4). -/
def leBytes : Nat → Nat → List Byte
  | 0, _ => []
  | n + 1, x => BitVec.ofNat 8 x :: leBytes n (x / 256)

/-- The 64 lanes of a function of the lane number. -/
def Lanes.ofFn {α : Type} (f : Nat → α) : List α := (List.range 64).map f

/-- Lane `l` of a 64-lane value. -/
def Lanes.get32 (v : Vec) (l : Nat) : W32 := v.getD l 0#32
/-- Lane `l` of an address vector. -/
def Lanes.get64 (v : XVec) (l : Nat) : W64 := v.getD l 0#64
/-- A vector register that nothing has written since placement (R254). -/
def Lanes.zero32 : Vec := List.replicate 64 0#32
/-- An address vector that nothing has written since placement (R254). -/
def Lanes.zero64 : XVec := List.replicate 64 0#64

/-- Bit `i` of a 64-bit mask. -/
def maskBit (m : W64) (i : Nat) : Bool := m.getLsbD i
/-- The mask whose bit `i` is `f i`. -/
def maskOf (f : Nat → Bool) : W64 :=
  BitVec.ofNat 64 ((List.range 64).foldl (fun acc i => if f i then acc + 2 ^ i else acc) 0)
/-- The lanes, ascending, whose bit is 1. -/
def maskLanes (m : W64) : List Nat := (List.range 64).filter fun l => maskBit m l
/-- Replace element `i` of a list. -/
def listSet {α : Type} (l : List α) (i : Nat) (x : α) : List α := l.set i x
/-- Change element `i` of a list by `f`. -/
def listUpd {α : Type} (l : List α) (i : Nat) (f : α → α) : List α := l.modify i f
/-- The number of one bits of the low `n` bits. -/
def popCount (n x : Nat) : Nat := (List.range n).foldl (fun acc i => if x.testBit i then acc + 1 else acc) 0
/-- Zero bits above the highest set bit of a `w`-bit number; `w` for 0. -/
def clz (w x : Nat) : Nat := if x = 0 then w else w - 1 - Nat.log2 x
/-- Zero bits below the lowest set bit of a `w`-bit number; `w` for 0. -/
def ctz (w x : Nat) : Nat := ((List.range w).find? fun i => x.testBit i).getD w

end Sys2Proof.Machine
end

