-- ==== Sys2Proof/Machine/State.lean ====
section
/-! DEFINITION. The state of the device, as plain data: every piece of state the manual names, and the few fields that are
the model's own (the free-value counter, the turn list, the agents' turn). -/

namespace Sys2Proof.Machine

/-! ## Why a step can stop -/

/-- The machine stops with a fault. -/
inductive Fault where
  /-- Raised by `FATAL_ERROR` of the die from which the monitor runs while the other die is not live: the device stops
  (R380). Safe: the manual says the device stops. -/
  | deviceStopped
  deriving DecidableEq, Repr

/-- No meaning is given. -/
inductive Refusal where
  /-- Raised by `exec` for an instruction that has no meaning yet. Safe: nothing is claimed of it. -/
  | notModelled (mnemonic : String)
  deriving DecidableEq, Repr

/-! ## Ordering records (R214 to R222) -/

/-- Where an agent stands, for the scopes of R23; `wave` is the agent's number. -/
structure Place where
  wave : Nat
  unit : Nat
  cluster : Nat
  weave : Nat          -- number of the weave, 0 for none
  external : Bool      -- the host or a peer device
  deriving DecidableEq, Repr

/-- What a release or acquire names: one object of a space, the creel object, or every object (R216, R217). -/
inductive Obj where
  | page (space object : Nat)
  | creel
  | all
  deriving DecidableEq, Repr

/-- The writes an agent must see: for a byte location, the time of the earliest write it may still read and the object
the byte is bound to. -/
abbrev View := SMap (Nat × Obj)

/-- A release: its object, scope, agent, its place in the agent's program order, and the writes it covers (R219). -/
structure Rel where
  obj : Obj
  scope : Nat
  place : Place
  seq : Nat
  cover : View
  deriving DecidableEq, Repr

/-- One performed write of a byte: when, by which agent, where, the byte's object, the byte it replaced, and the releases it carries (R217,
R218). An access strand is numbered 32 × its unit + its wave's place in the unit; an engine command 2^40 + its own number;
the sequencer of a cluster 2^41 + the cluster; any other agent is 0. A record whose span is not 0 is the rotation of a page or
its migration: it counts as a write of all `span` bytes from `loc`, which every agent sees (R209, R228). -/
structure WriteRec where
  time : Nat
  cycle : Nat          -- the cycle in which it was performed
  who : Nat
  loc : Nat
  span : Nat
  obj : Obj            -- `.all` where the writer is no strand or engine command
  old : Byte
  rels : List Rel
  deriving DecidableEq, Repr

/-! ## Strands and waves -/

/-- An outstanding register result: the register, and the value and poison marks it had before (R32, R33). -/
inductive OutReg where
  | s (r : Nat) (old : W64) (bad : Bool)
  | v (r : Nat) (old : Vec) (bad : W64)
  | x (r : Nat) (old : XVec) (bad : W64)
  | p (r : Nat) (old : W64) (bad : Bool)
  deriving DecidableEq, Repr

/-- A trap on its way to the handler (R34, R352). -/
structure TrapRec where
  cause : Nat
  info : Option W64
  addr : Option W64
  lane : Option Nat
  stop : W64
  deriving DecidableEq, Repr

/-- The trap, fault and status registers of a strand (R353). -/
structure Csrs where
  handler : W64
  trapPc : W64
  cause : BitVec 8
  info : W64
  trapMode : BitVec 16
  scratch : W64
  inHandler : Bool
  faultAddr : W64
  faultEaddr : W64
  faultLane : BitVec 6
  brk : Bool
  deriving DecidableEq, Repr

/-- An armed monitor: its line and the wake recorded, 0 for none (R207, R208). -/
structure Monitor where
  line : Nat
  wake : Nat
  deriving DecidableEq, Repr

/-- A full/empty instruction that waits for its words (R193): its place in the order, whether it is cldf, its queue, its
switch mark and the lanes it acts on with their addresses and data. -/
structure FeWait where
  order : Nat
  load : Bool
  q : Nat
  sw : Bool
  lanes : List (Nat × Nat × W64)
  deriving DecidableEq, Repr

/-- What a strand that stands before an instruction already did there. -/
inductive Wait where
  | none
  /-- arrived at its next barrier instance; whether its kind orders, and its switch mark (R231) -/
  | gbar (orders sw : Bool)
  /-- joined, awaiting `count` members (R195) -/
  | wjoin (count status : Nat)
  /-- token-ready target read; `broken` once the general core that its block names has failed (R329, R382) -/
  | tokrdy (block target die : Nat) (broken : Bool)
  /-- asleep in mwait since a cycle, with a time-out (R208) -/
  | mwait (since timeout : Nat)
  /-- waiting for full/empty words (R193) -/
  | fullEmpty (w : FeWait)
  /-- the member that a waiting full/empty instruction named at this address and lane has been revoked (R193) -/
  | revoked (va : W64) (lane : Nat)
  /-- waiting on a timeline (R266) -/
  | timeline (n : Nat) (threshold : W64)
  /-- released by a timeline's value, with whether it is broken and the releases it carries (R266, R382) -/
  | released (value : W64) (broken : Bool) (rels : List Rel)
  /-- an accepted cancel waits until it has been carried out (R269) -/
  | cancel (num : Nat)
  /-- ahead is written and waits for pages of a tree (R316) -/
  | ahead (tree : Nat) (pages : List Nat)
  /-- waiting for a version of a stream to be published (R175) -/
  | take (cluster stream : Nat) (version : BitVec 32)
  /-- a scout task's store has met a full overlay and waits for the verdict (R165) -/
  | overlay
  /-- at a creel allotment that another unit holds as a scout task (R166) -/
  | creel (holder : Nat)
  /-- anything else that blocks and is tried again -/
  | retry
  deriving DecidableEq, Repr

/-- One strand: its program counter, registers, control registers and standing (R8, R10). -/
structure Strand where
  pc : W64
  s : SMap W64
  sPoison : W64
  p : SMap W64
  pPoison : W64
  mode : BitVec 16
  vwinBase : BitVec 8
  vwinSize : BitVec 8
  csr : Csrs
  outs : List OutReg
  parked : Bool        -- by a switch mark, until every result has returned (R31)
  blocked : Bool       -- stands before its instruction (R12)
  yielded : Bool       -- by sys.yield (R367)
  ended : Bool         -- by sys.ret outside a handler (R255)
  stopped : Bool       -- made to stand by a forced save (R368)
  pendTrap : Option TrapRec
  storeErr : Option W64 -- the address of a failed store whose error is pending (R362)
  monitor : Option Monitor
  wait : Wait
  ctlBad : List Nat    -- marked control registers by number, 0x020 the mode word (R363)
  view : View          -- writes visible to it (R220)
  cover : View         -- of these, what a release of it covers (R219): all but what a fence alone made visible (R222)
  rels : List Rel      -- its releases, carried by its later writes (R217)
  seen : List Rel      -- releases that its reads have returned (R218)
  seqNo : Nat          -- accesses and releases issued so far
  deriving DecidableEq, Repr

/-- One vector queue entry (R12): the data, its lane-valid mask, its poison marks, lanes that fail parity, and for an
entry reserved by a load the accesses still to fill it (R189). -/
structure VEntry where
  data : Vec
  valid : W64
  poison : W64
  parityBad : W64
  tag : Nat
  missing : Nat
  deriving DecidableEq, Repr

/-- A scalar queue entry and its parity. `tag` is, for an engine's completion, its command's number (0 for none), and for a
word from the sequencer the time at which it was posted. -/
structure QEntry where
  val : W64
  parityBad : Bool
  tag : Nat
  deriving DecidableEq, Repr

/-- A copy or gather command that has been pushed and has not finished (R199 to R202): what it moves, how far it has read and
written, the bytes read and not yet written, and the batch it belongs to. -/
structure EngCmd where
  num : Nat
  view : View          -- what the engine must see: the pusher's stores (R198)
  gather : Bool
  words : Nat          -- its words in the command queue
  refusal : Option Nat -- its completion status if it is refused; 0xFF for an unassigned command word
  dk : Nat
  sk : Nat
  fe : Nat
  note : Bool
  tag : Nat
  length : Nat
  src : Nat            -- source, or table base
  dst : Nat
  list : Nat           -- index list of a gather
  pitch : Nat
  rowBytes : Nat
  batch : Option (BitVec 32)
  joined : Bool        -- counted by its batch, not held (R202)
  started : Bool
  read : Nat
  done : Nat
  buf : List Byte
  rowIdx : Nat         -- the index of the row that is being read
  deriving DecidableEq, Repr

/-- A finished, refused or stopped command whose completion is still to be posted (R200). -/
structure EngDone where
  num : Nat
  status : Nat
  tag : Nat
  done : Nat
  deriving DecidableEq, Repr

/-- A batch: its number, its pending bytes, its held commands, whether one of its commands failed, and the commands that
wrote for it (R202, R203). -/
structure Batch where
  num : BitVec 32
  pending : Nat
  held : Nat
  failed : Bool
  cmds : List Nat
  deriving DecidableEq, Repr

/-- One wave: its two strands, its registers by physical number, its queues and its engine commands. -/
structure Wave where
  unit : Nat           -- the unit that holds the slot, 0 for none
  live : Bool          -- the slot holds a wave
  pos : Nat            -- its place among the waves of its unit
  index : Nat          -- wave index within the workgroup (lc7)
  group : Nat          -- workgroup index within the gang (lc8)
  acc : Strand
  cmp : Strand
  v : SMap Vec
  vPoison : SMap W64
  x : SMap XVec
  xPoison : SMap W64
  lq : SMap (List VEntry)
  wq : SMap (List VEntry)
  hq0 : List QEntry
  hq1 : List QEntry
  eqCmd : SMap (List QEntry)   -- command words
  eqDone : SMap (List QEntry)  -- completion words
  eng : SMap (List EngCmd)     -- commands of the copy engine (0) and the gather engine (1), in push order
  fin : SMap (List EngDone)    -- their finished commands with a completion to post
  cmdNums : List Nat   -- the numbers of every engine command it has pushed
  openBatch : Batch
  closed : List Batch          -- closed batches, oldest first
  gbars : Nat          -- barrier instances completed (R231)
  deriving DecidableEq, Repr

/-! ## Sequencers and clusters -/

/-- A matrix instruction in flight: its word, copied records and descriptors, next tile and block (R133, R153). -/
structure MatOp where
  op : Nat             -- 0 mmul, 1 mzero, 2 mfill, 3 mdrain, 4 msacc
  word : W32
  addr : W64
  d : Nat
  a : Nat
  code : Nat
  recA : W64 × W64
  recB : W64 × W64
  fmtA : W32
  fmtB : W32
  tile : Nat           -- next tile, counted from the first
  block : Nat          -- next block
  bad : Bool           -- its saved record has failed its check (R373)
  deriving DecidableEq, Repr

/-- The sequencer of one cluster (R131 to R138). -/
structure Seq where
  owner : Nat          -- the unit it serves, 0 for none
  tiles : Nat          -- the owner's footprint tiles
  strand : Strand
  f : SMap W32
  client : BitVec 8
  flight : List MatOp  -- in issue order
  stoppedOn : Bool     -- poison has stopped it (R156)
  acc : SMap W32       -- accumulator elements: 4096 t + 64 m + n
  accPoison : SMap Bool
  cmdQ : SMap (List QEntry)    -- mailbox command words, by slot
  doneQ : SMap (List QEntry)   -- mailbox completion words, by slot
  deriving DecidableEq, Repr

/-- A version stream (R158 to R161, R179). -/
structure Stream where
  isOpen : Bool
  part : Nat
  space : Nat
  base : Nat
  length : Nat
  hold : Bool
  tolAbs : W32
  tolRel : W32
  k : BitVec 32
  h : Nat
  formed : Bool        -- S holds the prediction of version k+1
  last : Nat           -- last verdict: 0 none, 1 pass, 2 fail
  due : Bool           -- a publish made a version real that some take scouts (R167)
  cmpAbs : W32         -- the tolerances in force when that publish was performed
  cmpRel : W32
  deriving DecidableEq, Repr

/-- One cluster: its sequencer, its streams and the side it is assigned to. -/
structure Cluster where
  seq : Seq
  streams : SMap Stream
  decode : Bool        -- decode side, else prompt side (R325)
  part : Nat           -- the partition that holds it, 32 for none
  deriving DecidableEq, Repr

/-! ## Units, launches, graphs and queues -/

/-- A take of a stream by a unit (R175). -/
structure Take where
  cluster : Nat
  stream : Nat
  version : BitVec 32
  status : Nat
  backings : List Nat  -- the backing mapped in each 64 KiB page of the buffer, from the base's
  verdict : Nat        -- 0 none yet, 1 pass or committed, 2 fail
  producer : Nat       -- for a held input, the unit that publishes it
  word : W64           -- the status word it returned
  space : Nat
  base : Nat
  length : Nat
  deriving DecidableEq, Repr

/-- A byte of a scout task's overlay (R165): its value, the releases that its store carried, and whether a store has written the whole
32-byte granule, which clears a mark at the merge (R365). -/
structure OverlayByte where
  val : Byte
  rels : List Rel
  whole : Bool
  deriving DecidableEq, Repr

/-- A held publish of a scout task, and the wave that made it (R164, R206). -/
structure HeldPublish where
  idx : Nat
  space : Nat
  base : Nat
  pages : Nat
  deriving DecidableEq, Repr

/-- Where a unit is in its life. -/
inductive UnitLife where
  | waiting   -- queued again, to be placed afresh (R171)
  | resident
  | saved
  | stopped   -- saved by the debugger (R376)
  | gone
  deriving DecidableEq, Repr

/-- A reply deposited in the group header while the wave is out (R374). -/
structure Reply where
  wave : Nat
  reg : Nat
  val : W64
  poisoned : Bool
  deriving DecidableEq, Repr

/-- A gang or a sprout (R22). -/
structure UnitRec where
  life : UnitLife
  part : Nat
  space : Nat
  queue : Nat
  launch : Nat
  pos : Nat            -- lc6
  index : Nat × Nat × Nat
  sprout : Bool
  depth : Nat          -- nesting depth: gang 0, sprouts 1 to 4
  kdesc : Nat
  cluster : Nat
  slots : List Nat     -- global wave slots, wave by wave
  creelOff : Nat
  creelBytes : Nat
  tiles : Nat
  hasSeq : Bool
  lc : SMap W64        -- launch constants that are fixed for its life
  reserved : Bool      -- a sprout that runs on its spawn's reserved place
  preReq : Bool
  deadline : Nat       -- the cycle at which the save is forced
  why : Nat
  takes : List Take
  depthScout : Nat     -- 0 when not a scout task (R163)
  rerun : Bool
  held : List HeldPublish
  overlay : SMap OverlayByte    -- its uncommitted global bytes, by virtual address (R165)
  tags : List (Nat × Nat)       -- tree, node (R316)
  pins : List (Nat × Nat)       -- tree, page (R316)
  image : List Wave    -- the saved waves (R372)
  imageSeq : Option Seq         -- the saved sequencer (R373)
  imageCreel : List (Nat × Byte)
  imageRecs : List WriteRec      -- the newest writes of its creel bytes, by offset, with what they carry (R217)
  imageFull : SMap Bool
  imagePoison : SMap Bool       -- poison marks of its creel words
  mappedAt : Option Nat         -- where a debugger has its image mapped (R375)
  edits : SMap Byte             -- bytes that a debugger has written in its image, by 2^32 × workgroup + offset (R375)
  lcSet : SMap W64              -- launch constants that a debugger has written, by 32 × workgroup + number (R375)
  stepping : Option Nat         -- the strand that a debugger's step lets issue once (R377)
  replies : List Reply
  deriving DecidableEq, Repr

/-- A place that fits one wave with its footprint: cluster, slot within it, creel offset, creel bytes and tiles (R257). -/
structure Spot where
  cluster : Nat
  slot : Nat
  off : Nat
  bytes : Nat
  tiles : Nat
  deriving DecidableEq, Repr

/-- A launch: a graph node's or a spawn's (R250, R256, R268). -/
structure Launch where
  spawn : Bool
  kdesc : Nat
  block : Nat          -- address of the block or spawn descriptor (lc17)
  counts : Nat × Nat × Nat
  order : Nat
  swizzle : Nat
  priority : Nat
  affinity : Nat
  args : List W64
  queue : Nat
  gid : Nat            -- the graph that holds it
  graph : Nat          -- key of the graph
  node : Nat
  space : Nat
  depth : Nat          -- depth of its units
  next : Nat           -- next position to place
  live : Nat           -- units not retired
  cancelled : Bool
  done : Bool
  tl : Option (Nat × W64)
  parent : Nat         -- spawning launch, 0 for none
  resv : Option Spot   -- the reserved place (R257)
  resvBusy : Bool
  seqNo : Nat          -- enqueue order
  view : View          -- what its units' beginning acquires (R262)
  cover : View         -- what the retirements of its units release (R255)
  deriving DecidableEq, Repr

/-- A started graph (R260 to R264). -/
structure Graph where
  gid : Nat
  header : Nat
  sink : Nat
  queue : Nat
  phase : Nat
  job : Nat
  space : Nat
  openNodes : Nat      -- enqueued nodes not complete
  sinkDone : Bool
  cancelled : Bool
  lost : Bool          -- one of its launches was cancelled by itself (R269)
  malformed : Bool
  done : Bool
  waiting : List (Nat × View)          -- enqueued nodes of which a block stands in spill, and what their units begin with (R324)
  complete : List (Nat × Nat × View)   -- completed nodes, the next successor to decrement, and what they have written (R261)
  cover : View         -- what its completed nodes have written
  deriving DecidableEq, Repr

/-- A cancel that has been accepted and not carried out: its number, the launches and graphs it reaches, or the units whose
nodes a tree operation has removed, the cycle of its acceptance and the cycles within which it is carried out (R269, R322). -/
structure Cancel where
  num : Nat
  part : Nat
  launches : List Nat
  graphs : List Nat
  units : List Nat
  since : Nat
  limit : Nat
  deriving DecidableEq, Repr

/-- A hardware queue (R244 to R249, R344). -/
structure HwQueue where
  set : Bool
  desc : Nat
  space : Nat
  ring : Nat
  entries : Nat
  base : Nat
  age : Nat
  ageFrom : Nat        -- the cycle its interval began
  affinity : Nat
  head : Nat
  status : Nat
  phase : Nat
  job : Nat
  phaseGraphs : SMap Nat   -- graphs not complete, by phase
  closedPhases : List Nat  -- phases whose closing packet has been read
  jobEnds : SMap Nat       -- the job whose job-end packet closed a phase
  jobsDone : List Nat
  jobs : List Nat              -- job numbers of the packets read (R246)
  cancelledPhases : List Nat   -- phases and jobs that a cancel has reached (R269)
  cancelledJobs : List Nat
  view : View              -- what its timeline waits have made visible (R267)
  irqCore : Option Nat
  graphIrq : Nat
  errorIrq : Nat
  noDie : Bool
  deriving DecidableEq, Repr

/-- A timeline (R265, R382). -/
structure Timeline where
  value : W64
  dies : List Nat      -- dies whose units have signalled it
  broken : Bool
  rels : List Rel      -- releases its updates carry
  deriving DecidableEq, Repr

/-- An address space (R336). -/
structure Space where
  part : Nat
  root : Nat
  gen : BitVec 16
  changed : SMap (Nat × Nat)   -- change generation of a page and the time of its change, by page number
  deriving DecidableEq, Repr

/-! ## Accesses in flight -/

/-- What an access does where it is accepted. -/
inductive AccKind where
  | load
  | store
  | atomic (op : Nat)
  deriving DecidableEq, Repr

/-- One lane of an access. -/
structure LaneAcc where
  lane : Nat
  va : Nat
  loc : Nat            -- physical address, or creel location
  size : Nat
  data : W64
  expect : W64
  obj : Obj
  holder : Nat         -- the unit whose creel allotment it reaches; 0 for a global address
  deriving DecidableEq, Repr

/-- Where a reply goes: the tagged lq entry, a scalar register, or nowhere. -/
inductive Dest where
  | lq (q tag : Nat)
  | s (r : Nat)
  | none
  deriving DecidableEq, Repr

/-- An access that has left the access strand and has not been accepted (R209, R215): the lanes of one instruction that
fall in one line or creel granule. -/
structure Access where
  unit : Nat
  idx : Nat            -- the wave's place in its unit
  part : Nat
  space : Nat
  place : Place
  creel : Bool
  overlay : Bool       -- a scout task's store into its overlay (R165)
  kind : AccKind
  lanes : List LaneAcc
  dest : Dest
  gen : BitVec 16
  acqs : List Obj      -- what its instruction acquires (R229)
  scope : Nat
  rels : List Rel      -- the releases its writes carry (R217)
  seqNo : Nat
  courier : Bool
  rejected : Bool      -- refused for a stale generation, to be replayed (R210)
  errored : Bool       -- to be answered by an error reply (R361, R362)
  queued : Bool        -- its strand waited at a creel allotment, in the order of `State.creelQueue` (R166)
  deriving DecidableEq, Repr

/-! ## Fabric -/

/-- A collective group of a partition (R284, R296). -/
structure CollGroup where
  members : List Nat   -- device number of each rank
  reduce : Bool
  live : List Bool     -- by rank
  epoch : BitVec 8
  idle : SMap Nat      -- idle quanta counted, by rank (R295)
  deriving DecidableEq, Repr

/-- A collective posted on this device (R285 to R289), by its number: the chunks held as (number, source rank, bytes), and what
it has written as (chunk number, source rank). -/
structure Coll where
  part : Nat
  wave : Nat           -- agent number of the posting strand
  unit : Nat
  space : Nat
  block : List Byte
  group : Nat
  seq : Nat
  rank : Nat
  ranks : Nat
  reduce : Bool        -- the group may use switch reduction
  chunks : List (Nat × Nat × List Byte)
  written : List (Nat × Nat)
  ended : Option Nat   -- its status, once the device's part is over and its completion word is still to be posted
  deriving DecidableEq, Repr

/-- A waystation entry: group, seq, chunk, rank and bytes (R289). -/
structure WayEntry where
  group : Nat
  seq : Nat
  chunk : Nat
  rank : Nat
  bytes : List Byte
  deriving DecidableEq, Repr

/-- An armed trigger (R281 to R283). -/
structure Trigger where
  num : Nat            -- its engine number
  part : Nat
  space : Nat
  wave : Nat
  unit : Nat
  launch : Nat
  src : Nat
  dst : Nat
  length : Nat
  group : Nat
  rank : Nat
  tcnt : Nat
  rcnt : Option Nat
  lcnt : Option Nat
  thresh : W64
  fired : Bool
  view : View          -- what its firing has acquired (R280)
  done : Nat           -- bytes written
  deriving DecidableEq, Repr

/-- What a message to another device is (R282, R285, R294). -/
inductive SentKind where
  | chunk (seq chunk : Nat)
  /-- a piece of a triggered send: where its bytes go, and with the last piece the counter to add 1 to -/
  | send (dst : Nat) (rcnt : Option Nat)
  | quantum (xseq convoy : Nat)
  deriving DecidableEq, Repr

/-- A message sent to a rank of a group. -/
structure Sent where
  rank : Nat
  group : Nat
  kind : SentKind
  bytes : List Byte
  deriving DecidableEq, Repr

/-- A receive counter and the releases its changes carry (R279, R280). -/
structure Counter where
  value : W64
  rels : List Rel
  deriving DecidableEq, Repr

/-- One convoy entry: convoy number, source, destination, its place in the pair's grant or spill, bytes (R292). -/
structure Convoy where
  num : Nat
  src : Nat
  dst : Nat
  off : Nat
  bytes : Nat
  spill : Bool
  deriving DecidableEq, Repr

/-- What the arbiter grants a pair (R291). -/
structure Grant where
  src : Nat
  dst : Nat
  granted : Nat
  spilled : Nat
  denied : Nat
  deriving DecidableEq, Repr

/-- The arbiter of a group at work on an exchange (R291 to R296, R395). -/
structure Arb where
  xseq : Nat
  posts : List (Nat × ExPost)    -- by rank
  firstPost : Nat                -- cycle of the first post
  beat : Nat                     -- cycle of the last heartbeat
  decided : Bool
  refused : Bool
  grants : List Grant
  plan : List Convoy
  deriving DecidableEq, Repr

/-- The exchange that this member has posted in a group (R290 to R297). -/
structure Exchange where
  num : Nat                      -- its engine number
  xseq : Nat
  wave : Nat                     -- agent number of the posting strand
  unit : Nat
  space : Nat
  desc : List Byte
  rank : Nat
  post : ExPost
  heard : Nat                    -- cycle of the last word from the arbiter
  written : Bool                 -- the calendar is written
  refused : Bool
  going : Bool                   -- go has been received
  closed : Bool
  localDone : Bool               -- the bytes for its own rank have moved
  sent : List Nat                -- convoys whose quantum has been sent
  recv : List Nat                -- convoys whose quantum has arrived
  inBytes : SMap Nat             -- bytes received: 2 × source, and 1 more for spill
  idleOut : Nat
  fault : Nat                    -- the completion status of a fault met, 0 for none
  lost : List Nat                -- ranks reported lost during the convoys
  arb : Arb                      -- the engine's own copy of the plan (R293)
  deriving DecidableEq, Repr

/-! ## Token trees -/

/-- A live node (R304). -/
structure TreeNode where
  parent : Nat
  pos : Nat
  token : W32
  page : Nat
  slot : Nat
  deriving DecidableEq, Repr

/-- A page of a tree (R306). -/
structure KvPage where
  fill : Nat
  count : Nat
  refBit : Bool
  resident : Bool
  frames : List Nat    -- its 64 KiB frames by number, in flash while it is spilled
  fetching : Bool
  deriving DecidableEq, Repr

/-- A token tree (R304 to R308, R326). -/
structure Tree where
  part : Nat
  space : Nat
  pslots : Nat         -- P
  die : Nat
  decode : Bool
  slotBytes : Nat
  trunk : Nat          -- T
  maxpos : Nat
  tokarea : Nat
  ring : Nat
  rentries : Nat
  kvpages : Nat
  kvbase : Nat
  nodes : SMap TreeNode
  pages : SMap KvPage
  trunkPages : List Nat
  held : List (Nat × W32)        -- position and token not yet delivered
  tail : Nat
  asked : List Nat               -- spilled pages that ahead has asked for, in the order of their fetch (R316)
  rels : List Rel                -- the serial order's releases (R309)
  deriving DecidableEq, Repr

/-! ## Partitions, dies and the monitor -/

/-- A KV pool of a die (R323): free frames by number, watermarks, and the clock hand. -/
structure KvPool where
  free : List Nat
  low : Nat
  high : Nat
  hand : Nat
  deriving DecidableEq, Repr

/-- The assignment record of a partition (R334). -/
structure Record where
  dies : List Nat
  clusters : List (Nat × Bool)   -- cluster and decode side
  cores : List Nat               -- general cores, with the die in bit 4
  frames : List Nat              -- granted 2 MiB frames, by number
  shared : List (Nat × List Nat) -- those of them that are shared, each with the partitions that share it
  hostRanges : List (Nat × Nat)  -- base and size in the host window
  flashRanges : List (Nat × Nat) -- base and size in the flash window
  spaces : List (Nat × Nat)      -- space and root table address
  fibres : List (Nat × List Nat) -- fibre and the peers reachable through it
  migPool : List Nat             -- 64 KiB frames for migration, by number
  kvBase : Nat
  kvSize : Nat
  pools : List KvPool
  spill : List Nat               -- spill slots: 64 KiB flash frames, by number
  wayBytes : Nat
  wayFrames : List Nat           -- granted HBM frames of the waystation region, by number (R289)
  groups : List (Nat × List Nat × Bool)
  maxTrees : Nat
  maxTriggers : Nat
  courierRate : Nat
  vf : Nat                       -- host function, 0 for none
  deadline : Nat
  owners : List (List Byte)      -- owner public keys
  logRing : Option (Nat × Nat)   -- ring address (physical) and entries
  logCore : Nat
  deriving DecidableEq, Repr

/-- A counter page of a partition and die (R391, R392). -/
structure CounterPage where
  sel : SMap W64
  val : SMap W64
  freeze : W64
  deriving DecidableEq, Repr

/-- A partition (R333, R334). -/
structure Partition where
  started : Bool
  asn : Record
  startCycle : Nat
  digest : List Byte
  nextLaunch : Nat
  timelines : SMap Timeline
  counters : SMap Counter
  queues : SMap HwQueue
  lastQueue : Nat
  launches : SMap Launch
  graphs : SMap Graph
  doneGraphs : List Nat
  doneLaunches : List Nat
  graphNo : Nat
  groups : SMap CollGroup
  way : List WayEntry
  retries : List (Nat × WayEntry)  -- refused chunks at their senders, with the cycle of the refusal (R289)
  arrivals : SMap View           -- writes of sends of which further pieces are to arrive, by the send's number (R280)
  exchanges : SMap Exchange      -- by group
  arbs : SMap Arb                -- by group
  trees : SMap Tree
  kv : SMap KvPool               -- by die
  spillFree : List Nat
  migPool : List Nat
  fibresOut : List Nat           -- fibres removed (R378)
  logTail : Nat
  logLost : Nat
  errorIrq : Nat
  tokIrq : List Nat              -- token-ready interrupts raised, by general core
  counterPages : SMap CounterPage
  deriving DecidableEq, Repr

/-- The power state of a die (R389). -/
inductive DieState where
  | live
  | reset
  | fatal
  | off
  deriving DecidableEq, Repr

/-- One die (R379 to R384, R389). -/
structure Die where
  state : DieState
  step : Nat           -- step of a warm reset, 0 for none (R383)
  fatalStart : Bool    -- the reset began with a fatal error
  placing : Bool       -- units may be placed on it
  capped : Bool
  coresHalted : Bool
  deriving DecidableEq, Repr

/-- A weave: its key, its partition and its members by slot (R194). -/
structure Weave where
  part : Nat
  die : Nat
  key : Nat
  members : SMap Nat   -- slot to holding unit
  rels : List Rel
  deriving DecidableEq, Repr

/-- The monitor's standby copy in die 1 HBM: the digest of its image, its configuration and which partitions run (R380). -/
structure Standby where
  image : Nat
  digest : List Byte
  records : SMap Record
  started : List Nat
  deriving DecidableEq, Repr

/-- The module's management controller and the monitor (R380, R390). -/
structure Mgmt where
  command : W64        -- the mailbox word at 0x00: the command in progress, 0 for none
  argument : W64       -- the word at 0x08
  result : W64         -- the word at 0x10
  cap : Nat
  telemetry : List Byte
  telemetryCycle : Nat
  bootImage : Nat      -- 0 none, 1 A, 2 B
  bootFailed : Bool
  booted : Bool
  bootDigest : List Byte
  monitorDie : Nat
  moved : Bool         -- the monitor runs from die 1 since a failure
  refusedImages : Nat  -- partition images that failed verification (R347)
  callError : Nat      -- a0 of the last monitor call
  callValue : W64      -- a1 of the last monitor call
  records : SMap Record
  standby : Standby
  callsCut : Bool      -- the monitor's die has failed, so calls may have been in progress on it (R380)
  deriving DecidableEq, Repr

/-- The die-to-die link and the retries of the links (R378). -/
structure Links where
  retries : Nat        -- consecutive failed retries of a die-to-die flit
  failedTrainings : Nat
  training : Bool
  fecRetries : SMap Nat
  deriving DecidableEq, Repr

/-- The debug block of a partition (R375), with whether an image is mapped. -/
structure Debug where
  cmd : Nat
  launch : Nat
  pos : Nat
  strand : Nat
  image : Nat
  status : Nat
  mapped : Bool
  deriving DecidableEq, Repr

/-- Which agent a step gives its turn to. -/
inductive Turn where
  | strand (wave : Nat) (kind : StrandKind)
  | sequencer (cluster : Nat)
  | event (i : Instr)
  deriving DecidableEq, Repr

/-- The strand whose turn it is: a wave slot and strand kind, or a cluster's sequencer. -/
structure Cur where
  wave : Nat
  kind : StrandKind
  deriving DecidableEq, Repr

/-- The device. -/
structure State where
  cycle : Nat
  mem : List (Nat × Byte)        -- global memory by physical address
  gPoison : SMap Bool            -- poisoned 32-byte granules, by number
  creel : List (Nat × Byte)      -- creels: 2^22 × cluster + offset
  full : SMap Bool               -- full/empty bits: 2^20 × cluster + word
  creelPoison : SMap Bool
  hist : List WriteRec           -- performed writes, newest first
  fences : List Rel              -- fences in order, newest first (R222)
  now : Nat                      -- time of the newest write
  waves : SMap Wave
  clusters : SMap Cluster
  units : SMap UnitRec
  nextUnit : Nat
  flight : SMap Access
  nextAccess : Nat
  nextCmd : Nat                  -- number of the next engine command
  feOrder : Nat                  -- next place in the full/empty order (R193)
  creelQueue : List (Nat × Nat)  -- holder and agent of the accesses that a scout's allotment makes wait, in order (R166)
  spaces : SMap Space
  parts : SMap Partition
  weaves : SMap Weave
  cancels : List Cancel          -- accepted cancels that have not been carried out (R269)
  triggers : SMap Trigger
  colls : SMap Coll
  atomCounts : SMap (Nat × Nat)  -- atomics of a page from die 0 and die 1 (R184)
  halvedAt : Nat
  courier : SMap Nat             -- tokens of a core's bucket
  corrected : Nat                -- corrected soft errors
  dies : SMap Die
  links : Links
  mgmt : Mgmt
  debug : SMap Debug
  hostReads : List (Nat × List Byte)   -- values returned to the host
  hostCover : View               -- the host's view
  sentChunks : List Sent         -- chunks, sends and quanta sent to other devices, newest first
  courierSent : List (Nat × Nat)       -- posts, heartbeats and go messages sent: kind, group
  cur : Cur
  turns : List Turn
  fresh : Nat
  deriving DecidableEq, Repr

/-! ## Reset -/

/-- Control registers at placement: 0 (R354). -/
def Csrs.zero : Csrs := ⟨0#64, 0#64, 0#8, 0#64, 0#16, 0#64, false, 0#64, 0#64, 0#6, false⟩

/-- A strand as it starts, at an entry address (R254). -/
def Strand.start (entry : W64) : Strand :=
  { pc := entry, s := [], sPoison := 0#64, p := [], pPoison := 0#64, mode := 0#16, vwinBase := 0#8, vwinSize := 0#8,
    csr := Csrs.zero, outs := [], parked := false, blocked := false, yielded := false, ended := false, stopped := false,
    pendTrap := none, storeErr := none, monitor := none, wait := .none, ctlBad := [], view := [], cover := [], rels := [], seen := [], seqNo := 0 }

/-- A strand of a slot that holds no wave. -/
def Strand.idle : Strand := { Strand.start 0#64 with ended := true }

/-- A wave as it starts (R254). -/
def Wave.start (unit pos index group : Nat) (aentry centry : W64) : Wave :=
  { unit := unit, live := true, pos := pos, index := index, group := group, acc := Strand.start aentry, cmp := Strand.start centry,
    v := [], vPoison := [], x := [], xPoison := [], lq := [], wq := [], hq0 := [], hq1 := [], eqCmd := [], eqDone := [],
    eng := [], fin := [], cmdNums := [], openBatch := ⟨1#32, 0, 0, false, []⟩, closed := [], gbars := 0 }

/-- A wave slot that holds no wave. -/
def Wave.idle : Wave :=
  { Wave.start 0 0 0 0 0#64 0#64 with live := false, acc := Strand.idle, cmp := Strand.idle }

/-- A sequencer without an owner (R131, R132). -/
def Seq.idle : Seq :=
  { owner := 0, tiles := 0, strand := Strand.idle, f := [], client := 0xFF#8, flight := [], stoppedOn := false, acc := [],
    accPoison := [], cmdQ := [], doneQ := [] }

/-- A cluster that no partition holds. -/
def Cluster.idle : Cluster := { seq := Seq.idle, streams := [], decode := false, part := 32 }

/-- A closed stream. -/
def Stream.closed : Stream :=
  { isOpen := false, part := 0, space := 0, base := 0, length := 0, hold := false, tolAbs := 0#32, tolRel := 0#32, k := 0#32,
    h := 0, formed := false, last := 0, due := false, cmpAbs := 0#32, cmpRel := 0#32 }

/-- The unit record of a key that names no unit. -/
def UnitRec.none : UnitRec :=
  { life := .gone, part := 32, space := 0, queue := 0, launch := 0, pos := 0, index := (0, 0, 0), sprout := false, depth := 0,
    kdesc := 0, cluster := 0, slots := [], creelOff := 0, creelBytes := 0, tiles := 0, hasSeq := false, lc := [],
    reserved := false, preReq := false, deadline := 0, why := 0, takes := [], depthScout := 0, rerun := false, held := [],
    overlay := [], tags := [], pins := [], image := [],
    imageSeq := Option.none, imageCreel := [], imageRecs := [], imageFull := [], imagePoison := [],
    mappedAt := Option.none, edits := [], lcSet := [],
    stepping := Option.none, replies := [] }

/-- A tree that does not exist. -/
def Tree.none : Tree :=
  { part := 32, space := 0, pslots := 4, die := 0, decode := false, slotBytes := 65536, trunk := 0, maxpos := 0, tokarea := 0, ring := 0,
    rentries := 16, kvpages := 0, kvbase := 0, nodes := [], pages := [], trunkPages := [], held := [], tail := 0,
    asked := [], rels := [] }
/-- A page that does not exist. -/
def KvPage.none : KvPage := ⟨0, 0, false, false, [], false⟩
/-- A node that does not exist. -/
def TreeNode.none : TreeNode := ⟨0xFFFF, 0, 0#32, 0, 0⟩
/-- A KV pool without frames. -/
def KvPool.none : KvPool := ⟨[], 0, 0, 0⟩

/-- A timeline as a partition starts (R265). -/
def Timeline.zero : Timeline := ⟨0#64, [], false, []⟩
/-- A receive counter as a partition starts (R279). -/
def Counter.zero : Counter := ⟨0#64, []⟩
/-- A space that no partition holds. -/
def Space.none : Space := ⟨32, 0, 0#16, []⟩

/-- A hardware queue that no descriptor has been loaded into. -/
def HwQueue.unset : HwQueue :=
  { set := false, desc := 0, space := 0, ring := 0, entries := 16, base := 0, age := 0, ageFrom := 0, affinity := 3, head := 0,
    status := 3, phase := 0, job := 0, phaseGraphs := [], closedPhases := [], jobEnds := [], jobsDone := [], jobs := [],
    cancelledPhases := [], cancelledJobs := [], view := [], irqCore := none,
    graphIrq := 0, errorIrq := 0, noDie := false }

/-- A record that assigns nothing; the pre-emption deadline and courier rate have their defaults (R366, R334). -/
def Record.empty : Record :=
  { dies := [], clusters := [], cores := [], frames := [], shared := [], hostRanges := [], flashRanges := [], spaces := [],
    fibres := [], migPool := [], kvBase := 0, kvSize := 0, pools := [], spill := [], wayBytes := 0, wayFrames := [], groups := [],
    maxTrees := 0, maxTriggers := 0, courierRate := 1, vf := 0, deadline := 110000, owners := [], logRing := none,
    logCore := 0 }

/-- A partition that has not been started. -/
def Partition.idle : Partition :=
  { started := false, asn := Record.empty, startCycle := 0, digest := [], nextLaunch := 1, timelines := [], counters := [],
    queues := [], lastQueue := 255, launches := [], graphs := [], doneGraphs := [], doneLaunches := [], graphNo := 1,
    groups := [], way := [], retries := [], arrivals := [], exchanges := [], arbs := [], trees := [], kv := [], spillFree := [], migPool := [],
    fibresOut := [], logTail := 0, logLost := 0, errorIrq := 0, tokIrq := [], counterPages := [] }

/-- A counter page with nothing selected. -/
def CounterPage.zero : CounterPage := ⟨[], [], 0#64⟩
/-- The management controller and the monitor as the device comes up. -/
def Mgmt.atReset : Mgmt :=
  { command := 0#64, argument := 0#64, result := 0#64, cap := 2400, telemetry := [], telemetryCycle := 0, bootImage := 0, bootFailed := false,
    booted := false, bootDigest := [], monitorDie := 0, moved := false, refusedImages := 0, callError := 0, callValue := 0#64, records := [],
    standby := ⟨0, [], [], []⟩, callsCut := false }

/-- A die held in reset, as the device comes up (R346). -/
def Die.atReset : Die := ⟨.reset, 0, false, false, false, false⟩
/-- A die that runs. -/
def Die.running : Die := ⟨.live, 0, false, true, false, false⟩
/-- A weave number that names no weave. -/
def Weave.none : Weave := ⟨32, 0, 0, [], []⟩
/-- A full courier bucket (R278). -/
def courierFull : Nat := 8
/-- A debug block that no command has used. -/
def Debug.zero : Debug := ⟨0, 0, 0, 0, 0, 0, false⟩

/-- The device right after reset: nothing placed, nothing in memory, the dies held in reset until the die 0 ROM has
booted (R346). DESIGN CHOICE, unsafe (log entry 3). -/
def State.reset : State :=
  { cycle := 0, mem := [], gPoison := [], creel := [], full := [], creelPoison := [], hist := [], fences := [], now := 0,
    waves := [], clusters := [], units := [], nextUnit := 1, flight := [], nextAccess := 0, nextCmd := 1, feOrder := 0, creelQueue := [], spaces := [],
    parts := [], weaves := [], cancels := [], triggers := [], colls := [], atomCounts := [], halvedAt := 0, courier := [], corrected := 0,
    dies := [], links := ⟨0, 0, false, []⟩,
    mgmt := Mgmt.atReset, debug := [], hostReads := [],
    hostCover := [], sentChunks := [], courierSent := [], cur := ⟨0, .access⟩, turns := [], fresh := 0 }

end Sys2Proof.Machine
end

