-- ==== Sys2Proof/Machine/Base.lean ====
section
/-! DEFINITION. The named operations over strands, waves, clusters, units and their registers (R10, R30 to R33, R41). -/

namespace Sys2Proof.Machine

/-- The outcome of a step. -/
abbrev Out := Host.Outcome State Fault Refusal

/-- Wave slot `k` of the device. -/
def State.wave (s : State) (k : Nat) : Wave := SMap.get Wave.idle s.waves k
/-- Put a wave into slot `k`. -/
def State.setWave (s : State) (k : Nat) (w : Wave) : State := { s with waves := SMap.put k w s.waves }
/-- Change the wave of slot `k`. -/
def State.updWave (s : State) (k : Nat) (f : Wave → Wave) : State := s.setWave k (f (s.wave k))
/-- Cluster `c` (R6: 0 to 287). -/
def State.cluster (s : State) (c : Nat) : Cluster := SMap.get Cluster.idle s.clusters c
/-- Put cluster `c`. -/
def State.setCluster (s : State) (c : Nat) (x : Cluster) : State := { s with clusters := SMap.put c x s.clusters }
/-- Change the sequencer of cluster `c`. -/
def State.updSeq (s : State) (c : Nat) (f : Seq → Seq) : State :=
  s.setCluster c { s.cluster c with seq := f (s.cluster c).seq }
/-- The unit with key `u`. -/
def State.unit (s : State) (u : Nat) : UnitRec := SMap.get UnitRec.none s.units u
/-- Put the unit with key `u`. -/
def State.setUnit (s : State) (u : Nat) (x : UnitRec) : State := { s with units := SMap.put u x s.units }
/-- Change the unit with key `u`. -/
def State.updUnit (s : State) (u : Nat) (f : UnitRec → UnitRec) : State := s.setUnit u (f (s.unit u))
/-- Partition `p`. -/
def State.part (s : State) (p : Nat) : Partition := SMap.get Partition.idle s.parts p
/-- Put partition `p`. -/
def State.setPart (s : State) (p : Nat) (x : Partition) : State := { s with parts := SMap.put p x s.parts }
/-- Change partition `p`. -/
def State.updPart (s : State) (p : Nat) (f : Partition → Partition) : State := s.setPart p (f (s.part p))
/-- Address space `a`. -/
def State.space (s : State) (a : Nat) : Space := SMap.get Space.none s.spaces a
/-- Put address space `a`. -/
def State.setSpace (s : State) (a : Nat) (x : Space) : State := { s with spaces := SMap.put a x s.spaces }
/-- Die `d`. -/
def State.die (s : State) (d : Nat) : Die := SMap.get Die.atReset s.dies d
/-- Put die `d`. -/
def State.setDie (s : State) (d : Nat) (x : Die) : State := { s with dies := SMap.put d x s.dies }

/-- The die of a global cluster number (R6). -/
def dieOfCluster (c : Nat) : Nat := if c < Config.clustersPerDie then 0 else 1
/-- The cluster of a global wave slot number. -/
def clusterOfSlot (k : Nat) : Nat := k / 32

/-- The cluster of the strand whose turn it is. -/
def State.curCluster (s : State) : Nat := clusterOfSlot s.cur.wave
/-- The wave of the strand whose turn it is. -/
def State.curWave (s : State) : Wave := s.wave s.cur.wave
/-- The unit of the strand whose turn it is: its wave's, or the sequencer's owner. -/
def State.curUnit (s : State) : Nat :=
  match s.cur.kind with
  | .seq => (s.cluster s.curCluster).seq.owner
  | _ => s.curWave.unit

/-- The agent number of the current wave's access strand. -/
def Wave.who (w : Wave) : Nat := 32 * w.unit + w.pos
/-- Wave `idx` of unit `u`, in its slot or in its saved image. -/
def State.waveOf (s : State) (u idx : Nat) : Wave :=
  if (s.unit u).life = .resident then s.wave ((s.unit u).slots.getD idx 0) else (s.unit u).image.getD idx Wave.idle
/-- Change wave `idx` of unit `u`, in its slot or in its saved image. -/
def State.updWaveOf (s : State) (u idx : Nat) (f : Wave → Wave) : State :=
  if (s.unit u).life = .resident then s.updWave ((s.unit u).slots.getD idx 0) f
  else s.updUnit u fun x => { x with image := listUpd x.image idx f }

/-- The strand whose turn it is. -/
def State.strand (s : State) : Strand :=
  match s.cur.kind with
  | .access => s.curWave.acc
  | .compute => s.curWave.cmp
  | .seq => (s.cluster s.curCluster).seq.strand

/-- Put the strand whose turn it is. -/
def State.setStrand (s : State) (t : Strand) : State :=
  match s.cur.kind with
  | .access => s.updWave s.cur.wave fun w => { w with acc := t }
  | .compute => s.updWave s.cur.wave fun w => { w with cmp := t }
  | .seq => s.updSeq s.curCluster fun q => { q with strand := t }

/-- Change the strand whose turn it is. -/
def State.updStrand (s : State) (f : Strand → Strand) : State := s.setStrand (f s.strand)

/-! ## Event counters (R391, R392) -/

/-- Counter `i` of a page counts `n` events of a source: it selects the source, is enabled, and the page is not frozen. -/
def CounterPage.add (c : CounterPage) (src n : Nat) : CounterPage :=
  if c.freeze.getLsbD 0 then c
  else
    let one := fun (m : SMap W64) (i : Nat) =>
      let sel := SMap.get 0#64 c.sel i
      if sel.getLsbD 63 && sel.extractLsb' 0 8 == BitVec.ofNat 8 src then SMap.upd 0#64 i (fun v => v + BitVec.ofNat 64 n) m else m
    { c with val := (List.range 16).foldl one c.val }

/-- `n` events of a source happen to a partition on a die. -/
def State.bump (s : State) (part die src n : Nat) : State :=
  match SMap.find (s.part part).counterPages die with
  | none => s
  | some c => s.updPart part fun p => { p with counterPages := SMap.put die (c.add src n) p.counterPages }

/-- The strand whose turn it is, an access or compute strand, has issued an instruction. -/
def State.countIssue (s : State) : State :=
  match s.cur.kind with
  | .seq => s
  | _ => s.bump (s.unit s.curUnit).part (dieOfCluster s.curCluster) 0x02 1

/-! ## Reads of outstanding registers (R33) -/

/-- One of the older values or the new one, freely chosen. DEDUCED, safe (log entry 8). -/
def State.pickOld {α : Type} (s : State) (tag : Nat) (olds : List α) (new : α) : α :=
  match olds with
  | [] => new
  | _ => (olds ++ [new]).getD (Config.pick s.fresh tag % (olds.length + 1)) new

/-- The older values of a scalar register that a read may still receive, with their marks. -/
def Strand.oldS (t : Strand) (r : Nat) : List (W64 × Bool) :=
  t.outs.filterMap fun o => match o with | .s q v m => if q = r then some (v, m) else none | _ => none
/-- The older values of a predicate, with their marks. -/
def Strand.oldP (t : Strand) (r : Nat) : List (W64 × Bool) :=
  t.outs.filterMap fun o => match o with | .p q v m => if q = r then some (v, m) else none | _ => none
/-- The older values of a physical vector register, with their marks. -/
def Strand.oldV (t : Strand) (r : Nat) : List (Vec × W64) :=
  t.outs.filterMap fun o => match o with | .v q v m => if q = r then some (v, m) else none | _ => none
/-- The older values of an address vector, with their marks. -/
def Strand.oldX (t : Strand) (r : Nat) : List (XVec × W64) :=
  t.outs.filterMap fun o => match o with | .x q v m => if q = r then some (v, m) else none | _ => none

/-- The newest value of scalar register `r`; s0 is 0 (R10). -/
def Strand.sreg (t : Strand) (r : Nat) : W64 := if r = 0 then 0#64 else SMap.get 0#64 t.s r
/-- The newest value of predicate `r`; p0 is all ones (R10). -/
def Strand.preg (t : Strand) (r : Nat) : W64 := if r = 0 then BitVec.allOnes 64 else SMap.get 0#64 t.p r
/-- The newest value of physical vector register `r`. -/
def Wave.vreg (w : Wave) (r : Nat) : Vec := SMap.get Lanes.zero32 w.v r
/-- The newest value of address vector `r`. -/
def Wave.xreg (w : Wave) (r : Nat) : XVec := SMap.get Lanes.zero64 w.x r

/-- Scalar register `r` and its poison mark as a read at issue receives them (R30, R33). -/
def State.readSM (s : State) (r : Nat) : W64 × Bool :=
  if r = 0 then (0#64, false)
  else s.pickOld r (s.strand.oldS r) (s.strand.sreg r, maskBit s.strand.sPoison r)
/-- Read scalar register `r` at issue (R30, R33). -/
def State.readS (s : State) (r : Nat) : W64 := (s.readSM r).1

/-- Predicate `r` and its mark as a read at issue receives them, each lane on its own (R33). -/
def State.readPM (s : State) (r : Nat) : W64 × Bool :=
  if r = 0 then (BitVec.allOnes 64, false)
  else
    let new := (s.strand.preg r, maskBit s.strand.pPoison r)
    match s.strand.oldP r with
    | [] => new
    | olds =>
      let at' := fun l => s.pickOld (1000 + 64 * r + l) olds new
      (maskOf fun l => maskBit (at' l).1 l, (List.range 64).any fun l => (at' l).2)
/-- Read predicate `r` at issue. -/
def State.readP (s : State) (r : Nat) : W64 := (s.readPM r).1

/-- Physical vector register `r` and its marks as a read at issue receives them, each lane on its own (R33). -/
def State.readVM (s : State) (r : Nat) : Vec × W64 :=
  let new := (s.curWave.vreg r, SMap.get 0#64 s.curWave.vPoison r)
  match s.strand.oldV r with
  | [] => new
  | olds =>
    let at' := fun l => s.pickOld (10000 + 64 * r + l) olds new
    (Lanes.ofFn fun l => Lanes.get32 (at' l).1 l, maskOf fun l => maskBit (at' l).2 l)
/-- Read physical vector register `r` at issue. -/
def State.readV (s : State) (r : Nat) : Vec := (s.readVM r).1

/-- Address vector `r` and its marks as a read at issue receives them, each lane on its own (R33). -/
def State.readXM (s : State) (r : Nat) : XVec × W64 :=
  let new := (s.curWave.xreg r, SMap.get 0#64 s.curWave.xPoison r)
  match s.strand.oldX r with
  | [] => new
  | olds =>
    let at' := fun l => s.pickOld (100000 + 64 * r + l) olds new
    (Lanes.ofFn fun l => Lanes.get64 (at' l).1 l, maskOf fun l => maskBit (at' l).2 l)
/-- Read address vector `r` at issue. -/
def State.readX (s : State) (r : Nat) : XVec := (s.readXM r).1

/-! ## The guard and the mode word (R35, R98) -/

/-- The guard predicate's number. -/
def Strand.guardReg (t : Strand) : Nat := (t.mode.extractLsb' 12 4).toNat
/-- The element type. -/
def Strand.etype (t : Strand) : Nat := (t.mode.extractLsb' 8 4).toNat
/-- The rounding mode. -/
def Strand.rmode (t : Strand) : Nat := (t.mode.extractLsb' 5 3).toNat
/-- The sat bit. -/
def Strand.sat (t : Strand) : Bool := t.mode.getLsbD 4
/-- The flush bit. -/
def Strand.flush (t : Strand) : Bool := t.mode.getLsbD 3
/-- The guard predicate read at issue. -/
def State.guard (s : State) : W64 := s.readP s.strand.guardReg

/-! ## Register names in the rotating window (R41) -/

/-- The physical register that vector register `v` names. -/
def Strand.phys (t : Strand) (v : Nat) : Nat :=
  let n := t.vwinSize.toNat
  if n = 0 then v
  else if 128 ≤ v ∧ v ≤ 127 + n then 128 + ((v - 128 + t.vwinBase.toNat) % n) else v

/-! ## Writes -/

/-- Older values of register file entries `q` no longer readable. -/
def OutReg.isS (r : Nat) : OutReg → Bool
  | .s q _ _ => q == r
  | _ => false

/-- A reply still on its way to scalar register `r` of the access strand is older than this write: it will not be
written (R30: the register ends holding the younger value). -/
def State.dropReplies (s : State) (r : Nat) : State :=
  match s.cur.kind with
  | .access =>
    { s with flight := SMap.mapVals (fun _ a =>
        if a.unit = s.curWave.unit ∧ a.idx = s.curWave.pos ∧ a.dest = .s r then { a with dest := .none } else a) s.flight }
  | _ => s

/-- Control register `n` is written whole: its mark is cleared (R363, R365). -/
def Strand.clearCtl (t : Strand) (n : Nat) : Strand := { t with ctlBad := t.ctlBad.filter fun m => m != n }

/-- Put scalar register `r`, clearing its poison mark (R365); a write of s0 is discarded (R10). -/
def Strand.putS (t : Strand) (r : Nat) (v : W64) : Strand :=
  if r = 0 then t else { t with s := SMap.put r v t.s, sPoison := t.sPoison &&& ~~~(BitVec.twoPow 64 r) }

/-- Write a scalar register as an outstanding result (R32). -/
def State.writeS (s : State) (r : Nat) (v : W64) : State :=
  if r = 0 then s
  else (s.dropReplies r).updStrand fun t => { t.putS r v with outs := t.outs ++ [.s r (t.sreg r) (maskBit t.sPoison r)] }

/-- Write a scalar register before the next instruction issues (R32, the row "none"). -/
def State.writeSNow (s : State) (r : Nat) (v : W64) : State :=
  if r = 0 then s
  else (s.dropReplies r).updStrand fun t => { t.putS r v with outs := t.outs.filter fun o => !o.isS r }

/-- Write a predicate as an outstanding result; a write of p0 is discarded (R10). -/
def State.writeP (s : State) (r : Nat) (v : W64) : State :=
  if r = 0 then s
  else s.updStrand fun t =>
    { t with p := SMap.put r v t.p, pPoison := t.pPoison &&& ~~~(BitVec.twoPow 64 r), outs := t.outs ++ [.p r (t.preg r) (maskBit t.pPoison r)] }

/-- Write the lanes of `mask` of a physical vector register as an outstanding result; their poison marks become those of
`poison` (R98, R365). -/
def State.writeVP (s : State) (r : Nat) (mask : W64) (poison : W64) (f : Nat → W32) : State :=
  let w := s.curWave
  let old := w.vreg r
  let new : Vec := Lanes.ofFn fun l => if maskBit mask l then f l else Lanes.get32 old l
  let marks := (SMap.get 0#64 w.vPoison r &&& ~~~mask) ||| (poison &&& mask)
  (s.updWave s.cur.wave fun w => { w with v := SMap.put r new w.v, vPoison := SMap.put r marks w.vPoison }).updStrand
    fun t => { t with outs := t.outs ++ [.v r old (SMap.get 0#64 w.vPoison r)] }

/-- Write the lanes of `mask` of a physical vector register with good data. -/
def State.writeV (s : State) (r : Nat) (mask : W64) (f : Nat → W32) : State := s.writeVP r mask 0#64 f

/-- Write the lanes of `mask` of an address vector as an outstanding result. -/
def State.writeXP (s : State) (r : Nat) (mask : W64) (poison : W64) (f : Nat → W64) : State :=
  let w := s.curWave
  let old := w.xreg r
  let new : XVec := Lanes.ofFn fun l => if maskBit mask l then f l else Lanes.get64 old l
  let marks := (SMap.get 0#64 w.xPoison r &&& ~~~mask) ||| (poison &&& mask)
  (s.updWave s.cur.wave fun w => { w with x := SMap.put r new w.x, xPoison := SMap.put r marks w.xPoison }).updStrand
    fun t => { t with outs := t.outs ++ [.x r old (SMap.get 0#64 w.xPoison r)] }

/-- Write the lanes of `mask` of an address vector with good data. -/
def State.writeX (s : State) (r : Nat) (mask : W64) (f : Nat → W64) : State := s.writeXP r mask 0#64 f

/-! ## Issue -/

/-- The scalar-destination and lq results of the current access strand that have not returned (R32). -/
def State.waiting (s : State) : List (Nat × Access) :=
  match s.cur.kind with
  | .access => s.flight.filter fun e =>
      decide (e.2.unit = s.curWave.unit) && decide (e.2.idx = s.curWave.pos) && e.2.kind != .store
  | _ => []

/-- Every outstanding result of the current strand has returned. -/
def State.drained (s : State) : Bool := s.waiting.isEmpty

/-- The instruction has issued: the strand stands at `pc`. A set switch mark returns the register results and parks the
strand while a memory result is outstanding (R31). -/
def State.retireTo (s : State) (sw : Bool) (pc : W64) : State :=
  s.updStrand fun t =>
    let t := { t with pc := pc, blocked := false, wait := .none }
    if sw then { t with outs := [], parked := !s.drained } else t

/-- The instruction has issued and the strand goes on at the next word (R27). -/
def State.retire (s : State) (sw : Bool) : State := s.retireTo sw (s.strand.pc + 4#64)

/-- The strand stands before its instruction (R12): nothing else changes. -/
def State.block (s : State) : State :=
  s.updStrand fun t => { t with blocked := true, wait := if t.wait = .none then .retry else t.wait }

/-- The strand stands before its instruction and remembers what it did there. -/
def State.blockWith (s : State) (w : Wait) : State := s.updStrand fun t => { t with blocked := true, wait := w }

/-- Sign extension of the low bits to 64. -/
def sext64 {n : Nat} (x : BitVec n) : W64 := x.signExtend 64
/-- Zero extension to 64 bits. -/
def zext64 {n : Nat} (x : BitVec n) : W64 := x.setWidth 64

/-! ## Waves by agent number -/

/-- The wave with an agent number, in its slot or its saved image. -/
def State.waveBy (s : State) (who : Nat) : Wave := s.waveOf (who / 32) (who % 32)
/-- Change the wave with an agent number. -/
def State.updWaveBy (s : State) (who : Nat) (f : Wave → Wave) : State := s.updWaveOf (who / 32) (who % 32) f
/-- A wave has this agent number and its unit has not gone. -/
def State.waveLives (s : State) (who : Nat) : Bool :=
  let w := s.waveBy who
  w.live && w.unit == who / 32 && w.pos == who % 32 && ((s.unit (who / 32)).life == .resident || (s.unit (who / 32)).life == .saved
    || (s.unit (who / 32)).life == .stopped)
/-- The slot of the wave with an agent number, while its unit is resident. -/
def State.slotBy (s : State) (who : Nat) : Option Nat :=
  if s.waveLives who && (s.unit (who / 32)).life == .resident then (s.unit (who / 32)).slots[who % 32]? else none

end Sys2Proof.Machine
end

