-- ==== Sys2Proof/Machine/Fp.lean ====
section
/-! DEFINITION. Exact values of the number formats, the rounding functions, the conversions and the special functions
(R79 to R94, R117 to R122). -/

namespace Sys2Proof.Machine

/-- A value of a floating-point or narrow format: `fin neg m e` is (−1)^neg × m × 2^e, a zero keeping its sign (R80). -/
inductive Fp where
  | nan
  | inf (neg : Bool)
  | fin (neg : Bool) (m : Nat) (e : Int)
  deriving DecidableEq, Repr

/-- The fields of a format (R85). -/
structure Fmt where
  sign : Bool
  exp : Nat
  man : Nat
  bias : Nat
  special : Bool
  sub : Bool
  convInf : Bool
  deriving DecidableEq, Repr

/-- binary32 (R79). -/
def Fmt.b32 : Fmt := ⟨true, 8, 23, 127, true, true, true⟩
/-- binary16 (R79). -/
def Fmt.b16 : Fmt := ⟨true, 5, 10, 15, true, true, true⟩
/-- bfloat16 (R79). -/
def Fmt.bf16 : Fmt := ⟨true, 8, 7, 127, true, true, true⟩

/-- The element width (R85). -/
def Fmt.width (f : Fmt) : Nat := (if f.sign then 1 else 0) + f.exp + f.man

/-- The value of the low `width` bits of an encoding (R80, R85). -/
def Fmt.val (f : Fmt) (x : Nat) : Fp :=
  let s := f.sign && x.testBit (f.exp + f.man)
  if f.exp = 0 then
    let u := x % 2 ^ f.width
    if s then .fin true (2 ^ f.width - u) 0 else .fin false u 0
  else
    let e := (x >>> f.man) % 2 ^ f.exp
    let m := x % 2 ^ f.man
    if e = 2 ^ f.exp - 1 ∧ f.special then (if m = 0 ∧ f.man ≠ 0 then .inf s else .nan)
    else if e = 0 then (if f.sub then .fin s m (1 - (f.bias : Int) - f.man) else .fin s 0 0)
    else .fin s (2 ^ f.man + m) ((e : Int) - f.bias - f.man)

/-- The encoding of the largest finite magnitude (R85). -/
def Fmt.maxCode (f : Fmt) : Nat := if f.special then (2 ^ f.exp - 1) * 2 ^ f.man - 1 else 2 ^ (f.exp + f.man) - 1
/-- The NaN of a format, or +0 where it has none (R79, R93). -/
def Fmt.nanCode (f : Fmt) : Nat := if f.special then (2 ^ f.exp - 1) * 2 ^ f.man + 2 ^ f.man / 2 else 0
/-- The magnitude encoding of infinity; the NaN where the format has none (R93). -/
def Fmt.infCode (f : Fmt) : Nat := if f.man = 0 then f.nanCode else (2 ^ f.exp - 1) * 2 ^ f.man
/-- The encoding with a sign put on a magnitude. -/
def Fmt.signed (f : Fmt) (neg : Bool) (c : Nat) : Nat := if neg && f.sign then c + 2 ^ (f.exp + f.man) else c
/-- An infinite result of sign `neg` (R93: the NaN where the format has no infinity). -/
def Fmt.infOf (f : Fmt) (neg : Bool) : Nat := if f.man = 0 then f.nanCode else f.signed neg f.infCode

/-- Whether a rounding mode goes to the neighbour of greater magnitude: `even` says the lesser one's encoding is even,
`cmp` compares the discarded part with half a step (R82). -/
def roundsUp (mode : Nat) (neg even : Bool) (cmp : Ordering) : Bool :=
  match mode with
  | 0 => cmp == .gt || (cmp == .eq && !even)
  | 1 => false
  | 2 => neg
  | 3 => !neg
  | _ => cmp == .gt || cmp == .eq

/-- The magnitude encoding nearest below m × 2^e with unbounded exponent, whether it is exact, and how the rest compares
with half a step (R82). -/
def Fmt.floorCode (f : Fmt) (m : Nat) (e : Int) : Nat × Bool × Ordering :=
  let top := e + Nat.log2 m
  let emin : Int := 1 - (f.bias : Int)
  if !f.sub && decide (top < emin) then
    -- below the smallest normal value the only neighbours are 0 and that value
    let d := (emin - 1 - e).toNat
    let c := if e ≤ emin - 1 then compare m (2 ^ d) else .gt
    (0, false, c)
  else
    let q := (if top < emin then emin else top) - f.man
    let d := (q - e).toNat
    let n := if e ≤ q then m / 2 ^ d else m * 2 ^ (e - q).toNat
    let r := if e ≤ q then m % 2 ^ d else 0
    let c := if n < 2 ^ f.man then n else (q + f.man + f.bias).toNat * 2 ^ f.man + (n - 2 ^ f.man)
    (c, r == 0, compare (2 * r) (2 ^ d))

/-- Round a nonzero finite magnitude to a float format; `sat` turns overflow into the largest finite value (R82, R89). -/
def Fmt.roundMag (f : Fmt) (mode : Nat) (sat neg : Bool) (m : Nat) (e : Int) : Nat :=
  let (c, exact, cmp) := f.floorCode m e
  let up := !exact && roundsUp mode neg (c % 2 == 0) cmp
  let step := if !f.sub && c == 0 then 2 ^ f.man else 1
  let c' := if up then c + step else c
  if c' ≤ f.maxCode then f.signed neg c'
  else if sat then f.signed neg f.maxCode
  else match mode with
    | 1 => f.signed neg f.maxCode
    | 2 => if neg then f.infOf neg else f.signed neg f.maxCode
    | 3 => if neg then f.signed neg f.maxCode else f.infOf neg
    | _ => f.infOf neg

/-- Round a value to a float format: NaN canonical, infinities kept, zeros keep their sign (R81 to R83, R88, R89). -/
def Fmt.round (f : Fmt) (mode : Nat) (sat : Bool) : Fp → Nat
  | .nan => f.nanCode
  | .inf neg => f.infOf neg
  | .fin neg m e => if m = 0 then f.signed neg 0 else f.roundMag mode sat neg m e

/-- The encoding is a nonzero subnormal of an IEEE format (R84). -/
def Fmt.isSub (f : Fmt) (x : Nat) : Bool := (x >>> f.man) % 2 ^ f.exp == 0 && x % 2 ^ f.man != 0
/-- Replace a subnormal encoding by the zero of its sign when `flush` is set (R84). -/
def Fmt.flush (f : Fmt) (flush : Bool) (x : Nat) : Nat :=
  if flush && f.isSub x then f.signed (x.testBit (f.exp + f.man)) 0 else x
/-- Read an encoding as an input, flushed when `flush` is set (R84). -/
def Fmt.input (f : Fmt) (flush : Bool) (x : Nat) : Fp := f.val (f.flush flush x)
/-- Round and flush a result (R82, R84). -/
def Fmt.result (f : Fmt) (mode : Nat) (flush : Bool) (v : Fp) : Nat := f.flush flush (f.round mode false v)

/-- The signed integer m × 2^(e − lo) of a finite value at the common exponent `lo` ≤ e. -/
def scaledInt (neg : Bool) (m : Nat) (e lo : Int) : Int :=
  let n : Int := (m * 2 ^ (e - lo).toNat : Nat)
  if neg then -n else n

/-- A finite value from a signed integer; `zeroNeg` is the sign of an exact zero. -/
def fpOfInt (zeroNeg : Bool) (n : Int) (e : Int) : Fp :=
  if n = 0 then .fin zeroNeg 0 0 else .fin (decide (n < 0)) n.natAbs e

/-- Exact sum; an exact zero is +0, −0 in mode 2, and two zeros of one sign keep it (R83). -/
def Fp.add (mode : Nat) : Fp → Fp → Fp
  | .nan, _ => .nan
  | _, .nan => .nan
  | .inf a, .inf b => if a = b then .inf a else .nan
  | .inf a, .fin _ _ _ => .inf a
  | .fin _ _ _, .inf b => .inf b
  | .fin a m e, .fin b n g =>
    let lo := min e g
    fpOfInt (if m = 0 ∧ n = 0 ∧ a = b then a else mode == 2) (scaledInt a m e lo + scaledInt b n g lo) lo

/-- The value with its sign inverted. -/
def Fp.neg : Fp → Fp
  | .nan => .nan
  | .inf a => .inf (!a)
  | .fin a m e => .fin (!a) m e

/-- Exact difference; every difference that is zero is +0, −0 in mode 2, that of two zeros too: R83 excepts sums alone. -/
def Fp.sub (mode : Nat) (x y : Fp) : Fp :=
  match x, y with
  | .fin _ 0 _, .fin _ 0 _ => .fin (mode == 2) 0 0
  | _, _ => Fp.add mode x y.neg

/-- Exact product (R83, R117). -/
def Fp.mul : Fp → Fp → Fp
  | .nan, _ => .nan
  | _, .nan => .nan
  | .inf a, .inf b => .inf (a != b)
  | .inf a, .fin b n _ => if n = 0 then .nan else .inf (a != b)
  | .fin a m _, .inf b => if m = 0 then .nan else .inf (a != b)
  | .fin a m e, .fin b n g => .fin (a != b) (m * n) (e + g)

/-- Whether a value is a NaN. -/
def Fp.isNan : Fp → Bool
  | .nan => true
  | _ => false

/-- Compare two values that are no NaN; zeros are equal whatever their sign (R114). -/
def Fp.cmp : Fp → Fp → Ordering
  | .nan, _ => .eq
  | _, .nan => .eq
  | .inf a, .inf b => if a = b then .eq else if a then .lt else .gt
  | .inf a, .fin _ _ _ => if a then .lt else .gt
  | .fin _ _ _, .inf b => if b then .gt else .lt
  | .fin a m e, .fin b n g => let lo := min e g; compare (scaledInt a m e lo) (scaledInt b n g lo)

/-- Greater in the order of fmin and fmax, −0 below +0 (R118). -/
def Fp.less (a b : Fp) : Bool :=
  match Fp.cmp a b with
  | .lt => true
  | .gt => false
  | .eq => match a, b with
    | .fin true 0 _, .fin false 0 _ => true
    | _, _ => false

/-- The integer square root, one bit at a time from bit `b`. -/
def isqrtFrom (n : Nat) : Nat → Nat → Nat
  | 0, r => r
  | b + 1, r => isqrtFrom n b (if (r + 2 ^ b) * (r + 2 ^ b) ≤ n then r + 2 ^ b else r)
/-- The integer square root of `n`. -/
def isqrt (n : Nat) : Nat := isqrtFrom n (Nat.log2 n / 2 + 1) 0

/-- √a to enough bits that rounding it once is rounding the exact root: the last bit is sticky (R119). -/
def Fp.sqrt : Fp → Fp
  | .nan => .nan
  | .inf neg => if neg then .nan else .inf false
  | .fin neg m e =>
    if m = 0 then .fin neg 0 0
    else if neg then .nan
    else
      let t := 128 + (e % 2).toNat
      let n := m * 2 ^ t
      let r := isqrt n
      .fin false (2 * r + (if r * r = n then 0 else 1)) ((e - t) / 2 - 1)

/-- p ÷ q × 2^e to enough bits that rounding it once is rounding the exact quotient (q ≠ 0). -/
def Fp.quot (neg : Bool) (p q : Nat) (e : Int) : Fp :=
  let k := 128 + Nat.log2 q
  let n := p * 2 ^ k
  .fin neg (2 * (n / q) + (if n % q = 0 then 0 else 1)) (e - k - 1)

/-- A value rounded to an integer by a mode, with the sign of a result that rounds to zero (R82, R90, R119). -/
def roundInt (mode : Nat) (neg : Bool) (m : Nat) (e : Int) : Nat :=
  if 0 ≤ e then m * 2 ^ e.toNat
  else
    let d := (-e).toNat
    let n := m / 2 ^ d
    let r := m % 2 ^ d
    if r ≠ 0 ∧ roundsUp mode neg (n % 2 == 0) (compare (2 * r) (2 ^ d)) then n + 1 else n

/-! ## Special functions (R121, R122): an enclosure of the exact value in 2^−440 steps, both ends rounded. -/

/-- Bits of the enclosures. -/
def sfuP : Nat := 440
/-- Half width of an enclosure, in steps: every sum below has fewer than 2^20 truncated terms of small error. -/
def sfuErr : Nat := 2 ^ 40

/-- Sum of `c / (2k+1)` with alternating or constant signs, where `c` shrinks by `x²` each time: arctangent of 1/x. -/
def atanInv (x : Nat) (alt : Bool) : Nat → Nat → Int → Bool → Int → Int
  | 0, _, _, _, acc => acc
  | n + 1, k, c, neg, acc =>
    atanInv x alt n (k + 1) (c / (x * x : Nat)) (if alt then !neg else neg)
      (if neg then acc - c / (2 * k + 1 : Nat) else acc + c / (2 * k + 1 : Nat))

/-- π in steps: 16 arctan(1/5) − 4 arctan(1/239). -/
def sfuPi : Nat :=
  let one : Int := (2 ^ sfuP : Nat)
  (16 * atanInv 5 true 100 0 (one / 5) false 0 - 4 * atanInv 239 true 40 0 (one / 239) false 0).toNat

/-- ln 2 in steps: 2 artanh(1/3). -/
def sfuLn2 : Nat := (2 * atanInv 3 false 150 0 ((2 ^ sfuP : Nat) / 3) false 0).toNat

/-- Taylor sum of sine or cosine of `t`: `k` is the power of the current term `c`. -/
def sinTaylor (t : Nat) : Nat → Nat → Nat → Bool → Int → Int
  | 0, _, _, _, acc => acc
  | n + 1, k, c, neg, acc =>
    sinTaylor t n (k + 2) (c * t / 2 ^ sfuP * t / 2 ^ sfuP / ((k + 1) * (k + 2))) (!neg)
      (if neg then acc - c else acc + c)

/-- sin(π r) for r in steps, 0 ≤ r ≤ 1/2. -/
def sinPiSteps (r : Nat) : Nat :=
  if 4 * r ≤ 2 ^ sfuP then
    let t := sfuPi * r / 2 ^ sfuP
    (sinTaylor t 50 1 t false 0).toNat
  else
    let t := sfuPi * (2 ^ sfuP / 2 - r) / 2 ^ sfuP
    (sinTaylor t 50 0 (2 ^ sfuP) false 0).toNat

/-- Taylor sum of e^t. -/
def expTaylor (t : Nat) : Nat → Nat → Nat → Nat → Nat
  | 0, _, _, acc => acc
  | n + 1, k, c, acc => expTaylor t n (k + 1) (c * t / 2 ^ sfuP / (k + 1)) (acc + c)

/-- 2^f for f in steps, 0 ≤ f < 1. -/
def exp2Steps (f : Nat) : Nat :=
  let t := f * sfuLn2 / 2 ^ sfuP
  expTaylor t 110 0 (2 ^ sfuP) 0

/-- Sum of z^(2k+1)/(2k+1). -/
def artanhSum (z2 : Nat) : Nat → Nat → Nat → Nat → Nat
  | 0, _, _, acc => acc
  | n + 1, k, c, acc => artanhSum z2 n (k + 1) (c * z2 / 2 ^ sfuP) (acc + c / (2 * k + 1))

/-- log₂ of a mantissa m / 2^p in [1, 2), in steps. -/
def log2Steps (m p : Nat) : Nat :=
  let z := (m - 2 ^ p) * 2 ^ sfuP / (m + 2 ^ p)
  let z2 := z * z / 2 ^ sfuP
  2 * artanhSum z2 150 0 z 0 * 2 ^ sfuP / sfuLn2

/-- Round the magnitude enclosed by v ± `sfuErr` steps times 2^e to binary32: both ends must agree, else the value is
left free. DESIGN CHOICE, safe (log entry 6). -/
def sfuRound (fn : Nat) (x : W32) (mode : Nat) (neg : Bool) (v : Nat) (e : Int) : W32 :=
  let lo := Fmt.b32.roundMag mode false neg (v - sfuErr) (e - sfuP)
  let hi := Fmt.b32.roundMag mode false neg (v + sfuErr) (e - sfuP)
  if sfuErr < v ∧ lo = hi then BitVec.ofNat 32 lo else Config.sfuFree fn x

/-- A finite value in quarter-turn form: the integer part of 2x modulo 4, and the rest of 2x in steps (x ≥ 0). -/
def halfTurns (m : Nat) (e : Int) : Nat × Nat :=
  let e2 := e + 1
  if 0 ≤ e2 then ((m * 2 ^ (min e2 2).toNat) % 4, 0)
  else
    let d := (-e2).toNat
    ((m / 2 ^ d) % 4, (m % 2 ^ d) * 2 ^ (sfuP - d))

/-- The binary32 encoding of a signed zero, one or other small exact value. -/
def b32Exact (neg : Bool) (m : Nat) (e : Int) : W32 := BitVec.ofNat 32 (Fmt.b32.round 0 false (.fin neg m e))

/-- sin(π x) rounded once by the mode's round field (R122). -/
def sfuSinpi (mode : Nat) (x : W32) : W32 :=
  match Fmt.b32.val x.toNat with
  | .nan => 0x7FC00000#32
  | .inf _ => 0x7FC00000#32
  | .fin neg m e =>
    if m = 0 then x else
    let (q, r) := halfTurns m e
    if r = 0 then
      match q with
      | 0 => b32Exact neg 0 0
      | 1 => b32Exact neg 1 0
      | 2 => b32Exact neg 0 0
      | _ => b32Exact (!neg) 1 0
    else
      -- sin(π(q/2 + r/2)): ascending in even quarters, descending in odd ones
      let u := if q % 2 = 0 then r / 2 else (2 ^ sfuP - r) / 2
      sfuRound 0 x mode (if q < 2 then neg else !neg) (sinPiSteps u) 0

/-- cos(π x) rounded once by the mode's round field (R122). -/
def sfuCospi (mode : Nat) (x : W32) : W32 :=
  match Fmt.b32.val x.toNat with
  | .nan => 0x7FC00000#32
  | .inf _ => 0x7FC00000#32
  | .fin _ m e =>
    if m = 0 then 0x3F800000#32 else
    let (q, r) := halfTurns m e
    if r = 0 then
      match q with
      | 0 => b32Exact false 1 0
      | 1 => b32Exact false 0 0
      | 2 => b32Exact true 1 0
      | _ => b32Exact false 0 0
    else
      let u := if q % 2 = 0 then (2 ^ sfuP - r) / 2 else r / 2
      sfuRound 1 x mode (q = 1 || q = 2) (sinPiSteps u) 0

/-- 2^x, to nearest even (R122). -/
def sfuExp2 (x : W32) : W32 :=
  match Fmt.b32.val x.toNat with
  | .nan => 0x7FC00000#32
  | .inf neg => if neg then 0#32 else 0x7F800000#32
  | .fin neg m e =>
    if m = 0 then 0x3F800000#32
    else if !neg && decide (7 ≤ e + Nat.log2 m) then 0x7F800000#32
    else if neg && decide (8 ≤ e + Nat.log2 m) then 0#32
    else
      let whole := if 0 ≤ e then m * 2 ^ e.toNat else m / 2 ^ (-e).toNat
      let frac := if 0 ≤ e then 0 else (m % 2 ^ (-e).toNat) * 2 ^ (sfuP - (-e).toNat)
      let n : Int := if neg then (if frac = 0 then -(whole : Int) else -(whole : Int) - 1) else whole
      let f := if neg && frac ≠ 0 then 2 ^ sfuP - frac else frac
      if n < -149 ∧ (f = 0 ∨ n < -150) then 0#32
      else if f = 0 then b32Exact false 1 n
      else sfuRound 2 x 0 false (exp2Steps f) n

/-- log₂ x, to nearest even (R122). -/
def sfuLog2 (x : W32) : W32 :=
  match Fmt.b32.val x.toNat with
  | .nan => 0x7FC00000#32
  | .inf neg => if neg then 0x7FC00000#32 else 0x7F800000#32
  | .fin neg m e =>
    if m = 0 then 0xFF800000#32
    else if neg then 0x7FC00000#32
    else
      let p := Nat.log2 m
      let k : Int := e + p
      if m = 2 ^ p then b32Exact (decide (k < 0)) k.natAbs 0
      else
        let y : Int := k * (2 ^ sfuP : Nat) + log2Steps m p
        sfuRound 3 x 0 (decide (y < 0)) y.natAbs 0

/-- 1 / x, to nearest even (R122). -/
def sfuRcp (x : W32) : W32 :=
  match Fmt.b32.val x.toNat with
  | .nan => 0x7FC00000#32
  | .inf neg => b32Exact neg 0 0
  | .fin neg m e =>
    if m = 0 then BitVec.ofNat 32 (Fmt.b32.infOf neg)
    else BitVec.ofNat 32 (Fmt.b32.round 0 false (Fp.quot neg 1 m (-e)))

/-- 1 / √x, to nearest even (R122). -/
def sfuRsqrt (x : W32) : W32 :=
  match Fmt.b32.val x.toNat with
  | .nan => 0x7FC00000#32
  | .inf neg => if neg then 0x7FC00000#32 else 0#32
  | .fin neg m e =>
    if m = 0 then BitVec.ofNat 32 (Fmt.b32.infOf neg)
    else if neg then 0x7FC00000#32
    else
      -- 1/√(m 2^e) = √(2^(2k) / (m 2^t)) with e − t even; the last bit is sticky
      let t := (e % 2).toNat
      let n := 2 ^ 256 / (m * 2 ^ t)
      let r := isqrt n
      let exact := decide (r * r * (m * 2 ^ t) = 2 ^ 256)
      BitVec.ofNat 32 (Fmt.b32.round 0 false (.fin false (2 * r + (if exact then 0 else 1)) (-((e - t) / 2) - 129)))

end Sys2Proof.Machine
end

