-- ==== Sys2Proof/Machine/Flags.lean ====
section
/-! DEFINITION. What a result depends on besides its operands: wrapping and saturation (R76, R78, R92), and the conditions
of branches and compares (R105, R109, R114). The HX4 has no flag register (R75). -/

namespace Sys2Proof.Machine

/-- A `w`-bit pattern read as an integer, by its signedness (R76). -/
def intVal (w : Nat) (signed : Bool) (n : Nat) : Int :=
  if signed && decide (2 ^ (w - 1) ≤ n) then (n : Int) - 2 ^ w else n

/-- The least value of a `w`-bit integer type. -/
def intMin (w : Nat) (signed : Bool) : Int := if signed then -(2 ^ (w - 1)) else 0
/-- The greatest value of a `w`-bit integer type. -/
def intMax (w : Nat) (signed : Bool) : Int := if signed then 2 ^ (w - 1) - 1 else 2 ^ w - 1

/-- The low `w` bits of an integer (R78, sat = 0). -/
def wrapInt (w : Nat) (x : Int) : Nat := (x % 2 ^ w).toNat
/-- The nearest value in range, as a pattern (R78, sat = 1). -/
def clampInt (w : Nat) (signed : Bool) (x : Int) : Nat := wrapInt w (max (intMin w signed) (min (intMax w signed) x))
/-- An exact result put into an element (R78). -/
def fitInt (w : Nat) (signed sat : Bool) (x : Int) : Nat := if sat then clampInt w signed x else wrapInt w x

/-- The branch conditions (R105). -/
inductive BrCond where
  | eq | ne | lt | ge | ltu | geu
  deriving DecidableEq, Repr

/-- A branch or address compare condition on two 64-bit values (R105, R109). -/
def BrCond.holds : BrCond → W64 → W64 → Bool
  | .eq, a, b => a == b
  | .ne, a, b => a != b
  | .lt, a, b => a.slt b
  | .ge, a, b => !a.slt b
  | .ltu, a, b => a.ult b
  | .geu, a, b => !a.ult b

/-- The vector compare conditions (R114). -/
inductive VCond where
  | eq | ne | lt | ge | le | gt | ord | unord
  deriving DecidableEq, Repr

/-- A condition on the order of two comparable values. -/
def VCond.onOrd : VCond → Ordering → Bool
  | .eq, o => o == .eq
  | .ne, o => o != .eq
  | .lt, o => o == .lt
  | .ge, o => o != .lt
  | .le, o => o != .gt
  | .gt, o => o == .gt
  | .ord, _ => true
  | .unord, _ => false

/-- A condition where one value is a NaN: only ne and unord hold. -/
def VCond.onNan : VCond → Bool
  | .ne => true
  | .unord => true
  | _ => false

/-- A condition on two float values (R114). -/
def VCond.onFp (c : VCond) (a b : Fp) : Bool := if a.isNan || b.isNan then c.onNan else c.onOrd (Fp.cmp a b)

end Sys2Proof.Machine
end

