-- ==== Sys2Proof/Machine/Operands.lean ====
section
/-! DEFINITION. Operand forms: the elements of a lane by type (R77, R99), the uses of an instruction and their poison
(R364), and the fields of shape records (R139). -/

namespace Sys2Proof.Machine

/-! ## Elements of a lane (R77) -/

/-- Element `k` of width `w` of a lane. -/
def elemOf (w k : Nat) (x : W32) : Nat := x.toNat / 2 ^ (w * k) % 2 ^ w

/-- A lane from its elements of width `w`: element 0 least significant. -/
def packLane (w : Nat) (f : Nat → Nat) : W32 :=
  BitVec.ofNat 32 ((List.range (32 / w)).foldl (fun acc k => acc + f k % 2 ^ w * 2 ^ (w * k)) 0)

/-- Element width and signedness of a type code as the integer class reads it (R35, R99). -/
def intType (t : Nat) : Nat × Bool :=
  match t with
  | 0 => (32, true)
  | 1 => (32, false)
  | 2 => (32, true)
  | 3 => (16, true)
  | 4 => (16, false)
  | 5 => (16, true)
  | 6 => (16, true)
  | 7 => (8, true)
  | _ => (8, false)

/-- The type code is a float type. -/
def isFloatType (t : Nat) : Bool := t == 2 || t == 5 || t == 6

/-- The format of a type code as the float class reads it (R99). -/
def floatType (t : Nat) : Fmt :=
  match t with
  | 5 => Fmt.bf16
  | 6 => Fmt.b16
  | _ => Fmt.b32

/-- Element width of a type code. -/
def typeWidth (t : Nat) : Nat := (intType t).1

/-- An integer-class function of one lane's elements, results wrapped or clamped by `sat` (R78). -/
def intLane (t : Nat) (sat : Bool) (f : Int → Int → Int) (a b : W32) : W32 :=
  let (w, sg) := intType t
  packLane w fun k => fitInt w sg sat (f (intVal w sg (elemOf w k a)) (intVal w sg (elemOf w k b)))

/-- A float-class function of one lane's elements, inputs flushed, results rounded and flushed (R84, R117), under an integer type, which is
read as f32, too (R99). DEDUCED, unsafe (log entry 60). -/
def floatLane (t mode : Nat) (flush : Bool) (f : Fp → Fp → Fp) (a b : W32) : W32 :=
  let F := floatType t
  packLane F.width fun k =>
    F.result mode flush (f (F.input flush (elemOf F.width k a)) (F.input flush (elemOf F.width k b)))

/-! ## Uses and poison (R364) -/

/-- A register that an instruction reads: its file, its number as named, and for a lane register its physical number and
the lanes read. -/
inductive Use where
  | s (r : Nat)
  | p (r : Nat)
  | v (r phys : Nat) (lanes : W64)
  | x (r : Nat) (lanes : W64)
  /-- the guard predicate, which the mode word names -/
  | guard (r : Nat)
  /-- a control register -/
  | ctl (n : Nat)
  deriving DecidableEq, Repr

/-- A mark on the mode word, or on a compute strand's window register, which every instruction with a guard reads (R363).
DESIGN CHOICE, unsafe (log entry 51). -/
def State.ctlMarked (s : State) : Bool :=
  s.strand.ctlBad.contains 0x020 || (s.cur.kind == .compute && s.strand.ctlBad.contains 0x021)

/-- The file code that stands for a control register, to which R364 gives none. -/
def ctlFile : Nat := 15

/-- The file code and number of a use in trap.info (R364). -/
def State.useCode (s : State) : Use → Nat × Nat
  | .s r => (0, r)
  | .v r _ _ => (1, r)
  | .x r _ => (2, r)
  | .p r => (3, r)
  | .guard r => if s.ctlMarked then (ctlFile, 0) else (3, r)
  | .ctl n => (ctlFile, n)

/-- The lowest poisoned lane of a use as this read receives it. -/
def State.badLane (s : State) : Use → Option Nat
  | .s r => if (s.readSM r).2 then some 0 else none
  | .p r => if (s.readPM r).2 then some 0 else none
  | .v _ phys m => (List.range 64).find? fun l => maskBit ((s.readVM phys).2 &&& m) l
  | .x r m => (List.range 64).find? fun l => maskBit ((s.readXM r).2 &&& m) l
  | .guard r => if s.ctlMarked || (s.readPM r).2 then some 0 else none
  | .ctl n => if s.strand.ctlBad.contains n then some 0 else none

/-- Of two poisoned uses the one with the lower lane; the earlier operand at one lane. -/
def lowerLane (a b : Option (Nat × Nat × Nat)) : Option (Nat × Nat × Nat) :=
  match a, b with
  | none, b => b
  | a, none => a
  | some x, some y => if y.2.2 < x.2.2 then some y else some x

/-- The lowest poisoned lane that the uses read: file, number, lane. -/
def State.badUse (s : State) : List Use → Option (Nat × Nat × Nat)
  | [] => none
  | u :: us => lowerLane ((s.badLane u).map fun l => ((s.useCode u).1, (s.useCode u).2, l)) (s.badUse us)

/-- The poisoned-data trap of a use: trap.info of a control register's is a free value (R352, R363). -/
def State.useTrap (s : State) (file num lane : Nat) : TrapRec :=
  { cause := 0x0A, info := some (if file = ctlFile then Config.freeWord s.fresh 2 else BitVec.ofNat 64 (file * 65536 + num * 256 + lane)),
    addr := some 0#64, lane := some lane, stop := s.strand.pc }

/-- The poisoned-data trap at an element: trap.info holds file, number and lane (R352, R364). -/
def poisonTrap (stop : W64) (file num lane : Nat) : TrapRec :=
  { cause := 0x0A, info := some (BitVec.ofNat 64 (file * 65536 + num * 256 + lane)), addr := some 0#64, lane := some lane,
    stop := stop }

/-- The use of the guard predicate. -/
def State.useGuard (s : State) : Use := .guard s.strand.guardReg
/-- The use of vector register `r` in the active lanes. -/
def State.useV (s : State) (r : Nat) : Use := .v r (s.strand.phys r) s.guard
/-- The use of vector register `r` in given lanes. -/
def State.useVM (s : State) (r : Nat) (m : W64) : Use := .v r (s.strand.phys r) m
/-- The use of address vector `r` in the active lanes. -/
def State.useX (s : State) (r : Nat) : Use := .x r s.guard
/-- The vector register that `r` names, read at issue (R30, R41). -/
def State.vec (s : State) (r : Nat) : Vec := s.readV (s.strand.phys r)

/-! ## Shape records (R139) -/

/-- A shape record. -/
structure Shape where
  rot : Nat
  fmt : Nat
  rows : Nat
  inner : Nat
  base : Nat
  tilepitch : Nat
  rowpitch : Nat
  zeros : Bool         -- every must-be-zero bit is 0
  deriving DecidableEq, Repr

/-- The record in a lo word and a hi word. -/
def shapeOf (lo hi : W64) : Shape :=
  { rot := (lo.extractLsb' 62 2).toNat, fmt := (lo.extractLsb' 59 3).toNat, rows := (lo.extractLsb' 48 8).toNat + 1,
    inner := (lo.extractLsb' 22 20).toNat, base := (lo.extractLsb' 0 22).toNat, tilepitch := (hi.extractLsb' 22 22).toNat,
    rowpitch := (hi.extractLsb' 0 22).toNat,
    zeros := lo.extractLsb' 56 3 == 0#3 && lo.extractLsb' 42 6 == 0#6 && hi.extractLsb' 44 20 == 0#20 }

/-- The rotation mask of a code (R140). -/
def rotMask (rot : Nat) : Nat :=
  match rot with
  | 0 => 0
  | 1 => 7
  | 2 => 15
  | _ => 31

/-- The creel offset of inner byte `k` of row `row` (R140); it may pass the creel's end, which check 5 of R152 refuses. -/
def Shape.offset (r : Shape) (row k : Nat) : Nat :=
  let m := row % 64
  let l := r.base + row / 64 * r.tilepitch + m * r.rowpitch + k
  l - bitsOf l 9 5 * 32 + (bitsOf l 9 5 ^^^ (m &&& rotMask r.rot)) * 32

end Sys2Proof.Machine
end

