-- ==== Sys2Proof/Machine/Memory.lean ====
section
/-! DEFINITION. Memory: the physical map, translation, the probe, and what a read returns and a write does under the
ordering rules (R4, R17 to R21, R183, R187 to R190, R204, R209 to R222, R336 to R340, R363 to R365). -/

namespace Sys2Proof.Machine

/-! ## The physical map (R17, R21, R183) -/

/-- What a physical address names. -/
inductive PaKind where
  | hbm (die : Nat)
  | flash
  | host
  | peer (dev : Nat)
  | absent
  deriving DecidableEq, Repr

/-- The physical address map (R21). -/
def paKind (pa : Nat) : PaKind :=
  if pa < 0x004000000000 then .hbm 0
  else if pa < 0x008000000000 then .hbm 1
  else if 0x100000000000 ≤ pa ∧ pa < 0x180000000000 then .flash
  else if 0x200000000000 ≤ pa ∧ pa < 0x300000000000 then .host
  else if 0x400000000000 ≤ pa ∧ pa < 0x800000000000 then .peer ((pa - 0x400000000000) / 0x8000000000)
  else .absent

/-- The die on which a physical address homes (R17); a peer's address and an absent one have none on this device. -/
def homeDie (pa : Nat) : Option Nat :=
  match paKind pa with
  | .hbm d => some d
  | .flash => some 0
  | .host => some 0
  | _ => none

/-- The home slice within the die (R183). -/
def homeSlice (pa : Nat) : Nat :=
  bitsOf pa 11 7 ^^^ bitsOf pa 16 12 ^^^ bitsOf pa 21 17 ^^^ bitsOf pa 26 22 ^^^ bitsOf pa 31 27 ^^^ bitsOf pa 36 32

/-- Creel bytes stand above every physical address among the locations of the ordering rules. -/
def creelLoc : Nat := 2 ^ 60
/-- The location of a creel byte. -/
def locOfCreel (cluster off : Nat) : Nat := creelLoc + cluster * Config.creelBytes + off
/-- A location is a creel byte. -/
def isCreel (loc : Nat) : Bool := decide (creelLoc ≤ loc)
/-- The location is a byte of a peer device. -/
def isPeer (loc : Nat) : Bool := !isCreel loc && (match paKind loc with | .peer _ => true | _ => false)

/-- The newest byte at a location. A peer's byte is not this device's: its value is free. -/
def State.byteNow (s : State) (loc : Nat) : Byte :=
  if isCreel loc then Mem.read s.creel (loc - creelLoc)
  else if isPeer loc then Config.freeByte s.fresh loc
  else Mem.read s.mem loc

/-- `n` bytes of global memory at a physical address as a number, as an engine or the scheduler reads it (R4). -/
def State.word (s : State) (pa n : Nat) : Nat := leNat ((List.range n).map fun i => s.byteNow (pa + i))

/-- The byte at `loc` as of time `t`, from its newest value and the writes since (newest first). -/
def byteAsOf : List WriteRec → Nat → Nat → Byte → Byte
  | [], _, _, b => b
  | r :: rs, t, loc, b => if r.time ≤ t then b else byteAsOf rs t loc (if r.loc = loc && r.span == 0 then r.old else b)

/-- A record is a write of `loc`. -/
def WriteRec.hits (r : WriteRec) (loc : Nat) : Bool :=
  if r.span = 0 then r.loc == loc else decide (r.loc ≤ loc) && decide (loc < r.loc + r.span)

/-- The agent number of a record that writes nothing and only makes what stands at a range seen by every agent. -/
def settler : Nat := 2 ^ 42

/-- The agent number of the host. -/
def hostAgent : Nat := 2 ^ 43

/-- The newest write of `loc` at or before time `t`. -/
def writerAsOf (h : List WriteRec) (t loc : Nat) : Option WriteRec :=
  h.find? fun r => decide (r.time ≤ t) && r.hits loc && r.who != settler

/-! ## Scopes (R23, R218) -/

/-- Scope code `k` of an agent at `a` includes the agent at `b`. The waves of one unit stand on one cluster, wherever a restore
has put it since (R213, R350). -/
def includes (k : Nat) (a b : Place) : Bool :=
  if k = 5 then true
  else if a.external || b.external then false
  else match k with
    | 0 => a.wave == b.wave
    | 1 => a.unit == b.unit
    | 2 => a.unit == b.unit || a.cluster == b.cluster || (a.weave != 0 && a.weave == b.weave)
    | 3 => a.unit == b.unit || dieOfCluster a.cluster == dieOfCluster b.cluster
    | _ => true

/-- The weave that a unit holds a membership of: its key in `State.weaves` plus 1; 0 for none (R194). -/
def State.weaveOfUnit (s : State) (u : Nat) : Nat :=
  match s.weaves.find? fun e => e.2.members.any fun m => m.2 == u with
  | some e => e.1 + 1
  | none => 0

/-- The weave with a number from `State.weaveOfUnit`, less 1. -/
def State.weave (s : State) (n : Nat) : Weave := SMap.get Weave.none s.weaves n

/-- The weave of a cluster, through whichever unit on it holds the membership (R194). -/
def State.weaveOfCluster (s : State) (c : Nat) : Nat :=
  match s.weaves.find? fun e => e.2.members.any fun m => (s.unit m.2).life == .resident && (s.unit m.2).cluster == c with
  | some e => e.1 + 1
  | none => 0

/-- Where the access strand of a wave of unit `u` stands. -/
def State.placeOf (s : State) (w : Wave) : Place :=
  { wave := w.who, unit := w.unit, cluster := (s.unit w.unit).cluster, weave := s.weaveOfCluster (s.unit w.unit).cluster,
    external := false }
/-- Where the host stands. -/
def hostPlace : Place := ⟨0, 0, 0, 0, true⟩

/-- Object `o` of a release or acquire covers object `p` of a byte. -/
def Obj.covers : Obj → Obj → Bool
  | .all, _ => true
  | o, p => o == p

/-! ## Views (R219, R220) -/

/-- The later of two entries of a view. -/
def viewMax (a b : Nat × Obj) : Nat × Obj := if a.1 < b.1 then b else a
/-- Make every write of `w` visible as well. -/
def View.join (v w : View) : View :=
  w.foldl (fun acc e => SMap.upd (0, Obj.all) e.1 (fun x => viewMax x e.2) acc) v
/-- The part of a view bound to an object. A byte that the device or the host wrote by its physical address is taken as bound to
whichever object is named: the record of its write does not know the page. DESIGN CHOICE, unsafe (log entry 50). -/
def View.only (v : View) (o : Obj) : View := v.filter fun e => o.covers e.2.2 || e.2.2 == .all

/-- What becomes visible when an agent at `me` acquires `o` at scope `k` over the given releases: what each release that
the acquire matches covers (R218, R220), and of that what is bound to the acquired object, of a fence's release too (R219). DEDUCED,
safe (log entry 30). -/
def acquired (o : Obj) (k : Nat) (me : Place) (rels : List Rel) : View :=
  rels.foldl (fun acc r =>
    if (r.obj == o || r.obj == .all || o == .all) && includes r.scope r.place me && includes k me r.place then
      View.join acc (View.only (View.only r.cover r.obj) o) else acc) []

/-- The access strand performs a release of `o` at scope `scope` now: its later writes carry it, and it covers what
the strand has made, read or acquired (R217, R219). -/
def Strand.release (t : Strand) (o : Obj) (scope : Nat) (me : Place) : Strand :=
  let r : Rel := ⟨o, scope, me, t.seqNo, View.only t.cover o⟩
  { t with rels := r :: t.rels.filter fun q => !(q.obj == o && q.scope == scope), seqNo := t.seqNo + 1 }

/-- Writes become visible at place `n` of the program order: to the strand, and to what its releases after `n` cover. -/
def Rel.note (n : Nat) (vis : View) (r : Rel) : Rel :=
  if n < r.seq then { r with cover := View.join r.cover (View.only vis r.obj) } else r
/-- The same for the strand. -/
def Strand.note (t : Strand) (n : Nat) (vis : View) : Strand :=
  { t with view := View.join t.view vis, cover := View.join t.cover vis, rels := t.rels.map (Rel.note n vis) }

/-- Writes become visible to wave `idx` of unit `u` at place `n` of its program order; the releases that its accesses in
flight carry cover them where they are later than `n`. -/
def State.noteVis (s : State) (u idx n : Nat) (vis : View) : State :=
  let s := s.updWaveOf u idx fun w => { w with acc := w.acc.note n vis }
  { s with flight := SMap.mapVals (fun _ a =>
      if a.unit = u ∧ a.idx = idx then { a with rels := a.rels.map (Rel.note n vis) } else a) s.flight }

/-- The current access strand synchronises with the given releases, acquiring every object at system scope. -/
def State.syncWith (s : State) (rels : List Rel) : State :=
  s.noteVis s.curWave.unit s.curWave.pos s.strand.seqNo (acquired .all 5 (s.placeOf s.curWave) rels)

/-- The current strand's release of every object at system scope, as a record for a counter or timeline to carry. -/
def State.sysRelease (s : State) : Rel := ⟨.all, 5, s.placeOf s.curWave, s.strand.seqNo, s.strand.cover⟩

/-- None of the current access strand's accesses is in flight. -/
def State.quiet (s : State) : Bool :=
  !s.flight.any fun e => decide (e.2.unit = s.curWave.unit) && decide (e.2.idx = s.curWave.pos)

/-! ## Reading -/

/-- No copy of the byte is held in a private cache: it lies in host memory outside the CXL.cache-coherent regions (R273). -/
def uncached (loc : Nat) : Bool := !isCreel loc && paKind loc == .host && !Config.cxlCached loc

/-- The time of the newest record that every agent sees and that covers one of these bytes: the rotation or migration of a page, or
the end of a reset of its home (R228, R386). -/
def State.spanFloor (s : State) (locs : List Nat) : Nat :=
  s.hist.foldl (fun m r => if r.span != 0 && locs.any r.hits then max m r.time else m) 0

/-- The same of the records that put other contents there, which no walk of a page table reads past: the end of a reset is none (R341). -/
def State.moveFloor (s : State) (locs : List Nat) : Nat :=
  s.hist.foldl (fun m r => if r.span != 0 && r.who != settler && locs.any r.hits then max m r.time else m) 0

/-- The earliest time as of which an agent with view `v` may read these bytes: not before a write visible to it, nor before one that has
been at its home for 8,192 cycles or that no cache holds a copy of, nor before the rotation or migration of their page (R220, R228,
R243, R273). DEDUCED, safe (log entry 16). -/
def State.readFloor (s : State) (v : View) (locs : List Nat) : Nat :=
  let a := locs.foldl (fun m l => max m (SMap.get (0, Obj.all) v l).1) (s.spanFloor locs)
  s.hist.foldl (fun m r =>
    if (decide (r.cycle + Config.staleCycles ≤ s.cycle) || uncached r.loc) && (locs.any r.hits) then max m r.time else m) a

/-- The moment at which a line is read: one moment for all its bytes, freely chosen among those allowed (R189, R220). -/
def State.readTime (s : State) (v : View) (locs : List Nat) (tag : Nat) : Nat :=
  let f := s.readFloor v locs
  if s.hist.any fun r => decide (f < r.time) && locs.any r.hits then
    s.now - Config.pick s.fresh (1000000 + tag) % (s.now - f + 1)
  else s.now

/-- The byte at a location at a moment. -/
def State.byteAt (s : State) (t loc : Nat) : Byte := byteAsOf s.hist t loc (s.byteNow loc)

/-- A location lies in a granule or word marked poisoned (R363). -/
def State.poisonedAt (s : State) (loc : Nat) : Bool :=
  if isCreel loc then SMap.get false s.creelPoison ((loc - creelLoc) / 4) else SMap.get false s.gPoison (loc / 32)

/-- The writes that a read of these bytes as of `time` returns, and the releases they carry. -/
def readSources (h : List WriteRec) (time : Nat) (locs : List (Nat × Obj)) : View × List Rel :=
  locs.foldl (fun acc l =>
    match writerAsOf h time l.1 with
    | none => acc
    | some r => (SMap.put l.1 (r.time, l.2) acc.1, r.rels ++ acc.2.filter fun q => !r.rels.contains q)) ([], [])

/-! ## Writing -/

/-- Change every wave, resident or saved, with its slot. -/
def State.mapWaves (s : State) (f : Nat → Wave → Wave) : State :=
  { s with waves := SMap.mapVals f s.waves,
           units := SMap.mapVals (fun _ u => { u with image := (u.slots.zip u.image).map fun e => f e.1 e.2 }) s.units }

/-- Put one byte. A byte of a peer is sent to it, not stored here. -/
def State.putByte (s : State) (loc : Nat) (b : Byte) : State :=
  if isCreel loc then { s with creel := Mem.write s.creel (loc - creelLoc) b }
  else if isPeer loc then s
  else { s with mem := Mem.write s.mem loc b }

/-- Put consecutive bytes given with their locations. -/
def State.putBytes (s : State) : List (Nat × Byte) → State
  | [] => s
  | e :: es => (s.putByte e.1 e.2).putBytes es

/-- Every agent sees what stands now in `n` bytes from `loc`: no older copy is left. -/
def State.settleRange (s : State) (loc n : Nat) (o : Obj) : State :=
  { s with hist := (⟨s.now, s.cycle, settler, loc, n, o, 0#8, []⟩ : WriteRec) :: s.hist }

/-- The armed monitors whose line is among `lines`, but that of agent `who`: the partition and the line of each. -/
def State.armedOn (s : State) (who : Nat) (lines : List Nat) : List (Nat × Nat) :=
  let hit := fun (w : Wave) =>
    if w.who = who then none
    else match w.acc.monitor with
      | some m => if lines.contains m.line then some ((s.unit w.unit).part, m.line) else none
      | none => none
  (s.waves.filterMap fun e => hit e.2) ++ s.units.flatMap fun u => u.2.image.filterMap hit

/-- A monitor records a wake of cause `c`: the lowest cause since it was armed stands (R208). -/
def Monitor.woken (c : Nat) (m : Monitor) : Monitor := { m with wake := if m.wake = 0 then c else min m.wake c }

/-- Record a wake of cause `c` in the armed monitors of the waves that a test admits, in place and saved (R208): no line has sent it, and its
courier message counts on the die of the wave's unit (R276, R391). DEDUCED, unsafe (log entry 41). -/
def State.wakeWaves (s : State) (f : Wave → Bool) (c : Nat) : State :=
  let hit := fun (w : Wave) =>
    if f w && w.acc.monitor.isSome then some ((s.unit w.unit).part, dieOfCluster (s.unit w.unit).cluster) else none
  let sent := (s.waves.filterMap fun e => hit e.2) ++ s.units.flatMap fun u => u.2.image.filterMap hit
  (sent.foldl (fun s m => s.bump m.1 m.2 0x09 1) s).mapWaves fun _ w =>
    if f w then { w with acc := { w.acc with monitor := w.acc.monitor.map (Monitor.woken c) } } else w

/-- Record a wake of cause `c` in the armed monitors whose line is among `lines`, except that of agent `who` (R208); each wake is a courier
message from the line's home (R276, R391). -/
def State.wakeLines (s : State) (who : Nat) (c : Nat) (lines : List Nat) : State :=
  let s := (s.armedOn who lines).foldl (fun s m => s.bump m.1 ((homeDie (128 * m.2)).getD 0) 0x09 1) s
  s.mapWaves fun _ w =>
    if w.who = who then w
    else match w.acc.monitor with
      | none => w
      | some m => if lines.contains m.line then
          { w with acc := { w.acc with monitor := some (m.woken c) } } else w

/-- Clear the poison marks of granules and creel words that the bytes cover whole (R365). -/
def State.clearPoison (s : State) (es : List (Nat × Byte)) : State :=
  es.foldl (fun s e =>
    if isCreel e.1 then
      let w := (e.1 - creelLoc) / 4
      if (List.range 4).all fun i => es.any fun x => x.1 == creelLoc + 4 * w + i then
        { s with creelPoison := SMap.del s.creelPoison w } else s
    else
      let g := e.1 / 32
      if (List.range 32).all fun i => es.any fun x => x.1 == 32 * g + i then
        { s with gPoison := SMap.del s.gPoison g } else s) s

/-- Perform an agent's writes of bytes at one moment, carrying releases: the bytes, their place in the coherence orders,
the marks they clear and the monitors they wake (R190, R208, R215, R365). -/
def State.perform (s : State) (who : Nat) (rels : List Rel) (es : List (Nat × Byte)) (o : Obj := .all) : State :=
  match es with
  | [] => s
  | _ =>
    let time := s.now + 1
    let recs := es.map fun e => (⟨time, s.cycle, who, e.1, 0, o, s.byteNow e.1, rels⟩ : WriteRec)
    let s := { s with now := time, hist := recs ++ s.hist }
    ((s.putBytes es).clearPoison es).wakeLines who 1 ((es.filter fun e => !isCreel e.1).map fun e => e.1 / 128)

/-- Perform writes by an agent that is no strand: an engine, the scheduler, the monitor. -/
def State.agentWrite (s : State) (rels : List Rel) (pa : Nat) (bs : List Byte) : State :=
  s.perform 0 rels ((List.range bs.length).zip bs |>.map fun e => (pa + e.1, e.2))

/-- The writes of bytes just performed, as a view. -/
def State.justWritten (s : State) (locs : List (Nat × Obj)) : View :=
  locs.foldl (fun v l => SMap.put l.1 (s.now, l.2) v) []

/-! ## Reach (R21, R349) -/

/-- A peer device is reachable through the partition's fibres (R349, R378). -/
def Partition.reaches (p : Partition) (dev : Nat) : Bool :=
  p.asn.fibres.any fun f => !p.fibresOut.contains f.1 && f.2.contains dev

/-- The storage at a location cannot be reached: absent, on a die that is not live, or a peer that cannot be reached. In step 3 of a warm
reset what passed the probe before it is still performed (R383). -/
def State.unreachable (s : State) (part loc : Nat) : Bool :=
  if isCreel loc then false
  else match paKind loc with
    | .absent => true
    | .peer d => !(s.part part).reaches d
    | _ => match homeDie loc with
      | some d => (s.die d).state != .live
      | none => true

/-! ## Translation (R336 to R339) -/

/-- A leaf entry (R338). -/
structure Leaf where
  valid : Bool
  write : Bool
  exec : Bool
  nomig : Bool
  backings : Nat
  obj : Nat
  lrole : Nat
  vrole : Nat
  srole : Nat
  wrole : Nat
  spill : Bool
  frame : Nat          -- physical address of backing 0
  big : Bool
  entry : Nat          -- physical address of the entry
  deriving DecidableEq, Repr

/-- Page size in bytes (R18). -/
def Leaf.size (l : Leaf) : Nat := if l.big then 2097152 else 65536
/-- Physical address of an offset in backing `j` (R338). -/
def Leaf.pa (l : Leaf) (j va : Nat) : Nat := l.frame + j * l.size + va % l.size

/-- Why a lane fails the probe (R187, R339), with the die for an offline home. -/
inductive PFault where
  | translation
  | dieOffline (die : Nat)
  | alignment
  | protection
  | creelRange
  | weaveMember
  /-- a spilled page: the access blocks, it does not fault (R324) -/
  | spilled (va : Nat)
  /-- waits at the creel allotment of a unit: of a scout task, or of one that is switched out (R166, R196) -/
  | waits (holder : Nat)
  /-- no fault of a lane: bytes that a fetch, a walk or a read of a block would use are marked poisoned (R350, R364) -/
  | poisoned
  /-- no fault of a lane: what a fetch or a block names gives an error reply (R21, R349, R362) -/
  | refused
  deriving DecidableEq, Repr

/-- The trap code of a probe fault (R352). -/
def PFault.code : PFault → Nat
  | .translation => 0x05
  | .alignment => 0x06
  | .protection => 0x07
  | .creelRange => 0x08
  | .weaveMember => 0x09
  | .dieOffline _ => 0x0D
  | .poisoned => 0x0A
  | _ => 0

/-- The addresses from `a` up to `b` lie in ranges, base and size, in one or in adjoining ones; as many as the fuel says are crossed. -/
def rangesCover (rs : List (Nat × Nat)) : Nat → Nat → Nat → Bool
  | 0, a, b => decide (b ≤ a)
  | fuel + 1, a, b => decide (b ≤ a) || rs.any fun g => decide (g.1 ≤ a) && decide (a < g.1 + g.2) && rangesCover rs fuel (g.1 + g.2) b

/-- The bytes from `pa` lie in what the partition's grant table lists (R334, R339, R343). Host memory is granted to a partition that
holds a function alone (R275). -/
def Record.grants (r : Record) (pa n : Nat) : Bool :=
  match paKind pa with
  | .hbm _ => (List.range ((pa + n - 1) / 2097152 + 1 - pa / 2097152)).all fun i => r.frames.contains (pa / 2097152 + i)
  | .flash => rangesCover r.flashRanges r.flashRanges.length pa (pa + n)
  | .host => r.vf != 0 && rangesCover r.hostRanges r.hostRanges.length pa (pa + n)
  | .peer _ => false
  | .absent => false

/-- A leaf may map the bytes from `pa`: they are granted, or a peer's, whose reachability through the partition's fibres is tested where
the access arrives (R339, R349). -/
def Record.mappable (r : Record) (pa n : Nat) : Bool :=
  match paKind pa with
  | .peer _ => true
  | _ => r.grants pa n

/-- The role fields name a distinct backing below the count for each role that the page uses, and are 0 otherwise (R338). -/
def rolesOk (n l v sr w : Nat) : Bool :=
  match n with
  | 1 => l == 0 && v == 0 && sr == 0 && w == 0
  | 2 => decide (l < 2) && decide (w < 2) && l != w && v == 0 && sr == 0
  | 3 => decide (l < 3) && decide (v < 3) && decide (w < 3) && l != v && l != w && v != w && sr == 0
  | _ => l != v && l != sr && l != w && v != sr && v != w && sr != w

/-- Read a leaf entry word. -/
def leafOf (e entry : Nat) (big : Bool) : Leaf :=
  { valid := e.testBit 63, write := e.testBit 61, exec := e.testBit 60, nomig := e.testBit 59, backings := bitsOf e 58 57 + 1,
    obj := bitsOf e 56 45, lrole := bitsOf e 44 43, vrole := bitsOf e 42 41, srole := bitsOf e 40 39, wrole := bitsOf e 38 37,
    spill := e.testBit 36, frame := bitsOf e 30 0 * 65536, big := big, entry := entry }

/-- The word of a leaf entry. -/
def Leaf.word (l : Leaf) : Nat :=
  (if l.valid then 2 ^ 63 else 0) + 2 ^ 62 + (if l.write then 2 ^ 61 else 0) + (if l.exec then 2 ^ 60 else 0)
    + (if l.nomig then 2 ^ 59 else 0) + (l.backings - 1) % 4 * 2 ^ 57 + l.obj % 4096 * 2 ^ 45 + l.lrole % 4 * 2 ^ 43
    + l.vrole % 4 * 2 ^ 41 + l.srole % 4 * 2 ^ 39 + l.wrole % 4 * 2 ^ 37 + (if l.spill then 2 ^ 36 else 0)
    + l.frame / 65536 % 2 ^ 31

/-- Address `va` lies in the KV range of a live tree of the space (R306). -/
def Partition.inKv (p : Partition) (space va : Nat) : Bool :=
  p.trees.any fun e => e.2.space == space && decide (e.2.kvbase ≤ va)
    && decide (va < e.2.kvbase + e.2.kvpages * (e.2.pslots * e.2.slotBytes))

/-- A leaf word that the probe accepts as mapped: each backing by itself lies in the grant table (R338, R339). -/
def leafCheck (p : Partition) (space va e entry : Nat) (big : Bool) : Except PFault Leaf :=
  let l := leafOf e entry big
  if bitsOf e 35 31 ≠ 0 then .error .translation
  else if !l.valid then (if l.spill && p.inKv space va then .error (.spilled va) else .error .translation)
  else if l.spill then .error .translation
  else if big && bitsOf e 4 0 != 0 then .error .translation
  else if !rolesOk l.backings l.lrole l.vrole l.srole l.wrole then .error .translation
  else if (List.range l.backings).any fun i => !p.asn.mappable (l.frame + i * l.size) l.size then .error .translation
  else .ok l

/-- An entry as a walk for a page reads it: of writes made since the page's last change, however long ago, a walk may or may not use
each (R341). `floor` is the moment of that change and `low` the earliest such moment in the 2 MiB region, so that the lanes in one page
read one value (R340). DEDUCED, safe (log entry 17). -/
def State.entryWord (s : State) (low floor pa : Nat) : Nat :=
  let locs := (List.range 8).map fun i => pa + i
  let f := max low (s.moveFloor locs)
  let t := if s.hist.any fun r => decide (f < r.time) && locs.any r.hits then
      s.now - Config.pick s.fresh (1000000 + pa) % (s.now - f + 1)
    else s.now
  leNat (locs.map (s.byteAt (max t floor)))

/-- An entry as it was at a moment. -/
def State.entryAt (s : State) (time pa : Nat) : Nat := leNat ((List.range 8).map fun i => s.byteAt time (pa + i))

/-- One level of the walk: its table is granted, and its entry is a table entry that names the next table (R337); no marked entry is used
(R350). -/
def State.walkTable (s : State) (p : Partition) (read : Nat → Nat) (table idx bytes : Nat) : Except PFault (Nat × Nat) :=
  if !p.asn.grants table bytes then .error .translation
  else if s.poisonedAt (table + 8 * idx) then .error .poisoned
  else .ok (read (table + 8 * idx), table + 8 * idx)

/-- The table a table entry names, where it is valid (R338). -/
def tableOf (e : Nat) : Except PFault Nat :=
  if e.testBit 63 && !e.testBit 62 && bitsOf e 61 39 == 0 then .ok (bitsOf e 38 0 * 256) else .error .translation

/-- The four-level walk (R337), given what each entry reads as. -/
def State.walkBy (s : State) (read : Nat → Nat) (part space va : Nat) : Except PFault Leaf := do
  let p := s.part part
  let sp := s.space space
  if sp.part ≠ part then .error .translation
  if 2 ^ 56 ≤ va then .error .translation
  let (e0, _) ← s.walkTable p read sp.root (bitsOf va 55 47) 4096
  let t1 ← tableOf e0
  let (e1, _) ← s.walkTable p read t1 (bitsOf va 46 34) 65536
  let t2 ← tableOf e1
  let (e2, a2) ← s.walkTable p read t2 (bitsOf va 33 21) 65536
  if e2.testBit 62 then leafCheck p space va e2 a2 true
  else
    let t3 ← tableOf e2
    let (e3, a3) ← s.walkTable p read t3 (bitsOf va 20 16) 256
    if e3.testBit 62 then leafCheck p space va e3 a3 false else .error .translation

/-- The moment of the last change of the page of an address. -/
def Space.changedAt (sp : Space) (va : Nat) : Nat := (SMap.get (0, 0) sp.changed (va / 65536)).2

/-- The earliest of the moments at which the pages in the 2 MiB region of an address last changed. -/
def Space.changedLow (sp : Space) (va : Nat) : Nat :=
  (List.range 32).foldl (fun m i => min m (sp.changedAt (va / 2097152 * 2097152 + 65536 * i))) (sp.changedAt va)

/-- The walk of a probe: each entry written since the page's last change is read as it was or as it is (R341). -/
def State.walk (s : State) (part space va : Nat) : Except PFault Leaf :=
  s.walkBy (s.entryWord ((s.space space).changedLow va) ((s.space space).changedAt va)) part space va

/-- The page number used for change generations: 64 KiB pages of the space (R209). -/
def pageNo (va : Nat) : Nat := va / 65536

/-! ## The probe (R187, R339) -/

/-- What an access wants of a page. -/
inductive Want where
  | read
  | write
  | atomic
  | fetch
  /-- a write by the copy engine, which alone may write flash (R205) -/
  | engine
  /-- a read by an engine whose bytes leave the unit (R157) -/
  | send
  deriving DecidableEq, Repr

/-- The take that maps address `va` for a unit, if any (R175). -/
def UnitRec.takeOf (u : UnitRec) (space va : Nat) : Option Take :=
  u.takes.find? fun t => t.space == space && decide (t.base ≤ va) && decide (va < t.base + t.length)

/-- The backing that a take maps at an address of its range. -/
def Take.backingAt (t : Take) (va : Nat) : Nat := t.backings.getD (va / 65536 - t.base / 65536) 0


/-- The backing an access of a unit reaches: the mapped one of a take, L for a read, W for a write (R175, R204). What an engine reads to
pass on, for a command that was pushed before the unit scouted, is L as long as the unit is a scout task, since no prediction may leave it,
of an input that has passed or failed neither (R157, R164). DEDUCED, unsafe (log entry 20). -/
def Leaf.backing (l : Leaf) (u : UnitRec) (space va : Nat) (want : Want) : Nat :=
  match want with
  | .write => l.wrole
  | .engine => l.wrole
  | .atomic => l.wrole
  | .send => match u.takeOf space va with
    | some t => if t.status != 0 && decide (0 < u.depthScout) then l.lrole else t.backingAt va
    | none => l.lrole
  | _ => match u.takeOf space va with
    | some t => t.backingAt va
    | none => l.lrole

/-- New accesses homed on a die fault: it is not live, or its reset has reached step 3 (R383). -/
def State.offline (s : State) (d : Nat) : Bool :=
  (s.die d).state != .live || decide (3 ≤ (s.die d).step)

/-- Probe one global address for a unit: its translation, its home, its alignment, its protection, in that order. -/
def State.probeGlobal (s : State) (unit part space va size : Nat) (want : Want) : Except PFault (Leaf × Nat) := do
  let l ← s.walk part space va
  let u := s.unit unit
  let pa := l.pa (l.backing u space va want) va
  match homeDie pa with
  | some d => if s.offline d then .error (.dieOffline d)
  | none => pure ()
  if va % size ≠ 0 then .error .alignment
  let flash := paKind pa == .flash
  match want with
  | .read => pure ()
  | .send => pure ()
  | .fetch => if !l.exec then .error .protection
  | .write => if !l.write || flash || (u.takeOf space va).isSome then .error .protection
  | .engine => if !l.write || (u.takeOf space va).isSome then .error .protection
  | .atomic => if !l.write || flash || decide (1 < l.backings) then .error .protection
  pure (l, pa)

/-- The weave and slot through which a unit on a cluster reaches other creels: its own membership, or that of another unit in place on
its cluster (R194, R196). -/
def State.memberOf (s : State) (unit cluster : Nat) : Option (Weave × Nat) :=
  let find := fun (mine : Nat → Bool) => s.weaves.findSome? fun e => (e.2.members.find? fun m => mine m.2).map fun m => (e.2, m.1)
  match find fun h => h == unit with
  | some r => some r
  | none => find fun h => (s.unit h).life == .resident && (s.unit h).cluster == cluster

/-- The unit whose allotment a member field names for a unit on a cluster (R19, R188). -/
def State.memberHolder (s : State) (unit cluster member : Nat) : Option Nat :=
  if member = 0 then some unit
  else match s.memberOf unit cluster with
    | none => none
    | some (w, slot) => SMap.find w.members ((slot + member) % 16)

/-- Accesses by a unit to the allotment of unit `h` wait at the creel: `h` is switched out (R196, R212) or, of another unit, a scout task
(R166). -/
def State.creelShut (s : State) (unit h : Nat) : Bool :=
  (s.unit h).life == .saved || (s.unit h).life == .stopped || (s.unit h).life == .waiting
    || (h != unit && (s.unit h).life == .resident && decide (0 < (s.unit h).depthScout))

/-- Probe one creel address of a unit on a cluster, `n` bytes wide, in the order of R187: the unit that holds the allotment, its cluster
and the offset. Member 0 gives an absolute offset; another member one that counts from the start of its allotment (R188). -/
def State.probeCreel (s : State) (unit cluster a n size : Nat) : Except PFault (Nat × Nat × Nat) := do
  if 2 ^ 26 ≤ a then .error .creelRange
  let member := bitsOf a 25 22
  match s.memberHolder unit cluster member with
  | none => .error .weaveMember
  | some h =>
    let u := s.unit h
    let c := if member = 0 then cluster else u.cluster
    let o := bitsOf a 21 0
    let first := if member = 0 then o - u.creelOff else o
    if (member = 0 ∧ o < u.creelOff) ∨ u.creelBytes ≤ first then .error .creelRange
    if a % size ≠ 0 then .error .alignment
    if u.creelBytes < first + n then .error .creelRange
    if s.creelShut unit h then .error (.waits h)
    pure (h, c, u.creelOff + first)

end Sys2Proof.Machine
end

