-- ==== Sys2Proof/Machine/Units.lean ====
section
/-! DEFINITION. Virtual reads and writes of engines and the scheduler, the error log, kernel descriptors and launch
blocks, and stopping units: cancel and squash (R71, R171, R181, R212, R250 to R269, R358 to R360). -/

namespace Sys2Proof.Machine

/-! ## Reads and writes through translation -/

/-- Split `n` bytes from `va` at the multiples of `gran`, at most `fuel` pieces. -/
def chunksBy (gran : Nat) : Nat → Nat → Nat → List (Nat × Nat)
  | 0, _, _ => []
  | fuel + 1, va, n =>
    let room := gran - va % gran
    if n = 0 then [] else if n ≤ room then [(va, n)] else (va, room) :: chunksBy gran fuel (va + room) (n - room)

/-- Split `n` bytes from `va` at 64 KiB boundaries, at most `fuel` pieces. -/
def pageChunks (fuel va n : Nat) : List (Nat × Nat) := chunksBy 65536 fuel va n

/-- The pieces of a range that one probe each covers: within a page, and for a unit with takes, whose buffers begin and end at multiples of
128 (R158), within a line. -/
def State.pieces (s : State) (unit va n : Nat) : List (Nat × Nat) :=
  if (s.unit unit).takes.isEmpty then pageChunks (n / 65536 + 2) va n else chunksBy 128 (n / 128 + 2) va n

/-- The locations of `n` bytes from `va` as an engine of the unit reaches them; the first fault found otherwise. A place that gives an error
reply is refused (R21, R349). -/
def State.vaLocs (s : State) (unit part space va n : Nat) (want : Want) : Except PFault (List Nat) :=
  (s.pieces unit va n).foldl (fun acc c =>
    match acc with
    | .error f => .error f
    | .ok ls =>
      match s.probeGlobal unit part space c.1 1 want with
      | .error f => .error f
      | .ok (_, pa) => if s.unreachable part pa then .error .refused else .ok (ls ++ (List.range c.2).map fun i => pa + i)) (.ok [])

/-- Where an engine's access to a range meets its first fault. -/
def State.faultVa (s : State) (unit part space va n : Nat) (want : Want) : Nat :=
  ((s.pieces unit va n).find? fun c => match s.vaLocs unit part space c.1 c.2 want with
    | .ok _ => false
    | .error _ => true).elim va Prod.fst

/-- The tree page that holds a virtual address of a space, if it lies in a tree's KV range (R306): tree and page number. -/
def Partition.kvPageOf (p : Partition) (space va : Nat) : Option (Nat × Nat) :=
  match p.trees.find? fun e => e.2.space == space && decide (e.2.kvbase ≤ va)
      && decide (va < e.2.kvbase + e.2.kvpages * (e.2.pslots * e.2.slotBytes)) with
  | none => none
  | some e => some (e.1, (va - e.2.kvbase) / (e.2.pslots * e.2.slotBytes))

/-- The page engine starts fetching a spilled page that an access has met (R324). -/
def State.wantPage (s : State) (part space va : Nat) : State :=
  match (s.part part).kvPageOf space va with
  | none => s
  | some (t, k) => s.updPart part fun p => { p with trees := SMap.mapVals (fun n (x : Tree) =>
      if n = t then { x with pages := SMap.mapVals (fun j (g : KvPage) =>
        if j = k && !g.resident then { g with fetching := true } else g) x.pages } else x) p.trees }

/-- The probe of addresses sets the reference bits of the key-value pages that hold them (R323). -/
def State.touch (s : State) (part space : Nat) (vas : List Nat) : State :=
  if (s.part part).trees.isEmpty then s
  else
    let hits := vas.filterMap fun va => (s.part part).kvPageOf space va
    s.updPart part fun p => { p with trees := SMap.mapVals (fun n (x : Tree) =>
      { x with pages := SMap.mapVals (fun j (g : KvPage) => if hits.contains (n, j) then { g with refBit := true } else g) x.pages }) p.trees }

/-- The same for the pages of a range. -/
def State.touchVa (s : State) (part space va n : Nat) : State :=
  s.touch part space ((pageChunks (n / 65536 + 2) va n).map Prod.fst)

/-- The spilled page that an engine's access to a range meets first, by an address in it: the access waits for its fetch (R324). -/
def State.spilledIn (s : State) (unit part space va n : Nat) (want : Want) : Option Nat :=
  match s.vaLocs unit part space va n want with
  | .error (.spilled a) => some a
  | _ => none

/-- Page `k` of a tree. -/
def Tree.page (t : Tree) (k : Nat) : KvPage := SMap.get KvPage.none t.pages k

/-- A spilled page cannot be fetched: its tree's die or a frame of it is off line. -/
def State.pageLost (s : State) (part space va : Nat) : Bool :=
  match (s.part part).kvPageOf space va with
  | none => true
  | some (t, k) =>
    let x := SMap.get Tree.none (s.part part).trees t
    s.offline x.die || (x.page k).frames.any fun f => (homeDie (65536 * f)).any s.offline

/-- The bytes of a virtual range, as an engine reads them; marked ones are not used (R350). -/
def State.readVa (s : State) (unit part space va n : Nat) : Except PFault (List Byte) :=
  match s.vaLocs unit part space va n .read with
  | .error f => .error f
  | .ok ls => if ls.any s.poisonedAt then .error .poisoned else .ok (ls.map s.byteNow)

/-- A block that the scheduler reads stands in a spilled page which can be fetched: an address in it, whose fetch the read waits for
(R324). -/
def State.spilledBlock (s : State) (part space va n : Nat) : Option Nat :=
  match s.readVa 0 part space va n with
  | .error (.spilled a) => if s.pageLost part space a then none else some a
  | _ => none

/-- A little-endian field of a block that has been read. -/
def fieldOf (b : List Byte) (off n : Nat) : Nat := leNat ((b.drop off).take n)

/-- Some byte of the virtual range lies in a poisoned granule. -/
def State.vaPoisoned (s : State) (unit part space va n : Nat) : Bool :=
  match s.vaLocs unit part space va n .read with
  | .error _ => false
  | .ok ls => ls.any s.poisonedAt

/-- Write bytes to a virtual range, carrying releases; where the range does not translate nothing is written. -/
def State.writeVa (s : State) (unit part space : Nat) (rels : List Rel) (va : Nat) (bs : List Byte) : State :=
  match s.vaLocs unit part space va bs.length .write with
  | .error _ => s
  | .ok ls => (s.touchVa part space va bs.length).perform 0 rels (ls.zip bs)

/-- A range may be written. -/
def State.vaWritable (s : State) (unit part space va n : Nat) : Bool :=
  match s.vaLocs unit part space va n .write with
  | .error _ => false
  | .ok _ => true

/-! ## The error log (R359, R360) -/

/-- A release of every object at system scope by the device, covering what it has written. -/
def deviceRelease (cover : View) : Rel := ⟨.all, 5, hostPlace, 0, cover⟩

/-- The newest writes of `n` bytes from a physical address, as a view. -/
def State.newestOf (s : State) (pa n : Nat) : View :=
  (List.range n).foldl (fun v i => match writerAsOf s.hist s.now (pa + i) with
    | some r => SMap.put (pa + i) (r.time, r.obj) v
    | none => v) []

/-- What a log entry says (R360). -/
structure LogEntry where
  kind : Nat
  cause : Nat
  cluster : Nat
  core : Nat
  slot : Nat
  strand : Nat
  die : Nat
  launch : Nat
  pc : Nat
  addr : Nat
  info : Nat
  deriving DecidableEq, Repr

/-- An entry about no unit. -/
def LogEntry.device (kind die addr : Nat) : LogEntry := ⟨kind, 0, 0xFFFF, 0xFF, 0xFF, 0xFF, die, 0, 0, addr, 0⟩

/-- The 64 bytes of an entry. -/
def LogEntry.bytes (e : LogEntry) (cycle : Nat) : List Byte :=
  leBytes 1 e.kind ++ leBytes 1 e.cause ++ leBytes 2 e.cluster ++ leBytes 1 e.core ++ leBytes 1 e.slot ++ leBytes 1 e.strand
    ++ leBytes 1 e.die ++ leBytes 4 e.launch ++ leBytes 4 0 ++ leBytes 8 e.pc ++ leBytes 8 e.addr ++ leBytes 8 e.info
    ++ leBytes 8 cycle ++ leBytes 16 0

/-- The ring's frames are granted, new accesses to their home are not refused, and its head and its count of lost entries carry no mark. -/
def State.logWritable (s : State) (p : Partition) (ring entries : Nat) : Bool :=
  p.asn.grants ring (128 + 64 * entries) && !s.poisonedAt ring && !s.poisonedAt (ring + 0x48) && (match homeDie ring with | some d => !s.offline d | none => false)

/-- Write an error log entry of a partition and raise its error interrupt; an entry that cannot be written or finds the
ring full is counted as lost (R359). -/
def State.logError (s : State) (part : Nat) (e : LogEntry) : State :=
  let p := s.part part
  let irq := fun (s : State) => s.updPart part fun p => { p with errorIrq := p.errorIrq + 1 }
  match p.asn.logRing with
  | none => irq (s.updPart part fun p => { p with logLost := p.logLost + 1 })
  | some (ring, entries) =>
    if !s.logWritable p ring entries then irq (s.updPart part fun p => { p with logLost := p.logLost + 1 })
    else
      let head := s.word ring 8
      let s := if p.logLost = 0 then s
        else (s.agentWrite [] (ring + 0x48) (leBytes 8 (s.word (ring + 0x48) 8 + p.logLost))).updPart part
          fun p => { p with logLost := 0 }
      if p.logTail - head ≥ entries then
        irq (s.agentWrite [] (ring + 0x48) (leBytes 8 (s.word (ring + 0x48) 8 + 1)))
      else
        let s := s.agentWrite [] (ring + 128 + 64 * (p.logTail % entries)) (e.bytes (s.cycle - p.startCycle))
        let unread := (List.range (p.logTail + 1 - head)).foldl (fun v i =>
          View.join v (s.newestOf (ring + 128 + 64 * ((head + i) % entries)) 64)) (s.newestOf (ring + 0x48) 8)
        let s := s.agentWrite [deviceRelease unread] (ring + 0x40) (leBytes 8 (p.logTail + 1))
        irq (s.updPart part fun p => { p with logTail := p.logTail + 1 })

/-! ## Kernel descriptors and launch blocks (R71, R250) -/

/-- A kernel descriptor (R71). -/
structure Kernel where
  sprout : Bool
  waves : Nat
  groups : Nat
  tiles : Nat
  creel : Nat
  fvalid : Nat
  hasSeq : Bool
  aentry : Nat
  centry : Nat
  sentry : Nat
  fwords : List W32
  deriving DecidableEq, Repr

/-- The unit takes a cluster's sequencer or its tiles: the kernel has a seq block, or it is a sprout whose footprint has tiles (R22, R131,
R253, R257). -/
def Kernel.needsSeq (k : Kernel) : Bool := k.hasSeq || (k.sprout && k.tiles != 0)

/-- A descriptor word is a valid format (R86, R138). -/
def fmtWordOk (w : W32) : Bool :=
  let x := w.toNat
  let sg := bitsOf x 31 31
  let e := bitsOf x 30 27
  let m := bitsOf x 26 23
  let bias := bitsOf x 22 16
  let top := x.testBit 15
  let sub := x.testBit 14
  let inf := x.testBit 13
  let width := sg + e + m
  bitsOf x 12 0 == 0 && decide (e ≤ 8) &&
  (if e = 0 then decide (2 ≤ width) && decide (width ≤ 8) && bias == 0 && !top && !sub && !inf
   else if width ≤ 8 then decide (2 ≤ width) && (!top || decide (2 ≤ e)) && (top || !inf)
   else width == 16 && sg == 1 && top && sub && ((e == 5 && m == 10 && bias == 15) || (e == 8 && m == 7 && bias == 127)))

/-- Read a kernel descriptor; none where R71 rejects it, or where a format word that it declares valid is none of R86.
DEDUCED, unsafe (log entry 61). -/
def kernelOf (b : List Byte) : Option Kernel :=
  let strands := fieldOf b 0x0D 1
  let k : Kernel :=
    { sprout := fieldOf b 4 1 == 1, waves := fieldOf b 5 1, groups := fieldOf b 6 1, tiles := fieldOf b 7 1,
      creel := fieldOf b 8 4, fvalid := fieldOf b 0x0C 1, hasSeq := strands.testBit 2, aentry := fieldOf b 0x10 8,
      centry := fieldOf b 0x18 8, sentry := fieldOf b 0x20 8,
      fwords := (List.range 8).map (fun i => BitVec.ofNat 32 (fieldOf b (0x40 + 4 * i) 4)) }
  let ok := b.length == 128 && decide (fieldOf b 4 1 ≤ 1) && decide (1 ≤ k.waves) && decide (k.waves ≤ 8)
    && (k.groups == 1 || k.groups == 2 || k.groups == 4) && decide (k.tiles ≤ 32) && k.creel % 128 == 0
    && decide (k.creel ≤ 4194304) && strands % 4 == 3 && decide (strands < 8) && fieldOf b 0x0E 2 == 0
    && (!k.sprout || (k.waves == 1 && k.groups == 1))
    && (k.hasSeq || (k.sentry == 0 && fieldOf b 0x30 4 == 0)) && (!k.hasSeq || k.tiles != 0)
    && fieldOf b 0x34 12 == 0 && fieldOf b 0x60 32 == 0
    && ((List.range 8).all fun i => !k.fvalid.testBit i || fmtWordOk (k.fwords.getD i 0#32))
  if ok then some k else none

/-- Read the kernel descriptor at a virtual address. An address that is no multiple of 128 is read as it stands. DESIGN CHOICE, unsafe
(log entry 61). -/
def State.kernelAt (s : State) (part space va : Nat) : Option Kernel :=
  match s.readVa 0 part space va 128 with
  | .error _ => none
  | .ok b => kernelOf b

/-- Total groups of a launch. -/
def Launch.total (l : Launch) : Nat := l.counts.1 * l.counts.2.1 * l.counts.2.2

/-- A launch of nothing. -/
def Launch.empty : Launch :=
  { spawn := false, kdesc := 0, block := 0, counts := (0, 0, 0), order := 0, swizzle := 0, priority := 0, affinity := 3,
    args := [], queue := 0, gid := 0, graph := 0, node := 0, space := 0, depth := 0, next := 0, live := 0, cancelled := false,
    done := false, tl := none, parent := 0, resv := none, resvBusy := false, seqNo := 0, view := [], cover := [] }

/-- A power of two from 2 to 64, or 0 (R72). -/
def swizzleOk (z : Nat) : Bool := [0, 2, 4, 8, 16, 32, 64].contains z

/-- Read a launch parameter block (R250); none where it breaks a limit, its kernel is rejected or a sprout's, or its
affinity has no die in common with the queue's mask and the partition's dies. -/
def State.launchOf (s : State) (part space lpb queueMask : Nat) : Option Launch :=
  match s.readVa 0 part space lpb 128 with
  | .error _ => none
  | .ok b =>
    let gx := fieldOf b 8 4
    let gy := fieldOf b 0xC 4
    let gz := fieldOf b 0x10 4
    let aff := fieldOf b 0x17 1
    let dies := (s.part part).asn.dies.foldl (fun m d => m ||| 2 ^ d) 0
    let mask := aff &&& queueMask &&& dies
    let ok := lpb % 128 == 0 && decide (1 ≤ gx) && decide (1 ≤ gy) && decide (1 ≤ gz) && decide (gx * gy * gz ≤ 2 ^ 48)
      && decide (fieldOf b 0x14 1 ≤ 3) && swizzleOk (fieldOf b 0x15 1) && decide (fieldOf b 0x16 1 ≤ 7)
      && decide (aff ≤ 3) && aff != 0 && mask != 0 && fieldOf b 0x18 8 == 0 && fieldOf b 0x78 8 == 0
    match s.kernelAt part space (fieldOf b 0 8) with
    | none => none
    | some k =>
      if ok && !k.sprout then
        some { Launch.empty with kdesc := fieldOf b 0 8, block := lpb, counts := (gx, gy, gz), order := fieldOf b 0x14 1,
                                 swizzle := fieldOf b 0x15 1, priority := fieldOf b 0x16 1, affinity := mask, space := space,
                                 args := (List.range 11).map (fun i => BitVec.ofNat 64 (fieldOf b (0x20 + 8 * i) 8)) }
      else none

/-- The next launch identifier after `n` (R393). -/
def nextLaunchId (n : Nat) : Nat := if n = 0xFFFFFFFF then 1 else n + 1

/-- Create a launch in a partition: its identifier, and the state that holds it. -/
def State.addLaunch (s : State) (part : Nat) (l : Launch) : Nat × State :=
  let p := s.part part
  (p.nextLaunch, s.setPart part { p with nextLaunch := nextLaunchId p.nextLaunch,
                                         launches := SMap.put p.nextLaunch l p.launches })

/-! ## Stopping units -/

/-- The streams that take pins of a unit release are its takes: dropping them releases the pins (R162). -/
def UnitRec.dropScout (u : UnitRec) : UnitRec := { u with takes := [], held := [], overlay := [], depthScout := 0 }

/-- The lowest lane of a waiting full/empty instruction of wave slot `k` that names the slot that unit `u` holds. -/
def State.revokedLane (s : State) (u k : Nat) (f : FeWait) : Option (Nat × Nat × W64) :=
  f.lanes.find? fun l =>
    bitsOf l.2.1 25 22 != 0 &&
      s.memberHolder (s.wave k).unit (clusterOfSlot k) (bitsOf l.2.1 25 22) == some u

/-- End the weave membership that a unit holds (R194, R195); the last member frees the weave. A full/empty instruction that
waits for a word of that member is marked to fault (R193). -/
def State.leaveWeave (s : State) (u : Nat) : State :=
  let mark := fun (k : Nat) (w : Wave) =>
    match w.acc.wait with
    | .fullEmpty f => match s.revokedLane u k f with
      | some l => { w with acc := { w.acc with wait := .revoked (BitVec.ofNat 64 l.2.1) l.1 } }
      | none => w
    | _ => w
  let ws := SMap.mapVals (fun _ (w : Weave) => { w with members := w.members.filter fun m => m.2 != u }) s.weaves
  { s with waves := SMap.mapVals mark s.waves, weaves := ws.filter fun e => !e.2.members.isEmpty }

/-- Free the places of a unit: its wave slots and, if it owns one, its cluster's sequencer and tiles (R131, R255). -/
def State.freePlaces (s : State) (u : Nat) : State :=
  let x := s.unit u
  let s := { s with waves := s.waves.filter fun e => e.2.unit != u }
  if x.hasSeq && (s.cluster x.cluster).seq.owner == u then s.updSeq x.cluster fun _ => Seq.idle else s

/-- A unit of a launch has gone: the launch's completion counter falls by 1 (R255, R268). -/
def State.launchLess (s : State) (part launch : Nat) : State :=
  s.updPart part fun p =>
    { p with launches := SMap.upd Launch.empty launch (fun l => { l with live := l.live - 1 }) p.launches }

/-- What is in flight of a unit that is thrown away: loads lose their destinations, and creel and overlay accesses are
dropped; global stores and atomics that have left the core are performed (R374). -/
def State.dropFlight (s : State) (u : Nat) : State :=
  let kept := s.flight.filter fun e => e.2.unit != u || !(e.2.creel || e.2.overlay)
  { s with flight := SMap.mapVals (fun _ a => if a.unit = u then { a with dest := .none } else a) kept }

/-- Accesses of other units in flight to the allotment of a unit that goes are answered by an error reply: it is theirs no more, and no
longer its own (R193, R196, R362). DEDUCED, unsafe (log entry 21). -/
def State.failMembers (s : State) (u : Nat) : State :=
  { s with flight := SMap.mapVals (fun _ a =>
      if a.unit != u && a.creel && a.lanes.any (fun l => l.holder == u) then { a with errored := true } else a) s.flight }

/-- A sprout no longer runs on its launch's reserved place, which is open to the next one (R257). -/
def State.leaveResv (s : State) (u : Nat) : State :=
  let x := s.unit u
  if x.reserved then
    (s.updUnit u fun x => { x with reserved := false }).updPart x.part fun p =>
      { p with launches := SMap.upd Launch.empty x.launch (fun l => { l with resvBusy := false }) p.launches }
  else s

/-- Forget a unit: its places are freed, its weave membership ends. -/
def State.removeUnit (s : State) (u : Nat) : State :=
  let s := ((((s.leaveResv u).freePlaces u).leaveWeave u).dropFlight u).failMembers u
  let x := s.unit u
  let s := s.setUnit u { x.dropScout with life := .gone, image := [], imageSeq := none, imageCreel := [], imageRecs := [], imageFull := [],
                                          mappedAt := none, edits := [], lcSet := [], tags := [], pins := [],
                                          replies := [] }
  s.launchLess x.part x.launch

/-- The units that took the held output of a unit and have no verdict on it (R169, R181). -/
def State.takersOf (s : State) (u : Nat) : List Nat :=
  (s.units.filter fun e => e.2.life != .gone && e.2.takes.any fun t => t.producer == u && t.status == 2 && t.verdict == 0).map Prod.fst

/-- Squash a scout task: it is stopped, its effects dropped, and it waits to be placed again as a re-run (R171); its weave membership
stays, and accesses to its allotment wait for the re-run (R166, R194). Every task that took its held output is squashed too, at most
two levels (R163, R169). Each squash is counted (R391). Collectives and exchanges that it posted before its first take run on. DEDUCED, unsafe (log entry 20). -/
def State.squashUnit : Nat → State → Nat → State
  | 0, s, _ => s
  | fuel + 1, s, u =>
    let s := ((s.leaveResv u).freePlaces u).dropFlight u
    let x := s.unit u
    let s := s.setUnit u { x.dropScout with life := .waiting, rerun := true, image := [], imageSeq := none, imageCreel := [],
                                            imageRecs := [], imageFull := [], imagePoison := [], mappedAt := none, edits := [], lcSet := [],
                                            tags := [], pins := [],
                                            replies := [], preReq := false }
    let s := s.bump x.part (dieOfCluster x.cluster) 0x0A 1
    (s.takersOf u).foldl (fun s e => State.squashUnit fuel s e) s

/-- Stop a unit as a cancel does (R155, R181, R212, R269, R288): everything of it is dropped, its collectives stop, and tasks
that took its held output are squashed. -/
def State.cancelUnit (s : State) (u : Nat) : State :=
  let x := s.unit u
  if x.life = .gone then s
  else
    let s := { s.removeUnit u with colls := s.colls.filter fun e => e.2.unit != u }
    (s.takersOf u).foldl (fun s e => State.squashUnit 2 s e) s

/-- The launches among `ids` and those spawned from their units, at every depth (R269). -/
def Partition.launchTree (p : Partition) : Nat → List Nat → List Nat
  | 0, ids => ids
  | fuel + 1, ids =>
    let kids := (p.launches.filter fun e => e.2.parent != 0 && ids.contains e.2.parent && !ids.contains e.1).map Prod.fst
    if kids.isEmpty then ids else Partition.launchTree p fuel (ids ++ kids)

/-- Cancel launches with everything spawned from them: nothing more of them is placed, their reservations and unfired
triggers go, and their units stop (R259, R269, R283). -/
def State.cancelLaunches (s : State) (part : Nat) (ids : List Nat) : State :=
  let all := (s.part part).launchTree 5 ids
  let stop := fun (k : Nat) (l : Launch) =>
    if all.contains k && !l.done then { l with cancelled := true, resv := none } else l
  let s := s.updPart part fun p => { p with launches := SMap.mapVals stop p.launches }
  let s := { s with triggers := s.triggers.filter fun e => e.2.fired || e.2.part != part || !all.contains e.2.launch }
  let us := s.units.filter fun e => e.2.part == part && e.2.life != .gone && all.contains e.2.launch
  us.foldl (fun s e => s.cancelUnit e.1) s

/-- Cancel a graph: its launches, and with them it completes as cancelled (R264, R269). -/
def State.cancelGraph (s : State) (part key : Nat) : State :=
  let stop := fun (k : Nat) (g : Graph) => if k = key && !g.done then { g with cancelled := true } else g
  let s := s.updPart part fun p => { p with graphs := SMap.mapVals stop p.graphs }
  s.cancelLaunches part (((s.part part).launches.filter fun e => e.2.graph == key && !e.2.done).map Prod.fst)

/-- Stop the units of a partition that carry a tag of a removed node, within 10,000 cycles; the tags go (R322). -/
def State.stopTagged (s : State) (part tree : Nat) (nodes : List Nat) : State :=
  let hit := fun (u : UnitRec) => u.part == part && u.life != .gone && u.tags.any fun t => t.1 == tree && nodes.contains t.2
  let us := (s.units.filter fun e => hit e.2).map Prod.fst
  if us.isEmpty then s
  else
    { s with units := SMap.mapVals (fun _ u =>
               if hit u then { u with tags := u.tags.filter fun t => !(t.1 == tree && nodes.contains t.2) } else u) s.units,
             cancels := s.cancels ++ [⟨s.nextCmd, part, [], [], us, s.cycle, 10000⟩], nextCmd := s.nextCmd + 1 }

end Sys2Proof.Machine
end

