-- ==== Sys2Proof/Machine/Ops.lean ====
section
/-! DEFINITION. Shared operations: taking a trap and returning from one (R34, R351, R352, R356 to R358), the poison test
of an instruction's operands (R364), pending store errors (R362), and how an instruction writes its result and issues. -/

namespace Sys2Proof.Machine

/-! ## Traps -/

/-- The registers of a strand after a trap's cause, information, address and lane are recorded; a field that the cause
does not name keeps its value (R352). -/
def Csrs.record (c : Csrs) (t : TrapRec) : Csrs :=
  { c with cause := BitVec.ofNat 8 t.cause, info := t.info.getD c.info, faultAddr := t.addr.getD c.faultAddr,
           faultLane := BitVec.ofNat 6 (t.lane.getD c.faultLane.toNat) }

/-- The strand in its handler: trap.pc, the cause registers and trap.mode are saved, the mode word is 0, trap.flags bit 0
is set and the pc is trap.handler (R356). A register that is written loses its mark, and a mark on the mode word passes to trap.mode
(R363). A pending store error is cleared by the trap that reports it (R362). -/
def Strand.intoHandler (st : Strand) (kind : StrandKind) (t : TrapRec) : Strand :=
  { st with csr := { st.csr.record t with trapPc := t.stop,
                                          trapMode := (match kind with | .seq => st.csr.trapMode | _ => st.mode),
                                          inHandler := true }
            ctlBad := st.ctlBad.filterMap fun n =>
              if n = 0x020 then some 0x054
              else if n == 0x051 || n == 0x052 || n == 0x054 || n == 0x056 || (n == 0x053 && t.info.isSome) || (n == 0x058 && t.addr.isSome)
                || (n == 0x05A && t.lane.isSome) then none
              else some n
            mode := 0#16, pc := st.csr.handler, outs := [], parked := false, blocked := false, wait := .none,
            pendTrap := none, storeErr := if t.cause = 0x0C then none else st.storeErr }

/-- The core, slot and strand codes of the current strand in a log entry (R360). -/
def State.logPlace (s : State) : Nat × Nat × Nat :=
  match s.cur.kind with
  | .access => (s.cur.wave % 32 / 8, s.cur.wave % 8, 0)
  | .compute => (s.cur.wave % 32 / 8, s.cur.wave % 8, 1)
  | .seq => (0xFF, 0xFF, 2)

/-- A trap without a handler to enter: a log entry of kind 1, and the unit's graph is cancelled (R358). -/
def State.unhandled (s : State) (t : TrapRec) : State :=
  let u := s.curUnit
  let x := s.unit u
  let c := s.strand.csr.record t
  let (core, slot, strand) := s.logPlace
  let s := s.logError x.part
    { kind := 1, cause := t.cause, cluster := s.curCluster, core := core, slot := slot, strand := strand,
      die := dieOfCluster s.curCluster, launch := x.launch, pc := t.stop.toNat, addr := c.faultAddr.toNat,
      info := c.info.toNat }
  s.cancelGraph x.part (SMap.get Launch.empty (s.part x.part).launches x.launch).graph

/-- The trap is entered, every older result being in place (R356), or is unhandled (R358), as it is where trap.handler or trap.flags is
marked, so that no marked value is used (R350). DESIGN CHOICE, unsafe (log entry 51). -/
def State.enterTrap (s : State) (t : TrapRec) : State :=
  if s.strand.csr.handler ≠ 0#64 ∧ s.strand.csr.inHandler = false ∧ s.strand.ctlBad.contains 0x050 = false
      ∧ s.strand.ctlBad.contains 0x056 = false then s.updStrand fun st => st.intoHandler s.cur.kind t
  else s.unhandled t

/-- Take a trap: at once where no result is outstanding, and otherwise once they have returned, the strand standing at the
stop until then (R34). -/
def State.trap (s : State) (t : TrapRec) : State :=
  if s.drained then s.enterTrap t
  else s.updStrand fun st => { st with pendTrap := some t, blocked := true }

/-- Return from a handler (R357): the pc from trap.pc, the mode word from trap.mode, trap.flags bit 0 clear. A sequencer
that poison had stopped goes on (R156). -/
def State.trapReturn (s : State) : State :=
  let s := s.updStrand fun st =>
    { st with pc := st.csr.trapPc, mode := (match s.cur.kind with | .seq => st.mode | _ => st.csr.trapMode),
              csr := { st.csr with inHandler := false }, ctlBad := st.ctlBad.filter fun n => n != 0x020,
              blocked := false, wait := .none }
  match s.cur.kind with
  | .seq => s.updSeq s.curCluster fun q => { q with stoppedOn := false }
  | _ => s

/-- A trap before the instruction at the pc, with a cause and information only. -/
def State.trapHere (s : State) (cause : Nat) (info : W64) : State :=
  s.trap { cause := cause, info := some info, addr := none, lane := none, stop := s.strand.pc }

/-- A trap before the instruction at the pc with an address and a lane. -/
def State.trapAddr (s : State) (cause info : Nat) (addr : W64) (lane : Nat) : State :=
  s.trap { cause := cause, info := some (BitVec.ofNat 64 info), addr := some addr, lane := some lane, stop := s.strand.pc }

/-- The illegal-instruction trap of a word: trap.info is the word (R39, R352). -/
def State.illegal (s : State) (wrongStrand : Bool) (w : W32) : State :=
  s.trapHere (if wrongStrand then 2 else 1) (zext64 w)

/-- The trap of a pop of an entry that fails parity (R129, R352): trap.info is the queue code of R185, a free value for a
queue to which R185 gives none. The pop has consumed the entry. DEDUCED, safe (log entry 31). -/
def State.trapParity (s : State) (code : Option Nat) : State :=
  s.trapHere 0x0B (match code with
    | some c => BitVec.ofNat 64 c
    | none => Config.freeWord s.fresh 0)

/-! ## Before an instruction acts -/

/-- Go on unless an operand in use is poisoned: then the trap is taken and nothing else happens (R364). -/
def State.using (s : State) (us : List Use) (k : Out) : Out :=
  match s.badUse us with
  | none => k
  | some (f, n, l) => .next (s.trap (s.useTrap f n l))

/-- Go on unless a store error is pending: then it is delivered before this instruction (R362). -/
def State.syncPoint (s : State) (k : Out) : Out :=
  match s.strand.storeErr with
  | none => k
  | some a => .next (s.trap { cause := 0x0C, info := some 0#64, addr := some a, lane := none, stop := s.strand.pc })

/-- The instruction stands before itself (R12). DESIGN CHOICE, unsafe (log entry 1). -/
def State.stand (s : State) : Out := .next s.block

/-- The current unit is a scout task (R163). -/
def State.isScout (s : State) : Bool := decide (0 < (s.unit s.curUnit).depthScout)

/-- Go on unless the unit is a scout task: then the instruction waits for the verdict (R164). -/
def State.notScout (s : State) (k : Out) : Out := if s.isScout then s.stand else k

/-! ## Results -/

/-- The instruction issues without a result. -/
def State.done (s : State) (sw : Bool) : Out := .next (s.retire sw)
/-- The instruction issues with an outstanding scalar result (R32). DEDUCED, unsafe (log entry 47). -/
def State.resultS (s : State) (sw : Bool) (d : Nat) (v : W64) : Out := .next ((s.writeS d v).retire sw)
/-- The instruction issues with an outstanding predicate result. -/
def State.resultP (s : State) (sw : Bool) (d : Nat) (v : W64) : Out := .next ((s.writeP d v).retire sw)
/-- The instruction issues with an outstanding result in the lanes of `m` of vector register `d` (R41). -/
def State.resultV (s : State) (sw : Bool) (d : Nat) (m : W64) (f : Nat → W32) : Out :=
  .next ((s.writeV (s.strand.phys d) m f).retire sw)
/-- The instruction issues with an outstanding result in the lanes of `m` of address vector `d`. -/
def State.resultX (s : State) (sw : Bool) (d : Nat) (m : W64) (f : Nat → W64) : Out := .next ((s.writeX d m f).retire sw)

end Sys2Proof.Machine
end

