-- ==== Sys2Proof/Machine/Scalar.lean ====
section
/-! DEFINITION. Scalar integer instructions (R101 to R104), branches, LOOP, jumps and calls (R42, R105 to R107). All three
strand kinds execute them; they have no lanes and are not guarded (R98). -/

namespace Sys2Proof.Machine

/-- A three-register scalar instruction: s[d] := f(s[a], s[b]) (R101). -/
def State.scalar3 (s : State) (sw : Bool) (d a b : BitVec 8) (f : W64 → W64 → W64) : Out :=
  s.using [.s a.toNat, .s b.toNat] (s.resultS sw d.toNat (f (s.readS a.toNat) (s.readS b.toNat)))

/-- A register-immediate scalar instruction that reads its destination: s[d] := f(s[d]) (R103). -/
def State.scalarI (s : State) (sw : Bool) (d : BitVec 8) (f : W64 → W64) : Out :=
  s.using [.s d.toNat] (s.resultS sw d.toNat (f (s.readS d.toNat)))

/-- A unary scalar instruction: s[d] := f(s[a]) (R104). -/
def State.scalar1 (s : State) (sw : Bool) (d a : BitVec 8) (f : W64 → W64) : Out :=
  s.using [.s a.toNat] (s.resultS sw d.toNat (f (s.readS a.toNat)))

/-- The number 1 or 0 of a condition. -/
def bit64 (c : Bool) : W64 := if c then 1#64 else 0#64
/-- Bits 127:64 of the signed product (R101). -/
def mulHigh (a b : W64) : W64 := BitVec.ofInt 64 (a.toInt * b.toInt / 2 ^ 64)
/-- Bits 127:64 of the unsigned product (R101). -/
def mulHighU (a b : W64) : W64 := BitVec.ofNat 64 (a.toNat * b.toNat / 2 ^ 64)
/-- Signed division, truncated; −1 by zero, and −2^63 ÷ −1 is −2^63 (R101, R102). -/
def divS (a b : W64) : W64 := if b = 0#64 then BitVec.allOnes 64 else a.sdiv b
/-- Unsigned division; all ones by zero (R102). -/
def divU (a b : W64) : W64 := if b = 0#64 then BitVec.allOnes 64 else a.udiv b
/-- Signed remainder with the sign of the dividend; the dividend by zero (R101, R102). -/
def remS (a b : W64) : W64 := if b = 0#64 then a else a.srem b
/-- Unsigned remainder; the dividend by zero (R102, R103). -/
def remU (a b : W64) : W64 := if b = 0#64 then a else a.umod b

/-- add: A + B modulo 2^64 (R101). -/
def execAdd (sw : Bool) (d a b : BitVec 8) (s : State) : Out :=
  s.scalar3 sw d a b (fun x y => x + y)

/-- sub: A − B modulo 2^64 (R101). -/
def execSub (sw : Bool) (d a b : BitVec 8) (s : State) : Out :=
  s.scalar3 sw d a b (fun x y => x - y)

/-- mul: bits 63:0 of A × B (R101). -/
def execMul (sw : Bool) (d a b : BitVec 8) (s : State) : Out :=
  s.scalar3 sw d a b (fun x y => x * y)

/-- mulh: bits 127:64 of the signed product (R101). -/
def execMulh (sw : Bool) (d a b : BitVec 8) (s : State) : Out :=
  s.scalar3 sw d a b mulHigh

/-- mulhu: bits 127:64 of the unsigned product (R101). -/
def execMulhu (sw : Bool) (d a b : BitVec 8) (s : State) : Out :=
  s.scalar3 sw d a b mulHighU

/-- and: A and B (R101). -/
def execAnd (sw : Bool) (d a b : BitVec 8) (s : State) : Out :=
  s.scalar3 sw d a b (fun x y => x &&& y)

/-- or: A or B (R101). -/
def execOr (sw : Bool) (d a b : BitVec 8) (s : State) : Out :=
  s.scalar3 sw d a b (fun x y => x ||| y)

/-- xor: A xor B (R101). -/
def execXor (sw : Bool) (d a b : BitVec 8) (s : State) : Out :=
  s.scalar3 sw d a b (fun x y => x ^^^ y)

/-- sll: A shifted left by B mod 64 (R101). -/
def execSll (sw : Bool) (d a b : BitVec 8) (s : State) : Out :=
  s.scalar3 sw d a b (fun x y => x <<< (y.toNat % 64))

/-- srl: A shifted right by B mod 64, zeros in (R101). -/
def execSrl (sw : Bool) (d a b : BitVec 8) (s : State) : Out :=
  s.scalar3 sw d a b (fun x y => x >>> (y.toNat % 64))

/-- sra: A shifted right by B mod 64, copies of bit 63 in (R101). -/
def execSra (sw : Bool) (d a b : BitVec 8) (s : State) : Out :=
  s.scalar3 sw d a b (fun x y => x.sshiftRight (y.toNat % 64))

/-- slt: 1 if signed A < signed B (R101). -/
def execSlt (sw : Bool) (d a b : BitVec 8) (s : State) : Out :=
  s.scalar3 sw d a b (fun x y => bit64 (x.slt y))

/-- sltu: 1 if unsigned A < unsigned B (R101). -/
def execSltu (sw : Bool) (d a b : BitVec 8) (s : State) : Out :=
  s.scalar3 sw d a b (fun x y => bit64 (x.ult y))

/-- div: signed A ÷ B (R101). -/
def execDiv (sw : Bool) (d a b : BitVec 8) (s : State) : Out :=
  s.scalar3 sw d a b divS

/-- divu: unsigned A ÷ B (R101). -/
def execDivu (sw : Bool) (d a b : BitVec 8) (s : State) : Out :=
  s.scalar3 sw d a b divU

/-- rem: signed remainder of A by B (R101). -/
def execRem (sw : Bool) (d a b : BitVec 8) (s : State) : Out :=
  s.scalar3 sw d a b remS

/-- addi: s[d] + sext(imm16) (R103). -/
def execAddi (sw : Bool) (d : BitVec 8) (i : BitVec 16) (s : State) : Out :=
  s.scalarI sw d (fun x => x + sext64 i)

/-- movi: sext(imm16) (R103). -/
def execMovi (sw : Bool) (d : BitVec 8) (i : BitVec 16) (s : State) : Out :=
  s.resultS sw d.toNat (sext64 i)

/-- orhi: s[d] shifted left by 16, or zext(imm16) (R103). -/
def execOrhi (sw : Bool) (d : BitVec 8) (i : BitVec 16) (s : State) : Out :=
  s.scalarI sw d (fun x => (x <<< 16) ||| zext64 i)

/-- andi: s[d] and sext(imm16) (R103). -/
def execAndi (sw : Bool) (d : BitVec 8) (i : BitVec 16) (s : State) : Out :=
  s.scalarI sw d (fun x => x &&& sext64 i)

/-- remu: s[d] mod zext(imm16), unchanged for 0 (R103). -/
def execRemu (sw : Bool) (d : BitVec 8) (i : BitVec 16) (s : State) : Out :=
  s.scalarI sw d (fun x => remU x (zext64 i))

/-- sun.clz: zero bits above the highest set bit, 64 for 0 (R104). -/
def execSunClz (sw : Bool) (d a : BitVec 8) (s : State) : Out :=
  s.scalar1 sw d a (fun x => BitVec.ofNat 64 (clz 64 x.toNat))

/-- sun.ctz: zero bits below the lowest set bit, 64 for 0 (R104). -/
def execSunCtz (sw : Bool) (d a : BitVec 8) (s : State) : Out :=
  s.scalar1 sw d a (fun x => BitVec.ofNat 64 (ctz 64 x.toNat))

/-- sun.popc: set bits (R104). -/
def execSunPopc (sw : Bool) (d a : BitVec 8) (s : State) : Out :=
  s.scalar1 sw d a (fun x => BitVec.ofNat 64 (popCount 64 x.toNat))

/-- sun.sext8: bits 7:0 sign-extended (R104). -/
def execSunSext8 (sw : Bool) (d a : BitVec 8) (s : State) : Out :=
  s.scalar1 sw d a (fun x => sext64 (x.extractLsb' 0 8))

/-- sun.sext16: bits 15:0 sign-extended (R104). -/
def execSunSext16 (sw : Bool) (d a : BitVec 8) (s : State) : Out :=
  s.scalar1 sw d a (fun x => sext64 (x.extractLsb' 0 16))

/-- sun.sext32: bits 31:0 sign-extended (R104). -/
def execSunSext32 (sw : Bool) (d a : BitVec 8) (s : State) : Out :=
  s.scalar1 sw d a (fun x => sext64 (x.extractLsb' 0 32))

/-- sun.zext8: bits 7:0 zero-extended (R104). -/
def execSunZext8 (sw : Bool) (d a : BitVec 8) (s : State) : Out :=
  s.scalar1 sw d a (fun x => zext64 (x.extractLsb' 0 8))

/-- sun.zext16: bits 15:0 zero-extended (R104). -/
def execSunZext16 (sw : Bool) (d a : BitVec 8) (s : State) : Out :=
  s.scalar1 sw d a (fun x => zext64 (x.extractLsb' 0 16))

/-- sun.zext32: bits 31:0 zero-extended (R104). -/
def execSunZext32 (sw : Bool) (d a : BitVec 8) (s : State) : Out :=
  s.scalar1 sw d a (fun x => zext64 (x.extractLsb' 0 32))

/-- sun.neg: 0 − A (R104). -/
def execSunNeg (sw : Bool) (d a : BitVec 8) (s : State) : Out :=
  s.scalar1 sw d a (fun x => 0#64 - x)

/-- sun.not: A with every bit inverted (R104). -/
def execSunNot (sw : Bool) (d a : BitVec 8) (s : State) : Out :=
  s.scalar1 sw d a (fun x => ~~~x)

/-- The address a word offset names: the branch's own address plus 4 × the sign-extended offset (R28). -/
def State.target {n : Nat} (s : State) (off : BitVec n) : W64 := s.strand.pc + (sext64 off <<< 2)

/-- A conditional branch: to the target where the condition holds, else to the next word (R105). -/
def State.branch (s : State) (sw : Bool) (a b : BitVec 6) (off : BitVec 12) (c : BrCond) : Out :=
  s.using [.s a.toNat, .s b.toNat]
    (.next (if c.holds (s.readS a.toNat) (s.readS b.toNat) then s.retireTo sw (s.target off) else s.retire sw))

/-- beq (R105). -/
def execBeq (sw : Bool) (a b : BitVec 6) (off : BitVec 12) (s : State) : Out :=
  s.branch sw a b off .eq

/-- bne (R105). -/
def execBne (sw : Bool) (a b : BitVec 6) (off : BitVec 12) (s : State) : Out :=
  s.branch sw a b off .ne

/-- blt (R105). -/
def execBlt (sw : Bool) (a b : BitVec 6) (off : BitVec 12) (s : State) : Out :=
  s.branch sw a b off .lt

/-- bge (R105). -/
def execBge (sw : Bool) (a b : BitVec 6) (off : BitVec 12) (s : State) : Out :=
  s.branch sw a b off .ge

/-- bltu (R105). -/
def execBltu (sw : Bool) (a b : BitVec 6) (off : BitVec 12) (s : State) : Out :=
  s.branch sw a b off .ltu

/-- bgeu (R105). -/
def execBgeu (sw : Bool) (a b : BitVec 6) (off : BitVec 12) (s : State) : Out :=
  s.branch sw a b off .geu

/-- The rotating window after a LOOP step of `k` (R42). -/
def rotateBase (base size : BitVec 8) (k : Nat) : BitVec 8 :=
  if size = 0#8 then base
  else BitVec.ofNat 8 ((base.toNat + size.toNat - k % size.toNat) % size.toNat)

/-- loop: the count falls by 1, the window of a compute strand rotates, and the branch is taken unless the count is 0
(R42). -/
def execLoop (sw : Bool) (a k : BitVec 6) (off : BitVec 12) (s : State) : Out :=
  s.using [.s a.toNat]
    (let n := s.readS a.toNat - 1#64
     let s1 := s.writeSNow a.toNat n
     let s2 := match s1.cur.kind with
       | .compute => s1.updStrand fun t => { t with vwinBase := rotateBase t.vwinBase t.vwinSize k.toNat }
       | _ => s1
     .next (if n ≠ 0#64 then s2.retireTo sw (s.target off) else s2.retire sw))

/-- jmp: to the target (R106). -/
def execJmp (sw : Bool) (off : BitVec 24) (s : State) : Out := .next (s.retireTo sw (s.target off))

/-- call: the link in s63, then to the target (R106). -/
def execCall (sw : Bool) (off : BitVec 24) (s : State) : Out :=
  .next ((s.writeSNow 63 (s.strand.pc + 4#64)).retireTo sw (s.target off))

/-- jr: to the address in s[a], read before the link is written to s[d] (R107). -/
def execJr (sw : Bool) (d a : BitVec 8) (s : State) : Out :=
  s.using [.s a.toNat] (.next ((s.writeSNow d.toNat (s.strand.pc + 4#64)).retireTo sw (s.readS a.toNat)))

end Sys2Proof.Machine
end

