-- ==== Sys2Proof/Machine/Control.lean ====
section
/-! DEFINITION. MODE, the control registers and the sys instructions (R24, R25, R35, R36, R40, R134, R353 to R358, R367). -/

namespace Sys2Proof.Machine

/-! ## Reading control registers -/

/-- Launch constant `n` as the wave in slot `k` reads it: lc11 to lc14 report its place now, the others are fixed for the
life of its unit (R24, R25) unless a debugger writes them in its workgroup's header (R375). -/
def State.lcOf (s : State) (k n : Nat) : W64 :=
  let w := s.wave k
  let u := s.unit w.unit
  match n with
  | 7 => BitVec.ofNat 64 w.index
  | 8 => SMap.get (BitVec.ofNat 64 w.group) u.lcSet (32 * w.group + 8)
  | 11 => BitVec.ofNat 64 (clusterOfSlot k)
  | 12 => BitVec.ofNat 64 (k % 32 / 8)
  | 13 => BitVec.ofNat 64 (k % 8)
  | 14 => BitVec.ofNat 64 (dieOfCluster (clusterOfSlot k))
  | _ => SMap.get (SMap.get 0#64 u.lc n) u.lcSet (32 * w.group + n)

/-- The wave slot that seq.client of cluster `c` names, if a wave of the owner occupies it (R132, R135). -/
def State.clientSlot (s : State) (c : Nat) : Option Nat :=
  let q := (s.cluster c).seq
  let k := 32 * c + q.client.toNat
  if q.client.toNat < 32 ∧ (s.wave k).live = true ∧ (s.wave k).unit = q.owner ∧ q.owner ≠ 0 then some k else none

/-- Launch constant `n` as the current strand reads it; the sequencer reads those of its client, 0 without one (R132). -/
def State.readLc (s : State) (n : Nat) : W64 :=
  match s.cur.kind with
  | .seq => match s.clientSlot s.curCluster with
    | some k => s.lcOf k n
    | none => 0#64
  | _ => s.lcOf s.cur.wave n

/-- status.pre: bit 0 and the cycles left to the deadline (R353, R366). -/
def State.readPre (s : State) : W64 :=
  let u := s.unit s.curUnit
  if u.preReq && u.why != 2 then BitVec.ofNat 64 (1 + (u.deadline - s.cycle) % 2 ^ 32 * 2 ^ 32) else 0#64

/-- Cycles of the arithmetic clock since the current unit's partition started (R353). -/
def State.readCycle (s : State) : W64 := BitVec.ofNat 64 (s.cycle - (s.part (s.unit s.curUnit).part).startCycle)

/-- The value of control register `n` in the current strand (R134, R353); seq.mbox has its own instruction. -/
def State.readCsr (s : State) (n : Nat) : W64 :=
  let t := s.strand
  let q := (s.cluster s.curCluster).seq
  if n < 32 then s.readLc n
  else match n with
    | 0x020 => zext64 t.mode
    | 0x021 => zext64 t.vwinBase <<< 8 ||| zext64 t.vwinSize
    | 0x040 => s.readPre
    | 0x041 => if t.csr.brk then 1#64 else 0#64
    | 0x050 => t.csr.handler
    | 0x051 => t.csr.trapPc
    | 0x052 => zext64 t.csr.cause
    | 0x053 => t.csr.info
    | 0x054 => zext64 t.csr.trapMode
    | 0x055 => t.csr.scratch
    | 0x056 => if t.csr.inHandler then 1#64 else 0#64
    | 0x058 => t.csr.faultAddr
    | 0x059 => t.csr.faultEaddr
    | 0x05A => zext64 t.csr.faultLane
    | 0x060 => s.readCycle
    | 0x1C2 => zext64 q.client
    | 0x1C3 => BitVec.ofNat 64 q.flight.length
    | 0x1C4 => BitVec.ofNat 64 q.tiles
    | _ => 0#64

/-! ## Writing control registers -/

/-- The value that a csr instruction stores: the operand, or the register with bits set or cleared (R355). -/
def csrApply (o : CsrOp) (old x : W64) : W64 :=
  match o with
  | .write => x
  | .set => old ||| x
  | .clear => old &&& ~~~x

/-- Write control register `n`; a write of a read-only register is discarded (R354). -/
def Csrs.write (c : Csrs) (n : Nat) (x : W64) : Csrs :=
  match n with
  | 0x050 => { c with handler := x &&& ~~~3#64 }
  | 0x051 => { c with trapPc := x }
  | 0x055 => { c with scratch := x }
  | 0x059 => { c with faultEaddr := x }
  | _ => c

/-- A write of control register `n` is not discarded. -/
def csrWritten (n : Nat) : Bool := n == 0x050 || n == 0x051 || n == 0x055 || n == 0x059

/-- A csr instruction on an ordinary register: its effect is there before the next instruction issues (R355). -/
def State.csrOp (s : State) (sw : Bool) (o : CsrOp) (r : BitVec 6) (n : Nat) : Out :=
  s.using (if o = .write then [.s r.toNat] else [.s r.toNat, .ctl n])
    (.next ((s.updStrand fun t =>
      { (if csrWritten n then t.clearCtl n else t) with csr := t.csr.write n (csrApply o (s.readCsr n) (s.readS r.toNat)) }).retire sw))

/-- The mode word that a write stores: an unassigned type or round and the must-be-zero bits are stored as 0 (R354). -/
def storeMode (x : BitVec 16) : BitVec 16 :=
  let ty := if 8 < (x.extractLsb' 8 4).toNat then 0#4 else x.extractLsb' 8 4
  let rd := if 4 < (x.extractLsb' 5 3).toNat then 0#3 else x.extractLsb' 5 3
  x.extractLsb' 12 4 ++ ty ++ rd ++ x.extractLsb' 3 2 ++ 0#3

/-- The window size that a write stores: 129 to 255 as 128 (R40). -/
def storeWinSize (x : W64) : BitVec 8 := let n := x.extractLsb' 0 8; if 128 < n.toNat then 128#8 else n
/-- The window base that a write stores: modulo the stored size (R40). -/
def storeWinBase (x : W64) : BitVec 8 :=
  let n := (storeWinSize x).toNat
  if n = 0 then 0#8 else BitVec.ofNat 8 ((x.extractLsb' 8 8).toNat % n)

/-! ## The instructions -/

/-- mode: the mode word becomes the immediate (R36). -/
def execMode (sw : Bool) (i : BitVec 16) (s : State) : Out :=
  .next ((s.updStrand fun t => { t.clearCtl 0x020 with mode := i }).retire sw)

/-- sys.nop (R355). -/
def execSysNop (sw : Bool) (s : State) : Out := s.done sw

/-- sys.trap: the software trap, trap.info the immediate, the stop address the next word (R352, R355). -/
def execSysTrap (_sw : Bool) (i : BitVec 16) (s : State) : Out :=
  .next (s.trap { cause := 3, info := some (zext64 i), addr := none, lane := none, stop := s.strand.pc + 4#64 })

/-- sys.ret: in a handler the return of R357; outside one a pending store error is delivered first, and the strand ends
(R255, R362). -/
def execSysRet (sw : Bool) (s : State) : Out :=
  if s.strand.csr.inHandler then
    s.using [.ctl 0x051, .ctl 0x054, .ctl 0x056] <|
    let s1 := s.trapReturn
    .next (s1.retireTo sw s1.strand.pc)
  else s.syncPoint (.next ((s.retire sw).updStrand fun t => { t with ended := true }))

/-- sys.csrr: s[s] := the control register (R355). -/
def execSysCsrr (sw : Bool) (r : BitVec 6) (c : BitVec 10) (s : State) : Out :=
  s.using [.ctl c.toNat] (s.resultS sw r.toNat (s.readCsr c.toNat))

/-- sys.csrw: the control register := s[s] (R355). -/
def execSysCsrw (sw : Bool) (r : BitVec 6) (c : BitVec 10) (s : State) : Out := s.csrOp sw .write r c.toNat
/-- sys.csrs: the control register := itself or s[s] (R355). -/
def execSysCsrs (sw : Bool) (r : BitVec 6) (c : BitVec 10) (s : State) : Out := s.csrOp sw .set r c.toNat
/-- sys.csrc: the control register := itself and not s[s] (R355). -/
def execSysCsrc (sw : Bool) (r : BitVec 6) (c : BitVec 10) (s : State) : Out := s.csrOp sw .clear r c.toNat

/-- sys.yield: the strand stands yielded after it while a pre-emption is requested, and goes on otherwise; the sequencer has
no status.pre (R353, R367). -/
def execSysYield (sw : Bool) (s : State) : Out :=
  .next ((s.retire sw).updStrand fun t =>
    { t with yielded := (match s.cur.kind with | .seq => false | _ => (s.unit s.curUnit).preReq && (s.unit s.curUnit).why != 2) })

/-- A csr instruction on vwin: the stored size and base of R40, before the next instruction issues. -/
def execVwin (sw : Bool) (o : CsrOp) (r : BitVec 6) (s : State) : Out :=
  s.using (if o = .write then [.s r.toNat] else [.s r.toNat, .ctl 0x021])
    (let x := csrApply o (s.readCsr 0x021) (s.readS r.toNat)
     .next ((s.updStrand fun t => { t.clearCtl 0x021 with vwinBase := storeWinBase x, vwinSize := storeWinSize x }).retire sw))

/-- sys.csrc on status.brk clears its bit 0 where s[s] bit 0 is set (R353, R354). -/
def execStatusBrk (sw : Bool) (r : BitVec 6) (s : State) : Out :=
  s.using [.s r.toNat, .ctl 0x041]
    (.next ((s.updStrand fun t =>
      { t with csr := { t.csr with brk := t.csr.brk && !(s.readS r.toNat).getLsbD 0 } }).retire sw))

/-- A csr instruction on trap.mode: checked as MODE checks, unassigned fields stored as 0 (R354). -/
def execTrapMode (sw : Bool) (o : CsrOp) (r : BitVec 6) (s : State) : Out :=
  s.using (if o = .write then [.s r.toNat] else [.s r.toNat, .ctl 0x054])
    (.next ((s.updStrand fun t => { t.clearCtl 0x054 with csr := { t.csr with
      trapMode := storeMode ((csrApply o (s.readCsr 0x054) (s.readS r.toNat)).extractLsb' 0 16) } }).retire sw))

end Sys2Proof.Machine
end

