-- ==== Sys2Proof/Machine/Access.lean ====
section
/-! DEFINITION. Accesses of the access strand: the probe of every active lane, grouping by line, sending, acceptance at
home slices and creel banks, replay and error replies (R183, R184, R187 to R191, R209 to R211, R215 to R229, R361 to R365,
R374). -/

namespace Sys2Proof.Machine

/-! ## Probing (R187) -/

/-- A lane of an instruction: its number, address, size, data and expected value. -/
structure LaneReq where
  lane : Nat
  va : Nat
  size : Nat
  data : W64
  expect : W64
  deriving DecidableEq, Repr

/-- Probe one lane: its location and object. -/
def State.probeLane (s : State) (creel : Bool) (want : Want) (r : LaneReq) : Except PFault LaneAcc :=
  let u := s.curUnit
  let x := s.unit u
  if creel then
    match s.probeCreel u s.curCluster r.va r.size r.size with
    | .error f => .error f
    | .ok (h, c, o) => .ok ⟨r.lane, r.va, locOfCreel c o, r.size, r.data, r.expect, .creel, h⟩
  else
    match s.probeGlobal u x.part x.space r.va r.size want with
    | .error f => .error f
    | .ok (l, pa) => .ok ⟨r.lane, r.va, pa, r.size, r.data, r.expect, .page x.space l.obj, 0⟩

/-- A probe result that makes the instruction wait and is no fault. -/
def PFault.isWait : PFault → Bool
  | .spilled _ => true
  | .waits _ => true
  | _ => false

/-- Probe every lane, given in ascending order: the lowest lane that faults, and where none does the lowest that must wait (R187). -/
def State.probeLanes (s : State) (creel : Bool) (want : Want) : List LaneReq → Except (LaneReq × PFault) (List LaneAcc)
  | [] => .ok []
  | r :: rs =>
    match s.probeLane creel want r, s.probeLanes creel want rs with
    | .error f, .error e => .error (if f.isWait && !e.2.isWait then e else (r, f))
    | .error f, .ok _ => .error (r, f)
    | .ok _, .error e => .error e
    | .ok a, .ok as => .ok (a :: as)

/-! ## Waiting at a creel allotment (R166) -/

/-- An access that waited at the allotment of unit `h` before it was sent (R166). -/
def Access.queuedAt (a : Access) (h : Nat) : Bool := a.queued && a.lanes.any fun l => l.holder == h

/-- The agent still waits at the allotment of unit `h`: a strand that stands before its instruction or whose access has been sent and not yet
accepted, or an engine command that is not finished, numbered as in the ordering records. -/
def State.stillWaits (s : State) (h agent : Nat) : Bool :=
  if agent < 2 ^ 40 then
    (match s.slotBy agent with
      | some k => (s.wave k).acc.wait == .creel h
      | none => false)
    || s.flight.any fun e => decide (32 * e.2.unit + e.2.idx = agent) && e.2.queuedAt h
  else
    let has := fun (w : Wave) => w.eng.any fun q => q.2.any fun c => c.num == agent - 2 ^ 40
    (s.waves.any fun e => has e.2) || s.units.any fun e => e.2.image.any has

/-- The agent begins to wait at the allotment of unit `h`, behind those that wait there already. -/
def State.joinCreel (s : State) (h agent : Nat) : State :=
  let q := s.creelQueue.filter fun e => s.stillWaits e.1 e.2
  { s with creelQueue := if q.contains (h, agent) then q else q ++ [(h, agent)] }

/-- The agent waits no longer. -/
def State.leaveCreel (s : State) (agent : Nat) : State :=
  { s with creelQueue := s.creelQueue.filter fun e => e.2 != agent }

/-- The agent waits at the allotment of unit `h` and another began to wait there before it. -/
def State.creelAhead (s : State) (h agent : Nat) : Bool :=
  s.creelQueue.contains (h, agent)
    && (s.creelQueue.takeWhile fun e => e != (h, agent)).any fun e => e.1 == h && s.stillWaits h e.2

/-- The poisoned-data trap of an instruction or a fetch that would use marked bytes of a word or a block, for which trap.info has no field
(R350, R364). DESIGN CHOICE, unsafe (log entry 51). -/
def State.trapBlock (s : State) : State :=
  s.trap { cause := 0x0A, info := some (Config.freeWord s.fresh 2), addr := some 0#64, lane := some 0, stop := s.strand.pc }

/-- What an instruction does whose probe fails at a lane: it blocks on a spilled page (R324) or on a creel that must wait
(R166, R196), and otherwise takes the lane's fault (R187, R352). -/
def State.probeFail (s : State) (va : W64) (lane : Nat) (f : PFault) : Out :=
  match f with
  | .spilled a => (s.wantPage (s.unit s.curUnit).part (s.unit s.curUnit).space a).stand
  | .waits h => match s.strand.wait with
    | .fullEmpty _ => s.stand
    | .creel _ => s.stand
    | _ => .next ((s.joinCreel h s.curWave.who).blockWith (.creel h))
  | .dieOffline d => .next (s.trapAddr 0x0D d va lane)
  | .poisoned => .next s.trapBlock
  | f => .next (s.trapAddr f.code 0 va lane)

/-- Another strand or command began to wait at an allotment before this strand, which waits there too (R166). -/
def State.afterOthers (s : State) : Bool :=
  match s.strand.wait with
  | .creel h => s.creelAhead h s.curWave.who
  | _ => false

/-- Probe the lanes and go on with their locations; what waited at a creel proceeds in the order in which it began to wait (R166). -/
def State.probing (s : State) (creel : Bool) (want : Want) (rs : List LaneReq) (k : List LaneAcc → Out) : Out :=
  match s.probeLanes creel want rs with
  | .error (r, f) => s.probeFail (BitVec.ofNat 64 r.va) r.lane f
  | .ok as => if s.afterOthers then s.stand else k as

/-! ## Sending (R189, R190, R215) -/

/-- Lanes grouped by 128-byte line, or by 32-byte creel granule, in order of first appearance. -/
def groupLanes (gran : Nat) : List LaneAcc → List (List LaneAcc)
  | [] => []
  | a :: as =>
    let gs := groupLanes gran as
    match gs.find? fun g => g.any fun b => b.loc / gran == a.loc / gran with
    | none => [a] :: gs
    | some g => (a :: g) :: gs.filter fun h => h != g

/-- The objects of lanes, each once. -/
def objsOf (as : List LaneAcc) : List Obj := (as.map LaneAcc.obj).eraseDups

/-- An access of the current strand, without lanes. -/
def State.access (s : State) (creel : Bool) (kind : AccKind) (dest : Dest) (scope : Nat) : Access :=
  let x := s.unit s.curUnit
  { unit := s.curUnit, idx := s.curWave.pos, part := x.part, space := x.space, place := s.placeOf s.curWave, creel := creel,
    overlay := false, kind := kind, lanes := [], dest := dest, gen := (s.space x.space).gen, acqs := [], scope := scope,
    rels := [], seqNo := s.strand.seqNo, courier := false, rejected := false, errored := false,
    queued := (match s.strand.wait with | .creel _ => true | _ => false) }

/-- Put accesses in flight. -/
def State.launchAccesses (s : State) : List Access → State
  | [] => s
  | a :: as => ({ s with flight := SMap.put s.nextAccess a s.flight, nextAccess := s.nextAccess + 1 } : State).launchAccesses as

/-- The releases that a group of lanes carries: those of earlier instructions, and of this one those of the lanes' own
objects (R229). -/
def carriedBy (own : List Nat) (rels : List Rel) (g : List LaneAcc) : List Rel :=
  rels.filter fun r => !own.contains r.seq || g.any fun a => a.obj == r.obj

/-- Perform the releases of an instruction, one for each object (R229): their places in the program order are returned. -/
def State.releaseAll (s : State) (objs : List Obj) (scope : Nat) : List Nat × State :=
  objs.foldl (fun acc o =>
    (acc.1 ++ [acc.2.strand.seqNo], acc.2.updStrand fun t => t.release o scope (acc.2.placeOf acc.2.curWave))) ([], s)

/-- Send the accesses of one instruction: one for each group, all at one place of the program order. An instruction
without a lane that acquires sends one access of no lane. -/
def State.send (s : State) (a : Access) (own : List Nat) (lanes : List LaneAcc) : State :=
  let gs := groupLanes (if a.creel then 32 else 128) lanes
  let gs := if gs.isEmpty && !a.acqs.isEmpty then [[]] else gs
  let rels := match a.kind with
    | .load => []
    | _ => s.strand.rels
  let n := s.strand.seqNo
  let s := if a.creel then s else s.touch a.part a.space (lanes.map LaneAcc.va)
  (s.launchAccesses (gs.map fun g => { a with lanes := g, rels := carriedBy own rels g, seqNo := n })).updStrand
    fun t => { t with seqNo := n + 1 }

/-- Number of accesses that one instruction sends. -/
def groupCount (a : Access) (lanes : List LaneAcc) : Nat :=
  let n := (groupLanes (if a.creel then 32 else 128) lanes).length
  if n = 0 && !a.acqs.isEmpty then 1 else n

/-- Scalar-destination operations of the current strand that have not returned: loads and atomics; a status return is answered in the
step that performs it (R374, log entry 47). -/
def State.scalarOps (s : State) : Nat :=
  (s.waiting.filter fun e => match e.2.dest with | .lq _ _ => false | _ => true).length

/-! ## Acceptance (R210, R215) -/

/-- The change generation of the page of a lane, compared with a tag: the tag is older within the window of 32,768. -/
def genOlder (tag change : BitVec 16) : Bool :=
  let d := (change - tag).toNat
  decide (0 < d) && decide (d < 32768)

/-- A lane of the access was translated before its page last changed (R210). -/
def State.stale (s : State) (a : Access) : Bool :=
  !a.creel && a.lanes.any fun l => match SMap.find (s.space a.space).changed (pageNo l.va) with
    | none => false
    | some g => genOlder a.gen (BitVec.ofNat 16 g.1)

/-- Two lanes touch a common byte: at one location, or in one overlay at one address. -/
def LaneAcc.overlaps (x y : LaneAcc) : Bool :=
  (decide (x.loc < y.loc + y.size) && decide (y.loc < x.loc + x.size))
    || (x.obj != .creel && y.obj != .creel && decide (x.va < y.va + y.size) && decide (y.va < x.va + x.size))

/-- An access reads. -/
def Access.isRead (a : Access) : Bool := match a.kind with | .store => false | _ => true
/-- An access writes. -/
def Access.isWrite (a : Access) : Bool := match a.kind with | .load => false | _ => true

/-- A release of its strand covers the access or what it acquires: it comes before the release in program order (R219). -/
def Access.coveredBy (e : Access) (rels : List Rel) : Bool :=
  rels.any fun r => decide (e.seqNo < r.seq) && (!e.acqs.isEmpty || e.lanes.any fun x => r.obj.covers x.obj)

/-- An access of the current strand is in flight which one of its releases covers: a write now would have to wait for it (R230). -/
def State.relsOut (s : State) : Bool :=
  s.flight.any fun e => e.2.unit == s.curUnit && e.2.idx == s.curWave.pos && e.2.coveredBy s.strand.rels

/-- The access `a` may not be accepted before the earlier access `e` of its strand: they touch a common byte; a read after an acquire; an acquire after a read; a carrier of a release after what the release covers (R217 to
R221). -/
def Access.after (a e : Access) : Bool :=
  e.unit == a.unit && e.idx == a.idx && decide (e.seqNo < a.seqNo) &&
    ((e.lanes.any fun x => a.lanes.any fun y => x.overlaps y)
      || (a.isRead && !e.acqs.isEmpty) || (!a.acqs.isEmpty && e.isRead)
      || (a.isWrite && e.coveredBy a.rels))

/-- Nothing that must come first is still in flight. DEDUCED, unsafe (log entry 9). -/
def State.inOrder (s : State) (a : Access) : Bool := !s.flight.any fun e => a.after e.2

/-! ## What an acceptance does -/

/-- The bytes a scout task or a taker of its held output sees in an overlay, until the producer's verdict (R165, R175). -/
def State.overlayByte (s : State) (unit space va : Nat) : Option OverlayByte :=
  let u := s.unit unit
  match SMap.find u.overlay va with
  | some b => some b
  | none => match u.takeOf space va with
    | some t => if t.status = 2 ∧ t.verdict = 0 then SMap.find (s.unit t.producer).overlay va else none
    | none => none

/-- The value of a lane read as of time `t`, and whether a byte of it is poisoned. -/
def State.readLane (s : State) (a : Access) (t : Nat) (l : LaneAcc) : W64 × Bool :=
  let bytes := (List.range l.size).map fun i =>
    match (if a.creel then none else s.overlayByte a.unit a.space (l.va + i)) with
    | some b => (b.val, false)
    | none => (s.byteAt t (l.loc + i), s.poisonedAt (l.loc + i))
  (BitVec.ofNat 64 (leNat (bytes.map Prod.fst)), bytes.any Prod.snd)

/-- The bytes of lanes with their objects. -/
def laneLocs (ls : List LaneAcc) : List (Nat × Obj) := ls.flatMap fun l => (List.range l.size).map fun i => (l.loc + i, l.obj)
/-- The bytes that store lanes write, in ascending lane order (R190). -/
def laneBytes (ls : List LaneAcc) : List (Nat × Byte) :=
  ls.flatMap fun l => (List.range l.size).zip (leBytes l.size l.data.toNat) |>.map fun e => (l.loc + e.1, e.2)

/-- Of the bytes that lanes read, those that are read at their homes, and the releases that the others, of an overlay, carry (R165, R218). -/
def State.readPlaces (s : State) (a : Access) : List (Nat × Obj) × List Rel :=
  if a.creel then (laneLocs a.lanes, [])
  else (a.lanes.flatMap fun l => (List.range l.size).map fun i => (l, i)).foldr (fun e acc =>
    match s.overlayByte a.unit a.space (e.1.va + e.2) with
    | some b => (acc.1, b.rels ++ acc.2.filter fun q => !b.rels.contains q)
    | none => ((e.1.loc + e.2, e.1.obj) :: acc.1, acc.2)) ([], [])

/-- Fill lanes of the lq entry with tag `tag`, one access of it being answered (R189). -/
def fillEntry (tag : Nat) (vals : List (Nat × W64 × Bool)) (e : VEntry) : VEntry :=
  if e.tag ≠ tag ∨ e.missing = 0 then e
  else
    { e with data := Lanes.ofFn fun l => match vals.find? fun v => v.1 == l with
               | some v => v.2.1.setWidth 32
               | none => Lanes.get32 e.data l
             poison := e.poison ||| maskOf fun l => vals.any fun v => v.1 == l && v.2.2
             missing := e.missing - 1 }

/-- Write a reply into scalar register `r` of a strand, with its mark. -/
def Strand.reply (t : Strand) (r : Nat) (v : W64) (bad : Bool) : Strand :=
  if r = 0 then t
  else
    let t := t.putS r v
    if bad then { t with sPoison := t.sPoison ||| BitVec.twoPow 64 r } else t

/-- Deliver read values to an access's destination: an lq entry, a scalar register, or, where the wave is switched out, a
reply slot of its group header (R189, R191, R374). -/
def State.deliver (s : State) (a : Access) (vals : List (Nat × W64 × Bool)) : State :=
  match a.dest with
  | .none => s
  | .lq q tag => s.updWaveOf a.unit a.idx fun w => { w with lq := SMap.upd [] q (fun es => es.map (fillEntry tag vals)) w.lq }
  | .s r =>
    let (v, bad) := match vals with
      | e :: _ => e.2
      | [] => (0#64, false)
    if (s.unit a.unit).life = .resident then s.updWaveOf a.unit a.idx fun w => { w with acc := w.acc.reply r v bad }
    else s.updUnit a.unit fun u => { u with replies := u.replies ++ [⟨a.idx, r, v, bad⟩] }

/-- No access of the same instruction is in flight. -/
def State.lastOf (s : State) (a : Access) : Bool :=
  !s.flight.any fun e => e.2.unit == a.unit && e.2.idx == a.idx && e.2.seqNo == a.seqNo

/-- The strand has read: the writes it read become visible to it, and what they carry can be acquired (R218, R220). -/
def State.hasRead (s : State) (a : Access) (t : Nat) : State :=
  let places := s.readPlaces a
  let (vis, rels) := readSources s.hist t places.1
  let rels := places.2 ++ rels.filter fun q => !places.2.contains q
  let s := s.updWaveOf a.unit a.idx fun w =>
    { w with acc := { w.acc with seen := rels ++ w.acc.seen.filter fun q => !rels.contains q } }
  s.noteVis a.unit a.idx a.seqNo vis

/-- Acquire objects for a strand over the releases that its reads have returned (R218). -/
def State.acquire (s : State) (unit idx seqNo scope : Nat) (me : Place) (objs : List Obj) : State :=
  objs.foldl (fun s o =>
    s.noteVis unit idx seqNo (acquired o scope me (s.waveOf unit idx).acc.seen)) s

/-- The acquires of an instruction happen once its last access is answered (R229). -/
def State.settleAcq (s : State) (a : Access) : State :=
  if a.acqs.isEmpty || !s.lastOf a then s else s.acquire a.unit a.idx a.seqNo a.scope a.place a.acqs

/-- A load is accepted: one moment for all its bytes (R189, R191). -/
def State.acceptLoad (s : State) (a : Access) (tag : Nat) : State :=
  let locs := laneLocs a.lanes
  let t := s.readTime (s.waveOf a.unit a.idx).acc.view (locs.map Prod.fst) tag
  let vals := a.lanes.map fun l => (l.lane, s.readLane a t l)
  ((s.deliver a vals).hasRead a t).settleAcq a

/-- The agent number of an access's strand. -/
def Access.who (a : Access) : Nat := 32 * a.unit + a.idx
/-- The object of the page or creel that an access reaches. -/
def Access.obj (a : Access) : Obj := match a.lanes with
  | l :: _ => l.obj
  | [] => .all

/-- A store is accepted: its lanes' bytes at one moment, the higher lane's standing (R190); a scout task's go to its
overlay, with the releases that they carry (R165). A courier store is acknowledged (R276, R391). -/
def State.acceptStore (s : State) (a : Access) : State :=
  if a.overlay then
    let es := a.lanes.flatMap fun l => (List.range l.size).zip (leBytes l.size l.data.toNat) |>.map fun e => (l.va + e.1, e.2)
    let whole := fun (va : Nat) => (List.range 32).all fun i => es.any fun e => e.1 == va / 32 * 32 + i
    s.updUnit a.unit fun u => { u with overlay := es.foldl (fun m e =>
      SMap.put e.1 ⟨e.2, a.rels, whole e.1 || ((SMap.find m e.1).map OverlayByte.whole).getD false⟩ m) u.overlay }
  else
    let s := if a.courier then s.bump a.part ((homeDie (a.lanes.head?.map LaneAcc.loc |>.getD 0)).getD 0) 0x09 1 else s
    let s := s.perform a.who a.rels (laneBytes a.lanes) a.obj
    s.noteVis a.unit a.idx a.seqNo (s.justWritten (laneLocs a.lanes))

/-- The value an atomic writes, if it writes (R224); operation numbers as the opcodes from aadd. -/
def atomicNew (op w : Nat) (old v e : W64) : Option W64 :=
  let m := 2 ^ w
  let o := old.toNat % m
  let x := v.toNat % m
  match op with
  | 0 => some (BitVec.ofNat 64 ((o + x) % m))
  | 1 => some (BitVec.ofNat 64 x)
  | 2 => if o = e.toNat % m then some (BitVec.ofNat 64 x) else none
  | 3 => some (BitVec.ofNat 64 (if intVal w true x < intVal w true o then x else o))
  | 4 => some (BitVec.ofNat 64 (if intVal w true o < intVal w true x then x else o))
  | 5 => some (BitVec.ofNat 64 (o ||| x))
  | _ => some (BitVec.ofNat 64 (o &&& x))

/-- The key of the counters that the home slice of an address keeps for its page (R184). -/
def atomKey (pa : Nat) : Nat := pa / 65536 * 32 + homeSlice pa % 32

/-- Count an atomic at its home slice, for its page, by the die it comes from, saturating at 255 (R184). -/
def State.countAtomic (s : State) (pa die : Nat) : State :=
  { s with atomCounts := SMap.upd (0, 0) (atomKey pa) (fun c =>
      if die = 0 then (min 255 (c.1 + 1), c.2) else (c.1, min 255 (c.2 + 1))) s.atomCounts }

/-- The moment whose bytes an atomic reads: now; the locked read of a minimum, maximum, or or and in plain PCIe host memory may come before
stores of the host, from which its write does not protect it (R274). DEDUCED, safe (log entry 38). -/
def State.lockedTime (s : State) (v : View) (op : Nat) (locs : List Nat) : Nat :=
  if 3 ≤ op && locs.any uncached then
    let seen := locs.foldl (fun m l => max m (SMap.get (0, Obj.all) v l).1) 0
    let f := s.hist.foldl (fun m r => if r.who != hostAgent && locs.any r.hits then max m r.time else m) seen
    s.now - Config.pick s.fresh 2100000 % (s.now - f + 1)
  else s.now

/-- An atomic is performed at its home slice, indivisibly: its read returns the newest write, and its own write follows at
once, carrying on the releases of the write it read (R218, R223, R224). In a poisoned granule it is not performed, and its
destination is poisoned. -/
def State.acceptAtomic (s : State) (a : Access) (op : Nat) : State :=
  match a.lanes with
  | [] => s
  | l :: _ =>
    let s := if isCreel l.loc then s else s.countAtomic l.loc (dieOfCluster (s.unit a.unit).cluster)
    if (List.range l.size).any fun i => s.poisonedAt (l.loc + i) then s.deliver a [(0, 0#64, true)]
    else
      let time := s.lockedTime (s.waveOf a.unit a.idx).acc.view op ((List.range l.size).map fun i => l.loc + i)
      let old : W64 := BitVec.ofNat 64 (leNat ((List.range l.size).map fun i => s.byteAt time (l.loc + i)))
      let chain := (readSources s.hist time (laneLocs a.lanes)).2
      let s := (s.deliver a [(0, old, false)]).hasRead a time
      let s := match atomicNew op (8 * l.size) old l.data l.expect with
        | none => s
        | some x =>
          let s := s.perform a.who (a.rels ++ chain) (laneBytes [{ l with data := x }]) a.obj
          s.noteVis a.unit a.idx a.seqNo (s.justWritten (laneLocs a.lanes))
      s.settleAcq a

/-- An access that is answered by an error reply: a load's lanes and a scalar destination are poisoned, a store leaves a
pending store error with its address (R362). -/
def State.errorReply (s : State) (a : Access) : State :=
  match a.kind with
  | .store =>
    let va : W64 := match a.lanes with
      | l :: _ => BitVec.ofNat 64 l.va
      | [] => 0#64
    s.updWaveOf a.unit a.idx fun w =>
      { w with acc := { w.acc with storeErr := some va, csr := { w.acc.csr with faultAddr := va } } }
  | _ => (s.deliver a (a.lanes.map fun l => (l.lane, 0#64, true))).settleAcq a

/-- Take an access out of flight. -/
def State.takeAccess (s : State) (id : Nat) : State := { s with flight := SMap.del s.flight id }
/-- Change an access in flight. -/
def State.setAccess (s : State) (id : Nat) (a : Access) : State := { s with flight := SMap.put id a s.flight }

/-- A creel access waits at an allotment that is shut: its unit is switched out, or a scout task of another unit (R166, R196). -/
def State.creelHeld (s : State) (a : Access) : Bool :=
  a.creel && a.lanes.any fun l => l.holder != 0 && s.creelShut a.unit l.holder

/-- Traffic of a unit to a location must cross the die-to-die link, which retrains (R378). -/
def State.crosses (s : State) (unit loc : Nat) : Bool :=
  s.links.training && !isCreel loc && (match homeDie loc with
    | some d => d != dieOfCluster (s.unit unit).cluster
    | none => false)

/-- An access waits for the die-to-die link (R378). -/
def State.linkDown (s : State) (a : Access) : Bool := !a.creel && a.lanes.any fun l => s.crosses a.unit l.loc

/-- The access waited at an allotment at which another began to wait before it and has not been accepted (R166). -/
def State.creelBehind (s : State) (a : Access) : Bool :=
  a.queued && a.lanes.any fun l => l.holder != 0 && s.creelAhead l.holder a.who

/-- Whether access `a` may be accepted now. -/
def State.acceptable (s : State) (a : Access) : Bool :=
  !a.rejected && !a.errored && s.inOrder a && !s.creelHeld a && !s.creelBehind a && !s.linkDown a

/-- The host does not complete the AtomicOp of an aadd, aswap or acas to its memory (R274). -/
def Access.hostRefuses (a : Access) (loc : Nat) : Bool :=
  match a.kind with
  | .atomic op => decide (op < 3) && uncached loc && !Config.hostAtomic loc op
  | _ => false

/-- Accept access `id`, or turn it away: rejected where its tag is stale (R210), to be answered by an error reply where its
storage cannot be reached (R21, R362). -/
def State.accept (s : State) (id : Nat) (a : Access) : State :=
  if s.stale a then
    (s.setAccess id { a with rejected := true }).bump a.part (match a.lanes with
      | l :: _ => (homeDie l.loc).getD 0
      | [] => 0) 0x06 1
  else if a.lanes.any fun l => s.unreachable a.part l.loc || a.hostRefuses l.loc then s.setAccess id { a with errored := true }
  else
    let s' := s.takeAccess id
    match a.kind with
    | .load => s'.acceptLoad a id
    | .store => s'.acceptStore a
    | .atomic op => s'.acceptAtomic a op

/-- ACCESS_ACCEPT: a home slice, creel bank or memory controller accepts a load or store in flight (R215). -/
def execAccessAccept (id : Nat) (s : State) : Out :=
  match SMap.find s.flight id with
  | none => .next s
  | some a =>
    match a.kind with
    | .atomic _ => .next s
    | _ => .next (if s.acceptable a then s.accept id a else s)

/-- ATOMIC_PERFORM: the home slice performs an atomic in flight (R223). -/
def execAtomicPerform (id : Nat) (s : State) : Out :=
  match SMap.find s.flight id with
  | none => .next s
  | some a =>
    match a.kind with
    | .atomic _ => .next (if s.acceptable a then s.accept id a else s)
    | _ => .next s

/-- What a replayed lane wants of its page. -/
def AccKind.want : AccKind → Want
  | .load => .read
  | .store => .write
  | .atomic _ => .atomic

/-- One lane of a rejected access under the current entries (R211). -/
def State.retranslateLane (s : State) (a : Access) (l : LaneAcc) : Except PFault LaneAcc :=
  match s.probeGlobal a.unit a.part a.space l.va l.size a.kind.want with
  | .error f => .error f
  | .ok (lf, pa) => .ok { l with loc := pa, obj := .page a.space lf.obj }

/-- The lanes of a rejected access that translate, those that the probe would refuse, and a spilled address among them (R211, R324). -/
def State.retranslate (s : State) (a : Access) : List LaneAcc → List LaneAcc × List LaneAcc × Option Nat
  | [] => ([], [], none)
  | l :: ls =>
    let (good, bad, spilled) := s.retranslate a ls
    match s.retranslateLane a l with
    | .ok x => (x :: good, bad, spilled)
    | .error (.spilled va) => (good, bad, some va)
    | .error _ => (good, l :: bad, spilled)

/-- The lq entry of a load is filled by `n` accesses more. -/
def State.moreParts (s : State) (a : Access) (n : Nat) : State :=
  match a.dest with
  | .lq q tag => s.updWaveOf a.unit a.idx fun w => { w with lq := SMap.upd [] q (fun es => es.map fun e =>
      if e.tag = tag ∧ e.missing ≠ 0 then { e with missing := e.missing + n } else e) w.lq }
  | _ => s

/-- Access `id` goes on in parts: the first in its place, the others beside it. -/
def State.splitAccess (s : State) (id : Nat) (a : Access) : List Access → State
  | [] => s
  | p :: ps => ((s.setAccess id p).launchAccesses ps).moreParts a ps.length

/-- REPLAY: each lane of a rejected access is retranslated and sent again; a lane that the probe would now refuse is answered by an error
reply, and one that meets a spilled page waits (R211, R324, R361). -/
def execReplay (id : Nat) (s : State) : Out :=
  match SMap.find s.flight id with
  | none => .next s
  | some a =>
    if !a.rejected then .next s
    else match s.retranslate a a.lanes with
      | (_, _, some va) => .next (s.wantPage a.part a.space va)
      | (good, bad, none) =>
        let again := { a with gen := (s.space a.space).gen, rejected := false }
        .next (s.splitAccess id a ((groupLanes 128 good).map (fun g => { again with lanes := g })
          ++ if bad.isEmpty then [] else [{ again with lanes := bad, errored := true }]))

/-- ERROR_REPLY: the error reply of an access arrives (R362). -/
def execErrorReply (id : Nat) (s : State) : Out :=
  match SMap.find s.flight id with
  | none => .next s
  | some a => if a.errored && s.inOrder a then .next ((s.takeAccess id).errorReply a) else .next s

end Sys2Proof.Machine
end

