-- ==== Sys2Proof/Machine/MemInstr.lean ====
section
/-! DEFINITION. The memory instructions and atomics of the access strand, up to the sending of their accesses, and the
full/empty instructions (R164, R165, R185 to R193, R224, R229, R278, R362, R364). -/

namespace Sys2Proof.Machine

/-- Element bytes of an sz code (R185). -/
def sizeOf' (z : BitVec 2) : Nat := 2 ^ z.toNat

/-- A form with an ord is a synchronising instruction (R362). -/
def State.syncIf (s : State) (c : Bool) (k : Out) : Out := if c then s.syncPoint k else k

/-- The address of a lane (R187). -/
def laneAddr (b : W64) (x : XVec) (l : Nat) : Nat := (b + Lanes.get64 x l).toNat

/-! ## Scout tasks (R164, R165) -/

/-- The page of an address has more than one backing (R204). -/
def State.shadowed (s : State) (part space va : Nat) : Bool :=
  match s.walk part space va with
  | .ok l => decide (1 < l.backings)
  | .error _ => false

/-- The die on which an overlay line of a unit is kept. -/
def State.overlayDie (s : State) (u : UnitRec) (line : Nat) : Option Nat :=
  match s.walk u.part u.space (128 * line) with
  | .ok l => homeDie (l.pa l.wrole (128 * line))
  | .error _ => none

/-- The overlay lines of a unit: kept, or to be made by stores in flight. -/
def State.overlayLines (s : State) (n : Nat) : List Nat :=
  let kept := (s.unit n).overlay.map fun e => e.1 / 128
  let sent := (s.flight.filter fun e => e.2.overlay && e.2.unit == n).flatMap fun e => e.2.lanes.map fun l => l.va / 128
  (kept ++ sent).eraseDups

/-- Overlay lines that the slices of a die hold (R165). -/
def State.overlayCount (s : State) (d : Nat) : Nat :=
  s.units.foldl (fun n e => n + ((s.overlayLines e.1).filter fun l => s.overlayDie e.2 l == some d).length) 0

/-- A scout task's store must wait: it needs a new overlay line where its die's overlay is full (R165). -/
def State.overlayFull (s : State) (lanes : List LaneAcc) : Bool :=
  let u := s.unit s.curUnit
  let mine := s.overlayLines s.curUnit
  let new := ((lanes.map fun l => l.va / 128).filter fun l => !mine.contains l).eraseDups
  [0, 1].any fun d =>
    let n := (new.filter fun l => s.overlayDie u l == some d).length
    n != 0 && decide (262144 < s.overlayCount d + n)

/-- A global store of a scout task goes into its overlay where every lane's page is shadowed, and waits otherwise: one that has met a full
overlay waits for the verdict, whatever room there is by then (R165). Of any other unit it goes to its home. -/
def State.storeWay (s : State) (lanes : List LaneAcc) (k : Bool → Out) : Out :=
  let u := s.unit s.curUnit
  if !s.isScout then k false
  else if s.strand.wait = .overlay || !(lanes.all fun l => s.shadowed u.part u.space l.va) then s.stand
  else if s.overlayFull lanes then .next (s.blockWith .overlay)
  else k true

/-- A creel store of a scout task to another member's creel waits (R164). -/
def State.creelWay (s : State) (lanes : List LaneAcc) (k : Out) : Out :=
  if s.isScout && lanes.any fun l => bitsOf l.va 25 22 != 0 then s.stand else k

/-! ## Vector loads (R189) -/

/-- The lq queue `q` of the current wave. -/
def State.lq (s : State) (q : Nat) : List VEntry := SMap.get [] s.curWave.lq q
/-- Append an entry to lq queue `q`. -/
def State.pushLq (s : State) (q : Nat) (e : VEntry) : State :=
  s.updWave s.cur.wave fun w => { w with lq := SMap.upd [] q (fun es => es ++ [e]) w.lq }

/-- The objects that an acquire or release form names: each page's of a global form, the creel's of a creel form (R229). -/
def ordObjs (creel : Bool) (as : List LaneAcc) : List Obj := if creel then [.creel] else objsOf as

/-- ld and cld: an lq entry is reserved, and one access for each line or granule is sent. -/
def State.loadV (s : State) (creel sw : Bool) (q : BitVec 6) (b : BitVec 6) (x : BitVec 5) (z r : BitVec 2) (k : BitVec 3) : Out :=
  s.syncIf (r != 0#2) <| s.using [s.useGuard, .s b.toNat, s.useX x.toNat] <|
    if Config.queueDepth ≤ (s.lq q.toNat).length then s.stand
    else
      let xs := s.readX x.toNat
      let base := s.readS b.toNat
      s.probing creel .read ((maskLanes s.guard).map fun l => ⟨l, laneAddr base xs l, sizeOf' z, 0#64, 0#64⟩) fun as =>
        let tag := s.strand.seqNo
        let a := { s.access creel .load (.lq q.toNat tag) k.toNat with acqs := if r = 1#2 then ordObjs creel as else [] }
        let e : VEntry :=
          { data := Lanes.zero32, valid := s.guard, poison := 0#64, parityBad := 0#64, tag := tag, missing := groupCount a as }
        .next (((s.pushLq q.toNat e).send a [] as).retire sw)

/-- ld (R189). -/
def execLd (sw : Bool) (q b : BitVec 6) (x : BitVec 5) (z r : BitVec 2) (k : BitVec 3) (s : State) : Out := s.loadV false sw q b x z r k
/-- cld (R189). -/
def execCld (sw : Bool) (q b : BitVec 6) (x : BitVec 5) (z r : BitVec 2) (k : BitVec 3) (s : State) : Out := s.loadV true sw q b x z r k

/-! ## Vector stores (R190) -/

/-- The wq queue `q`, 0 to 3, of the current wave. -/
def State.wq (s : State) (q : Nat) : List VEntry := SMap.get [] s.curWave.wq q
/-- Take the head of wq queue `q`. -/
def State.popWq (s : State) (q : Nat) : State :=
  s.updWave s.cur.wave fun w => { w with wq := SMap.upd [] q List.tail w.wq }

/-- Go on with the head entry of a wq queue: blocked while there is none; an entry that fails parity is consumed and traps,
and a marked lane in use traps (R190, R352, R364). `k` receives the entry and the lanes in use. -/
def State.withHead (s : State) (q : Nat) (b x : Nat) (k : VEntry → W64 → Out) : Out :=
  match s.wq q with
  | [] => s.stand
  | e :: _ =>
    let m := s.guard &&& e.valid
    s.using [s.useGuard, .s b, .x x m] <|
      if e.parityBad ≠ 0#64 then .next ((s.popWq q).trapParity (some (q + 8)))
      else match (maskLanes (e.poison &&& m)).head? with
        | some l => .next (s.trap (poisonTrap s.strand.pc 4 q l))
        | none => k e m

/-- The lanes of a store from a queue entry. -/
def State.storeLanes (s : State) (b x : Nat) (size : Nat) (e : VEntry) (m : W64) : List LaneReq :=
  (maskLanes m).map fun l =>
    ⟨l, laneAddr (s.readS b) (s.readX x) l, size, (Lanes.get32 e.data l).setWidth 64, 0#64⟩

/-- The releases of a store form, then its accesses as carriers (R229). -/
def State.sendStore (s : State) (a : Access) (rel : Bool) (lanes : List LaneAcc) : State :=
  let (own, s) := if rel then s.releaseAll (ordObjs a.creel lanes) a.scope else ([], s)
  s.send a own lanes

/-- st and cst: the wq entry is popped and one access for each line or granule is sent. -/
def State.storeV (s : State) (creel sw : Bool) (q : BitVec 6) (b : BitVec 6) (x : BitVec 5) (z r : BitVec 2) (k : BitVec 3) : Out :=
  s.syncIf (r != 0#2) <| s.withHead (q.toNat - 8) b.toNat x.toNat fun e m =>
    s.probing creel .write (s.storeLanes b.toNat x.toNat (sizeOf' z) e m) fun as =>
      let go := fun (overlay : Bool) =>
        Host.Outcome.next (((s.popWq (q.toNat - 8)).sendStore { s.access creel .store .none k.toNat with overlay := overlay }
          (r != 0#2) as).retire sw)
      if creel then s.creelWay as (go false) else s.storeWay as go

/-- st (R190). -/
def execSt (sw : Bool) (q b : BitVec 6) (x : BitVec 5) (z r : BitVec 2) (k : BitVec 3) (s : State) : Out := s.storeV false sw q b x z r k
/-- cst (R190). -/
def execCst (sw : Bool) (q b : BitVec 6) (x : BitVec 5) (z r : BitVec 2) (k : BitVec 3) (s : State) : Out := s.storeV true sw q b x z r k

/-! ## Scalar loads and stores (R191) -/

/-- Go on where one more scalar-destination operation may be outstanding (R374). -/
def State.scalarRoom (s : State) (k : Out) : Out := if 8 ≤ s.scalarOps then s.stand else k

/-- Go on with a status-returning instruction: its operands are good, and one more scalar-destination operation may be outstanding
(R364, R374). -/
def State.statusOp (s : State) (us : List Use) (k : Out) : Out := s.using us (s.scalarRoom k)

/-- lds: s[q] is the outstanding result (R191). -/
def execLds (sw : Bool) (q b : BitVec 6) (z r : BitVec 2) (k : BitVec 3) (s : State) : Out :=
  s.syncIf (r != 0#2) <| s.using [.s b.toNat] <| s.scalarRoom <|
    s.probing false .read [⟨0, (s.readS b.toNat).toNat, sizeOf' z, 0#64, 0#64⟩] fun as =>
      let a := { s.access false .load (.s q.toNat) k.toNat with acqs := if r = 1#2 then objsOf as else [] }
      .next (((s.dropReplies q.toNat).send a [] as).retire sw)

/-- The key of the current strand's core among the courier buckets (R278). -/
def State.coreKey (s : State) : Nat := s.cur.wave / 8

/-- Take a token of the core's courier bucket and go on; wait at issue while it is empty (R278). -/
def State.withCourier (s : State) (k : State → Out) : Out :=
  match SMap.get courierFull s.courier s.coreKey with
  | 0 => s.stand
  | n + 1 => k (({ s with courier := SMap.put s.coreKey n s.courier } : State).bump (s.unit s.curUnit).part (dieOfCluster s.curCluster) 0x09 1)

/-- sts and stc up to the sending of their one access. -/
def State.storeS (s : State) (courier sw : Bool) (q b : BitVec 6) (z r : BitVec 2) (k : BitVec 3) : Out :=
  s.syncIf (r != 0#2) <| s.using [.s b.toNat, .s q.toNat] <|
    s.probing false .write [⟨0, (s.readS b.toNat).toNat, sizeOf' z, s.readS q.toNat, 0#64⟩] fun as =>
      s.storeWay as fun overlay =>
        let go := fun (s : State) =>
          Host.Outcome.next ((s.sendStore { s.access false .store .none k.toNat with overlay := overlay, courier := courier }
            (r != 0#2) as).retire sw)
        if courier then s.withCourier go else go s

/-- sts (R191). -/
def execSts (sw : Bool) (q b : BitVec 6) (z r : BitVec 2) (k : BitVec 3) (s : State) : Out := s.storeS false sw q b z r k
/-- stc: sts on the courier class (R191). -/
def execStc (sw : Bool) (q b : BitVec 6) (z r : BitVec 2) (k : BitVec 3) (s : State) : Out := s.storeS true sw q b z r k

/-- COURIER_TOKEN: a core's bucket regains a token, up to 8 (R278). DESIGN CHOICE, unsafe (log entry 29). -/
def execCourierToken (core : Nat) (s : State) : Out :=
  .next { s with courier := SMap.put core (min courierFull (SMap.get courierFull s.courier core + 1)) s.courier }

/-! ## Full/empty words (R193) -/

/-- Every word of a full/empty instruction is in the state it requires. -/
def State.feReady (s : State) (load : Bool) (as : List LaneAcc) : Bool :=
  as.all fun a => SMap.get false s.full ((a.loc - creelLoc) / 4) == load

/-- The full/empty instruction that wave slot `k` waits at. -/
def State.feWait (s : State) (k : Nat) : Option FeWait :=
  match (s.wave k).acc.wait with
  | .fullEmpty f => some f
  | _ => none

/-- The requests of a waiting full/empty instruction. -/
def FeWait.reqs (f : FeWait) : List LaneReq := f.lanes.map fun l => ⟨l.1, l.2.1, 4, l.2.2, 0#64⟩

/-- A waiting full/empty instruction of the current strand names another member's creel and its unit scouts: it waits for the verdict
(R164). -/
def State.feScouts (s : State) (f : FeWait) : Bool := s.isScout && f.reqs.any fun r => bitsOf r.va 25 22 != 0

/-- An instruction that began to wait before place `order` has its words in the states it requires (R193), and waits for no verdict. -/
def State.feEarlier (s : State) (order : Nat) : Bool :=
  s.waves.any fun e => match s.feWait e.1 with
    | none => false
    | some f => decide (f.order < order) && !({ s with cur := ⟨e.1, .access⟩ } : State).feScouts f &&
      (match ({ s with cur := ⟨e.1, .access⟩ } : State).probeLanes true (if f.load then .read else .write) f.reqs with
       | .ok as => s.feReady f.load as
       | .error _ => false)

/-- Set the full/empty bits of the words of lanes. -/
def State.setFull (s : State) (v : Bool) (as : List LaneAcc) : State :=
  { s with full := as.foldl (fun m a => if v then SMap.put ((a.loc - creelLoc) / 4) true m else SMap.del m ((a.loc - creelLoc) / 4)) s.full }

/-- cldf performs in one step: the entry is complete, every word becomes empty, and the creel object is acquired at weave
scope. -/
def State.feLoad (s : State) (f : FeWait) (as : List LaneAcc) : State :=
  let a := { s.access true .load .none 2 with lanes := as }
  let vals := as.map fun l => (l.lane, s.readLane a s.now l)
  let e : VEntry :=
    fillEntry s.strand.seqNo vals
      { data := Lanes.zero32, valid := maskOf fun l => f.lanes.any fun x => x.1 == l, poison := 0#64, parityBad := 0#64,
        tag := s.strand.seqNo, missing := 1 }
  let s := (s.pushLq f.q e).setFull false as
  let s := s.hasRead a s.now
  let s := s.acquire a.unit a.idx a.seqNo 2 a.place [.creel]
  (s.updStrand fun t => { t with seqNo := t.seqNo + 1 }).retire f.sw

/-- cste performs in one step: the creel object is released at weave scope, the words are written as its first carriers,
every word becomes full and the entry is popped. -/
def State.feStore (s : State) (f : FeWait) (as : List LaneAcc) : State :=
  let s := (s.releaseAll [.creel] 2).2
  let a := s.access true .store .none 2
  let s := s.perform a.who s.strand.rels (laneBytes as) .creel
  let s := s.noteVis a.unit a.idx a.seqNo (s.justWritten (laneLocs as))
  (((s.setFull true as).popWq (f.q - 8)).updStrand fun t => { t with seqNo := t.seqNo + 1 }).retire f.sw

/-- Perform a full/empty instruction. -/
def State.fePerform (s : State) (f : FeWait) (as : List LaneAcc) : State := if f.load then s.feLoad f as else s.feStore f as

/-- A full/empty instruction after its operands: the probe, the scout rules, then it performs or waits in order. -/
def State.fullEmpty (s : State) (load sw : Bool) (q : Nat) (rs : List LaneReq) : Out :=
  s.probing true (if load then .read else .write) rs fun as => s.creelWay as <|
    if !s.quiet then s.stand
    else
      let order := match s.strand.wait with
        | .fullEmpty f => f.order
        | _ => s.feOrder
      let f : FeWait := ⟨order, load, q, sw, rs.map fun r => (r.lane, r.va, r.data)⟩
      if s.feReady load as && !s.feEarlier order then .next (s.fePerform f as)
      else .next (({ s with feOrder := max s.feOrder (order + 1) } : State).blockWith (.fullEmpty f))

/-- Go on unless the member that this waiting instruction names has been revoked: then it faults (R193). -/
def State.notRevoked (s : State) (k : Out) : Out :=
  match s.strand.wait with
  | .revoked va l => .next (s.trapAddr 0x09 0 va l)
  | _ => k

/-- cldf (R193). -/
def execCldf (sw : Bool) (q b : BitVec 6) (x : BitVec 5) (s : State) : Out :=
  s.notRevoked <| s.using [s.useGuard, .s b.toNat, s.useX x.toNat] <|
    if Config.queueDepth ≤ (s.lq q.toNat).length then s.stand
    else
      let xs := s.readX x.toNat
      let base := s.readS b.toNat
      s.fullEmpty true sw q.toNat ((maskLanes s.guard).map fun l => ⟨l, laneAddr base xs l, 4, 0#64, 0#64⟩)

/-- cste (R193). -/
def execCste (sw : Bool) (q b : BitVec 6) (x : BitVec 5) (s : State) : Out :=
  s.notRevoked <| s.withHead (q.toNat - 8) b.toNat x.toNat fun e m =>
    s.fullEmpty false sw q.toNat (s.storeLanes b.toNat x.toNat 4 e m)

/-- FULL_EMPTY_PERFORM: a waiting cldf or cste whose words all qualify performs, the earliest such first (R193); so it issues (R391). One
that its unit's scouting holds waits on (R164). -/
def execFullEmptyPerform (wave : Nat) (s : State) : Out :=
  let k := (s.slotBy wave).getD 0
  match if (s.slotBy wave).isSome then s.feWait k else none with
  | none => .next s
  | some f =>
    let s' := { s with cur := ⟨k, .access⟩ }
    match s'.probeLanes true (if f.load then .read else .write) f.reqs with
    | .error _ => .next s
    | .ok as => if !s'.feScouts f && s'.feReady f.load as && !s'.feEarlier f.order then .next (s'.fePerform f as).countIssue else .next s

/-! ## Atomics (R224) -/

/-- An atomic up to the sending of its access; `op` numbers the opcodes from aadd. -/
def State.atomic (s : State) (op : Nat) (sw : Bool) (q b : BitVec 6) (x : BitVec 5) (z : BitVec 1) (r : BitVec 2) (k : BitVec 3) : Out :=
  s.syncIf (r != 0#2) <|
    s.using (if op = 2 then [.s b.toNat, .s x.toNat, .s q.toNat] else [.s b.toNat, .s x.toNat]) <|
      s.notScout <| s.scalarRoom <|
        s.probing false .atomic [⟨0, (s.readS b.toNat).toNat, 4 * 2 ^ z.toNat, s.readS x.toNat, s.readS q.toNat⟩] fun as =>
          let s' := if r.getLsbD 1 then s.releaseAll (objsOf as) k.toNat else ([], s)
          let a := { s'.2.access false (.atomic op) (.s q.toNat) k.toNat with acqs := if r.getLsbD 0 then objsOf as else [] }
          .next (((s'.2.dropReplies q.toNat).send a s'.1 as).retire sw)

/-- aadd (R224). -/
def execAadd (sw : Bool) (q b : BitVec 6) (x : BitVec 5) (z : BitVec 1) (r : BitVec 2) (k : BitVec 3) (s : State) : Out :=
  s.atomic 0 sw q b x z r k
/-- aswap (R224). -/
def execAswap (sw : Bool) (q b : BitVec 6) (x : BitVec 5) (z : BitVec 1) (r : BitVec 2) (k : BitVec 3) (s : State) : Out :=
  s.atomic 1 sw q b x z r k
/-- acas (R224). -/
def execAcas (sw : Bool) (q b : BitVec 6) (x : BitVec 5) (z : BitVec 1) (r : BitVec 2) (k : BitVec 3) (s : State) : Out :=
  s.atomic 2 sw q b x z r k
/-- amin (R224). -/
def execAmin (sw : Bool) (q b : BitVec 6) (x : BitVec 5) (z : BitVec 1) (r : BitVec 2) (k : BitVec 3) (s : State) : Out :=
  s.atomic 3 sw q b x z r k
/-- amax (R224). -/
def execAmax (sw : Bool) (q b : BitVec 6) (x : BitVec 5) (z : BitVec 1) (r : BitVec 2) (k : BitVec 3) (s : State) : Out :=
  s.atomic 4 sw q b x z r k
/-- aor (R224). -/
def execAor (sw : Bool) (q b : BitVec 6) (x : BitVec 5) (z : BitVec 1) (r : BitVec 2) (k : BitVec 3) (s : State) : Out :=
  s.atomic 5 sw q b x z r k
/-- aand (R224). -/
def execAand (sw : Bool) (q b : BitVec 6) (x : BitVec 5) (z : BitVec 1) (r : BitVec 2) (k : BitVec 3) (s : State) : Out :=
  s.atomic 6 sw q b x z r k

end Sys2Proof.Machine
end

