-- ==== Sys2Proof/Machine/Engine.lean ====
section
/-! DEFINITION. The copy and gather engines, their completions and the batches (R198 to R203, R212, R227). In the events
here, `wave` is the agent number of a wave's access strand: 32 × its unit + its place in the unit. -/

namespace Sys2Proof.Machine

/-! ## Batches (R202) -/

/-- Change the batch with number `n`, open or closed. -/
def Wave.updBatch (w : Wave) (n : BitVec 32) (f : Batch → Batch) : Wave :=
  if w.openBatch.num = n then { w with openBatch := f w.openBatch }
  else { w with closed := w.closed.map fun b => if b.num = n then f b else b }
/-- The batch with number `n`. -/
def Wave.batch (w : Wave) (n : BitVec 32) : Batch :=
  if w.openBatch.num = n then w.openBatch else (w.closed.find? fun b => b.num == n).getD ⟨n, 0, 0, false, []⟩
/-- A batch has nothing left to write. -/
def Batch.empty (b : Batch) : Bool := b.pending == 0 && b.held == 0
/-- The greatest value of the pending-byte counter, and the greatest length of a command (R199, R202). -/
def batchMax : Nat := 0x00FFFFFF

/-! ## Command words (R199 to R201) -/

/-- The words of the command queue of engine `e` that no command has been formed of. -/
def Wave.loose (w : Wave) (e : Nat) : List W64 :=
  let used := (SMap.get [] w.eng e).foldl (fun n c => if c.started then n else n + c.words) 0
  ((SMap.get [] w.eqCmd e).drop used).map QEntry.val

/-- One of the first `n` words of the command queue of engine `e` fails parity (R14, R363). -/
def Wave.cmdBad (w : Wave) (e n : Nat) : Bool := ((SMap.get [] w.eqCmd e).take n).any QEntry.parityBad

/-- A creel range of `n` bytes breaks the allotment and member rules (R188, R199); one of length 0 names no byte, and only R20 is tested
for it. -/
def State.creelOutside (s : State) (unit a n : Nat) : Bool :=
  if n = 0 then decide (2 ^ 56 ≤ a)
  else match s.probeCreel unit (s.unit unit).cluster a n 1 with
    | .ok _ => false
    | .error (.waits _) => false
    | .error _ => true

/-- A global address lies in the flash window. -/
def State.inFlash (s : State) (unit va : Nat) : Bool :=
  let u := s.unit unit
  match s.walk u.part u.space va with
  | .ok l => paKind (l.pa l.wrole va) == .flash
  | .error _ => false

/-- A command that nothing has been done of. -/
def EngCmd.blank (words : Nat) (gather : Bool) : EngCmd :=
  { num := 0, view := [], gather := gather, words := words, refusal := none, dk := 0, sk := 0, fe := 0, note := false, tag := 0,
    length := 0, src := 0, dst := 0, list := 0, pitch := 0, rowBytes := 1, batch := none, joined := false, started := false,
    read := 0, done := 0, buf := [], rowIdx := 0 }

/-- Decide the refusal of a well formed or malformed command (R200): malformedness first. -/
def EngCmd.check (c : EngCmd) (malformed : Bool) : EngCmd :=
  if malformed then { c with refusal := some 2, tag := 0 }
  else if batchMax < c.length then { c with refusal := some 1 } else c

/-- The copy command of three words (R199). -/
def State.copyCmd (s : State) (unit : Nat) (w0 w1 w2 : W64) : EngCmd :=
  let x := w0.toNat
  let dk := bitsOf x 55 54
  let sk := bitsOf x 53 52
  let fe := bitsOf x 51 50
  let n := bitsOf x 31 0
  let src := w1.toNat
  let dst := w2.toNat
  let c := { EngCmd.blank 3 false with dk := dk, sk := sk, fe := fe, note := x.testBit 49, tag := bitsOf x 47 32, length := n,
                                       src := src, dst := dst }
  let side := fun (k a : Nat) => match k with
    | 0 => decide (2 ^ 56 ≤ a)
    | 1 => s.creelOutside unit a n
    | _ => true
  c.check (x.testBit 48 || decide (1 < dk) || decide (1 < sk) || fe == 3 || (dk != 1 && fe != 0) || side dk dst || side sk src
    || (fe != 0 && (src % 4 != 0 || dst % 4 != 0 || n % 4 != 0))
    || (dk == 0 && s.inFlash unit dst && (dst % 4096 != 0 || n % 4096 != 0)))

/-- The gather command of five words (R201). DEDUCED, unsafe (log entry 23). -/
def State.gatherCmd (s : State) (unit : Nat) (w0 w1 w2 w3 w4 : W64) : EngCmd :=
  let x := w0.toNat
  let dk := bitsOf x 55 54
  let count := bitsOf x 31 16
  let rb := bitsOf x 15 0
  let n := count * rb
  let dst := w4.toNat
  let c := { EngCmd.blank 5 true with dk := dk, note := x.testBit 49, tag := bitsOf x 47 32, length := n, src := w2.toNat, dst := dst,
                                      list := w1.toNat, pitch := w3.toNat, rowBytes := rb }
  let side := match dk with
    | 0 => decide (2 ^ 56 ≤ dst)
    | 1 => s.creelOutside unit dst n
    | _ => true
  c.check (bitsOf x 53 50 != 0 || x.testBit 48 || decide (1 < dk) || count == 0 || rb == 0 || w1.toNat % 4 != 0
    || decide (2 ^ 56 ≤ w1.toNat) || decide (2 ^ 56 ≤ w2.toNat) || decide (2 ^ 32 ≤ w3.toNat) || side)

/-- The command that the loose words of engine `e` complete, if they do. A word 0 with an unassigned cmd is a command of
its own (R200). -/
def State.formCmd (s : State) (unit e : Nat) (ws : List W64) : Option EngCmd :=
  match ws with
  | [] => none
  | w0 :: rest =>
    if bitsOf w0.toNat 63 56 ≠ 1 then some { EngCmd.blank 1 (e == 1) with refusal := some 0xFF }
    else match e, rest with
      | 0, [w1, w2] => some (s.copyCmd unit w0 w1 w2)
      | 1, [w1, w2, w3, w4] => some (s.gatherCmd unit w0 w1 w2 w3 w4)
      | _, _ => none

/-- The writes that an agent has made, as a view. -/
def ownWrites (h : List WriteRec) (who : Nat) : View :=
  h.foldl (fun v r => if r.who = who && r.span == 0 && !SMap.has v r.loc then SMap.put r.loc (r.time, r.obj) v else v) []

/-- A command joins the open batch where it writes a creel: a refused one only marks it failed, one without room is held
(R202). -/
def Wave.join (w : Wave) (c : EngCmd) : EngCmd × Wave :=
  if c.dk ≠ 1 then (c, w)
  else if c.refusal.isSome then (c, if c.refusal = some 0xFF then w else { w with openBatch := { w.openBatch with failed := true } })
  else
    let b := w.openBatch
    let b := { b with cmds := b.cmds ++ [c.num] }
    if b.pending + c.length ≤ batchMax then
      ({ c with batch := some b.num, joined := true }, { w with openBatch := { b with pending := b.pending + c.length } })
    else ({ c with batch := some b.num }, { w with openBatch := { b with held := b.held + 1 } })

/-- What an engine must see of a command that a wave pushes: the strand's own writes (R198), and of the creel what is visible to
the strand, for which the command acts (R137, R214). DEDUCED, unsafe (log entry 12). -/
def State.cmdView (s : State) (who : Nat) : View :=
  View.join (ownWrites s.hist who) ((s.waveBy who).acc.view.filter fun e => isCreel e.1)

/-- A word has been pushed to engine `e` by the wave numbered `who`: a command that it completes is checked and joins its
batch (R202). -/
def State.pushed (s : State) (who e : Nat) : State :=
  match s.formCmd (who / 32) e ((s.waveBy who).loose e) with
  | none => s
  | some c =>
    let (c, w) := (s.waveBy who).join { c with num := s.nextCmd, view := s.cmdView who }
    { s.updWaveBy who fun _ => { w with eng := SMap.upd [] e (fun l => l ++ [c]) w.eng, cmdNums := w.cmdNums ++ [c.num] } with nextCmd := s.nextCmd + 1 }

/-! ## Serving commands -/

/-- Replace the command at place `i`. -/
def State.setCmd (s : State) (who e i : Nat) (c : EngCmd) : State :=
  s.updWaveBy who fun w => { w with eng := SMap.upd [] e (fun l => listSet l i c) w.eng }

/-- An engine fault of a wave that is switched out is logged (R360). The die is that of the cluster on which its unit last stood; the
wave has no place, so the cluster, core and slot are none. DEDUCED, unsafe (log entry 52). -/
def State.logSwitched (s : State) (who addr : Nat) : State :=
  let u := s.unit (who / 32)
  if (s.slotBy who).isSome then s
  else s.logError u.part { LogEntry.device 2 (dieOfCluster u.cluster) addr with strand := 0, launch := u.launch }

/-- An engine has met a fault at an address for a wave: fault.eaddr records it, and where the wave is switched out a log entry of kind 2 says
so (R200, R360). Of a unit that has gone nothing is left to record it in. -/
def State.engFault (s : State) (who addr : Nat) : State :=
  if (s.unit (who / 32)).life = .gone then s
  else
    (s.updWaveBy who fun w =>
      { w with acc := { w.acc.clearCtl 0x059 with csr := { w.acc.csr with faultEaddr := BitVec.ofNat 64 addr } } }).logSwitched who addr

/-- A command leaves the engine: a completion is to be posted where `post` says so, and a batch loses its remaining bytes
(R200, R202). -/
def State.endCmd (s : State) (who e i : Nat) (c : EngCmd) (status : Nat) (post : Bool) : State :=
  s.updWaveBy who fun w =>
    let w := match c.batch with
      | some b => w.updBatch b fun b => { b with pending := b.pending - (c.length - c.done), failed := b.failed || status != 0 }
      | none => w
    { w with eng := SMap.upd [] e (fun l => l.eraseIdx i) w.eng,
             fin := if post then SMap.upd [] e (fun l => l ++ [⟨c.num, status, c.tag, c.done⟩]) w.fin else w.fin }

/-- A command finishes. -/
def State.finishCmd (s : State) (who e i : Nat) (c : EngCmd) : State := s.endCmd who e i c 0 c.note

/-- An engine stops a command with a status at an address, which fault.eaddr records; where the wave is switched out, a log entry of
kind 2 says so (R200, R360). -/
def State.stopCmd (s : State) (who e i : Nat) (c : EngCmd) (status addr : Nat) : State :=
  (s.endCmd who e i c status true).engFault who addr

/-- Held commands of a wave's batches that now have room join them, in push order (R202). -/
def Wave.joinHeld (w : Wave) (e : Nat) : Wave :=
  (List.range (SMap.get [] w.eng e).length).foldl (fun w i =>
    match (SMap.get [] w.eng e)[i]? with
    | some c => match c.batch, c.joined with
      | some n, false =>
        let b := w.batch n
        if b.pending + c.length ≤ batchMax then
          { w.updBatch n fun b => { b with pending := b.pending + c.length, held := b.held - 1 } with
            eng := SMap.upd [] e (fun l => listSet l i { c with joined := true }) w.eng }
        else w
      | _, _ => w
    | none => w) w

/-- Where an engine reaches bytes of one line: their location, their object and whether they wait. -/
inductive Reach where
  | ok (loc : Nat) (obj : Obj)
  | wait
  /-- waits at the creel allotment of a unit (R166, R212) -/
  | hold (holder : Nat)
  /-- a spilled page, to be fetched first -/
  | fetch (va : Nat)
  | fault
  deriving DecidableEq, Repr

/-- An engine's access to an address of kind `k` sets the reference bit of its key-value page (R323). -/
def State.touchEng (s : State) (unit k a : Nat) : State :=
  if k = 0 then s.touch (s.unit unit).part (s.unit unit).space [a] else s

/-- An engine, for command `num` of a unit, reaches `n` bytes in one line at an address of kind `k`, 0 global and 1 creel. The creel
allotment of a unit that is switched out waits, the command's own or another member's (R212), as does one that a scout task of another
unit holds; what waits proceeds in the order in which it began (R166). -/
def State.reach (s : State) (unit num k a n : Nat) (want : Want) : Reach :=
  let u := s.unit unit
  if k = 1 then
    match s.probeCreel unit u.cluster a n 1 with
    | .ok (h, c, o) => if s.creelAhead h (2 ^ 40 + num) then .hold h else .ok (locOfCreel c o) .creel
    | .error (.waits h) => .hold h
    | .error _ => .fault
  else match s.probeGlobal unit u.part u.space a 1 want with
    | .ok (l, pa) =>
      if s.unreachable u.part pa then .fault else if s.crosses unit pa then .wait else .ok pa (.page u.space l.obj)
    | .error (.spilled va) => .fetch va
    | .error (.waits _) => .wait
    | .error _ => .fault

/-- Start the unstarted command at place `i`: its words leave the queue; a refused one is answered, and one of whose words fails parity
as an unassigned one. DESIGN CHOICE, unsafe (log entry 51). -/
def State.startCmd (s : State) (who e i : Nat) (c : EngCmd) : State :=
  let bad := (s.waveBy who).cmdBad e c.words
  let s := s.updWaveBy who fun w => { w with eqCmd := SMap.upd [] e (fun q => q.drop c.words) w.eqCmd }
  match if bad then some 0xFF else c.refusal with
  | some st => s.endCmd who e i c st true
  | none =>
    let c := { c with started := true }
    if c.length = 0 then s.finishCmd who e i c else s.setCmd who e i c

/-- The command's bytes leave its unit: its destination is not the unit's own creel. -/
def EngCmd.leaves (c : EngCmd) : Bool := c.dk != 1 || bitsOf c.dst 25 22 != 0

/-- What the command's reads want of a page (R157, R164). -/
def EngCmd.readWant (c : EngCmd) : Want := if c.leaves then .send else .read

/-- The bytes at a moment that an engine of a unit reads; where they stay in a scout unit its own overlay is in place (R165). -/
def State.engBytes (s : State) (unit : Nat) (bare : Bool) (va loc n : Nat) (view : View) (tag : Nat) : List Byte :=
  let t := s.readTime view ((List.range n).map fun i => loc + i) tag
  (List.range n).map fun i =>
    match (if bare then none else s.overlayByte unit (s.unit unit).space (va + i)) with
    | some b => b.val
    | none => s.byteAt t (loc + i)

/-- The command would pass on bytes of its unit's creel while that scouts: what stands there may be made of a prediction, so that it waits
for the verdict (R157). DEDUCED, unsafe (log entry 20). -/
def State.cmdScouts (s : State) (unit : Nat) (c : EngCmd) : Bool :=
  c.leaves && !c.gather && c.sk == 1 && decide (0 < (s.unit unit).depthScout)

/-- Read the next source bytes of a started command, one line at most. -/
def State.readCmd (s : State) (who e i : Nat) (c : EngCmd) : State :=
  let unit := who / 32
  let take := fun (s : State) (c : EngCmd) (sk a n : Nat) =>
    let n := min n (128 - a % 128)
    match s.reach unit c.num sk a n c.readWant with
    | .wait => s
    | .hold h => s.joinCreel h (2 ^ 40 + c.num)
    | .fetch va => s.wantPage (s.unit unit).part (s.unit unit).space va
    | .fault => s.stopCmd who e i c 3 a
    | .ok loc _ =>
      match (List.range n).find? fun j => s.poisonedAt (loc + j) with
      | some j => s.stopCmd who e i c 5 (a + j)
      | none => ((s.leaveCreel (2 ^ 40 + c.num)).touchEng unit sk a).setCmd who e i { c with read := c.read + n, buf := c.buf ++ s.engBytes unit (sk == 1 || c.leaves) a loc n c.view (e + 2) }
  if s.cmdScouts unit c then s
  else if !c.gather then take s c c.sk (c.src + c.read) (c.length - c.read)
  else
    let col := c.read % c.rowBytes
    let go := fun (s : State) (c : EngCmd) => take s c 0 (c.src + c.rowIdx * c.pitch + col) (c.rowBytes - col)
    if col ≠ 0 then go s c
    else
      let a := c.list + 4 * (c.read / c.rowBytes)
      match s.reach unit c.num 0 a 4 c.readWant with
      | .wait => s
      | .hold _ => s
      | .fetch va => s.wantPage (s.unit unit).part (s.unit unit).space va
      | .fault => s.stopCmd who e i c 3 a
      | .ok loc _ =>
        match (List.range 4).find? fun j => s.poisonedAt (loc + j) with
        | some j => s.stopCmd who e i c 5 (a + j)
        | none => go (s.touchEng unit 0 a) { c with rowIdx := leNat (s.engBytes unit c.leaves a loc 4 c.view (e + 4)) }

/-- The bytes that the next write of a started command moves: to the end of the destination's line. -/
def EngCmd.nextWrite (c : EngCmd) : Nat := min (c.length - c.done) (128 - (c.dst + c.done) % 128)

/-- A copy whose ranges overlap, in one space. -/
def EngCmd.selfOverlaps (c : EngCmd) : Bool :=
  !c.gather && c.sk == c.dk && decide (c.src < c.dst + c.length) && decide (c.dst < c.src + c.length)

/-- The full/empty bits of the destination words whose last byte lies among `n` bytes from `loc` (R199). -/
def State.setFe (s : State) (fe loc n : Nat) : State :=
  if fe = 0 then s
  else
    let ws := ((List.range n).filter fun i => (loc + i) % 4 == 3).map fun i => (loc + i - creelLoc) / 4
    { s with full := ws.foldl (fun m w => if fe = 1 then SMap.put w true m else SMap.del m w) s.full }

/-- Write the next bytes of a started command; where its ranges overlap each byte may keep its old value (R199). -/
def State.writeCmd (s : State) (who e i : Nat) (c : EngCmd) : State :=
  let unit := who / 32
  let n := c.nextWrite
  let a := c.dst + c.done
  match s.reach unit c.num c.dk a n (if c.gather then .write else .engine) with
  | .wait => s
  | .hold h => s.joinCreel h (2 ^ 40 + c.num)
  | .fetch va => s.wantPage (s.unit unit).part (s.unit unit).space va
  | .fault => s.stopCmd who e i c 4 a
  | .ok loc obj =>
    let bs := (List.range n).map fun j =>
      let b := c.buf.getD j 0#8
      if c.selfOverlaps && Config.pick s.fresh (2000000 + j) % 2 == 1 then s.byteNow (loc + j) else b
    let s := ((s.leaveCreel (2 ^ 40 + c.num)).touchEng unit c.dk a).perform (2 ^ 40 + c.num) [] ((List.range n).zip bs |>.map fun x => (loc + x.1, x.2)) obj
    let s := s.setFe c.fe loc n
    let s := s.updWaveBy who fun w => match c.batch with
      | some b => w.updBatch b fun b => { b with pending := b.pending - n }
      | none => w
    let c := { c with done := c.done + n, buf := c.buf.drop n }
    if c.length ≤ c.done then s.finishCmd who e i c else s.setCmd who e i c

/-- What an engine may do next for a wave: start the command at a place, read for it or write for it. -/
inductive EngAct where
  | start (i : Nat)
  | read (i : Nat)
  | write (i : Nat)
  deriving DecidableEq, Repr

/-- The actions open to an engine. A command starts only after the one before it has read its last byte; a copy over its
own source reads all of it before it writes. -/
def engActs (cs : List EngCmd) : List EngAct :=
  (List.range cs.length).flatMap fun i =>
    match cs[i]? with
    | none => []
    | some c =>
      if !c.started then
        if (cs.take i).all (fun d => d.started && decide (d.length ≤ d.read)) && (c.batch.isNone || c.joined) then [.start i] else []
      else
        (if c.read < c.length then [EngAct.read i] else [])
          ++ (if c.done < c.length && decide (c.nextWrite ≤ c.buf.length) && (!c.selfOverlaps || decide (c.length ≤ c.read))
              then [EngAct.write i] else [])

/-- One step of engine `e` for a wave, freely chosen among those open to it. -/
def State.engStep (s : State) (who e : Nat) : State :=
  if !s.waveLives who then s
  else
    let s := s.updWaveBy who fun w => w.joinHeld e
    let cs := SMap.get [] (s.waveBy who).eng e
    let acts := engActs cs
    match acts[Config.pick s.fresh 3 % acts.length]? with
    | none => s
    | some (.start i) => match cs[i]? with
      | some c => s.startCmd who e i c
      | none => s
    | some (.read i) => match cs[i]? with
      | some c => s.readCmd who e i c
      | none => s
    | some (.write i) => match cs[i]? with
      | some c => s.writeCmd who e i c
      | none => s

/-- COPY: the copy engine takes a step for a wave: it starts the next command, or moves at most one line (R199). -/
def execCopy (wave : Nat) (s : State) : Out := .next (s.engStep wave 0)
/-- GATHER: the gather engine takes a step for a wave (R201). -/
def execGather (wave : Nat) (s : State) : Out := .next (s.engStep wave 1)

/-! ## Completions (R200) -/

/-- Append a completion word to a completion queue. -/
def Wave.postDone (w : Wave) (e : Nat) (x : W64) (tag : Nat) : Wave :=
  { w with eqDone := SMap.upd [] e (fun q => q ++ [⟨x, false, tag⟩]) w.eqDone }
/-- The completion queue of engine `e` has room. -/
def Wave.doneRoom (w : Wave) (e : Nat) : Bool := decide ((SMap.get [] w.eqDone e).length < Config.queueDepth)

/-- The completion word of a command; all ones for an unassigned command word. -/
def EngDone.word (d : EngDone) : W64 :=
  if d.status = 0xFF then BitVec.allOnes 64 else BitVec.ofNat 64 (d.status * 2 ^ 56 + d.tag * 2 ^ 32 + d.done)

/-- COMPLETION: an engine posts the completion of a command that has finished, been refused or stopped, once the
completion queue has room; while the unit is switched out it waits in the engine (R200, R212). -/
def execCompletion (wave eng idx : Nat) (s : State) : Out :=
  if s.slotBy wave = none then .next s
  else
    let w := s.waveBy wave
    match (SMap.get [] w.fin eng)[idx]? with
    | none => .next s
    | some d =>
      if !w.doneRoom eng then .next s
      else .next (s.updWaveBy wave fun w =>
        { w with fin := SMap.upd [] eng (fun l => l.eraseIdx idx) w.fin }.postDone eng d.word d.num)

/-- The writes of commands count as the strand's own, made just now (R227): they become visible to it, its fences order them, and they
carry its earlier releases (R217). -/
def State.adopt (s : State) (who : Nat) (agents : List Nat) (keep : WriteRec → Bool) : State :=
  let mine := s.hist.filter fun r => agents.contains r.who && keep r
  let vis := mine.foldl (fun v r => if SMap.has v r.loc then v else SMap.put r.loc (r.time, r.obj) v) []
  let own := s.hist.map fun r => if agents.contains r.who && keep r then { r with who := who, rels := (s.waveBy who).acc.rels ++ r.rels } else r
  ({ s with hist := own } : State).noteVis (who / 32) (who % 32) (s.waveBy who).acc.seqNo vis

/-! ## copy.bclose and copy.bwait (R203) -/

/-- copy.bclose: blocks while 16 closed batches are incomplete, then closes the open batch. -/
def execCopyBclose (sw : Bool) (r : BitVec 6) (s : State) : Out :=
  s.scalarRoom <|
  let w := s.curWave
  if 16 ≤ (w.closed.filter fun b => !b.empty).length then s.stand
  else
    let b := w.openBatch
    (s.updWave s.cur.wave fun w => { w with closed := w.closed ++ [b], openBatch := ⟨b.num + 1#32, 0, 0, false, []⟩ }).resultS sw
      r.toNat (zext64 b.num)

/-- copy.bwait: blocks until every closed batch up to n has completed; their writes count as the strand's (R203, R227). Where n names no
closed batch and one of those waited for has failed, the status is 1. DEDUCED, unsafe (log entry 62). Where they have writes it waits as a
write of the strand would (R230, log entry 64). -/
def execCopyBwait (sw : Bool) (r : BitVec 6) (s : State) : Out :=
  s.statusOp [.s r.toNat]
    (let n := (s.readS r.toNat).extractLsb' 0 32
     let w := s.curWave
     let beyond := decide ((n - w.openBatch.num).toNat < 2 ^ 31)
     let mine := if beyond then w.closed else w.closed.filter fun b => decide ((n - b.num).toNat < 2 ^ 31)
     if mine.any fun b => !b.empty then s.stand
     else
       let st := if beyond then 1#64 else if mine.any fun b => b.failed then 2#64 else 0#64
       let cmds := mine.flatMap fun b => b.cmds.map fun c => 2 ^ 40 + c
       if !cmds.isEmpty && s.relsOut then s.stand else
       (s.adopt w.who cmds fun x => isCreel x.loc).resultS sw r.toNat st)

end Sys2Proof.Machine
end

