-- ==== Sys2Proof/Machine/Vector.lean ====
section
/-! DEFINITION. Address-vector instructions of the access strand (R108, R109) and the vector integer, bitwise, compare
and predicate instructions of the compute strand (R98, R99, R110 to R116). -/

namespace Sys2Proof.Machine

/-! ## Address vectors -/

/-- x[d][l] := f(x[a][l], x[b][l]) in the active lanes (R108). -/
def State.xx (s : State) (sw : Bool) (d a b : BitVec 8) (f : W64 → W64 → W64) : Out :=
  s.using [s.useGuard, s.useX a.toNat, s.useX b.toNat]
    (s.resultX sw d.toNat s.guard fun l => f (Lanes.get64 (s.readX a.toNat) l) (Lanes.get64 (s.readX b.toNat) l))

/-- x[d][l] := f(x[a][l], s[b]) in the active lanes (R108). -/
def State.xs (s : State) (sw : Bool) (d a b : BitVec 8) (f : W64 → W64 → W64) : Out :=
  s.using [s.useGuard, s.useX a.toNat, .s b.toNat]
    (s.resultX sw d.toNat s.guard fun l => f (Lanes.get64 (s.readX a.toNat) l) (s.readS b.toNat))

/-- p[pd][l] := cond(x[a][l], x[b][l]) in the active lanes, 0 in the others (R109). -/
def State.xcmp (s : State) (sw : Bool) (p : BitVec 4) (a b : BitVec 8) (c : BrCond) : Out :=
  s.using [s.useGuard, s.useX a.toNat, s.useX b.toNat]
    (s.resultP sw p.toNat (maskOf fun l =>
      maskBit s.guard l && c.holds (Lanes.get64 (s.readX a.toNat) l) (Lanes.get64 (s.readX b.toNat) l)))

/-- xadd: x[a] + x[b] (R108). -/
def execXadd (sw : Bool) (d a b : BitVec 8) (s : State) : Out :=
  s.xx sw d a b (fun x y => x + y)

/-- xaddsc: x[a] + s[b] (R108). -/
def execXaddsc (sw : Bool) (d a b : BitVec 8) (s : State) : Out :=
  s.xs sw d a b (fun x y => x + y)

/-- xmulsc: bits 63:0 of x[a] × s[b] (R108). -/
def execXmulsc (sw : Bool) (d a b : BitVec 8) (s : State) : Out :=
  s.xs sw d a b (fun x y => x * y)

/-- xshl: x[a] shifted left by s[b] mod 64 (R108). -/
def execXshl (sw : Bool) (d a b : BitVec 8) (s : State) : Out :=
  s.xs sw d a b (fun x y => x <<< (y.toNat % 64))

/-- xiota: s[a] + l × s[b] (R108). -/
def execXiota (sw : Bool) (d a b : BitVec 8) (s : State) : Out :=
  s.using [s.useGuard, .s a.toNat, .s b.toNat]
    (s.resultX sw d.toNat s.guard fun l => s.readS a.toNat + BitVec.ofNat 64 l * s.readS b.toNat)

/-- xcmp.eq (R109). -/
def execXcmpEq (sw : Bool) (p : BitVec 4) (a b : BitVec 8) (s : State) : Out :=
  s.xcmp sw p a b .eq

/-- xcmp.ne (R109). -/
def execXcmpNe (sw : Bool) (p : BitVec 4) (a b : BitVec 8) (s : State) : Out :=
  s.xcmp sw p a b .ne

/-- xcmp.lt (R109). -/
def execXcmpLt (sw : Bool) (p : BitVec 4) (a b : BitVec 8) (s : State) : Out :=
  s.xcmp sw p a b .lt

/-- xcmp.ge (R109). -/
def execXcmpGe (sw : Bool) (p : BitVec 4) (a b : BitVec 8) (s : State) : Out :=
  s.xcmp sw p a b .ge

/-- xcmp.ltu (R109). -/
def execXcmpLtu (sw : Bool) (p : BitVec 4) (a b : BitVec 8) (s : State) : Out :=
  s.xcmp sw p a b .ltu

/-- xcmp.geu (R109). -/
def execXcmpGeu (sw : Bool) (p : BitVec 4) (a b : BitVec 8) (s : State) : Out :=
  s.xcmp sw p a b .geu

/-! ## Vector integer and bitwise instructions (R110 to R113) -/

/-- v[d][l] := f(v[a][l], v[b][l]) in the active lanes. -/
def State.vv (s : State) (sw : Bool) (d a b : BitVec 8) (f : W32 → W32 → W32) : Out :=
  s.using [s.useGuard, s.useV a.toNat, s.useV b.toNat]
    (s.resultV sw d.toNat s.guard fun l => f (Lanes.get32 (s.vec a.toNat) l) (Lanes.get32 (s.vec b.toNat) l))

/-- v[d][l] := f(v[a][l], v[b][l], v[d][l]) in the active lanes, the destination read at issue. -/
def State.vvv (s : State) (sw : Bool) (d a b : BitVec 8) (f : W32 → W32 → W32 → W32) : Out :=
  s.using [s.useGuard, s.useV a.toNat, s.useV b.toNat, s.useV d.toNat]
    (s.resultV sw d.toNat s.guard fun l =>
      f (Lanes.get32 (s.vec a.toNat) l) (Lanes.get32 (s.vec b.toNat) l) (Lanes.get32 (s.vec d.toNat) l))

/-- v[d][l] := f(v[a][l]) in the active lanes. -/
def State.v1 (s : State) (sw : Bool) (d a : BitVec 8) (f : W32 → W32) : Out :=
  s.using [s.useGuard, s.useV a.toNat] (s.resultV sw d.toNat s.guard fun l => f (Lanes.get32 (s.vec a.toNat) l))

/-- An integer-class instruction whose results wrap or saturate by the mode word (R78, R99). -/
def State.vint (s : State) (sw : Bool) (d a b : BitVec 8) (f : Int → Int → Int) : Out :=
  s.vv sw d a b (intLane s.strand.etype s.strand.sat f)

/-- An integer-class function of element patterns that ignores sat; it is given the width and the signedness. -/
def patLane (t : Nat) (f : Nat → Bool → Nat → Nat → Nat) (a b : W32) : W32 :=
  let (w, sg) := intType t
  packLane w fun k => f w sg (elemOf w k a) (elemOf w k b)

/-- Bits 2w−1 : w of the exact product (R110). -/
def mulhElem (w : Nat) (sg : Bool) (a b : Nat) : Nat := wrapInt w (intVal w sg a * intVal w sg b / 2 ^ w)
/-- a shifted left by b mod w (R110). -/
def shlElem (w : Nat) (_ : Bool) (a b : Nat) : Nat := a * 2 ^ (b % w) % 2 ^ w
/-- a shifted right by b mod w, arithmetic for signed types (R110). -/
def shrElem (w : Nat) (sg : Bool) (a b : Nat) : Nat := wrapInt w (intVal w sg a / 2 ^ (b % w))
/-- |a − b| as an unsigned value (R110). -/
def absdElem (w : Nat) (sg : Bool) (a b : Nat) : Nat := (intVal w sg a - intVal w sg b).natAbs

/-- The exact d + a × b, wrapped or clamped once (R110). -/
def macLane (t : Nat) (sat : Bool) (a b d : W32) : W32 :=
  let (w, sg) := intType t
  packLane w fun k =>
    fitInt w sg sat (intVal w sg (elemOf w k d) + intVal w sg (elemOf w k a) * intVal w sg (elemOf w k b))

/-- vadd (R110). -/
def execVadd (sw : Bool) (d a b : BitVec 8) (s : State) : Out :=
  s.vint sw d a b (fun x y => x + y)

/-- vsub (R110). -/
def execVsub (sw : Bool) (d a b : BitVec 8) (s : State) : Out :=
  s.vint sw d a b (fun x y => x - y)

/-- vmul (R110). -/
def execVmul (sw : Bool) (d a b : BitVec 8) (s : State) : Out :=
  s.vint sw d a b (fun x y => x * y)

/-- vmulh (R110). -/
def execVmulh (sw : Bool) (d a b : BitVec 8) (s : State) : Out :=
  s.vv sw d a b (patLane s.strand.etype mulhElem)

/-- vmin (R110). -/
def execVmin (sw : Bool) (d a b : BitVec 8) (s : State) : Out :=
  s.vint sw d a b (fun x y => min x y)

/-- vmax (R110). -/
def execVmax (sw : Bool) (d a b : BitVec 8) (s : State) : Out :=
  s.vint sw d a b (fun x y => max x y)

/-- vand (R110). -/
def execVand (sw : Bool) (d a b : BitVec 8) (s : State) : Out :=
  s.vv sw d a b (fun x y => x &&& y)

/-- vor (R110). -/
def execVor (sw : Bool) (d a b : BitVec 8) (s : State) : Out :=
  s.vv sw d a b (fun x y => x ||| y)

/-- vxor (R110). -/
def execVxor (sw : Bool) (d a b : BitVec 8) (s : State) : Out :=
  s.vv sw d a b (fun x y => x ^^^ y)

/-- vshl (R110). -/
def execVshl (sw : Bool) (d a b : BitVec 8) (s : State) : Out :=
  s.vv sw d a b (patLane s.strand.etype shlElem)

/-- vshr (R110). -/
def execVshr (sw : Bool) (d a b : BitVec 8) (s : State) : Out :=
  s.vv sw d a b (patLane s.strand.etype shrElem)

/-- vabsd (R110). -/
def execVabsd (sw : Bool) (d a b : BitVec 8) (s : State) : Out :=
  s.vv sw d a b (patLane s.strand.etype absdElem)

/-- vmac (R110). -/
def execVmac (sw : Bool) (d a b : BitVec 8) (s : State) : Out :=
  s.vvv sw d a b (macLane s.strand.etype s.strand.sat)

/-- vsel: v[a] where the guard is 1 and v[b] where it is 0, in every lane (R111). A lane is met as poisoned where it is read.
DEDUCED, unsafe (log entry 57). -/
def execVsel (sw : Bool) (d a b : BitVec 8) (s : State) : Out :=
  s.using [s.useGuard, s.useV a.toNat, s.useVM b.toNat (~~~s.guard)]
    (s.resultV sw d.toNat (BitVec.allOnes 64) fun l =>
      if maskBit s.guard l then Lanes.get32 (s.vec a.toNat) l else Lanes.get32 (s.vec b.toNat) l)

/-- An element function of patterns, given the width. -/
def patLane1 (t : Nat) (f : Nat → Nat → Nat) (a : W32) : W32 := packLane (typeWidth t) fun k => f (typeWidth t) (elemOf (typeWidth t) k a)

/-- Negate: the sign bit inverted for float types, else −a by R78 (R112). -/
def negLane (t : Nat) (sat : Bool) (a : W32) : W32 :=
  if isFloatType t then patLane1 t (fun w x => x ^^^ 2 ^ (w - 1)) a else intLane t sat (fun x _ => -x) a a
/-- Absolute value: the sign bit cleared for float types, else |a| by R78 (R112). -/
def absLane (t : Nat) (sat : Bool) (a : W32) : W32 :=
  if isFloatType t then patLane1 t (fun w x => x % 2 ^ (w - 1)) a else intLane t sat (fun x _ => (x.natAbs : Int)) a a

/-- vun.clz (R112). -/
def execVunClz (sw : Bool) (d a : BitVec 8) (s : State) : Out :=
  s.v1 sw d a (patLane1 s.strand.etype clz)

/-- vun.ffs (R112). -/
def execVunFfs (sw : Bool) (d a : BitVec 8) (s : State) : Out :=
  s.v1 sw d a (patLane1 s.strand.etype ctz)

/-- vun.popc (R112). -/
def execVunPopc (sw : Bool) (d a : BitVec 8) (s : State) : Out :=
  s.v1 sw d a (patLane1 s.strand.etype popCount)

/-- vun.neg (R112). -/
def execVunNeg (sw : Bool) (d a : BitVec 8) (s : State) : Out :=
  s.v1 sw d a (negLane s.strand.etype s.strand.sat)

/-- vun.abs (R112). -/
def execVunAbs (sw : Bool) (d a : BitVec 8) (s : State) : Out :=
  s.v1 sw d a (absLane s.strand.etype s.strand.sat)

/-- vun.not (R112). -/
def execVunNot (sw : Bool) (d a : BitVec 8) (s : State) : Out :=
  s.v1 sw d a (fun x => ~~~x)

/-- vun.mov (R112). -/
def execVunMov (sw : Bool) (d a : BitVec 8) (s : State) : Out :=
  s.v1 sw d a (fun x => x)

/-- vmovi: sext32(imm16) in every active lane (R113). -/
def execVmovi (sw : Bool) (d : BitVec 8) (i : BitVec 16) (s : State) : Out :=
  s.using [s.useGuard] (s.resultV sw d.toNat s.guard fun _ => i.signExtend 32)

/-- vmovhi: imm16 above the low half of the destination, read at issue (R113). -/
def execVmovhi (sw : Bool) (d : BitVec 8) (i : BitVec 16) (s : State) : Out :=
  s.using [s.useGuard, s.useV d.toNat]
    (s.resultV sw d.toNat s.guard fun l => i ++ (Lanes.get32 (s.vec d.toNat) l).extractLsb' 0 16)

/-! ## Compares and predicates (R114 to R116) -/

/-- The condition holds for every element of a lane (R114). -/
def vcmpLane (t : Nat) (flush : Bool) (c : VCond) (a b : W32) : Bool :=
  let w := typeWidth t
  (List.range (32 / w)).all fun k =>
    if isFloatType t then
      let F := floatType t
      c.onFp (F.input flush (elemOf w k a)) (F.input flush (elemOf w k b))
    else c.onOrd (compare (intVal w (intType t).2 (elemOf w k a)) (intVal w (intType t).2 (elemOf w k b)))

/-- p[pd][l]: the condition in the active lanes, 0 in the others (R114). -/
def State.vcmp (s : State) (sw : Bool) (p : BitVec 4) (a b : BitVec 8) (c : VCond) : Out :=
  s.using [s.useGuard, s.useV a.toNat, s.useV b.toNat]
    (s.resultP sw p.toNat (maskOf fun l => maskBit s.guard l
      && vcmpLane s.strand.etype s.strand.flush c (Lanes.get32 (s.vec a.toNat) l) (Lanes.get32 (s.vec b.toNat) l)))

/-- vcmp.eq (R114). -/
def execVcmpEq (sw : Bool) (p : BitVec 4) (a b : BitVec 8) (s : State) : Out :=
  s.vcmp sw p a b .eq

/-- vcmp.ne (R114). -/
def execVcmpNe (sw : Bool) (p : BitVec 4) (a b : BitVec 8) (s : State) : Out :=
  s.vcmp sw p a b .ne

/-- vcmp.lt (R114). -/
def execVcmpLt (sw : Bool) (p : BitVec 4) (a b : BitVec 8) (s : State) : Out :=
  s.vcmp sw p a b .lt

/-- vcmp.ge (R114). -/
def execVcmpGe (sw : Bool) (p : BitVec 4) (a b : BitVec 8) (s : State) : Out :=
  s.vcmp sw p a b .ge

/-- vcmp.le (R114). -/
def execVcmpLe (sw : Bool) (p : BitVec 4) (a b : BitVec 8) (s : State) : Out :=
  s.vcmp sw p a b .le

/-- vcmp.gt (R114). -/
def execVcmpGt (sw : Bool) (p : BitVec 4) (a b : BitVec 8) (s : State) : Out :=
  s.vcmp sw p a b .gt

/-- vcmp.ord (R114). -/
def execVcmpOrd (sw : Bool) (p : BitVec 4) (a b : BitVec 8) (s : State) : Out :=
  s.vcmp sw p a b .ord

/-- vcmp.unord (R114). -/
def execVcmpUnord (sw : Bool) (p : BitVec 4) (a b : BitVec 8) (s : State) : Out :=
  s.vcmp sw p a b .unord

/-- p[pd] := f(p[pa], p[pb]) on all 64 bits, without regard to the guard (R115). -/
def State.plog (s : State) (sw : Bool) (d a b : BitVec 4) (f : W64 → W64 → W64) : Out :=
  s.using [.p a.toNat, .p b.toNat] (s.resultP sw d.toNat (f (s.readP a.toNat) (s.readP b.toNat)))

/-- p[pd] := f(p[pa]) on all 64 bits (R115). -/
def State.plog1 (s : State) (sw : Bool) (d a : BitVec 4) (f : W64 → W64) : Out :=
  s.using [.p a.toNat] (s.resultP sw d.toNat (f (s.readP a.toNat)))

/-- plog.and (R115). -/
def execPlogAnd (sw : Bool) (d a b : BitVec 4) (s : State) : Out :=
  s.plog sw d a b (fun x y => x &&& y)

/-- plog.or (R115). -/
def execPlogOr (sw : Bool) (d a b : BitVec 4) (s : State) : Out :=
  s.plog sw d a b (fun x y => x ||| y)

/-- plog.xor (R115). -/
def execPlogXor (sw : Bool) (d a b : BitVec 4) (s : State) : Out :=
  s.plog sw d a b (fun x y => x ^^^ y)

/-- plog.andn (R115). -/
def execPlogAndn (sw : Bool) (d a b : BitVec 4) (s : State) : Out :=
  s.plog sw d a b (fun x y => x &&& ~~~y)

/-- plog.not (R115). -/
def execPlogNot (sw : Bool) (d a : BitVec 4) (s : State) : Out :=
  s.plog1 sw d a (fun x => ~~~x)

/-- plog.mov (R115). -/
def execPlogMov (sw : Bool) (d a : BitVec 4) (s : State) : Out :=
  s.plog1 sw d a (fun x => x)

/-- s[d] := f(m, g) of m = p[a] and g, g the guard predicate (R116). -/
def State.pred (s : State) (sw : Bool) (d a : BitVec 8) (f : W64 → W64 → W64) : Out :=
  s.using [s.useGuard, .p a.toNat] (s.resultS sw d.toNat (f (s.readP a.toNat &&& s.guard) s.guard))

/-- pred.popc (R116). -/
def execPredPopc (sw : Bool) (d a : BitVec 8) (s : State) : Out :=
  s.pred sw d a (fun m _ => BitVec.ofNat 64 (popCount 64 m.toNat))

/-- pred.any (R116). -/
def execPredAny (sw : Bool) (d a : BitVec 8) (s : State) : Out :=
  s.pred sw d a (fun m _ => if m = 0#64 then 0#64 else 1#64)

/-- pred.all (R116). -/
def execPredAll (sw : Bool) (d a : BitVec 8) (s : State) : Out :=
  s.pred sw d a (fun m g => if m = g then 1#64 else 0#64)

/-- pred.first (R116). -/
def execPredFirst (sw : Bool) (d a : BitVec 8) (s : State) : Out :=
  s.pred sw d a (fun m _ => BitVec.ofNat 64 (ctz 64 m.toNat))

/-- pred.mask (R116). -/
def execPredMask (sw : Bool) (d a : BitVec 8) (s : State) : Out :=
  s.pred sw d a (fun m _ => m)

end Sys2Proof.Machine
end

