-- ==== Sys2Proof/Machine/Float.lean ====
section
/-! DEFINITION. Floating-point instructions, conversions and special functions of the compute strand (R75, R81 to R84, R88
to R94, R117 to R122). -/

namespace Sys2Proof.Machine

/-- A float-class instruction of two operands, rounded once by the mode word (R117). -/
def State.vfloat (s : State) (sw : Bool) (d a b : BitVec 8) (f : Nat → Fp → Fp → Fp) : Out :=
  s.vv sw d a b (floatLane s.strand.etype s.strand.rmode s.strand.flush (f s.strand.rmode))

/-- fadd: round(a + b) (R117). -/
def execFadd (sw : Bool) (d a b : BitVec 8) (s : State) : Out :=
  s.vfloat sw d a b (fun m x y => Fp.add m x y)

/-- fsub: round(a − b) (R83, R117). -/
def execFsub (sw : Bool) (d a b : BitVec 8) (s : State) : Out :=
  s.vfloat sw d a b (fun m x y => Fp.sub m x y)

/-- fmul: round(a × b) (R117). -/
def execFmul (sw : Bool) (d a b : BitVec 8) (s : State) : Out :=
  s.vfloat sw d a b (fun _ x y => Fp.mul x y)

/-- round(a × b + d) of one lane, rounded once (R117). -/
def fmaLane (t mode : Nat) (flush : Bool) (a b d : W32) : W32 :=
  let F := floatType t
  packLane F.width fun k =>
    F.result mode flush (Fp.add mode (Fp.mul (F.input flush (elemOf F.width k a)) (F.input flush (elemOf F.width k b)))
      (F.input flush (elemOf F.width k d)))

/-- fma: round(a × b + d), the old destination read at issue (R117). -/
def execFma (sw : Bool) (d a b : BitVec 8) (s : State) : Out :=
  s.vvv sw d a b (fmaLane s.strand.etype s.strand.rmode s.strand.flush)

/-- fmin or fmax of two encodings: the chosen input as read (R118). -/
def minmaxElem (F : Fmt) (flush isMax : Bool) (x y : Nat) : Nat :=
  let a := F.flush flush x
  let b := F.flush flush y
  match F.val a, F.val b with
  | .nan, .nan => F.nanCode
  | .nan, _ => b
  | _, .nan => a
  | u, v => if (if isMax then Fp.less u v else Fp.less v u) then b else a

/-- The same on a lane; the flush bit acts under an integer type too. DEDUCED, unsafe (log entry 60). -/
def minmaxLane (t : Nat) (flush isMax : Bool) (a b : W32) : W32 :=
  let F := floatType t
  packLane F.width fun k => minmaxElem F flush isMax (elemOf F.width k a) (elemOf F.width k b)

/-- fmin (R118). -/
def execFmin (sw : Bool) (d a b : BitVec 8) (s : State) : Out :=
  s.vv sw d a b (minmaxLane s.strand.etype s.strand.flush false)

/-- fmax (R118). -/
def execFmax (sw : Bool) (d a b : BitVec 8) (s : State) : Out :=
  s.vv sw d a b (minmaxLane s.strand.etype s.strand.flush true)

/-- An element function of encodings in the float class's format; the flush bit acts under an integer type too.
DEDUCED, unsafe (log entry 60). -/
def fltLane1 (t : Nat) (f : Fmt → Nat → Nat) (a : W32) : W32 :=
  let F := floatType t
  packLane F.width fun k => f F (elemOf F.width k a)

/-- √ of an encoding, correctly rounded (R119). -/
def sqrtElem (mode : Nat) (flush : Bool) (F : Fmt) (x : Nat) : Nat := F.result mode flush (Fp.sqrt (F.input flush x))

/-- An encoding rounded to an integral value (R119). -/
def rintElem (mode : Nat) (flush : Bool) (F : Fmt) (x : Nat) : Nat :=
  match F.input flush x with
  | .fin neg m e => F.result mode flush (.fin neg (roundInt mode neg m e) 0)
  | v => F.result mode flush v

/-- fun.neg: the sign bit inverted (R119). -/
def execFunNeg (sw : Bool) (d a : BitVec 8) (s : State) : Out :=
  s.v1 sw d a (fltLane1 s.strand.etype fun F x => x ^^^ 2 ^ (F.width - 1))

/-- fun.abs: the sign bit cleared (R119). -/
def execFunAbs (sw : Bool) (d a : BitVec 8) (s : State) : Out :=
  s.v1 sw d a (fltLane1 s.strand.etype fun F x => x % 2 ^ (F.width - 1))

/-- fun.sqrt (R119). -/
def execFunSqrt (sw : Bool) (d a : BitVec 8) (s : State) : Out :=
  s.v1 sw d a (fltLane1 s.strand.etype (sqrtElem s.strand.rmode s.strand.flush))

/-- fun.rint (R119). -/
def execFunRint (sw : Bool) (d a : BitVec 8) (s : State) : Out :=
  s.v1 sw d a (fltLane1 s.strand.etype (rintElem s.strand.rmode s.strand.flush))

/-! ## Conversions (R88 to R94, R120) -/

/-- A float value to an integer type: rounded, out of range to the nearest limit, a NaN to 0 (R90). -/
def fpToInt (w : Nat) (sg : Bool) (mode : Nat) : Fp → Nat
  | .nan => 0
  | .inf neg => wrapInt w (if neg then intMin w sg else intMax w sg)
  | .fin neg m e =>
    let n : Int := (roundInt mode neg m e : Nat)
    clampInt w sg (if neg then -n else n)

/-- Convert one element from type `t` to type `u` (R88 to R92; the same type as R120 gives). -/
def cvtElem (t u mode : Nat) (sat flush : Bool) (x : Nat) : Nat :=
  match isFloatType t, isFloatType u with
  | true, true =>
    let F := floatType t
    let G := floatType u
    G.flush flush (G.round mode sat (F.input flush x))
  | true, false => fpToInt (typeWidth u) (intType u).2 mode ((floatType t).input flush x)
  | false, true =>
    let G := floatType u
    let n := intVal (typeWidth t) (intType t).2 x
    G.flush flush (G.round mode sat (.fin (decide (n < 0)) n.natAbs 0))
  | false, false => fitInt (typeWidth u) (intType u).2 sat (intVal (typeWidth t) (intType t).2 x)

/-- Convert a lane, elements paired by index; a target element without a source is 0 (R94). -/
def cvtLane (t u mode : Nat) (sat flush : Bool) (a : W32) : W32 :=
  packLane (typeWidth u) fun k =>
    if k < 32 / typeWidth t then cvtElem t u mode sat flush (elemOf (typeWidth t) k a) else 0

/-- cvt: from the mode word's type to the target type (R120). -/
def execCvt (sw : Bool) (d a t : BitVec 8) (s : State) : Out :=
  s.v1 sw d a (cvtLane s.strand.etype t.toNat s.strand.rmode s.strand.sat s.strand.flush)

/-! ## Special functions (R121, R122) -/

/-- A special function of an element: widened, evaluated, converted back (R121). -/
def sfuElem (mode : Nat) (flush : Bool) (f : W32 → W32) (F : Fmt) (x : Nat) : Nat :=
  let wide := BitVec.ofNat 32 (Fmt.b32.round 0 false (F.input flush x))
  F.flush flush (F.round mode false (Fmt.b32.input flush (f wide).toNat))

/-- A special function of a lane. -/
def State.sfu (s : State) (sw : Bool) (d a : BitVec 8) (f : W32 → W32) : Out :=
  s.v1 sw d a (fltLane1 s.strand.etype (sfuElem s.strand.rmode s.strand.flush f))

/-- sfu.sinpi (R121, R122). -/
def execSfuSinpi (sw : Bool) (d a : BitVec 8) (s : State) : Out :=
  s.sfu sw d a (sfuSinpi s.strand.rmode)

/-- sfu.cospi (R121, R122). -/
def execSfuCospi (sw : Bool) (d a : BitVec 8) (s : State) : Out :=
  s.sfu sw d a (sfuCospi s.strand.rmode)

/-- sfu.exp2 (R121, R122). -/
def execSfuExp2 (sw : Bool) (d a : BitVec 8) (s : State) : Out :=
  s.sfu sw d a sfuExp2

/-- sfu.log2 (R121, R122). -/
def execSfuLog2 (sw : Bool) (d a : BitVec 8) (s : State) : Out :=
  s.sfu sw d a sfuLog2

/-- sfu.rcp (R121, R122). -/
def execSfuRcp (sw : Bool) (d a : BitVec 8) (s : State) : Out :=
  s.sfu sw d a sfuRcp

/-- sfu.rsqrt (R121, R122). -/
def execSfuRsqrt (sw : Bool) (d a : BitVec 8) (s : State) : Out :=
  s.sfu sw d a sfuRsqrt

end Sys2Proof.Machine
end

