-- ==== Sys2Proof/Machine/Matrix.lean ====
section
/-! DEFINITION. The matrix sequencer: narrow formats, matrix instructions, their tile steps, and the mailbox registers
(R85 to R87, R93, R96, R131 to R156). -/

namespace Sys2Proof.Machine

/-! ## Narrow formats (R85 to R87, R93) -/

/-- The format of a descriptor word (R138). -/
def fmtOf (w : W32) : Fmt :=
  { sign := w.getLsbD 31, exp := (w.extractLsb' 27 4).toNat, man := (w.extractLsb' 23 4).toNat,
    bias := (w.extractLsb' 16 7).toNat, special := w.getLsbD 15, sub := w.getLsbD 14, convInf := w.getLsbD 13 }

/-- The slot width in bits: the smallest of 4, 8 and 16 that holds the element (R87). -/
def Fmt.slot (f : Fmt) : Nat := if f.width ≤ 4 then 4 else if f.width ≤ 8 then 8 else 16

/-- Convert a value into a narrow format (R93). DEDUCED, unsafe (log entry 45). -/
def Fmt.narrow (f : Fmt) (mode : Nat) (v : Fp) : Nat :=
  if f.exp = 0 then fpToInt f.width f.sign mode v
  else match v with
    | .nan => f.nanCode
    | .inf neg => if neg && !f.sign then 0 else if f.convInf then f.infOf neg else f.signed neg f.maxCode
    | .fin neg m e => if neg && !f.sign then 0 else f.round mode (!f.convInf) (.fin neg m e)

/-- What mdrain writes for a value: R93 for 4-bit and 8-bit slots, R88 and R89 for 16-bit ones (R148). -/
def Fmt.drain (f : Fmt) (mode : Nat) (v : Fp) : Nat :=
  if f.slot = 16 then f.round mode (!f.convInf) v else f.narrow mode v

/-- An exact product of two operands; the sign of a zero product counts an integer operand as positive (R96). -/
def matMul (f g : Fmt) (x y : Nat) : Fp :=
  let a := f.val x
  let b := g.val y
  match Fp.mul a b with
  | .fin s m e =>
    if m = 0 then
      .fin ((f.exp != 0 && f.sign && x.testBit (f.exp + f.man)) != (g.exp != 0 && g.sign && y.testBit (g.exp + g.man))) 0 0
    else .fin s m e
  | v => v

/-- The exact sum of products, in which a sum of zeros of one sign keeps it (R96). -/
def matSum : List Fp → Option Fp
  | [] => none
  | p :: ps => some (ps.foldl (fun acc q => Fp.add 0 acc q) p)

/-- An accumulator element plus a partial sum, rounded once to nearest even (R96). -/
def accAdd (acc : W32) (p : Fp) : W32 := BitVec.ofNat 32 (Fmt.b32.round 0 false (Fp.add 0 (Fmt.b32.val acc.toNat) p))

/-! ## Creel access by record (R140) -/

/-- The byte at a creel offset of a cluster. -/
def State.creelByte (s : State) (c off : Nat) : Nat := (Mem.read s.creel (c * Config.creelBytes + off)).toNat
/-- The creel word at an offset is marked poisoned. -/
def State.creelBad (s : State) (c off : Nat) : Bool := SMap.get false s.creelPoison ((c * Config.creelBytes + off) / 4)

/-- Element `e` of a row, in slots of `slot` bits (R87, R140). -/
def State.rowElem (s : State) (c : Nat) (r : Shape) (row slot e : Nat) : Nat :=
  match slot with
  | 4 => s.creelByte c (r.offset row (e / 2)) / 16 ^ (e % 2) % 16
  | 8 => s.creelByte c (r.offset row e)
  | 16 => s.creelByte c (r.offset row (2 * e)) + 256 * s.creelByte c (r.offset row (2 * e + 1))
  | _ => (List.range 4).foldl (fun acc i => acc + s.creelByte c (r.offset row (4 * e + i)) * 256 ^ i) 0

/-- The 32-byte granules that hold inner bytes `k` to `k + n − 1` of a row, as creel offsets (R140, R141). -/
def Shape.granules (r : Shape) (row k n : Nat) : List Nat :=
  if n = 0 then [] else
    let l := r.base + row / 64 * r.tilepitch + row % 64 * r.rowpitch + k
    (List.range ((l + n - 1) / 32 - l / 32 + 1)).map fun i =>
      (l / 32 + i) * 32 - bitsOf ((l / 32 + i) * 32) 9 5 * 32 + (bitsOf ((l / 32 + i) * 32) 9 5 ^^^ (row % 64 &&& rotMask r.rot)) * 32

/-- Some byte among inner bytes `k` to `k + n − 1` of a row is poisoned. -/
def State.rowBad (s : State) (c : Nat) (r : Shape) (row k n : Nat) : Bool :=
  (List.range n).any fun i => s.creelBad c (r.offset row (k + i))

/-- Every creel byte of a record lies in an allotment, whose ends are multiples of 128 (check 5 of R152). -/
def Shape.inside (r : Shape) (off len : Nat) : Bool :=
  (List.range r.rows).all fun row => (r.granules row 0 r.inner).all fun g => decide (off ≤ g) && decide (g + 32 ≤ off + len)

/-- The 128-byte lines of a record (R144). -/
def Shape.lines (r : Shape) : List Nat := (List.range r.rows).flatMap fun row => (r.granules row 0 r.inner).map (· / 128)

/-- Row chunks of 64 (R146). -/
def Shape.chunks (r : Shape) : Nat := (r.rows + 63) / 64

/-! ## Matrix instructions in flight -/

/-- The records of an instruction in flight. -/
def MatOp.shapeA (o : MatOp) : Shape := shapeOf o.recA.1 o.recA.2
/-- The second record of an mmul. -/
def MatOp.shapeB (o : MatOp) : Shape := shapeOf o.recB.1 o.recB.2

/-- The execution unit: 0 array, 1 tile mover, 2 scaler (R133). -/
def MatOp.unit (o : MatOp) : Nat :=
  match o.op with
  | 0 => 0
  | 4 => 2
  | _ => 1

/-- The number of tiles that the instruction steps over. -/
def MatOp.tiles (o : MatOp) : Nat :=
  match o.op with
  | 0 => o.shapeA.chunks * o.shapeB.chunks
  | 1 => o.a + 1 - o.d
  | 2 => o.shapeA.chunks
  | 3 => o.shapeA.chunks
  | _ => 1

/-- The blocks of one tile: those of the inner length for mmul, one step for the others (R142). -/
def MatOp.blocks (o : MatOp) : Nat := if o.op = 0 then (o.shapeA.inner + 95) / 96 else 1

/-- Tiles that the instruction still reads or writes (R143). -/
def MatOp.left (o : MatOp) : List Nat := (List.range o.tiles).filterMap fun i => if o.tile ≤ i then some (o.d + i) else none
/-- Tiles it still writes. -/
def MatOp.writesLeft (o : MatOp) : List Nat := if o.op = 3 then [] else o.left
/-- Tiles it still reads. -/
def MatOp.readsLeft (o : MatOp) : List Nat :=
  match o.op with
  | 0 => o.left
  | 3 => o.left
  | 4 => [o.a, o.d]
  | _ => []

/-- The creel lines the instruction reads (R144). -/
def MatOp.lineReads (o : MatOp) : List Nat :=
  match o.op with
  | 0 => o.shapeA.lines ++ o.shapeB.lines
  | 2 => o.shapeA.lines
  | 4 => [o.recA.1.toNat, o.recA.2.toNat].flatMap fun a => (List.range 3).map fun i => a / 128 + i
  | _ => []
/-- The creel lines it writes. -/
def MatOp.lineWrites (o : MatOp) : List Nat := if o.op = 3 then o.shapeA.lines else []

/-- Two lists have a common element. -/
def meet (xs ys : List Nat) : Bool := xs.any ys.contains

/-- The next step of `y` must wait for the earlier `x` (R143, R144); any other two may overtake each other, those of one unit too (R145). -/
def MatOp.mustWait (x y : MatOp) : Bool :=
  let t := if y.op = 4 then [y.a, y.d] else [y.d + y.tile]
  let yw := if y.op = 3 then [] else if y.op = 4 then [y.d] else t
  meet x.writesLeft t || meet (x.readsLeft ++ x.writesLeft) yw
    || meet x.lineWrites (y.lineReads ++ y.lineWrites) || meet x.lineReads y.lineWrites

/-! ## Issue (R146 to R152) -/

/-- Entries of one execution unit's instruction queue (R133). -/
def unitQueue : Nat := 8

/-- The creel allotment of the sequencer's owner (check 5 of R152). -/
def State.ownerCreel (s : State) : Nat × Nat :=
  let u := s.unit s.curUnit
  (u.creelOff, u.creelBytes)

/-- A base or pitch of a record breaks check 1. -/
def Shape.badLimit (r : Shape) : Bool := !r.zeros || r.base % 32 != 0 || r.rowpitch % 32 != 0 || r.tilepitch % 32 != 0

/-- The first issue check that fails, as a trap cause (R152). -/
def State.matCheck (s : State) (o : MatOp) : Option Nat :=
  let q := (s.cluster s.curCluster).seq
  let (off, len) := s.ownerCreel
  let rA := o.shapeA
  let rB := o.shapeB
  let raw := o.code = 8
  let FA := fmtOf o.fmtA
  let FB := fmtOf o.fmtB
  match o.op with
  | 0 =>
    if rA.badLimit || rB.badLimit then some 0x10
    else if (FA.slot == 16 && rA.inner % 2 != 0) || (FB.slot == 16 && rB.inner % 2 != 0) then some 0x10
    else if rA.inner != rB.inner || FA.slot != FB.slot then some 0x11
    else if q.tiles < o.d + o.tiles then some 0x12
    else if !(rA.inside off len && rB.inside off len) then some 0x08
    else if !(fmtWordOk o.fmtA && fmtWordOk o.fmtB) then some 0x14
    else none
  | 1 => if q.tiles ≤ o.a then some 0x12 else none
  | 4 =>
    if q.tiles ≤ o.d ∨ q.tiles ≤ o.a then some 0x12
    else if !([o.recA.1.toNat, o.recA.2.toNat] : List Nat).all fun a => decide (off ≤ a) && decide (a + 256 ≤ off + len) then some 0x08
    else none
  | _ =>
    let slot := if raw then 32 else FA.slot
    if rA.badLimit then some 0x10
    else if (slot == 16 && rA.inner % 2 != 0) || (slot == 32 && rA.inner % 4 != 0) || decide (64 < rA.inner * 8 / slot) then
      some 0x10
    else if q.tiles < o.d + o.tiles then some 0x12
    else if !rA.inside off len then some 0x08
    else if !raw && !fmtWordOk o.fmtA then some 0x14
    else none

/-- Issue a matrix instruction: its checks with the trap values of R352 (R152), then into its unit's queue, blocking while that is full (R133). -/
def State.matIssue (s : State) (sw : Bool) (o : MatOp) : Out :=
  match s.matCheck o with
  | some c => .next (if c = 0x08 then s.trapAddr c 0 0#64 0 else s.trapHere c (zext64 o.word))
  | none =>
    if unitQueue ≤ ((s.cluster s.curCluster).seq.flight.filter fun x => x.unit == o.unit).length then s.stand
    else .next ((s.updSeq s.curCluster fun q => { q with flight := q.flight ++ [o] }).retire sw)

/-- The pair of scalar registers from an even one (R11). -/
def State.readPair (s : State) (r : BitVec 8) : W64 × W64 := (s.readS r.toNat, s.readS (r.toNat + 1))
/-- The uses of a pair. -/
def usePair (r : BitVec 8) : List Use := [.s r.toNat, .s (r.toNat + 1)]
/-- The descriptor that a record's fmt field names, copied at issue (R138). -/
def State.fmtReg (s : State) (rec : W64 × W64) : W32 :=
  SMap.get 0xC3FFE000#32 (s.cluster s.curCluster).seq.f (shapeOf rec.1 rec.2).fmt

/-- The instruction word, as trap.info and the saved record hold it (R152, R153). -/
def wordOf (i : Instr) : W32 := (encode i).getD 0#32

/-- A record of no instruction. -/
def MatOp.none : MatOp :=
  { op := 0, word := 0#32, addr := 0#64, d := 0, a := 0, code := 0, recA := (0#64, 0#64), recB := (0#64, 0#64), fmtA := 0#32,
    fmtB := 0#32, tile := 0, block := 0, bad := false }

/-- mmul: the product of two operands into tiles (R146). -/
def execMmul (sw : Bool) (d a b : BitVec 8) (s : State) : Out :=
  s.using (usePair a ++ usePair b)
    (let rA := s.readPair a
     let rB := s.readPair b
     s.matIssue sw { MatOp.none with op := 0, word := wordOf (.mmul sw d a b), addr := s.strand.pc, d := d.toNat,
                                     recA := rA, recB := rB, fmtA := s.fmtReg rA, fmtB := s.fmtReg rB })

/-- mzero: tiles d to a to +0 (R147). -/
def execMzero (sw : Bool) (d a : BitVec 8) (s : State) : Out :=
  s.matIssue sw { MatOp.none with op := 1, word := wordOf (.mzero sw d a), addr := s.strand.pc, d := d.toNat, a := a.toNat }

/-- mfill: tile rows from the creel (R148). -/
def execMfill (sw : Bool) (d a c : BitVec 8) (s : State) : Out :=
  s.using (usePair a)
    (let rA := s.readPair a
     s.matIssue sw { MatOp.none with op := 2, word := wordOf (.mfill sw d a c), addr := s.strand.pc, d := d.toNat,
                                     code := c.toNat, recA := rA, fmtA := s.fmtReg rA })

/-- mdrain: tile rows to the creel (R148). -/
def execMdrain (sw : Bool) (d a c : BitVec 8) (s : State) : Out :=
  s.using (usePair a)
    (let rA := s.readPair a
     s.matIssue sw { MatOp.none with op := 3, word := wordOf (.mdrain sw d a c), addr := s.strand.pc, d := d.toNat,
                                     code := c.toNat, recA := rA, fmtA := s.fmtReg rA })

/-- mfmt: load a format register with a valid descriptor, else the format-limit trap (R149). -/
def execMfmt (sw : Bool) (d a : BitVec 8) (s : State) : Out :=
  s.using [.s a.toNat]
    (let w : W32 := (s.readS a.toNat).setWidth 32
     if fmtWordOk w then .next ((s.updSeq s.curCluster fun q => { q with f := SMap.put d.toNat w q.f }).retire sw)
     else .next (s.trapHere 0x14 (zext64 (wordOf (.mfmt sw d a)))))

/-- msacc: a doubly scaled tile into another (R150). -/
def execMsacc (sw : Bool) (d a b : BitVec 8) (s : State) : Out :=
  s.using (usePair b)
    (s.matIssue sw { MatOp.none with op := 4, word := wordOf (.msacc sw d a b), addr := s.strand.pc, d := d.toNat,
                                     a := a.toNat, recA := s.readPair b })

/-! ## Tile steps (R142 to R150, R153, R156) -/

/-- Key of element (m, n) of tile t. -/
def accKey (t m n : Nat) : Nat := 4096 * t + 64 * m + n

/-- What a tile step reads is poisoned: 6 for creel, 7 for accumulator, and 6 where both are (R156). DESIGN CHOICE, unsafe (log entry 59). -/
def State.stepPoison (s : State) (c : Nat) (o : MatOp) : Option Nat :=
  let q := (s.cluster c).seq
  let rA := o.shapeA
  let rB := o.shapeB
  let bad := fun t m n => SMap.get false q.accPoison (accKey t m n)
  match o.op with
  | 0 =>
    let i := o.tile / rB.chunks
    let j := o.tile % rB.chunks
    let ma := min 64 (rA.rows - 64 * i)
    let nb := min 64 (rB.rows - 64 * j)
    let k := 96 * o.block
    let len := min 96 (rA.inner - k)
    if ((List.range ma).any fun m => s.rowBad c rA (64 * i + m) k len) || ((List.range nb).any fun n => s.rowBad c rB (64 * j + n) k len) then
      some 6
    else if (List.range ma).any fun m => (List.range nb).any fun n => bad (o.d + o.tile) m n then some 7 else none
  | 2 =>
    if (List.range (min 64 (rA.rows - 64 * o.tile))).any fun m => s.rowBad c rA (64 * o.tile + m) 0 rA.inner then some 6 else none
  | 3 =>
    let slot := if o.code = 8 then 32 else (fmtOf o.fmtA).slot
    if (List.range (min 64 (rA.rows - 64 * o.tile))).any fun m =>
      (List.range (rA.inner * 8 / slot)).any fun n => bad (o.d + o.tile) m n then some 7 else none
  | 4 =>
    if [o.recA.1.toNat, o.recA.2.toNat].any fun a => (List.range 256).any fun i => s.creelBad c (a + i) then some 6
    else if (List.range 64).any fun m => (List.range 64).any fun n => bad o.a m n || bad o.d m n then some 7 else none
  | _ => none

/-- Write accumulator elements, clearing their marks (R365). -/
def Seq.putAcc (q : Seq) : List (Nat × W32) → Seq
  | [] => q
  | e :: es => ({ q with acc := SMap.put e.1 e.2 q.acc, accPoison := SMap.del q.accPoison e.1 } : Seq).putAcc es

/-- The elements that one block of an mmul writes (R146). -/
def State.mmulBlock (s : State) (c : Nat) (o : MatOp) : List (Nat × W32) :=
  let q := (s.cluster c).seq
  let rA := o.shapeA
  let rB := o.shapeB
  let FA := fmtOf o.fmtA
  let FB := fmtOf o.fmtB
  let i := o.tile / rB.chunks
  let j := o.tile % rB.chunks
  let e0 := o.block * (768 / FA.slot)
  let e1 := min (rA.inner * 8 / FA.slot) ((o.block + 1) * (768 / FA.slot))
  (List.range (min 64 (rA.rows - 64 * i))).flatMap fun m =>
    let as := (List.range (e1 - e0)).map fun e => s.rowElem c rA (64 * i + m) FA.slot (e0 + e)
    (List.range (min 64 (rB.rows - 64 * j))).map fun n =>
      let key := accKey (o.d + o.tile) m n
      let ps := (List.range (e1 - e0)).map fun e =>
        matMul FA FB (as.getD e 0) (s.rowElem c rB (64 * j + n) FB.slot (e0 + e))
      (key, match matSum ps with
        | none => SMap.get 0#32 q.acc key
        | some p => accAdd (SMap.get 0#32 q.acc key) p)

/-- The elements that one tile step of an mfill writes (R148). -/
def State.fillTile (s : State) (c : Nat) (o : MatOp) : List (Nat × W32) :=
  let r := o.shapeA
  let F := fmtOf o.fmtA
  let slot := if o.code = 8 then 32 else F.slot
  (List.range (min 64 (r.rows - 64 * o.tile))).flatMap fun m =>
    (List.range (r.inner * 8 / slot)).map fun n =>
      let x := s.rowElem c r (64 * o.tile + m) slot n
      (accKey (o.d + o.tile) m n, if o.code = 8 then BitVec.ofNat 32 x else BitVec.ofNat 32 (Fmt.b32.round 0 false (F.val x)))

/-- The rounding mode of an mdrain code (R148). -/
def drainMode (code : Nat) : Nat := code

/-- The creel bytes, by location, that one tile step of an mdrain writes (R148). -/
def State.drainTile (s : State) (c : Nat) (o : MatOp) : List (Nat × Byte) :=
  let q := (s.cluster c).seq
  let r := o.shapeA
  let F := fmtOf o.fmtA
  let slot := if o.code = 8 then 32 else F.slot
  let elem := fun m n =>
    let x := SMap.get 0#32 q.acc (accKey (o.d + o.tile) m n)
    if o.code = 8 then x.toNat else F.drain (drainMode o.code) (Fmt.b32.val x.toNat)
  (List.range (min 64 (r.rows - 64 * o.tile))).flatMap fun m =>
    (List.range r.inner).map fun k =>
      let byte := match slot with
        | 4 => elem m (2 * k) + 16 * elem m (2 * k + 1)
        | 8 => elem m k
        | 16 => elem m (k / 2) / 256 ^ (k % 2) % 256
        | _ => elem m (k / 4) / 256 ^ (k % 4) % 256
      (locOfCreel c (r.offset (64 * o.tile + m) k), BitVec.ofNat 8 byte)

/-- The binary32 value of scale `i` at a creel offset. -/
def State.scale (s : State) (c off i : Nat) : Fp :=
  Fmt.b32.val ((List.range 4).foldl (fun acc k => acc + s.creelByte c (off + 4 * i + k) * 256 ^ k) 0)

/-- The elements that an msacc writes (R150). -/
def State.scaleTile (s : State) (c : Nat) (o : MatOp) : List (Nat × W32) :=
  let q := (s.cluster c).seq
  (List.range 64).flatMap fun m => (List.range 64).map fun n =>
    let x := Fmt.b32.val (SMap.get 0#32 q.acc (accKey o.a m n)).toNat
    let p := Fp.mul (Fp.mul x (s.scale c o.recA.1.toNat m)) (s.scale c o.recA.2.toNat n)
    (accKey o.d m n, accAdd (SMap.get 0#32 q.acc (accKey o.d m n)) p)

/-- The instruction after a step: the next block, or the next tile, or none when it has finished. -/
def MatOp.advance (o : MatOp) : Option MatOp :=
  if o.block + 1 < o.blocks then some { o with block := o.block + 1 }
  else if o.tile + 1 < o.tiles then some { o with tile := o.tile + 1, block := 0 }
  else none

/-- Put the advanced instruction back at its place in flight, or take it out. -/
def Seq.advance (q : Seq) (idx : Nat) (o : MatOp) : Seq :=
  { q with flight := match o.advance with
      | some o' => q.flight.set idx o'
      | none => q.flight.eraseIdx idx }

/-- Perform the step at which an instruction stands. -/
def State.matStep (s : State) (c : Nat) (o : MatOp) : State :=
  match o.op with
  | 0 => if o.blocks = 0 then s else s.updSeq c fun q => q.putAcc (s.mmulBlock c o)
  | 1 => s.updSeq c fun q => q.putAcc ((List.range 4096).map fun i => (4096 * (o.d + o.tile) + i, 0#32))
  | 2 => s.updSeq c fun q => q.putAcc (s.fillTile c o)
  | 3 => s.perform (2 ^ 41 + c) [] (s.drainTile c o)
  | _ => s.updSeq c fun q => q.putAcc (s.scaleTile c o)

/-- The sequencer of a cluster has an owner in place (R131). -/
def State.seqPlaced (s : State) (c : Nat) : Bool :=
  let q := (s.cluster c).seq
  q.owner != 0 && (s.unit q.owner).life == .resident

/-- The instructions in flight on a cluster may step: poison has not stopped them. They stay stopped until the handler that was entered
for it returns, or the unit is restored (R153, R154, R156), and those that the handler issues are stopped with them. DESIGN CHOICE,
unsafe (log entry 59). -/
def State.seqRuns (s : State) (c : Nat) : Bool := s.seqPlaced c && !(s.cluster c).seq.stoppedOn

/-- The first record in flight that has failed its check, which traps once the strand is outside a handler (R373). -/
def Seq.badRecord (q : Seq) : Option MatOp := if q.strand.csr.inHandler then none else q.flight.find? fun o => o.bad

/-- The trap of met poison is on its way, or its handler runs (R156). -/
def Strand.poisonMet (t : Strand) : Bool :=
  t.pendTrap.isSome || (t.csr.inHandler && t.csr.cause == 0x0A#8 && decide (6 ≤ t.csr.info.toNat / 65536 % 16))

/-- TILE_STEP: the next step of instruction `idx` in flight on a cluster, where the scoreboard and the creel-line order allow it; poison
stops the sequencer with its trap (R143 to R145, R156). Instructions that a restore has resumed while the handler of their poison runs
stop again where the poison still stands, and trap again once it has returned. DESIGN CHOICE, unsafe (log entry 59). -/
def execTileStep (cluster idx : Nat) (s : State) : Out :=
  let q := (s.cluster cluster).seq
  match q.flight[idx]? with
  | none => .next s
  | some o =>
    if !s.seqRuns cluster || o.bad || (q.flight.take idx).any fun x => x.mustWait o then .next s
    else if o.blocks = 0 then .next (s.updSeq cluster fun q => { q with flight := q.flight.eraseIdx idx })
    else match s.stepPoison cluster o with
      | some file =>
        let s := { s.updSeq cluster fun q => { q with stoppedOn := true } with cur := ⟨32 * cluster, .seq⟩ }
        if q.strand.poisonMet then .next s else
        let block := if o.op = 0 then o.block else 0
        .next (s.trapAddr 0x0A (file * 65536 + (o.d + o.tile) * 256 + block * 2 ^ 32) o.addr 0)
      | none =>
        let s' := (s.matStep cluster o).updSeq cluster fun q => q.advance idx o
        .next (if o.op = 0 then s'.bump (s.cluster cluster).part (dieOfCluster cluster) 0x03 1 else s')

/-! ## Mailbox registers (R134 to R137) -/

/-- The lowest slot whose command queue holds a word. -/
def Seq.firstCmd (q : Seq) : Option Nat := (List.range 32).find? fun k => !(SMap.get [] q.cmdQ k).isEmpty

/-- A read of seq.mbox: pop a word of the client's command queue, choosing the client where there is none; blocks while it
is empty (R135). It reads seq.client, as the other two do (R363). -/
def execSeqMbox (sw : Bool) (r : BitVec 6) (s : State) : Out :=
  s.using [.ctl 0x1C2] <|
  let q := (s.cluster s.curCluster).seq
  let slot := if q.client = 0xFF#8 then q.firstCmd else some q.client.toNat
  match slot with
  | none => s.stand
  | some k =>
    match SMap.get [] q.cmdQ k with
    | [] => s.stand
    | e :: rest =>
      let s := s.updSeq s.curCluster fun q => { q with cmdQ := SMap.put k rest q.cmdQ, client := BitVec.ofNat 8 k }
      if e.parityBad then .next (s.trapParity none) else s.resultS sw r.toNat e.val

/-- A write of seq.post: waits for the matrix instructions before it, then pushes to the client's completion queue, or is
discarded without a client (R136). -/
def execSeqPost (sw : Bool) (r : BitVec 6) (s : State) : Out :=
  s.using [.s r.toNat, .ctl 0x1C2]
    (let q := (s.cluster s.curCluster).seq
     if !q.flight.isEmpty then s.stand
     else match s.clientSlot s.curCluster with
       | none => s.done sw
       | some k =>
         let done := SMap.get [] q.doneQ (k % 32)
         if Config.queueDepth ≤ done.length then s.stand
         else (s.updSeq s.curCluster fun q =>
           { q with doneQ := SMap.put (k % 32) (done ++ [⟨s.readS r.toNat, false, s.now⟩]) q.doneQ }).done sw)

/-- The client that a write of seq.client stores: 32 to 254 as none (R135). -/
def storeClient (x : W64) : BitVec 8 := let n := x.extractLsb' 0 8; if 31 < n.toNat then 0xFF#8 else n

/-- A csr instruction on seq.client (R134, R135). -/
def execSeqClient (sw : Bool) (o : CsrOp) (r : BitVec 6) (s : State) : Out :=
  s.using (if o = .write then [.s r.toNat] else [.s r.toNat, .ctl 0x1C2])
    (((s.updSeq s.curCluster fun q =>
      { q with client := storeClient (csrApply o (zext64 q.client) (s.readS r.toNat)) }).updStrand fun t => t.clearCtl 0x1C2).done sw)

end Sys2Proof.Machine
end

