-- ==== Sys2Proof/Machine/Queues.lean ====
section
/-! DEFINITION. Queue moves of both strands (R12 to R15, R129, R135 to R137, R164, R197, R198, R227, R364). -/

namespace Sys2Proof.Machine

/-! ## The compute strand (R129) -/

/-- Take the head of lq queue `q` of the current wave. -/
def State.popLq (s : State) (q : Nat) : State :=
  s.updWave s.cur.wave fun w => { w with lq := SMap.upd [] q List.tail w.lq }

/-- cq.vpop: the head entry of lq[a], once its load has filled it; marks are carried along (R129, R189, R364). An empty queue blocks before
a poisoned guard traps, and the guard traps before an entry that fails parity is consumed. DESIGN CHOICE, unsafe (log entry 58). -/
def execCqVpop (sw : Bool) (d a : BitVec 8) (s : State) : Out :=
  match s.lq a.toNat with
  | [] => s.stand
  | e :: _ =>
    if e.missing ≠ 0 then s.stand
    else s.using [s.useGuard]
      (let s' := s.popLq a.toNat
       if e.parityBad ≠ 0#64 then .next (s'.trapParity (some a.toNat))
       else .next ((s'.writeVP (s.strand.phys d.toNat) (s.guard &&& e.valid) e.poison (Lanes.get32 e.data)).retire sw))

/-- cq.vpush: the active lanes of v[a] with their marks go into a new entry of wq[d] (R129, R364). -/
def execCqVpush (sw : Bool) (d a : BitVec 8) (s : State) : Out :=
  if Config.queueDepth ≤ (s.wq d.toNat).length then s.stand
  else s.using [s.useGuard]
    (let g := s.guard
     let v := s.readVM (s.strand.phys a.toNat)
     let e : VEntry := { data := Lanes.ofFn (fun l => if maskBit g l then Lanes.get32 v.1 l else 0#32), valid := g,
                         poison := v.2 &&& g, parityBad := 0#64, tag := 0, missing := 0 }
     (s.updWave s.cur.wave fun w => { w with wq := SMap.upd [] d.toNat (fun es => es ++ [e]) w.wq }).done sw)

/-- cq.hpop: s[d] := the head of hq0 (R129). -/
def execCqHpop (sw : Bool) (d : BitVec 8) (s : State) : Out :=
  match s.curWave.hq0 with
  | [] => s.stand
  | e :: rest =>
    let s := s.updWave s.cur.wave fun w => { w with hq0 := rest }
    if e.parityBad then .next (s.trapParity none) else s.resultS sw d.toNat e.val

/-- cq.hpush: s[a] into hq1 (R129); a poisoned s[a] traps whether or not the queue is full. DESIGN CHOICE, unsafe (log entry 58). -/
def execCqHpush (sw : Bool) (a : BitVec 8) (s : State) : Out :=
  s.using [.s a.toNat]
    (if Config.queueDepth ≤ s.curWave.hq1.length then s.stand
     else (s.updWave s.cur.wave fun w => { w with hq1 := w.hq1 ++ [⟨s.readS a.toNat, false, 0⟩] }).done sw)

/-! ## The access strand (R197) -/

/-- aq.hpush: s[a] into hq0. -/
def execAqHpush (sw : Bool) (a : BitVec 8) (s : State) : Out :=
  s.using [.s a.toNat]
    (if Config.queueDepth ≤ s.curWave.hq0.length then s.stand
     else (s.updWave s.cur.wave fun w => { w with hq0 := w.hq0 ++ [⟨s.readS a.toNat, false, 0⟩] }).done sw)

/-- aq.hpop: s[d] := the head of hq1. -/
def execAqHpop (sw : Bool) (d : BitVec 8) (s : State) : Out :=
  match s.curWave.hq1 with
  | [] => s.stand
  | e :: rest =>
    let s := s.updWave s.cur.wave fun w => { w with hq1 := rest }
    if e.parityBad then .next (s.trapParity none) else s.resultS sw d.toNat e.val

/-- aq.xpop and aq.xpops: the head entry of wq[a], its lanes extended by `ext`. -/
def State.xpop (s : State) (sw : Bool) (d a : Nat) (ext : W32 → W64) : Out :=
  match s.wq a with
  | [] => s.stand
  | e :: _ => s.using [s.useGuard]
      (let s' := s.popWq a
       if e.parityBad ≠ 0#64 then .next (s'.trapParity (some (a + 8)))
       else .next ((s'.writeXP d (s.guard &&& e.valid) e.poison fun l => ext (Lanes.get32 e.data l)).retire sw))

/-- aq.xpop (R197). -/
def execAqXpop (sw : Bool) (d a : BitVec 8) (s : State) : Out := s.xpop sw d.toNat a.toNat zext64
/-- aq.xpops (R197). -/
def execAqXpops (sw : Bool) (d a : BitVec 8) (s : State) : Out := s.xpop sw d.toNat a.toNat sext64

/-! ## Engine queues -/

/-- A store of the current access strand is in flight. -/
def State.storesOut (s : State) : Bool :=
  s.flight.any fun e => e.2.unit == s.curUnit && e.2.idx == s.curWave.pos && e.2.kind == .store

/-- The words in the queue of engine 4 end at a command's end: TOL has an operand word (R179). -/
def tolEnds : List W64 → Bool
  | [] => true
  | [x] => bitsOf x.toNat 63 56 != 2
  | x :: y :: rest => if bitsOf x.toNat 63 56 = 2 then tolEnds rest else tolEnds (y :: rest)

/-- In a scout task, pushing `x` to engine queue `e` must wait for the verdict (R164): every command but a tolerance read, a mailbox word,
and a copy whose destination is the unit's own creel; a word that completes no command proceeds. The operand word of a tolerance
command completes it. -/
def State.pushWaits (s : State) (e : Nat) (x : W64) : Bool :=
  s.isScout &&
    (match e with
     | 4 => !tolEnds ((SMap.get [] s.curWave.eqCmd 4).map QEntry.val) || bitsOf x.toNat 63 56 == 2
     | 6 => false
     | _ =>
       if e < 2 then
         match s.formCmd s.curUnit e (s.curWave.loose e ++ [x]) with
         | none => false
         | some c => e == 1 || c.refusal.isSome || c.dk != 1 || bitsOf c.dst 25 22 != 0
       else true)

/-- A push to the mailbox by a wave of the sequencer's owner; another wave's is discarded (R135 to R137). -/
def State.pushMail (s : State) (sw : Bool) (x : W64) : Out :=
  let q := (s.cluster s.curCluster).seq
  let k := s.cur.wave % 32
  if q.owner ≠ s.curUnit then s.done sw
  else if Config.queueDepth ≤ (SMap.get [] q.cmdQ k).length || s.storesOut then s.stand
  else (s.updSeq s.curCluster fun q => { q with cmdQ := SMap.upd [] k (fun l => l ++ [⟨x, false, 0⟩]) q.cmdQ }).done sw

/-- aq.eqw: push s[a] to the command queue of engine d; to the copy, gather and mask engines and the mailbox once the
strand's earlier stores are performed (R137, R197, R198, R320). -/
def execAqEqw (sw : Bool) (d a : BitVec 8) (s : State) : Out :=
  s.using [.s a.toNat]
    (let e := d.toNat
     let x := s.readS a.toNat
     if e = 6 then s.pushMail sw x
     else if Config.queueDepth ≤ (SMap.get [] s.curWave.eqCmd e).length || s.pushWaits e x || ((decide (e < 2) || e == 3) && s.storesOut) then s.stand
     else
       let s := s.updWave s.cur.wave fun w => { w with eqCmd := SMap.upd [] e (fun q => q ++ [⟨x, false, 0⟩]) w.eqCmd }
       (if e < 2 then s.pushed s.curWave.who e else s).done sw)

/-- A pop from the mailbox by a wave of the owner: creel writes of the matrix instructions that the post waited for become
visible; another wave reads all ones (R136, R137). -/
def State.popMail (s : State) (sw : Bool) (d : Nat) : Out :=
  let q := (s.cluster s.curCluster).seq
  let k := s.cur.wave % 32
  if q.owner ≠ s.curUnit then s.resultS sw d (BitVec.allOnes 64)
  else match SMap.get [] q.doneQ k with
    | [] => s.stand
    | e :: rest =>
      let s := s.updSeq s.curCluster fun q => { q with doneQ := SMap.put k rest q.doneQ }
      if e.parityBad then .next (s.trapParity none)
      else
        let seen := s.hist.filter fun r => r.who == 2 ^ 41 + s.curCluster && decide (r.time ≤ e.tag)
        (s.noteVis s.curUnit s.curWave.pos s.strand.seqNo (ownWrites seen (2 ^ 41 + s.curCluster))).resultS sw d e.val

/-- aq.eqr: s[d] := a completion of engine a; the writes of the command that it completes count as the strand's own from
here on (R197, R227). They carry its releases, so that the pop waits as a write of its own would (R230). DEDUCED, unsafe (log entry 64). -/
def execAqEqr (sw : Bool) (d a : BitVec 8) (s : State) : Out :=
  let e := a.toNat
  if e = 6 then s.popMail sw d.toNat
  else match SMap.get [] s.curWave.eqDone e with
    | [] => s.stand
    | x :: rest =>
      let t := s.updWave s.cur.wave fun w => { w with eqDone := SMap.put e rest w.eqDone }
      if x.parityBad then .next (t.trapParity none)
      else if x.tag ≠ 0 && s.relsOut then s.stand
      else
        let s := t
        let s := if x.tag = 0 then s else s.adopt s.curWave.who [2 ^ 40 + x.tag, 2 ^ 44 + x.tag] fun _ => true
        s.resultS sw d.toNat x.val

end Sys2Proof.Machine
end

