-- ==== Sys2Proof/Machine/Sync.lean ====
section
/-! DEFINITION. The sync instructions: acquire, release, fence and gang barrier (R217 to R222, R230, R231). -/

namespace Sys2Proof.Machine

/-- The object that a sync word names: one of the space's pages' objects, or the creel object (R230). -/
def State.syncObj (s : State) (k : BitVec 1) (j : BitVec 12) : Obj :=
  if k = 1#1 then .creel else .page (s.unit s.curUnit).space j.toNat

/-- A read of the current access strand is in flight. -/
def State.readsOut (s : State) : Bool :=
  s.flight.any fun e => e.2.unit == s.curUnit && e.2.idx == s.curWave.pos && e.2.isRead

/-- sync.acq: waits until the strand's earlier reads have returned, then acquires with them as sources (R218, R230). -/
def execSyncAcq (sw : Bool) (k : BitVec 1) (c : BitVec 3) (j : BitVec 12) (s : State) : Out :=
  s.syncPoint
    (if s.readsOut then s.stand
     else (s.acquire s.curUnit s.curWave.pos s.strand.seqNo c.toNat (s.placeOf s.curWave) [s.syncObj k j]).done sw)

/-- sync.rel: a release that every later write of the strand carries; those writes wait for what it covers (R217, R230). -/
def execSyncRel (sw : Bool) (k : BitVec 1) (c : BitVec 3) (j : BitVec 12) (s : State) : Out :=
  s.syncPoint ((s.releaseAll [s.syncObj k j] c.toNat).2.done sw)

/-- The writes that earlier fences make visible to a fence at a scope (R222): each covers the writes its strand made.
DEDUCED, unsafe (log entry 30). -/
def fenceView (fences : List Rel) (scope : Nat) (me : Place) : View :=
  fences.foldl (fun v f =>
    if includes f.scope f.place me && includes scope me f.place then
      View.join v f.cover else v) []

/-- Writes that a fence makes visible to wave `idx` of unit `u`; its releases do not cover them for that (R219, R222). -/
def State.noteFence (s : State) (u idx : Nat) (vis : View) : State :=
  s.updWaveOf u idx fun w => { w with acc := { w.acc with view := View.join w.acc.view vis } }

/-- sync.fence: once the strand's accesses have happened, a release and then an acquire of every object; it takes its place
after the fences before it (R222, R230). -/
def execSyncFence (sw : Bool) (c : BitVec 3) (s : State) : Out :=
  s.syncPoint
    (if !s.quiet then s.stand
     else
       let me := s.placeOf s.curWave
       let n := s.strand.seqNo
       let f : Rel := ⟨.all, c.toNat, me, n, ownWrites s.hist s.curWave.who⟩
       let vis := fenceView s.fences c.toNat me
       let s := (s.releaseAll [.all] c.toNat).2
       let s := s.acquire s.curUnit s.curWave.pos (n + 1) c.toNat me [.all]
       let s := s.noteFence s.curUnit s.curWave.pos vis
       ({ s with fences := f :: s.fences.filter fun g => !(g.place.wave == me.wave && g.scope == c.toNat) } : State).done sw)

/-! ## The gang barrier (R231) -/

/-- A wave's access strand has ended or stands at the barrier. -/
def Wave.atGbar (w : Wave) : Bool :=
  w.acc.ended || (match w.acc.wait with | .gbar _ _ => true | _ => false)

/-- The slots of a unit's waves that stand at the barrier. -/
def State.arrived (s : State) (u : Nat) : List Nat :=
  (s.unit u).slots.filter fun k => match (s.wave k).acc.wait with | .gbar _ _ => true | _ => false

/-- What the ordering arrivals of a unit release. -/
def State.arrivalView (s : State) (u : Nat) : View :=
  (s.arrived u).foldl (fun v k => match (s.wave k).acc.wait with
    | .gbar true _ => View.join v (s.wave k).acc.cover
    | _ => v) []

/-- One wave departs: where its kind orders, an acquire of every object at gang scope over the arrivals and over its earlier reads (R217,
R231), and it goes on. Its instruction issues here, and is counted unless a turn of its own counts it (R391). -/
def State.departOne (s : State) (vis : View) (mine : Option Nat) (k : Nat) : State :=
  match (s.wave k).acc.wait with
  | .gbar orders sw =>
    let w := s.wave k
    let all := View.join vis (acquired .all 1 (s.placeOf w) w.acc.seen)
    let s := if orders then s.updWave k fun w => { w with acc := w.acc.note w.acc.seqNo all } else s
    let s := ({ s with cur := ⟨k, .access⟩ } : State).retire sw
    let s := if mine = some k then s else s.countIssue
    s.updWave k fun w => { w with gbars := w.gbars + 1 }
  | _ => s

/-- The waves of a unit depart from the barrier if every wave whose access strand has not ended has arrived (R231); `mine` is the slot of
the wave whose turn it is, if it is one of theirs. -/
def State.depart (s : State) (u : Nat) (mine : Option Nat) : State :=
  if (s.unit u).life = .resident && (s.unit u).slots.all fun k => (s.wave k).atGbar then
    { (s.arrived u).foldl (fun x k => x.departOne (s.arrivalView u) mine k) s with cur := s.cur }
  else s

/-- sync.gbar: the strand arrives, once its accesses have happened where the kind orders, and stands until the whole gang has
arrived. -/
def execSyncGbar (sw : Bool) (k : BitVec 1) (s : State) : Out :=
  match s.strand.wait with
  | .gbar _ _ => .next (s.depart s.curUnit (some s.cur.wave))
  | _ =>
    s.syncPoint
      (if k = 0#1 && !s.quiet then s.stand
       else
         let s := if k = 0#1 then (s.releaseAll [.all] 1).2 else s
         .next ((s.blockWith (.gbar (k == 0#1) sw)).depart s.curUnit (some s.cur.wave)))

/-- GBAR_DEPARTURE: a gang whose waves have all arrived departs (R231). -/
def execGbarDeparture (unit : Nat) (s : State) : Out := .next (s.depart unit none)

end Sys2Proof.Machine
end

