-- ==== Sys2Proof/Machine/Publish.lean ====
section
/-! DEFINITION. Translation changes and copy.publish (R159, R161, R162, R164, R167, R204, R206, R209, R210, R228). -/

namespace Sys2Proof.Machine

/-! ## Translation changes (R209, R210) -/

/-- An access tagged too long before a generation is outstanding: the change to it waits (R210). -/
def State.genBusy (s : State) (space : Nat) : Bool :=
  s.flight.any fun e => e.2.space == space && !e.2.creel && decide (32767 < ((s.space space).gen + 1#16 - e.2.gen).toNat)

/-- A change generation as it stands once G is `g`: no access tagged more than 32,767 generations before `g` is outstanding, so that one as
old as that rejects nothing and is kept at that age (R210, R211). -/
def ageGen (g : BitVec 16) (c : Nat) : Nat :=
  if 32767 < (g - BitVec.ofNat 16 c).toNat then (g - 32767#16).toNat else c

/-- G := G + 1, recorded as the change generation of the pages touched, with the moment of the change. -/
def State.bumpGen (s : State) (space : Nat) (pages : List Nat) : State :=
  let x := s.space space
  let g := x.gen + 1#16
  let aged := SMap.mapVals (fun _ c => (ageGen g c.1, c.2)) x.changed
  s.setSpace space { x with gen := g, changed := pages.foldl (fun m p => SMap.put p (g.toNat, s.now) m) aged }

/-- Install the word of a leaf entry. -/
def State.setLeaf (s : State) (l : Leaf) : State := s.agentWrite [] l.entry (leBytes 8 l.word)

/-- The 64 KiB page numbers of a page at `va`. -/
def Leaf.pages (l : Leaf) (va : Nat) : List Nat := (List.range (l.size / 65536)).map fun i => va / l.size * l.size / 65536 + i

/-! ## Rotation (R161, R204) -/

/-- The entry after a publish of its page: W becomes L, L becomes V or, with two backings, W. -/
def Leaf.rotate (l : Leaf) : Leaf :=
  if l.backings = 2 then { l with lrole := l.wrole, wrole := l.lrole }
  else { l with lrole := l.wrole, vrole := l.lrole, wrole := l.vrole }

/-- Some unit's take pins backing `j` of the page at `va` (R162). -/
def State.pinned (s : State) (space va size j : Nat) : Bool :=
  s.units.any fun e => e.2.life != .gone && e.2.takes.any fun t =>
    t.space == space && t.backingAt (max va t.base) == j && decide (t.base < va + size) && decide (va < t.base + t.length)

/-- Rotate pages, each given with its address and entry, in one step: the entries, a write of every line of each new L that
carries the releases and that every agent sees, and a wake of every monitor on a line of theirs (R206, R208, R228). -/
def State.rotate (s : State) (who space : Nat) (rels : List Rel) (ps : List (Nat × Leaf)) : State :=
  let s := ps.foldl (fun s p => s.setLeaf p.2.rotate) s
  let time := s.now + 1
  let recs := ps.map fun p =>
    (⟨time, s.cycle, 0, p.2.pa p.2.wrole (p.1 / p.2.size * p.2.size), p.2.size, .page space p.2.obj, 0#8, rels⟩ : WriteRec)
  let s := { s with now := time, hist := recs ++ s.hist }
  let lines := ps.flatMap fun p => (List.range (p.2.backings * p.2.size / 128)).map fun i => p.2.frame / 128 + i
  (s.bumpGen space (ps.flatMap fun p => p.2.pages p.1)).wakeLines who 1 lines

/-- The streams open on a buffer whose first line lies among the pages, by cluster and stream (R158): a publish of pages that hold the
first line of a stream's buffer counts as a publish of that buffer, whatever else it covers. DESIGN CHOICE, unsafe (log entry 55). -/
def State.streamsOn (s : State) (space base bytes : Nat) : List (Nat × Nat) :=
  s.clusters.flatMap fun c => (c.2.streams.filter fun n =>
    n.2.isOpen && n.2.space == space && decide (base ≤ n.2.base) && decide (n.2.base < base + bytes)).map fun n => (c.1, n.1)

/-- Change a stream. -/
def State.updStream (s : State) (c n : Nat) (f : Stream → Stream) : State :=
  s.setCluster c { s.cluster c with streams := SMap.upd Stream.closed n f (s.cluster c).streams }
/-- Stream `n` of cluster `c`. -/
def State.stream (s : State) (c n : Nat) : Stream := SMap.get Stream.closed (s.cluster c).streams n

/-- Some unit holds a scouting take of version `v` of a stream, taken as a prediction (R167). A held take predicts nothing and has
nothing compared. DESIGN CHOICE, unsafe (log entry 55). -/
def State.scoutsTake (s : State) (c n : Nat) (v : BitVec 32) : Bool :=
  s.units.any fun e => e.2.life != .gone && e.2.takes.any fun t => t.cluster == c && t.stream == n && t.version == v && t.status == 1

/-- The backing in a role of each 64 KiB page of a stream's buffer. -/
def State.roleBackings (s : State) (x : Stream) (role : Leaf → Nat) : List Nat :=
  (pageChunks 66 x.base x.length).map fun ch => match s.walk x.part x.space ch.1 with
    | .ok l => role l
    | .error _ => 0

/-- The status word of scout.take. -/
def takeWord (k : BitVec 32) (depth st : Nat) : W64 := BitVec.ofNat 64 (k.toNat * 2 ^ 32 + depth * 2 ^ 8 + st)

/-- A take of version `v` of a stream by no unit yet, with nothing mapped. -/
def Take.of (c n : Nat) (x : Stream) (v : BitVec 32) : Take :=
  { cluster := c, stream := n, version := v, status := 0, backings := [], verdict := 0, producer := 0, word := 0#64,
    space := x.space, base := x.base, length := x.length }

/-- A unit makes a take while version `k` is the latest: recorded with the unit, whose depth it may raise, and with its word. -/
def State.addTake (s : State) (unit : Nat) (t : Take) (k : BitVec 32) (depth : Nat) : State :=
  s.updUnit unit fun u =>
    { u with takes := u.takes ++ [{ t with word := takeWord k (max u.depthScout depth) t.status }], depthScout := max u.depthScout depth }

/-- The take of stream `n` of cluster `c` that a unit holds. -/
def UnitRec.takeOn (u : UnitRec) (c n : Nat) : Option Take := u.takes.find? fun t => t.cluster == c && t.stream == n

/-- A take that blocks for the version that has just been published maps L, with status 0, whatever the unit has taken since (R175). -/
def State.giveTakes (s : State) (c n : Nat) : State :=
  let x := s.stream c n
  let asks := fun (w : Wave) => w.acc.wait == .take c n x.k
  let us := (s.units.filter fun e => e.2.life != .gone && (e.2.takeOn c n).isNone
    && (List.range e.2.slots.length).any fun i => asks (s.waveOf e.1 i)).map Prod.fst
  us.foldl (fun s u =>
    s.addTake u { Take.of c n x x.k with backings := s.roleBackings x Leaf.lrole, verdict := 1 } x.k 0) s

/-- A publish makes the next version of a stream real: k and h rise, a compare is due where a prediction was taken, with
the tolerances in force now, and the takes that block for it are given (R159, R167, R175). -/
def State.nextVersion (s : State) (c n : Nat) : State :=
  let x := s.stream c n
  let k := x.k + 1#32
  (s.updStream c n fun x => { x with k := k, h := min 2 (x.h + 1), formed := false, due := s.scoutsTake c n k, cmpAbs := x.tolAbs,
                                     cmpRel := x.tolRel }).giveTakes c n

/-- A held input whose version has been published is real from here on: the takes of the producer's output map L (R170). -/
def State.publishStreams (s : State) (space base bytes : Nat) : State :=
  (s.streamsOn space base bytes).foldl (fun s e => s.nextVersion e.1 e.2) s

/-! ## copy.publish (R206) -/

/-- The pages of a buffer with their entries: `n` pages from an address, of the size of the first; the first fault otherwise. -/
def State.bufferPages (s : State) (unit part space va n : Nat) : Except (Nat × PFault) (List (Nat × Leaf)) :=
  match s.probeGlobal unit part space va 1 .read with
  | .error f => .error (va, f)
  | .ok (l0, _) =>
    (List.range n).foldl (fun acc i =>
      match acc with
      | .error e => .error e
      | .ok ps => match s.probeGlobal unit part space (va + i * l0.size) 1 .read with
        | .error f => .error (va + i * l0.size, f)
        | .ok (l, _) => .ok (ps ++ [(va + i * l0.size, l)])) (.ok [])

/-- Pages agree in size, backings and object, and have more than one backing. -/
def uniformPages (ps : List (Nat × Leaf)) : Bool :=
  match ps with
  | [] => true
  | (_, l) :: _ => decide (1 < l.backings) && ps.all fun p => p.2.size == l.size && p.2.backings == l.backings && p.2.obj == l.obj

/-- A store of the current strand, or a copy or gather of its wave, into a range has not been performed. -/
def State.writesOut (s : State) (va n : Nat) : Bool :=
  (s.flight.any fun e => e.2.unit == s.curUnit && e.2.idx == s.curWave.pos && e.2.kind == .store && !e.2.creel
      && e.2.lanes.any fun l => decide (l.va < va + n) && decide (va < l.va + l.size))
    || s.curWave.eng.any fun q => q.2.any fun c => c.dk == 0 && c.refusal.isNone && decide (c.dst < va + n) && decide (va < c.dst + c.length)

/-- An access of wave `idx` of unit `u` is in flight that a release of an object now would cover, or that a release which its next write
carries covers: that write, the rotation of a publish, must wait for it (R217, R219, R228). -/
def State.coversOutOf (s : State) (u idx : Nat) (rels : List Rel) (o : Obj) : Bool :=
  let covered := fun (q : Obj) (a : Access) => !a.acqs.isEmpty || a.lanes.any fun l => q.covers l.obj
  s.flight.any fun e => e.2.unit == u && e.2.idx == idx
    && (covered o e.2 || e.2.coveredBy rels)
/-- The same of the current strand. -/
def State.coversOut (s : State) (o : Obj) : Bool := s.coversOutOf s.curUnit s.curWave.pos s.strand.rels o

/-- Some page is homed on a die that is off line. -/
def State.pagesOffline (s : State) (ps : List (Nat × Leaf)) : Bool :=
  ps.any fun p => match homeDie p.2.frame with
    | some d => s.offline d
    | none => false

/-- The rotation of pages must wait: it would make a pinned backing W (R162), a compare of an earlier publish is due (R167),
the generation window is full (R210), or a die is off line (R384). DEDUCED, unsafe (log entry 22). -/
def State.rotateWaits (s : State) (space va bytes : Nat) (ps : List (Nat × Leaf)) : Bool :=
  (ps.any fun p => s.pinned space p.1 p.2.size p.2.rotate.wrole)
    || ((s.streamsOn space va bytes).any fun e => (s.stream e.1 e.2).due) || s.genBusy space || s.pagesOffline ps

/-- The status word of a publish: G after the step, and the status. -/
def State.publishStatus (s : State) (space st : Nat) : W64 := BitVec.ofNat 64 ((s.space space).gen.toNat * 2 ^ 16 + st)

/-- copy.publish: the buffer's W becomes its latest version for every observer in one step, as a release of the buffer's
object at system scope. A scout task's publish is held (R164, R206). -/
def execCopyPublish (sw : Bool) (r : BitVec 6) (n : BitVec 10) (s : State) : Out :=
  s.syncPoint <| s.statusOp [.s r.toNat]
    (let va := (s.readS r.toNat).toNat
     let u := s.unit s.curUnit
     match s.bufferPages s.curUnit u.part u.space va (n.toNat + 1) with
     | .error (a, f) => s.probeFail (BitVec.ofNat 64 a) 0 f
     | .ok ps =>
       let size := match ps with
         | (_, l) :: _ => l.size
         | [] => 65536
       let bytes := size * (n.toNat + 1)
       if va % size ≠ 0 then s.resultS sw r.toNat (s.publishStatus u.space 2)
       else if !uniformPages ps then s.resultS sw r.toNat (s.publishStatus u.space 1)
       else if s.isScout then
         (s.updUnit s.curUnit fun u => { u with held := u.held ++ [⟨s.curWave.pos, u.space, va, n.toNat + 1⟩] }).resultS sw r.toNat
           (s.publishStatus u.space 0x80)
       else
         let obj := match ps with
           | (_, l) :: _ => Obj.page u.space l.obj
           | [] => .all
         if s.writesOut va bytes || s.coversOut obj || s.rotateWaits u.space va bytes ps then s.stand
         else
         let s := (s.releaseAll [obj] 5).2
         let s := s.rotate s.curWave.who u.space s.strand.rels ps
         let s := s.publishStreams u.space va bytes
         s.resultS sw r.toNat (s.publishStatus u.space 0))

end Sys2Proof.Machine
end

