-- ==== Sys2Proof/Machine/Places.lean ====
section
/-! DEFINITION. Places: which wave slots, creel ranges and sequencers are free, the order in which units are placed, and the
start of a unit (R22, R24, R131, R132, R188, R247, R249, R251 to R254, R257, R394). -/

namespace Sys2Proof.Machine

/-! ## The traversal orders (R251) -/

/-- The Morton point of index `d`. -/
def mortonPoint (d : Nat) : Nat × Nat :=
  (List.range 33).foldl (fun acc i =>
    (acc.1 + (if d.testBit (2 * i) then 2 ^ i else 0), acc.2 + (if d.testBit (2 * i + 1) then 2 ^ i else 0))) (0, 0)

/-- The Hilbert point of index `t` in the square of side `n`, from side `s` on. -/
def hilbertPoint (n : Nat) : Nat → Nat → Nat → Nat → Nat → Nat × Nat
  | 0, _, u, y, _ => (u, y)
  | fuel + 1, s, u, y, t =>
    if n ≤ s then (u, y)
    else
      let ru := bitsOf t 1 1
      let ry := bitsOf t 0 0 ^^^ ru
      let (u, y) := if ry = 0 then
          let (u, y) := if ru = 1 then (s - 1 - u, s - 1 - y) else (u, y)
          (y, u)
        else (u, y)
      hilbertPoint n fuel (2 * s) (u + s * ru) (y + s * ry) (t / 4)

/-- The `r`-th point of a curve, from index `d` on, that lies in the `w` by `h` rectangle. -/
def nthPoint (curve : Nat → Nat × Nat) (w h : Nat) : Nat → Nat → Nat → Nat × Nat
  | 0, _, _ => (0, 0)
  | fuel + 1, d, r =>
    let p := curve d
    if w ≤ p.1 ∨ h ≤ p.2 then nthPoint curve w h fuel (d + 1) r
    else if r = 0 then p else nthPoint curve w h fuel (d + 1) (r - 1)

/-- The smallest power of two that is at least `x`, for `x` at least 1. -/
def ceilPow2 (x : Nat) : Nat := if x ≤ 1 then 1 else 2 ^ (Nat.log2 (x - 1) + 1)

/-- Point `r` of the `w` by `h` rectangle in an order: 0 row-major, 1 column-major, 2 Morton, 3 Hilbert. -/
def walkPoint (order r w h : Nat) : Nat × Nat :=
  let n := ceilPow2 (max w h)
  match order with
  | 0 => (r % w, r / w)
  | 1 => (r / h, r % h)
  | 2 => nthPoint mortonPoint w h (n * n) 0 r
  | _ => nthPoint (hilbertPoint n 64 1 0 0) w h (n * n) 0 r

/-- The group index of position `p` (R251). -/
def Launch.indexOf (l : Launch) (p : Nat) : Nat × Nat × Nat :=
  let (gx, gy, _) := l.counts
  let q := gx * gy
  let w := if l.swizzle = 0 then gx else l.swizzle
  let b := p % q / (w * gy)
  let wb := min w (gx - b * w)
  let (u, y) := walkPoint l.order (p % q % (w * gy)) wb gy
  (b * w + u, y, p / q)

/-! ## What is taken -/

/-- The places reserved on a cluster (R257). -/
def State.reservedOn (s : State) (c : Nat) : List Spot :=
  s.parts.flatMap fun p => p.2.launches.filterMap fun l => match l.2.resv with
    | some r => if r.cluster = c && !l.2.done then some r else none
    | none => none

/-- Wave slot `k`, 0 to 31, of a cluster is free. -/
def State.slotFree (s : State) (c k : Nat) : Bool :=
  decide (k < 32) && !(s.wave (32 * c + k)).live && !((s.reservedOn c).any fun r => r.slot == k)

/-- The creel ranges taken on a cluster: offsets and sizes. -/
def State.creelTaken (s : State) (c : Nat) : List (Nat × Nat) :=
  ((s.units.filter fun e => e.2.life == .resident && e.2.cluster == c && e.2.creelBytes != 0).map fun e =>
      (e.2.creelOff, e.2.creelBytes))
    ++ ((s.reservedOn c).filter fun r => r.bytes != 0).map fun r => (r.off, r.bytes)

/-- A creel range of a cluster is free: 128-byte aligned, in the creel, and taken by nothing. An empty range stands at 0. -/
def State.creelFree (s : State) (c off bytes : Nat) : Bool :=
  if bytes = 0 then off == 0
  else off % 128 == 0 && decide (off + bytes ≤ Config.creelBytes)
    && (s.creelTaken c).all fun t => decide (off + bytes ≤ t.1) || decide (t.1 + t.2 ≤ off)

/-- The sequencer of a cluster has no owner, its tiles are in no sprout's footprint, and nobody has reserved it (R22, R131, R257). -/
def State.seqFree (s : State) (c : Nat) : Bool :=
  (s.cluster c).seq.owner == 0 && ((s.reservedOn c).all fun r => r.tiles == 0)
    && !s.units.any fun e => e.2.life == .resident && e.2.cluster == c && e.2.sprout && e.2.tiles != 0

/-- A cluster belongs to a partition and lies on a die on which a mask lets it place (R249, R383). -/
def State.dieAllows (s : State) (part mask c : Nat) : Bool :=
  let d := dieOfCluster c
  decide (c < Config.clusters) && (s.cluster c).part == part && mask.testBit d && (s.part part).asn.dies.contains d
    && (s.die d).state == .live && (s.die d).placing

/-- A spot fits on its cluster. -/
def State.spotFree (s : State) (r : Spot) : Bool :=
  s.slotFree r.cluster r.slot && s.creelFree r.cluster r.off r.bytes && (r.tiles == 0 || s.seqFree r.cluster)

/-- Slots of a gang, wave by wave: its workgroups stand each on one core, on the cores that R22 admits. -/
def slotsOk (waves groups : Nat) (slots : List Nat) : Bool :=
  let cores := (List.range groups).map fun g => slots.getD (g * waves) 0 / 8
  slots.length == waves * groups && slots.Nodup && slots.all (fun k => decide (k < 32))
    && ((List.range slots.length).all fun i => slots.getD i 0 / 8 == cores.getD (i / waves) 0)
    && cores.Nodup && (groups != 2 || (cores.map fun c => c / 2).eraseDups.length == 1)

/-- A gang of a kernel fits at given slots and a given creel offset of a cluster (R253). -/
def State.gangFits (s : State) (k : Kernel) (c : Nat) (slots : List Nat) (off : Nat) : Bool :=
  slotsOk k.waves k.groups slots && slots.all (fun i => s.slotFree c i) && s.creelFree c off k.creel && (!k.needsSeq || s.seqFree c)

/-- Some creel offset of a cluster fits: if any does, one at 0 or at the end of a taken range does. -/
def State.creelFits (s : State) (c bytes : Nat) : Bool :=
  (0 :: (s.creelTaken c).map fun t => t.1 + t.2).any fun off => s.creelFree c off bytes

/-- Free slots of a core. -/
def State.coreRoom (s : State) (c core : Nat) : Nat := ((List.range 8).filter fun i => s.slotFree c (8 * core + i)).length

/-- A kernel's unit finds its wave slots on a cluster, and its sequencer. -/
def State.coresFit (s : State) (k : Kernel) (c : Nat) : Bool :=
  let ok := fun (core : Nat) => decide (k.waves ≤ s.coreRoom c core)
  (!k.needsSeq || s.seqFree c) &&
    (match k.groups with
     | 1 => ok 0 || ok 1 || ok 2 || ok 3
     | 2 => (ok 0 && ok 1) || (ok 2 && ok 3)
     | _ => ok 0 && ok 1 && ok 2 && ok 3)

/-- A kernel's unit fits somewhere on a cluster. -/
def State.fitsOn (s : State) (k : Kernel) (c : Nat) : Bool := s.creelFits c k.creel && s.coresFit k c

/-- The footprint of a saved unit as a kernel's. -/
def UnitRec.shape (x : UnitRec) : Kernel :=
  { sprout := x.sprout, waves := (SMap.get 1#64 x.lc 9).toNat, groups := (SMap.get 1#64 x.lc 10).toNat, tiles := x.tiles,
    creel := x.creelBytes, fvalid := 0, hasSeq := x.hasSeq, aentry := 0, centry := 0, sentry := 0, fwords := [] }

/-- A scalar reply to a unit is still on its way: it is deposited, and written at the restore, before any strand issues (R32, R370). -/
def State.replyOut (s : State) (u : Nat) : Bool := s.flight.any fun e => e.2.unit == u && (match e.2.dest with | .s _ => true | _ => false)

/-! ## The next unit of a queue (R247, R252, R394) -/

/-- What a queue would place next: a squashed unit again (R171), a saved one back (R370, R377), or the next position of a launch. -/
inductive NextUnit where
  | again (unit : Nat)
  | back (unit : Nat)
  | fresh (launch : Nat)
  deriving DecidableEq, Repr

/-- A launch has a position left to place. -/
def Launch.waiting (l : Launch) : Bool := !l.cancelled && !l.done && decide (l.next < l.total)

/-- Of two launches the one to serve first: the higher priority, then the earlier enqueued. -/
def firstLaunch (a b : Nat × Launch) : Nat × Launch :=
  if a.2.priority < b.2.priority ∨ (a.2.priority = b.2.priority ∧ b.2.seqNo < a.2.seqNo) then b else a

/-- The units that stand at the head of a queue: those to be placed again and those to be restored, pre-empted ones as well as those that a
debugger resumes. Of several, any may go first where it fits, but for squashed gangs, which go in the order of their numbers. A squashed
one of a cancelled launch is never placed (R269). DEDUCED, unsafe (log entry 46). -/
def State.headUnits (s : State) (part q : Nat) : List NextUnit :=
  (s.units.filter fun e => e.2.part == part && e.2.queue == q).filterMap fun e => match e.2.life with
    | .waiting => if (SMap.get Launch.empty (s.part part).launches e.2.launch).cancelled then none else some (.again e.1)
    | .saved => some (.back e.1)
    | _ => none

/-- The units of a queue of which one is placed next: those at its head, or else the next position of the launch to be served first. -/
def State.nextUnits (s : State) (part q : Nat) : List NextUnit :=
  match s.headUnits part q with
  | [] =>
    (match (s.part part).launches.filter fun e => e.2.queue == q && e.2.waiting with
    | [] => []
    | e :: es => [.fresh (es.foldl firstLaunch e).1])
  | hs => hs

/-- The first of them, the lowest unit number first of several squashed gangs. DEDUCED, unsafe (log entry 46). -/
def State.nextUnitOf (s : State) (part q : Nat) : Option NextUnit := (s.nextUnits part q).head?

/-- The launch of a next unit. -/
def State.nextLaunchOf (s : State) (part : Nat) (n : NextUnit) : Launch :=
  match n with
  | .again u => SMap.get Launch.empty (s.part part).launches (s.unit u).launch
  | .back u => SMap.get Launch.empty (s.part part).launches (s.unit u).launch
  | .fresh l => SMap.get Launch.empty (s.part part).launches l

/-- The die mask under which a launch places: its own and its queue's. -/
def State.launchMask (s : State) (part : Nat) (l : Launch) : Nat :=
  l.affinity &&& (SMap.get HwQueue.unset (s.part part).queues l.queue).affinity

/-- A unit may stand on a cluster with the weave membership that it holds: the cluster is on the weave's die, and no other unit on it
holds a membership (R194, R196). -/
def State.weaveAllows (s : State) (u c : Nat) : Bool :=
  match s.weaveOfUnit u with
  | 0 => true
  | n + 1 => (s.weave n).die == dieOfCluster c && s.weaveOfCluster c == 0

/-- A next unit may stand on a cluster with what it holds. -/
def State.mayStand (s : State) (n : NextUnit) (c : Nat) : Bool :=
  match n with
  | .again u => s.weaveAllows u c
  | .back u => s.weaveAllows u c
  | .fresh _ => true

/-- A saved unit fits on a cluster: its allotment stands at the offset it had, and its scalar replies have come (R370). -/
def State.backFits (s : State) (u c : Nat) : Bool :=
  let x := s.unit u
  !s.replyOut u && s.creelFree c x.creelOff x.creelBytes && s.coresFit x.shape c

/-- A next unit of a partition fits on a cluster. -/
def State.unitFits (s : State) (part : Nat) (n : NextUnit) (c : Nat) : Bool :=
  let l := s.nextLaunchOf part n
  s.dieAllows part (s.launchMask part l) c && s.mayStand n c &&
    (match n with
     | .back u => s.backFits u c
     | _ => match s.kernelAt part l.space l.kdesc with
       | some k => s.fitsOn k c
       | none => false)

/-- The next unit of a queue fits on a cluster. -/
def State.nextFits (s : State) (part q c : Nat) : Bool := (s.nextUnits part q).any fun n => s.unitFits part n c

/-- The effective priority of a queue (R247). -/
def HwQueue.effective (q : HwQueue) : Nat := min 7 (q.base + q.age)

/-- Queue `b` is served before queue `a` where both fit: a higher effective priority, or an equal one and an earlier turn. -/
def Partition.before (p : Partition) (b a : Nat) : Bool :=
  let eb := (SMap.get HwQueue.unset p.queues b).effective
  let ea := (SMap.get HwQueue.unset p.queues a).effective
  let turn := fun (q : Nat) => (q + 255 - p.lastQueue) % 256
  decide (ea < eb) || (ea == eb && decide (turn b < turn a))

/-- Queue `q` is the one that the scheduler serves with a place on a cluster (R247). -/
def State.served (s : State) (part q c : Nat) : Bool :=
  let p := s.part part
  !p.queues.any fun e => e.1 != q && p.before e.1 q && s.nextFits part e.1 c

/-! ## Starting a unit (R24, R132, R188, R254) -/

/-- The launch constants of a unit that are fixed for its life (R24). In lc16 a sprout reads the identifier of the launch whose unit
spawned it, as R24 and R256 give it, and R393 is taken to speak of the others. DEDUCED, unsafe (log entry 53). -/
def unitConstants (part launch pos depth : Nat) (l : Launch) (k : Kernel) (off : Nat) : SMap W64 :=
  let (x, y, z) := l.indexOf pos
  let (gx, gy, gz) := l.counts
  let vals := [(0, x), (1, y), (2, z), (3, gx), (4, gy), (5, gz), (6, pos), (9, k.waves), (10, k.groups), (15, part),
    (16, if l.spawn then l.parent else launch), (17, l.block), (18, off), (19, k.creel), (20, depth)]
  let fixed := vals.foldl (fun m e => SMap.put e.1 (BitVec.ofNat 64 e.2) m) []
  (List.range 11).foldl (fun m i => SMap.put (21 + i) (l.args.getD i 0#64) m) fixed

/-- Every byte of a creel range becomes 0 and every full/empty bit of it empty (R188), which every agent sees.
DEDUCED, unsafe (log entry 18). -/
def State.zeroCreel (s : State) (c off bytes : Nat) : State :=
  if bytes = 0 then s
  else
    let lo := c * Config.creelBytes + off
    let hi := lo + bytes
    let out := fun (a : Nat) => decide (a < lo) || decide (hi ≤ a)
    let time := s.now + 1
    let rec' : WriteRec := ⟨time, s.cycle, 0, creelLoc + lo, bytes, .creel, 0#8, []⟩
    { s with creel := s.creel.filter fun e => out e.1, full := s.full.filter fun e => out (4 * e.1),
             creelPoison := s.creelPoison.filter fun e => out (4 * e.1), now := time, hist := rec' :: s.hist }

/-- The sequencer as its owner is placed (R132). -/
def Seq.start (owner : Nat) (k : Kernel) : Seq :=
  { Seq.idle with owner := owner, tiles := k.tiles, strand := Strand.start (BitVec.ofNat 64 k.sentry),
                  f := (List.range 8).foldl (fun m i => if k.fvalid.testBit i then SMap.put i (k.fwords.getD i 0#32) m else m) [] }

/-- The waves of a unit as they start, with their slots. -/
def unitWaves (u : Nat) (k : Kernel) (view : View) (slots : List Nat) : List (Nat × Wave) :=
  (List.range slots.length).map fun i =>
    let w := Wave.start u i (i % k.waves) (i / k.waves) (BitVec.ofNat 64 k.aentry) (BitVec.ofNat 64 k.centry)
    (slots.getD i 0, { w with acc := { w.acc with view := view, cover := view } })

/-- Place a unit on a cluster: its waves start, its creel allotment is zeroed and its sequencer starts. -/
def State.startUnit (s : State) (u : Nat) (x : UnitRec) (k : Kernel) (view : View) : State :=
  let s := s.setUnit u { x with life := .resident }
  let s := (unitWaves u k view x.slots).foldl (fun s w => s.setWave w.1 w.2) s
  let s := s.zeroCreel x.cluster x.creelOff x.creelBytes
  if k.hasSeq then s.updSeq x.cluster fun _ => Seq.start u k else s

/-- The record of a unit of a launch at a place. -/
def unitRecord (part launch pos depth : Nat) (l : Launch) (k : Kernel) (c : Nat) (slots : List Nat) (off : Nat) : UnitRec :=
  { UnitRec.none with
    life := .resident, part := part, space := l.space, queue := l.queue, launch := launch, pos := pos,
    index := l.indexOf pos, sprout := l.spawn, depth := depth, kdesc := l.kdesc, cluster := c,
    slots := slots.map fun i => 32 * c + i, creelOff := off, creelBytes := k.creel, tiles := k.tiles, hasSeq := k.hasSeq,
    lc := unitConstants part launch pos depth l k off }

/-- A queue has placed a unit: its age returns to 0 and its turn is over (R247). Its next ageing interval begins here. DESIGN CHOICE,
unsafe (log entry 25). -/
def State.queueServed (s : State) (part q : Nat) : State :=
  s.updPart part fun p => { p with lastQueue := q, queues := SMap.upd HwQueue.unset q (fun x => { x with age := 0, ageFrom := s.cycle }) p.queues }

/-- Place the next position of a launch as a new unit. -/
def State.placeNew (s : State) (part launch c : Nat) (slots : List Nat) (off : Nat) (k : Kernel) (reserved : Bool) : State :=
  let l := SMap.get Launch.empty (s.part part).launches launch
  let x := { unitRecord part launch l.next l.depth l k c slots off with reserved := reserved }
  let s := { s with nextUnit := s.nextUnit + 1 }.startUnit s.nextUnit x k l.view
  s.updPart part fun p => { p with launches := SMap.upd Launch.empty launch (fun l =>
    { l with next := l.next + 1, live := l.live + 1, resvBusy := l.resvBusy || reserved }) p.launches }

/-- The accesses in flight to the creel allotment of a unit reach it where it stands from now on (R166, R196). -/
def State.moveHeld (s : State) (u c off : Nat) : State :=
  let x := s.unit u
  let lo := locOfCreel x.cluster x.creelOff
  { s with flight := SMap.mapVals (fun _ a => { a with lanes := a.lanes.map fun l =>
      if l.holder = u then { l with loc := locOfCreel c off + (l.loc - lo) } else l }) s.flight }

/-- Place a squashed unit again, as a fresh placement (R171). -/
def State.placeAgain (s : State) (u c : Nat) (slots : List Nat) (off : Nat) (k : Kernel) (reserved : Bool) : State :=
  let x := s.unit u
  let l := SMap.get Launch.empty (s.part x.part).launches x.launch
  let y := { unitRecord x.part x.launch x.pos x.depth l k c slots off with rerun := true, reserved := reserved }
  let s := (s.moveHeld u c off).startUnit u y k l.view
  if reserved then s.updPart x.part fun p =>
    { p with launches := SMap.upd Launch.empty x.launch (fun l => { l with resvBusy := true }) p.launches } else s

end Sys2Proof.Machine
end

