-- ==== Sys2Proof/Machine/Graphs.lean ====
section
/-! DEFINITION. Graphs, dependence counters, timelines, and the completion of launches and graphs (R246, R250, R255, R260 to
R268, R382, R393). -/

namespace Sys2Proof.Machine

/-! ## Releases of the scheduler -/

/-- A release of every object at system scope that covers a view, by an agent that is no strand. -/
def schedRelease (cover : View) : Rel := ⟨.all, 5, hostPlace, 0, cover⟩

/-- What the releases that a write carries make visible to an acquire of every object at system scope (R218). -/
def relsView (rels : List Rel) : View := rels.foldl (fun v r => View.join v r.cover) []

/-! ## Timelines (R265 to R267, R382) -/

/-- Timeline `n` of a partition. -/
def Partition.timeline (p : Partition) (n : Nat) : Timeline := SMap.get Timeline.zero p.timelines n
/-- Change timeline `n`. -/
def State.updTimeline (s : State) (part n : Nat) (f : Timeline → Timeline) : State :=
  s.updPart part fun p => { p with timelines := SMap.upd Timeline.zero n f p.timelines }

/-- The value after an update in the set or add form, where it does not move the timeline backward. -/
def Timeline.next (t : Timeline) (add : Bool) (v : W64) : Option W64 :=
  let new := if add then t.value.toNat + v.toNat else v.toNat
  if t.value.toNat ≤ new ∧ new < 2 ^ 64 then some (BitVec.ofNat 64 new) else none

/-- Update a timeline, carrying a release; a backward update or one of a broken timeline is refused. -/
def State.signal (s : State) (part n : Nat) (add : Bool) (v : W64) (r : Rel) : State :=
  s.updTimeline part n fun t =>
    if t.broken then t
    else match t.next add v with
      | none => t
      | some x => { t with value := x, rels := [schedRelease (View.join (relsView t.rels) r.cover)] }

/-! ## Phases and jobs (R246, R268) -/

/-- Queue `q` of a partition. -/
def Partition.queue (p : Partition) (q : Nat) : HwQueue := SMap.get HwQueue.unset p.queues q
/-- Change queue `q`. -/
def State.updQueue (s : State) (part q : Nat) (f : HwQueue → HwQueue) : State :=
  s.updPart part fun p => { p with queues := SMap.upd HwQueue.unset q f p.queues }

/-- A phase has completed: its closing packet has been read and no graph of it is left. -/
def HwQueue.phaseDone (q : HwQueue) (ph : Nat) : Bool := q.closedPhases.contains ph && SMap.get 0 q.phaseGraphs ph == 0

/-- Every phase up to `ph` that has been closed has completed. -/
def HwQueue.doneTo (q : HwQueue) (ph : Nat) : Bool := q.closedPhases.all fun c => decide (ph < c) || q.phaseDone c

/-- Phases may have completed: with the phase that its job-end packet closed, and every phase before, a job completes. -/
def HwQueue.settle (q : HwQueue) : HwQueue :=
  q.jobEnds.foldl (fun q e =>
    if q.doneTo e.1 && !q.jobsDone.contains e.2 then { q with jobsDone := q.jobsDone ++ [e.2] } else q) q

/-- Raise a queue's graph interrupt, where it is enabled. -/
def HwQueue.raiseGraph (q : HwQueue) : HwQueue := if q.irqCore.isSome then { q with graphIrq := q.graphIrq + 1 } else q
/-- Raise a queue's error interrupt, where it is enabled. -/
def HwQueue.raiseError (q : HwQueue) : HwQueue := if q.irqCore.isSome then { q with errorIrq := q.errorIrq + 1 } else q

/-! ## Completion records (R264) -/

/-- Write the completion record of a graph at the address that its sink node holds, where the node is a multiple of 64 that
the probe admits and the record a multiple of 32 in a writable page. -/
def State.writeRecord (s : State) (part space sink gid status : Nat) (cover : View) : State :=
  if sink % 64 ≠ 0 then s
  else match s.readVa 0 part space sink 64 with
    | .error _ => s
    | .ok b =>
      let rec' := fieldOf b 0x18 8
      if rec' % 32 ≠ 0 then s
      else s.writeVa 0 part space [schedRelease cover] rec'
        (leBytes 4 gid ++ leBytes 4 status ++ leBytes 8 (s.cycle - (s.part part).startCycle) ++ leBytes 16 0)

/-- What a completion record's address and place need stands in spill (R324): the sink node, or the page of the record. -/
def State.recordSpill (s : State) (part space sink : Nat) : Option Nat :=
  if sink % 64 ≠ 0 then none
  else match s.readVa 0 part space sink 64 with
    | .error _ => s.spilledBlock part space sink 64
    | .ok b => if fieldOf b 0x18 8 % 32 ≠ 0 then none else s.spilledBlock part space (fieldOf b 0x18 8) 32

/-- A graph has completed with a status: its record is written, its queue's interrupt is raised and its phase loses it. -/
def State.finishGraph (s : State) (part key status : Nat) : State :=
  let g := SMap.find (s.part part).graphs key
  match g with
  | none => s
  | some g =>
    let s := s.writeRecord part g.space g.sink g.gid status g.cover
    let s := s.updPart part fun p =>
      { p with graphs := SMap.put key { g with done := true } p.graphs, doneGraphs := (g.gid :: p.doneGraphs).take 1024 }
    s.updQueue part g.queue fun q =>
      ({ q with phaseGraphs := SMap.upd 0 g.phase (fun n => n - 1) q.phaseGraphs }.settle).raiseGraph

/-- Change a graph. -/
def State.updGraph (s : State) (part key : Nat) (f : Graph → Graph) : State :=
  s.updPart part fun p => { p with graphs := match SMap.find p.graphs key with
    | some g => SMap.put key (f g) p.graphs
    | none => p.graphs }

/-- The live graph of a partition that holds a gid. -/
def Partition.liveGraph (p : Partition) (gid : Nat) : Option (Nat × Graph) := p.graphs.find? fun e => e.2.gid == gid && !e.2.done

/-! ## Enqueuing and decrementing nodes (R261, R262) -/

/-- A node completes without a launch of its own, or its launch completes: its successors are decremented next (R261). -/
def State.nodeDone (s : State) (part key node : Nat) (cover : View) : State :=
  s.updGraph part key fun g => { g with complete := g.complete ++ [(node, 0, cover)] }

/-- A block that an enqueued node needs stands in spill (R324): the node, its launch parameter block or its kernel descriptor. -/
def State.nodeSpill (s : State) (part space node : Nat) : Option Nat :=
  match s.readVa 0 part space node 64 with
  | .error _ => s.spilledBlock part space node 64
  | .ok b =>
    if fieldOf b 0 8 = 0 then none
    else match s.readVa 0 part space (fieldOf b 0 8) 128 with
      | .error _ => s.spilledBlock part space (fieldOf b 0 8) 128
      | .ok l => s.spilledBlock part space (fieldOf l 0 8) 128

/-- Enqueue a node whose units begin with what `view` makes visible: an empty node completes at once, and so does a launch
whose block is malformed (R250, R261, R262). One of whose blocks is in spill waits for its page to be fetched (R324). -/
def State.enqueueNode (s : State) (part key node : Nat) (view : View) : State :=
  match SMap.find (s.part part).graphs key with
  | none => s
  | some g =>
    let s := s.updGraph part key fun g => { g with openNodes := g.openNodes + 1 }
    let bad := fun (s : State) => (s.updGraph part key fun g => { g with malformed := true }).nodeDone part key node view
    match s.nodeSpill part g.space node, s.readVa 0 part g.space node 64 with
    | some a, _ => (s.updGraph part key fun g => { g with waiting := g.waiting ++ [(node, view)] }).wantPage part g.space a
    | none, .error _ => bad s
    | none, .ok b =>
      let lpb := fieldOf b 0 8
      if lpb = 0 then s.nodeDone part key node view
      else
        let n := (s.part part).launches.length
        match s.launchOf part g.space lpb ((s.part part).queue g.queue).affinity with
        | none =>
          let (id, s) := s.addLaunch part { Launch.empty with block := lpb, queue := g.queue, gid := g.gid, graph := key, node := node,
                                                              space := g.space, seqNo := n, done := true }
          bad (s.updPart part fun p => { p with doneLaunches := (id :: p.doneLaunches).take 1024 })
        | some l =>
          (s.addLaunch part { l with queue := g.queue, gid := g.gid, graph := key, node := node, seqNo := n, view := view }).2

/-- Decrement a node's counter at its home slice (R262): the count before, or none where the counter cannot be reached or is
poisoned. The write carries a release of what `cover` holds and the releases of the write it reads. -/
def State.decrement (s : State) (part key node who : Nat) (r : Rel) : Option Nat × State :=
  match SMap.find (s.part part).graphs key with
  | none => (none, s)
  | some g =>
    match s.vaLocs 0 part g.space (node + 8) 4 .atomic with
    | .error _ => (none, s)
    | .ok locs =>
      if locs.any s.poisonedAt then (none, s)
      else
        let old := leNat (locs.map s.byteNow)
        if old = 0 then (some 0, s)
        else
          let chain := (readSources s.hist s.now (locs.map fun l => (l, Obj.all))).2
          let rels := r :: chain
          let s := s.perform who rels (locs.zip (leBytes 4 (old - 1)))
          if old = 1 && !g.done && !g.cancelled then (some 1, s.enqueueNode part key node (relsView rels)) else (some old, s)

/-! ## Starting a graph (R260) -/

/-- The bytes of a header obey R260, its sink node carries the sink flag and its source list can be read; the source nodes. -/
def State.headerNodes (s : State) (part space : Nat) (b : List Byte) : Option (List Nat) :=
  let nsrc := fieldOf b 8 2
  let sink := fieldOf b 0x10 8
  if fieldOf b 0xA 2 ≠ 0 ∨ fieldOf b 0x18 8 ≠ 0 ∨ nsrc = 0 ∨ sink % 64 ≠ 0 then none
  else match s.readVa 0 part space sink 64, s.readVa 0 part space (fieldOf b 0 8) (8 * nsrc) with
    | .ok n, .ok l =>
      let nodes := (List.range nsrc).map fun i => fieldOf l (8 * i) 8
      if (fieldOf n 0xE 1).testBit 0 && nodes.all fun x => x % 64 == 0 then some nodes else none
    | _, _ => none

/-- What starting the graph of a header reads or may write stands in spill (R324): the header, its sink node, its list, the record. -/
def State.graphSpill (s : State) (part space header : Nat) : Option Nat :=
  match s.readVa 0 part space header 32 with
  | .error _ => s.spilledBlock part space header 32
  | .ok b => match s.spilledBlock part space (fieldOf b 0 8) (8 * fieldOf b 8 2), s.spilledBlock part space (fieldOf b 0x10 8) 64 with
    | some a, _ => some a
    | none, some a => some a
    | none, none => s.recordSpill part space (fieldOf b 0x10 8)

/-- Start the graph whose header stands at an address, for queue `q`: its sources are enqueued in list order, and their units begin with
what the queue's timeline waits acquired (R267). A header that breaks R260, or a gid held by a live graph, completes it at once with
status 2, and a phase or job that a cancel has reached with status 1. DEDUCED, unsafe (log entry 54). -/
def State.startGraph (s : State) (part q header : Nat) : State :=
  let p := s.part part
  let hq := p.queue q
  let b := match s.readVa 0 part hq.space header 32 with
    | .ok b => b
    | .error _ => []
  let gid := fieldOf b 0xC 4
  let key := p.graphNo
  let clash := (p.liveGraph gid).isSome
  let g : Graph := { gid := gid, header := header, sink := (if b.isEmpty then 1 else fieldOf b 0x10 8), queue := q, phase := hq.phase, job := hq.job,
                     space := hq.space, openNodes := 0, sinkDone := false, cancelled := false, lost := false, malformed := false,
                     done := false, waiting := [], complete := [], cover := hq.view }
  let s := s.setPart part { p with graphs := SMap.put key g p.graphs, graphNo := key + 1 }
  let s := s.updQueue part q fun x => { x with phaseGraphs := SMap.upd 0 hq.phase (fun n => n + 1) x.phaseGraphs }
  match s.headerNodes part hq.space b with
  | none => s.finishGraph part key 2
  | some nodes =>
    if clash then s.finishGraph part key 2
    else if hq.cancelledPhases.contains hq.phase || hq.cancelledJobs.contains hq.job then s.finishGraph part key 1
    else nodes.foldl (fun s n => s.enqueueNode part key n hq.view) s

/-! ## Retirement and completion (R255, R268) -/

/-- The writes that a unit's retirement covers: those of its strands and of its engine commands, and what its strands see. -/
def State.unitCover (s : State) (u : Nat) : View :=
  let x := s.unit u
  (List.range x.slots.length).foldl (fun v i =>
    let w := s.waveOf u i
    let v := View.join v w.acc.cover
    (w.who :: w.cmdNums.flatMap fun n => [2 ^ 40 + n, 2 ^ 44 + n]).foldl (fun v a => View.join v (ownWrites s.hist a)) v) []

/-- The graph that holds a unit. -/
def State.graphOfUnit (s : State) (u : Nat) : Nat :=
  let x := s.unit u
  (SMap.get Launch.empty (s.part x.part).launches x.launch).graph

/-- The launch of a unit. -/
def State.launchOfUnit (s : State) (u : Nat) : Launch :=
  let x := s.unit u
  SMap.get Launch.empty (s.part x.part).launches x.launch

/-- Change a launch. -/
def State.updLaunch (s : State) (part l : Nat) (f : Launch → Launch) : State :=
  s.updPart part fun p => { p with launches := SMap.upd Launch.empty l f p.launches }

end Sys2Proof.Machine
end

