-- ==== Sys2Proof/Machine/Task.lean ====
section
/-! DEFINITION. The task instructions: monitors, weaves, spawn, timelines, dependence decrement and cancel (R194 to R196, R207,
R208, R256 to R259, R263, R267, R269, R362, R382). -/

namespace Sys2Proof.Machine

/-- The instruction issues with a poisoned scalar result (R362, R364). -/
def State.resultBad (s : State) (sw : Bool) (d : Nat) : Out :=
  .next (((s.writeS d 0#64).updStrand fun t =>
    if d = 0 then t else { t with sPoison := t.sPoison ||| BitVec.twoPow 64 d }).retire sw)

/-- Go on with the bytes of a block that an instruction has had read: marked ones trap (R350), an error reply poisons its result (R362), a
spilled page is fetched first (R324), and another fault answers as the instruction says. -/
def State.gotBlock (s : State) (sw : Bool) (r : Nat) (got : Except PFault (List Byte)) (bad : Out) (k : List Byte → Out) : Out :=
  match got with
  | .error .poisoned => .next s.trapBlock
  | .error .refused => s.resultBad sw r
  | .error (.spilled a) => (s.wantPage (s.unit s.curUnit).part (s.unit s.curUnit).space a).stand
  | .error _ => bad
  | .ok b => k b

/-- Read the block of `n` bytes that an instruction names, which sets the reference bits of its pages (R323). -/
def State.readBlock (s : State) (sw : Bool) (r va n : Nat) (bad : Out) (k : List Byte → State → Out) : Out :=
  let u := s.unit s.curUnit
  s.gotBlock sw r (s.readVa s.curUnit u.part u.space va n) bad fun b => k b (s.touchVa u.part u.space va n)

/-- A task instruction starts: a pending store error is delivered, its operand is used, and in a scout task it waits. -/
def State.task (s : State) (r : BitVec 6) (k : Out) : Out := s.syncPoint <| s.statusOp [.s r.toNat] <| s.notScout k

/-- A task instruction that is a release of every object at system scope: it stands until the strand's accesses have
happened (R217, R219). -/
def State.whenQuiet (s : State) (k : Out) : Out := if s.quiet then k else s.stand

/-! ## Monitors (R207, R208, R278) -/

/-- task.marm: after the probe the strand's monitor is armed on the line, with no wake recorded; it takes a courier token. Of a page in
shadow the line is that of L (DESIGN CHOICE, unsafe, log entry 48). A line that no fibre reaches, or that is not live, gets an error
reply: nothing is armed and the result is poisoned (R349, R362). -/
def execTaskMarm (sw : Bool) (r : BitVec 6) (s : State) : Out :=
  s.task r <| s.probing false .read [⟨0, (s.readS r.toNat).toNat, 1, 0#64, 0#64⟩] fun as =>
    if as.any fun l => s.unreachable (s.unit s.curUnit).part l.loc then s.resultBad sw r.toNat
    else s.withCourier fun s =>
      (s.updStrand fun t => { t with monitor := some ⟨(match as with | a :: _ => a.loc / 128 | [] => 0), 0⟩ }).resultS sw r.toNat 0#64

/-- The time-out under which a strand sleeps has passed. -/
def State.timedOut (s : State) (w : Wait) : Bool :=
  match w with
  | .mwait since t => t != 0 && decide (since + t ≤ s.cycle)
  | _ => false

/-- task.mwait: it returns at once with a recorded wake or without a monitor, and otherwise sleeps; it returns the lowest
cause and disarms. -/
def State.mwait (s : State) (sw : Bool) (r : Nat) (timeout : Nat) : Out :=
  let ret := fun (x : Nat) =>
    (s.updStrand fun t => { t with monitor := none }).resultS sw r (BitVec.ofNat 64 x)
  match s.strand.monitor with
  | none => ret 0
  | some m =>
    if m.wake = 1 then ret 1
    else if s.timedOut s.strand.wait then ret 2
    else if m.wake ≠ 0 then ret m.wake
    else match s.strand.wait with
      | .mwait _ _ => s.stand
      | _ => .next (s.blockWith (.mwait s.cycle timeout))

/-- task.mwait (R208). It proceeds in a scout task, whose monitor stands from before its first take. DEDUCED, unsafe (log entry 48). -/
def execTaskMwait (sw : Bool) (r : BitVec 6) (s : State) : Out :=
  s.syncPoint <| s.statusOp [.s r.toNat] <| s.mwait sw r.toNat ((s.readS r.toNat).extractLsb' 0 32).toNat

/-- An access strand asleep in mwait goes on: it is no longer blocked, and its mwait returns at its next turn. -/
def State.wakeUp (s : State) (k : Nat) : State := s.updWave k fun w => { w with acc := { w.acc with blocked := false } }

/-- MONITOR_WAKE: the wake of an armed monitor reaches its sleeping strand (R208). `wave` is the agent number of the strand. -/
def execMonitorWake (wave : Nat) (s : State) : Out :=
  match s.slotBy wave with
  | none => .next s
  | some k =>
    match (s.wave k).acc.wait, (s.wave k).acc.monitor with
    | .mwait _ _, some m => .next (if m.wake ≠ 0 then s.wakeUp k else s)
    | _, _ => .next s

/-- MWAIT_TIMEOUT: the time-out of a sleeping strand has passed (R208). -/
def execMwaitTimeout (wave : Nat) (s : State) : Out :=
  match s.slotBy wave with
  | none => .next s
  | some k => .next (if s.timedOut (s.wave k).acc.wait then s.wakeUp k else s)

/-! ## Weaves (R194 to R196) -/

/-- The status word of wjoin (R195). -/
def joinWord (count slot status : Nat) : W64 := BitVec.ofNat 64 (count * 2 ^ 16 + slot * 2 ^ 8 + status)

/-- The weave of a partition on a die with a key. -/
def State.weaveKeyed (s : State) (part die key : Nat) : Option Nat :=
  (s.weaves.find? fun e => e.2.part == part && e.2.die == die && e.2.key == key).map Prod.fst

/-- The status that a join would have: nonzero bits 63:52 first, then a membership of the cluster, a taken slot, no free
weave. -/
def State.joinStatus (s : State) (x : W64) (slot : Nat) : Nat :=
  let c := s.curCluster
  let die := dieOfCluster c
  let key := bitsOf x.toNat 47 0
  if bitsOf x.toNat 63 52 ≠ 0 then 4
  else if s.weaveOfCluster c ≠ 0 ∨ s.weaveOfUnit s.curUnit ≠ 0 then 1
  else match s.weaveKeyed (s.unit s.curUnit).part die key with
    | some n => if SMap.has (s.weave n).members slot then 2 else 0
    | none => if 32 ≤ (s.weaves.filter fun e => e.2.die == die).length then 3 else 0

/-- The lowest weave number not in use. -/
def State.freeWeave (s : State) : Nat := ((List.range (s.weaves.length + 1)).find? fun n => !SMap.has s.weaves n).getD 0

/-- Place the current unit at a slot of the weave with a key, which is created if it is new, with a release of the creel's
object at weave scope. -/
def State.join (s : State) (key slot : Nat) : State :=
  let u := s.curUnit
  let part := (s.unit u).part
  let die := dieOfCluster s.curCluster
  let n := (s.weaveKeyed part die key).getD s.freeWeave
  let w := s.weave n
  let w := { w with part := part, die := die, key := key, members := SMap.put slot u w.members }
  let s := { s with weaves := SMap.put n w s.weaves }
  let r : Rel := ⟨.creel, 2, s.placeOf s.curWave, s.strand.seqNo, View.only s.strand.cover .creel⟩
  let s := (s.releaseAll [.creel] 2).2
  { s with weaves := SMap.upd Weave.none n (fun w => { w with rels := r :: w.rels }) s.weaves }

/-- wjoin's return once it has joined: with wait, when the awaited count is reached, as an acquire at weave scope. -/
def State.joined (s : State) (sw : Bool) (r : Nat) (count slot : Nat) (wait : Bool) : Out :=
  match s.weaveOfUnit s.curUnit with
  | 0 => s.resultS sw r (joinWord 0 slot 0)
  | n + 1 =>
    let w := s.weave n
    if wait && decide (w.members.length < count) then .next (s.blockWith (.wjoin count slot))
    else
      let s := if wait then
          let me := s.placeOf s.curWave
          let s := s.acquire s.curUnit s.curWave.pos s.strand.seqNo 2 me [.creel]
          s.noteVis s.curUnit s.curWave.pos s.strand.seqNo (acquired .creel 2 me w.rels)
        else s
      s.resultS sw r (joinWord w.members.length slot 0)

/-- task.wjoin (R195). In a cluster that is in a weave already its own slot is the one that it holds; where the cluster is in none the
status word names the slot asked for. DEDUCED, unsafe (log entry 21). -/
def execTaskWjoin (sw : Bool) (r : BitVec 6) (k : BitVec 1) (t : BitVec 4) (s : State) : Out :=
  match s.strand.wait with
  | .wjoin count slot => s.joined sw r.toNat count slot true
  | _ => s.task r <|
    let x := s.readS r.toNat
    let st := s.joinStatus x t.toNat
    if st ≠ 0 then s.resultS sw r.toNat (match s.memberOf s.curUnit s.curCluster with
        | none => joinWord 0 t.toNat st
        | some (w, slot) => joinWord w.members.length slot st)
    else s.whenQuiet <|
      (s.join (bitsOf x.toNat 47 0) t.toNat).joined sw r.toNat (bitsOf x.toNat 51 48 + 1) t.toNat (k == 1#1)

/-- An access from this cluster to another member's creel is in flight (R195). -/
def State.memberAccessOut (s : State) (c : Nat) : Bool :=
  s.flight.any fun e => e.2.creel && (s.unit e.2.unit).cluster == c && e.2.lanes.any fun l => bitsOf l.va 25 22 != 0

/-- task.wleave: a release at weave scope; the cluster's slot is revoked (R193, R195). DEDUCED, unsafe (log entry 21). -/
def execTaskWleave (sw : Bool) (r : BitVec 6) (s : State) : Out :=
  s.task r <|
    match s.weaveOfCluster s.curCluster with
    | 0 => s.resultS sw r.toNat 1#64
    | n + 1 => s.whenQuiet <|
      if s.memberAccessOut s.curCluster then s.stand
      else
        let s := (s.releaseAll [.creel] 2).2
        let holder := ((s.weave n).members.find? fun m => (s.unit m.2).life == .resident && (s.unit m.2).cluster == s.curCluster)
        let s := match holder with
          | some m => s.leaveWeave m.2
          | none => s
        s.resultS sw r.toNat 0#64

/-! ## Timelines (R267, R382) -/

/-- The timeline that an instruction names, in its unit's partition. -/
def State.tline (s : State) (i : BitVec 10) : Timeline := (s.part (s.unit s.curUnit).part).timeline (i.extractLsb' 0 9).toNat

/-- tlwait returns a timeline's value, as an acquire of every object at system scope; a broken one sets status.brk (R266, R382). -/
def State.tlReturn (s : State) (sw : Bool) (r : Nat) (value : W64) (broken : Bool) (rels : List Rel) : Out :=
  if broken then (s.updStrand fun x => { x with csr := { x.csr with brk := true } }).resultS sw r value
  else (s.syncWith rels).resultS sw r value

/-- task.tlwait: polls, or blocks until the value meets the threshold or the timeline is broken; a wait once released stays
released (R266). -/
def execTaskTlwait (sw : Bool) (r : BitVec 6) (i : BitVec 10) (s : State) : Out :=
  match s.strand.wait with
  | .released v broken rels => s.tlReturn sw r.toNat v broken rels
  | _ => s.syncPoint <| s.statusOp [.s r.toNat] <|
    let t := s.tline i
    let h := s.readS r.toNat
    if t.broken || i.getLsbD 9 || decide (h.toNat ≤ t.value.toNat) then s.tlReturn sw r.toNat t.value t.broken t.rels
    else .next (s.blockWith (.timeline (i.extractLsb' 0 9).toNat h))

/-- TIMELINE_RELEASE: a blocked tlwait whose timeline meets its threshold, or is broken, is released with the value it has then (R266). -/
def execTimelineRelease (wave : Nat) (s : State) : Out :=
  match s.slotBy wave with
  | none => .next s
  | some k => match (s.wave k).acc.wait with
    | .timeline n h =>
      let t := (s.part (s.unit (s.wave k).unit).part).timeline n
      if t.broken || decide (h.toNat ≤ t.value.toNat) then
        .next (s.updWave k fun w => { w with acc := { w.acc with blocked := false, wait := .released t.value t.broken t.rels } })
      else .next s
    | _ => .next s

/-- task.tlsig: a release of every object at system scope whose carrier is the update; a backward update is refused, and on a
broken timeline status.brk is set. -/
def execTaskTlsig (sw : Bool) (r : BitVec 6) (i : BitVec 10) (s : State) : Out :=
  s.task r <| s.whenQuiet <|
    let t := s.tline i
    let part := (s.unit s.curUnit).part
    let n := (i.extractLsb' 0 9).toNat
    let die := dieOfCluster s.curCluster
    if t.broken then (s.updStrand fun x => { x with csr := { x.csr with brk := true } }).resultS sw r.toNat t.value
    else
      let v := s.readS r.toNat
      let s := s.signal part n (i.getLsbD 9) v s.sysRelease
      let s := s.updTimeline part n fun t => { t with dies := if t.dies.contains die then t.dies else t.dies ++ [die] }
      s.resultS sw r.toNat t.value

/-! ## task.ddec (R263) -/

/-- task.ddec: the decrement of R262, as a release of every object at system scope; the graph is the executing unit's.
DEDUCED, unsafe (log entry 24). -/
def execTaskDdec (sw : Bool) (r : BitVec 6) (s : State) : Out :=
  s.task r <|
    let a := (s.readS r.toNat).toNat
    if a % 64 ≠ 0 then s.resultS sw r.toNat (BitVec.allOnes 64)
    else s.probing false .atomic [⟨0, a + 8, 4, 0#64, 0#64⟩] fun as => s.whenQuiet <|
      if as.any fun l => s.unreachable (s.unit s.curUnit).part l.loc then s.resultBad sw r.toNat
      else match (s.touchVa (s.unit s.curUnit).part (s.unit s.curUnit).space (a + 8) 4).decrement (s.unit s.curUnit).part
          (s.graphOfUnit s.curUnit) a s.curWave.who s.sysRelease with
        | (none, s) => s.resultBad sw r.toNat
        | (some old, s) =>
          let mine := laneLocs as
          let s := if old = 0 then s else s.noteVis s.curUnit s.curWave.pos s.strand.seqNo (s.justWritten mine)
          s.resultS sw r.toNat (BitVec.ofNat 64 old)

/-! ## task.spawn (R256 to R258) -/

/-- A spawn descriptor obeys R256. -/
def spawnOk (b : List Byte) : Bool :=
  let n := fun (off : Nat) => decide (1 ≤ fieldOf b off 4) && decide (fieldOf b off 4 ≤ 65535)
  n 8 && n 0xC && n 0x10 && bitsOf (fieldOf b 0x14 2) 14 9 == 0 && fieldOf b 0x16 2 == 0 && fieldOf b 0x78 8 == 0

/-- The clusters on which a spawn's place may lie: those of dies that the spawning unit's queue allows. -/
def State.spawnClusters (s : State) (k : Kernel) : List Nat :=
  let u := s.unit s.curUnit
  let mask := ((s.part u.part).queue u.queue).affinity
  (List.range Config.clusters).filter fun c => s.dieAllows u.part mask c && s.fitsOn { k with waves := 1, groups := 1, hasSeq := k.tiles != 0 } c

/-- The place that the scheduler reserves for a spawn: freely chosen among those that fit (R253, R257). DEDUCED, unsafe (log entry 46). -/
def State.spawnSpot (s : State) (k : Kernel) : Option Spot :=
  let pick := fun {α : Type} (tag : Nat) (l : List α) => l[Config.pick s.fresh tag % l.length]?
  match pick 11 (s.spawnClusters k) with
  | none => none
  | some c =>
    match pick 12 ((List.range 32).filter fun i => s.slotFree c i),
          pick 13 ((List.range (Config.creelBytes / 128)).filter fun i => s.creelFree c (128 * i) k.creel) with
    | some slot, some i => some ⟨c, slot, 128 * i, k.creel, k.tiles⟩
    | _, _ => none

/-- The launch of a spawn (R256, R394). One that takes effect after a cancel of the spawning unit has been accepted belongs to the launch
tree that the cancel reaches: it is cancelled, and nothing is reserved for it (R259). -/
def State.spawnLaunch (s : State) (va : Nat) (b : List Byte) (spot : Spot) : Launch :=
  let u := s.unit s.curUnit
  let l := s.launchOfUnit s.curUnit
  let tl := fieldOf b 0x14 2
  { Launch.empty with
    spawn := true, kdesc := fieldOf b 0 8, block := va, counts := (fieldOf b 8 4, fieldOf b 0xC 4, fieldOf b 0x10 4),
    priority := l.priority, affinity := 3, args := (List.range 11).map (fun i => BitVec.ofNat 64 (fieldOf b (0x20 + 8 * i) 8)),
    queue := u.queue, gid := l.gid, graph := l.graph, space := u.space, depth := u.depth + 1, cancelled := l.cancelled,
    tl := (if tl.testBit 15 then some (bitsOf tl 8 0, BitVec.ofNat 64 (fieldOf b 0x18 8)) else none), parent := u.launch,
    resv := (if l.cancelled then none else some spot), seqNo := (s.part u.part).launches.length }

/-- The status word of a spawn. -/
def spawnWord (id st : Nat) : W64 := BitVec.ofNat 64 (id * 2 ^ 32 + st)

/-- task.spawn (R258). -/
def execTaskSpawn (sw : Bool) (r : BitVec 6) (k : BitVec 1) (s : State) : Out :=
  s.task r <|
    let va := (s.readS r.toNat).toNat
    let u := s.unit s.curUnit
    s.probing false .read [⟨0, va, 1, 0#64, 0#64⟩] fun _ =>
      let ret := fun (st : Nat) => s.resultS sw r.toNat (spawnWord 0 st)
      if s.storesOut then s.stand
      else if va % 128 ≠ 0 then ret 3
      else s.readBlock sw r.toNat va 128 (ret 3) fun b s =>
        s.gotBlock sw r.toNat (s.readVa 0 u.part u.space (fieldOf b 0 8) 128) (ret 3) fun kb =>
          let ret := fun (st : Nat) => s.resultS sw r.toNat (spawnWord 0 st)
          match kernelOf kb with
          | none => ret 3
          | some kd =>
            if !spawnOk b then ret 3
            else if !kd.sprout then ret 4
            else if 4 ≤ u.depth then ret 2
            else match s.spawnSpot kd with
              | none => if k = 1#1 then s.stand else ret 1
              | some spot =>
                let (id, s) := s.addLaunch u.part (s.spawnLaunch va b spot)
                s.resultS sw r.toNat (spawnWord id 0)

/-! ## task.cancel (R269) -/

/-- What a cancel's target is: launches and graphs it reaches; or that it has completed, or that there is none. -/
inductive CancelTarget where
  | hit (launches graphs : List Nat)
  | past
  | unknown
  deriving DecidableEq, Repr

/-- Find a cancel's target at a level (R246, R269). -/
def Partition.target (p : Partition) (level : Nat) (x : W64) : CancelTarget :=
  let n := bitsOf x.toNat 31 0
  let qn := bitsOf x.toNat 39 32
  let q := p.queue qn
  let graphs := fun (f : Graph → Bool) => (p.graphs.filter fun e => e.2.queue == qn && !e.2.done && f e.2).map Prod.fst
  match level with
  | 0 =>
    match SMap.find p.launches n with
    | some l => if l.done then (if p.doneLaunches.contains n then .past else .unknown) else .hit [n] []
    | none => if p.doneLaunches.contains n then .past else .unknown
  | 1 =>
    match p.liveGraph n with
    | some g => .hit [] [g.1]
    | none => if p.doneGraphs.contains n then .past else .unknown
  | 2 =>
    if !q.set || decide (q.phase < n) then .unknown
    else if q.phaseDone n then .past else .hit [] (graphs fun g => g.phase == n)
  | _ =>
    if q.jobsDone.contains n then .past
    else if q.set && q.jobs.contains n then .hit [] (graphs fun g => g.job == n)
    else .unknown

/-- The launches that a cancel of given launches and graphs reaches, with every launch spawned from them. -/
def Partition.reached (p : Partition) (launches graphs : List Nat) : List Nat :=
  p.launchTree 5 (launches ++ (p.launches.filter fun e => graphs.contains e.2.graph && !e.2.done).map Prod.fst)

/-- Record a wake with cause 4 in the monitors of the units of launches (R208). -/
def State.wakeCancelled (s : State) (part : Nat) (ls : List Nat) : State :=
  s.wakeWaves (fun w => (s.unit w.unit).part == part && ls.contains (s.unit w.unit).launch) 4

/-- Keep a cancel of a phase or a job with its queue: what later packets add to the level is never placed (R269).
DEDUCED, unsafe (log entry 54). -/
def State.markCancel (s : State) (part level : Nat) (x : W64) : State :=
  let n := bitsOf x.toNat 31 0
  s.updQueue part (bitsOf x.toNat 39 32) fun q => match level with
    | 2 => { q with cancelledPhases := n :: q.cancelledPhases }
    | _ => { q with cancelledJobs := n :: q.cancelledJobs }

/-- Accept a cancel: nothing more of what it reaches is placed, the reservations of its launches are released, the graphs that hold one of
them will report it, and it is carried out later, within 40,000 cycles. -/
def State.acceptCancel (s : State) (part : Nat) (launches graphs : List Nat) : State :=
  let all := (s.part part).reached launches graphs
  let s := s.updPart part fun p =>
    { p with launches := SMap.mapVals (fun k (l : Launch) =>
               if all.contains k && !l.done then { l with cancelled := true, resv := none } else l) p.launches,
             graphs := SMap.mapVals (fun k (g : Graph) =>
               if g.done then g
               else { g with cancelled := g.cancelled || graphs.contains k,
                             lost := g.lost || p.launches.any fun e => all.contains e.1 && !e.2.done && e.2.graph == k }) p.graphs }
  { s.wakeCancelled part all with cancels := s.cancels ++ [⟨s.nextCmd, part, launches, graphs, [], s.cycle, 40000⟩], nextCmd := s.nextCmd + 1 }

/-- Carry out an accepted cancel: the units it reaches stop and give up their places (R155, R181, R212, R269). -/
def State.carryOut (s : State) (c : Cancel) : State :=
  let s := { s with cancels := s.cancels.filter fun x => x.num != c.num }
  let s := c.graphs.foldl (fun s g => s.cancelGraph c.part g) s
  let s := c.units.foldl (fun s u => s.cancelUnit u) s
  s.cancelLaunches c.part c.launches

/-- A strand that a cancel stops still sleeps in mwait with its wake recorded: its mwait returns 4 before the cancel is carried out
(R208). -/
def State.mwaitOwed (s : State) (c : Cancel) : Bool :=
  let all := (s.part c.part).reached c.launches c.graphs
  s.waves.any fun e => e.2.live && ((s.unit e.2.unit).part == c.part && all.contains (s.unit e.2.unit).launch || c.units.contains e.2.unit)
    && (match e.2.acc.wait, e.2.acc.monitor with
        | .mwait _ _, some m => m.wake != 0
        | _, _ => false)

/-- Carry out the accepted cancels whose moment has come: freely chosen, at the latest when its limit has passed, but not before an mwait
that it has woken returns 4 (R208, R269, R322). -/
def State.runCancels (s : State) : State :=
  s.cancels.foldl (fun x c =>
    if !s.mwaitOwed c ∧ (Config.pick s.fresh (20 + c.num) % 2 = 1 ∨ c.since + c.limit ≤ s.cycle) then x.carryOut c else x) s

/-- task.cancel (R269). -/
def execTaskCancel (sw : Bool) (r : BitVec 6) (k : BitVec 1) (l : BitVec 2) (s : State) : Out :=
  match s.strand.wait with
  | .cancel num => if s.cancels.any fun c => c.num == num then s.stand else s.resultS sw r.toNat 0#64
  | _ => s.task r <|
    let u := s.unit s.curUnit
    match (s.part u.part).target l.toNat (s.readS r.toNat) with
    | .unknown => s.resultS sw r.toNat 1#64
    | .past => s.resultS sw r.toNat 2#64
    | .hit ls gs =>
      let own := ((s.part u.part).reached ls gs).contains u.launch
      let num := s.nextCmd
      let s' := s.acceptCancel u.part ls gs
      let s' := if l.toNat < 2 then s' else s'.markCancel u.part l.toNat (s.readS r.toNat)
      if k = 1#1 && !own then .next (s'.blockWith (.cancel num)) else s'.resultS sw r.toNat 0#64

end Sys2Proof.Machine
end

