-- ==== Sys2Proof/Machine/Image.lean ====
section
/-! DEFINITION. The context image of a stopped unit: its layout (R371 to R374), and what a debugger reads and writes in it (R375, R377).
The image frames are mapped by no space of a partition, so that no other agent reaches them. -/

namespace Sys2Proof.Machine

/-- A number made of bits. -/
def bitsWord (fs : List (Nat × Bool)) : Nat := fs.foldl (fun acc f => if f.2 then acc + 2 ^ f.1 else acc) 0
/-- The 256 bytes of 64 lanes of 32 bits. -/
def vecBytes (v : Vec) : List Byte := (List.range 64).flatMap fun l => leBytes 4 (Lanes.get32 v l).toNat
/-- The 512 bytes of 64 lanes of 64 bits. -/
def xvecBytes (v : XVec) : List Byte := (List.range 64).flatMap fun l => leBytes 8 (Lanes.get64 v l).toNat

/-- The 256 bytes of a strand's registers other than s and p (R372). -/
def Strand.image (t : Strand) : List (Nat × List Byte) :=
  let flags := bitsWord [(0, t.csr.inHandler), (1, t.yielded), (2, t.ended), (3, t.storeErr.isSome), (4, t.csr.brk),
    (5, t.monitor.isSome), (6, match t.monitor with | some m => m.wake != 0 | none => false)]
  let line := match t.monitor with
    | some m => 128 * m.line
    | none => 0
  [(0x00, t.pc.toNat), (0x08, t.mode.toNat), (0x10, t.csr.handler.toNat), (0x18, t.csr.trapPc.toNat), (0x20, t.csr.cause.toNat),
   (0x28, t.csr.info.toNat), (0x30, t.csr.trapMode.toNat), (0x38, t.csr.scratch.toNat), (0x40, t.csr.faultAddr.toNat),
   (0x48, t.csr.faultEaddr.toNat), (0x50, t.csr.faultLane.toNat), (0x58, flags), (0x60, line),
   (0x68, t.vwinBase.toNat * 256 + t.vwinSize.toNat), (0x70, t.sPoison.toNat), (0x78, t.pPoison.toNat)].map fun e => (e.1, leBytes 8 e.2)

/-- The queues of a wave in the order of the counts at 0x880: the number of entries of each. -/
def Wave.counts (w : Wave) : List Nat :=
  (List.range 8).map (fun q => (SMap.get [] w.lq q).length) ++ (List.range 4).map (fun q => (SMap.get [] w.wq q).length)
    ++ [w.hq0.length, w.hq1.length] ++ (List.range 7).map (fun e => (SMap.get [] w.eqCmd e).length)
    ++ (List.range 7).map fun e => (SMap.get [] w.eqDone e).length

/-- The batches of a wave: the open number and counter, the failed bits of the open batch and then of the closed ones, and the
closed batches, which are those that have not completed, 16 at most (R202, R372). DEDUCED, unsafe (log entry 27). -/
def Wave.batchImage (w : Wave) : List (Nat × List Byte) :=
  let closed := (w.closed.filter fun b => !b.empty).take 16
  let failed := bitsWord ((List.range (closed.length + 1)).map fun i => (i, ((w.openBatch :: closed).getD i w.openBatch).failed))
  [(0x700, leBytes 4 w.openBatch.num.toNat), (0x704, leBytes 4 w.openBatch.pending), (0x708, leBytes 8 failed)]
    ++ (List.range closed.length).map fun i =>
      let b := closed.getD i w.openBatch
      (0x710 + 8 * i, leBytes 4 b.num.toNat ++ leBytes 4 b.pending)

/-- Consecutive fields of one size. -/
def fieldsAt (base size n : Nat) (f : Nat → List Byte) : List (Nat × List Byte) := (List.range n).map fun i => (base + size * i, f i)

/-- The entries of vector queues, each with 8 places of 256 bytes. -/
def entriesAt (base : Nat) (qs : SMap (List VEntry)) (n : Nat) (f : VEntry → List Byte) (size : Nat) : List (Nat × List Byte) :=
  (List.range n).flatMap fun q =>
    let es := SMap.get [] qs q
    fieldsAt (base + 8 * size * q) size es.length fun i => match es[i]? with
      | some e => f e
      | none => []

/-- The words of a scalar queue. -/
def wordsAt (base : Nat) (ws : List W64) : List (Nat × List Byte) := fieldsAt base 8 ws.length fun i => leBytes 8 (ws.getD i 0#64).toNat

/-- A wave record (R372): its pieces by offset; what lies between them is 0. -/
def Wave.image (w : Wave) : List (Nat × List Byte) :=
  w.acc.image ++ w.cmp.image.map (fun e => (0x100 + e.1, e.2))
    ++ fieldsAt 0x200 8 64 (fun r => leBytes 8 (w.acc.sreg r).toNat) ++ fieldsAt 0x400 8 64 (fun r => leBytes 8 (w.cmp.sreg r).toNat)
    ++ fieldsAt 0x600 8 16 (fun r => leBytes 8 (w.acc.preg r).toNat) ++ fieldsAt 0x680 8 16 (fun r => leBytes 8 (w.cmp.preg r).toNat)
    ++ w.batchImage
    ++ wordsAt 0x800 (w.hq0.map QEntry.val) ++ wordsAt 0x840 (w.hq1.map QEntry.val)
    ++ [(0x880, w.counts.map (BitVec.ofNat 8))]
    ++ ((List.range 7).flatMap fun e => wordsAt (0x900 + 64 * e) ((SMap.get [] w.eqCmd e).map QEntry.val))
    ++ ((List.range 7).flatMap fun e => wordsAt (0xAC0 + 64 * e) ((SMap.get [] w.eqDone e).map QEntry.val))
    ++ fieldsAt 0x1000 512 32 (fun r => xvecBytes (w.xreg r))
    ++ entriesAt 0x5000 w.lq 8 (fun e => vecBytes e.data) 256 ++ entriesAt 0x9000 w.wq 4 (fun e => vecBytes e.data) 256
    ++ entriesAt 0xB000 w.lq 8 (fun e => leBytes 8 e.valid.toNat) 8 ++ entriesAt 0xB200 w.wq 4 (fun e => leBytes 8 e.valid.toNat) 8
    ++ fieldsAt 0xB300 8 256 (fun r => leBytes 8 (SMap.get 0#64 w.vPoison r).toNat)
    ++ fieldsAt 0xBB00 8 32 (fun r => leBytes 8 (SMap.get 0#64 w.xPoison r).toNat)
    ++ entriesAt 0xBC00 w.lq 8 (fun e => leBytes 8 e.poison.toNat) 8 ++ entriesAt 0xBE00 w.wq 4 (fun e => leBytes 8 e.poison.toNat) 8
    ++ fieldsAt 0x10000 256 256 fun r => vecBytes (w.vreg r)

/-- A deposited reply in its slot, for wave `w` of its workgroup (R374). The strand is always the access strand, 0. -/
def Reply.bytes (r : Reply) (w : Nat) : List Byte :=
  leBytes 8 r.val.toNat ++ leBytes 1 w ++ leBytes 1 0 ++ leBytes 1 r.reg ++ leBytes 1 (1 + if r.poisoned then 2 else 0) ++ leBytes 4 0

/-- Waves of one workgroup of a unit. -/
def UnitRec.groupWaves (x : UnitRec) : Nat := (SMap.get 1#64 x.lc 9).toNat

/-- A take in its 16 bytes of the header: stream, version, status and backing, which the spec lists and does not place, four bytes each in
that order. DESIGN CHOICE, unsafe (log entry 27). -/
def Take.bytes (t : Take) : List Byte :=
  leBytes 4 t.stream ++ leBytes 4 t.version.toNat ++ leBytes 4 t.status ++ leBytes 4 (t.backings.getD 0 0)

/-- lc`i` in the header of workgroup `g`: those that differ from wave to wave are its first wave's, and its place is the one that it was
saved from. DEDUCED, unsafe (log entry 27). -/
def UnitRec.headerLc (x : UnitRec) (g i : Nat) : Nat :=
  let k := x.slots.getD (g * x.groupWaves) 0
  match i with
  | 7 => 0
  | 8 => (SMap.get (BitVec.ofNat 64 g) x.lcSet (32 * g + 8)).toNat
  | 11 => clusterOfSlot k
  | 12 => k % 32 / 8
  | 13 => k % 8
  | 14 => dieOfCluster (clusterOfSlot k)
  | _ => (SMap.get (SMap.get 0#64 x.lc i) x.lcSet (32 * g + i)).toNat

/-- The header of workgroup `g` of a saved unit (R371), with the replies to its own waves. -/
def State.groupHeader (s : State) (u g : Nat) : List (Nat × List Byte) :=
  let x := s.unit u
  let n := x.groupWaves
  let ws := (x.image.drop (g * n)).take n
  let bits := fun (f : Wave → Bool) => bitsWord ((List.range ws.length).map fun i => (i, f (ws.getD i Wave.idle)))
  let ended := bitsWord ((List.range ws.length).flatMap fun i =>
    [(2 * i, (ws.getD i Wave.idle).acc.ended), (2 * i + 1, (ws.getD i Wave.idle).cmp.ended)])
  let tag := fun (i : Nat) => x.tags[i]?
  let replies := x.replies.filter fun r => r.wave / n == g
  let member := match s.weaveOfUnit u with
    | 0 => 0
    | n + 1 => match (s.weave n).members.find? fun m => m.2 == u with
      | some m => (s.weave n).key % 2 ^ 48 + m.1 % 16 * 2 ^ 48 + 2 ^ 63
      | none => 0
  [(0x000, leBytes 4 1), (0x004, leBytes 1 n), (0x005, leBytes 1 g), (0x006, leBytes 1 (SMap.get 1#64 x.lc 10).toNat),
   (0x007, leBytes 1 x.why), (0x008, leBytes 4 x.launch)]
    ++ fieldsAt 0x010 4 ws.length (fun i => leBytes 4 (ws.getD i Wave.idle).gbars)
    ++ [(0x030, leBytes 1 (bits fun w => match w.acc.wait with | .gbar _ _ => true | _ => false)),
        (0x031, leBytes 1 (bits fun w => w.acc.yielded)), (0x032, leBytes 1 (bits fun w => w.cmp.yielded)), (0x033, leBytes 2 ended)]
    ++ fieldsAt 0x040 8 32 (fun i => leBytes 8 (x.headerLc g i))
    ++ fieldsAt 0x140 2 16 (fun i => leBytes 2 (match tag i with | some t => t.2 | none => 0xFFFF))
    ++ fieldsAt 0x160 2 16 (fun i => leBytes 2 (match tag i with | some t => t.1 | none => 0))
    ++ fieldsAt 0x180 16 x.takes.length (fun i => match x.takes[i]? with | some t => t.bytes | none => [])
    ++ fieldsAt 0x200 16 replies.length (fun i => match replies[i]? with | some r => r.bytes (r.wave % n) | none => [])
    ++ [(0x600, leBytes 8 member)]

/-- The sequencer record (R373). In-flight records are not laid out further: they are free. -/
def Seq.image (q : Seq) (free : Nat → Byte) : List (Nat × List Byte) :=
  let t := q.strand
  let counts := (List.range 32).flatMap fun k => [(SMap.get [] q.cmdQ k).length, (SMap.get [] q.doneQ k).length]
  let tile := fun (i : Nat) => (List.range 4096).flatMap fun e => leBytes 4 (SMap.get 0#32 q.acc (4096 * i + e)).toNat
  let marks := fun (i : Nat) => (List.range 512).map fun b =>
    BitVec.ofNat 8 (bitsWord ((List.range 8).map fun k => (k, SMap.get false q.accPoison (4096 * i + 8 * b + k))))
  [(0x000, leBytes 8 t.pc.toNat), (0x008, leBytes 8 q.client.toNat), (0x010, leBytes 8 t.csr.handler.toNat),
   (0x018, leBytes 8 t.csr.trapPc.toNat), (0x020, leBytes 8 t.csr.cause.toNat), (0x028, leBytes 8 t.csr.info.toNat),
   (0x030, leBytes 8 t.csr.scratch.toNat), (0x038, leBytes 8 (if t.csr.inHandler then 1 else 0))]
    ++ fieldsAt 0x040 4 8 (fun i => leBytes 4 (SMap.get 0xC3FFE000#32 q.f i).toNat)
    ++ fieldsAt 0x100 8 64 (fun r => leBytes 8 (t.sreg r).toNat)
    ++ ((List.range 32).flatMap fun k => wordsAt (0x300 + 128 * k) ((SMap.get [] q.cmdQ k).map QEntry.val)
          ++ wordsAt (0x340 + 128 * k) ((SMap.get [] q.doneQ k).map QEntry.val))
    ++ [(0x1300, counts.map (BitVec.ofNat 8))]
    ++ fieldsAt 0x1400 64 q.flight.length (fun i => (List.range 64).map fun j => free (64 * i + j))
    ++ fieldsAt 0x2000 16384 q.tiles tile ++ fieldsAt (0x2000 + 16384 * q.tiles) 512 q.tiles marks

/-- A saved wave with the words of its mailbox among its engine queues, under eq6 (R135, R372). -/
def UnitRec.withMail (x : UnitRec) (i : Nat) : Wave :=
  let w := x.image.getD i Wave.idle
  match x.imageSeq with
  | .none => w
  | .some q =>
    let k := x.slots.getD i 0 % 32
    { w with eqCmd := SMap.put 6 (SMap.get [] q.cmdQ k) w.eqCmd, eqDone := SMap.put 6 (SMap.get [] q.doneQ k) w.eqDone }

/-- The waves of workgroup `g` of a saved unit, as their records have them. -/
def UnitRec.groupRecords (x : UnitRec) (g : Nat) : List Wave :=
  ((List.range x.image.length).map x.withMail).drop (g * x.groupWaves) |>.take x.groupWaves

/-- Bytes of a wave record (R372). -/
def waveRecordBytes : Nat := 0x20000

/-- Where the sequencer record stands in the image of workgroup 0 (R373). -/
def UnitRec.seqAt (x : UnitRec) : Nat := (0x800 + x.groupWaves * waveRecordBytes + x.creelBytes + x.creelBytes / 32 + 127) / 128 * 128

/-- Bytes of the image of workgroup `g` (R371 to R373). -/
def UnitRec.imageBytes (x : UnitRec) (g : Nat) : Nat :=
  if g ≠ 0 then 0x800 + x.groupWaves * waveRecordBytes
  else if x.imageSeq.isSome then x.seqAt + 0x2000 + x.tiles * 16896
  else 0x800 + x.groupWaves * waveRecordBytes + x.creelBytes + x.creelBytes / 32

/-- The image of workgroup `g` of a saved unit: its header, its wave records, and for workgroup 0 the creel allotment, its full/empty
bitmap and the sequencer record (R371 to R373). -/
def State.groupImage (s : State) (u g : Nat) : List (Nat × List Byte) :=
  let x := s.unit u
  let n := x.groupWaves
  let ws := x.groupRecords g
  let at' := fun (off : Nat) (ps : List (Nat × List Byte)) => ps.map fun e => (off + e.1, e.2)
  let waves := (List.range ws.length).flatMap fun i => at' (0x800 + i * waveRecordBytes) (ws.getD i Wave.idle).image
  if g ≠ 0 then s.groupHeader u g ++ waves
  else
    let base := 0x800 + n * waveRecordBytes
    let bitmap := (List.range (x.creelBytes / 32)).map fun b =>
      BitVec.ofNat 8 (bitsWord ((List.range 8).map fun k => (k, SMap.get false x.imageFull (8 * b + k))))
    s.groupHeader u g ++ waves ++ [(base, Mem.bytes x.imageCreel 0 x.creelBytes), (base + x.creelBytes, bitmap)]
      ++ match x.imageSeq with
        | some q => at' x.seqAt (q.image fun j => Config.freeByte x.deadline (2 ^ 20 * u + 2 ^ 16 + j))
        | none => []

/-- The byte at an offset of an image; bytes that no piece covers are 0. -/
def imageByte : List (Nat × List Byte) → Nat → Byte
  | [], _ => 0#8
  | p :: ps, off => if p.1 ≤ off ∧ off < p.1 + p.2.length then p.2.getD (off - p.1) 0#8 else imageByte ps off

/-! ## The debugger's view (R375) -/

/-- The unit of a partition that a launch identifier and a position name. -/
def State.debugUnit (s : State) (part launch pos : Nat) : Option Nat :=
  (s.units.find? fun e => e.2.part == part && e.2.launch == launch && e.2.pos == pos && e.2.life != .gone && e.2.life != .waiting).map Prod.fst

/-- The debug block of a partition. -/
def State.dbg (s : State) (part : Nat) : Debug := SMap.get Debug.zero s.debug part
/-- The 64 bytes of a debug block (R375). Reserved bits of the strand byte read 0 (R3). -/
def Debug.bytes (d : Debug) : List Byte :=
  leBytes 8 d.cmd ++ leBytes 4 d.launch ++ leBytes 4 0 ++ leBytes 8 (d.pos % 2 ^ 48) ++ leBytes 1 (d.strand &&& 0x37) ++ leBytes 7 0 ++ leBytes 8 d.image
    ++ leBytes 1 d.status ++ leBytes 23 0

/-- A debugger's write of bytes from an offset of the block: launch, position and strand are its own to write, image and status are not;
cmd comes last, and is in the block until its event has answered it. A value that names no command is malformed, and so is a step of a
strand byte that was written with a reserved bit. DEDUCED, unsafe (log entry 28). -/
def Debug.write (d : Debug) (off : Nat) (bs : List Byte) : Debug :=
  let new := (List.range 64).map fun i => if off ≤ i ∧ i < off + bs.length then bs.getD (i - off) 0#8 else d.bytes.getD i 0#8
  let strand := if off ≤ 0x18 ∧ 0x18 < off + bs.length then fieldOf new 0x18 1 else d.strand
  let d := { d with launch := fieldOf new 8 4, pos := fieldOf new 0x10 6, strand := strand }
  let cmd := fieldOf new 0 8
  if 8 ≤ off then d else if 1 ≤ cmd ∧ cmd ≤ 4 then { d with cmd := cmd } else { d with cmd := 0, status := 3 }

/-- The partition in whose debug block `n` bytes from a guest address lie, and their offset (R375). -/
def State.debugIn (s : State) (a n : Nat) : Option (Nat × Nat) :=
  (s.parts.find? fun p => p.2.started && decide (Config.debugBlock p.1 ≤ a) && decide (a + n ≤ Config.debugBlock p.1 + 64)).map
    fun p => (p.1, a - Config.debugBlock p.1)

/-- A debugger writes in a partition's debug block. -/
def State.debugWrite (s : State) (part off : Nat) (bs : List Byte) : State :=
  { s with debug := SMap.put part ((s.dbg part).write off bs) s.debug }

/-- The byte at an offset of the image of workgroup `g`, with what the debugger has written there. -/
def State.imageRead (s : State) (u g off : Nat) : Byte :=
  match SMap.find (s.unit u).edits (2 ^ 32 * g + off) with
  | some b => b
  | none => imageByte (s.groupImage u g) off

/-- The mapped image in which `n` bytes from a guest address lie: unit, workgroup and offset. DEDUCED, unsafe (log entry 27). -/
def State.imageIn (s : State) (a n : Nat) : Option (Nat × Nat × Nat) :=
  s.units.findSome? fun e => match e.2.life, e.2.mappedAt with
    | .stopped, some base => (List.range (SMap.get 1#64 e.2.lc 10).toNat).findSome? fun g =>
        let b := if g = 0 then base else Config.imagePlace base g
        if 0 < n ∧ b ≤ a ∧ a + n ≤ b + e.2.imageBytes g then some (e.1, g, a - b) else none
    | _, _ => none

/-- An offset lies among given fields: offsets with their bytes. -/
def inFields (fs : List (Nat × Nat)) (o : Nat) : Bool := fs.any fun f => decide (f.1 ≤ o) && decide (o < f.1 + f.2)

/-- What a debugger may write of a wave record: the registers, marks and queue fields that R372 places. -/
def waveFields : List (Nat × Nat) :=
  let one : List (Nat × Nat) := [(0, 8), (0x08, 2), (0x10, 8), (0x18, 8), (0x20, 1), (0x28, 8), (0x30, 2), (0x38, 8), (0x40, 8),
    (0x48, 8), (0x50, 1), (0x58, 1), (0x70, 8), (0x78, 2)]
  let strand := fun (b : Nat) => one.map fun f => (b + f.1, f.2)
  strand 0 ++ strand 0x100 ++ [(0x168, 2), (0x200, 0x500), (0x800, 0x9C), (0x900, 0x380), (0x1000, 0xAF00), (0x10000, 0x10000)]

/-- The same of a sequencer record, its in-flight records among them (R373). -/
def seqFields (tiles : Nat) : List (Nat × Nat) :=
  [(0, 9), (0x10, 17), (0x28, 17), (0x40, 0x20), (0x100, 0x200), (0x300, 0x1040), (0x1400, 0x600), (0x2000, 16896 * tiles)]

/-- What may be written of a byte at an offset of a wave record: all of it but the reserved bits of mode words, handlers, fault.lane and
the flags, of which in handler and status.brk may, and s0, p0 and their marks (R3, R10, R35, R353, R372). -/
def waveMask (o : Nat) : Byte :=
  if inFields [(0x200, 8), (0x400, 8), (0x600, 8), (0x680, 8)] o then 0#8
  else match (if 0x100 ≤ o ∧ o < 0x200 then o - 0x100 else o) with
    | 0x08 | 0x30 => 0xF8#8
    | 0x10 => 0xFC#8
    | 0x50 => 0x3F#8
    | 0x58 => 0x11#8
    | 0x70 | 0x78 => 0xFE#8
    | _ => 0xFF#8

/-- The same of a sequencer record: not its trap.flags but in handler, its handler's low bits, and s0 (R353, R373). -/
def seqMask (o : Nat) : Byte :=
  if inFields [(0x100, 8)] o then 0#8
  else match o with
    | 0x10 => 0xFC#8
    | 0x38 => 0x01#8
    | _ => 0xFF#8

/-- What a debugger may write at an offset of the image of workgroup `g`, as a mask of the byte's bits: the fields of R375, the launch
constants of the header among them. -/
def UnitRec.imageMask (x : UnitRec) (g off : Nat) : Byte :=
  let o := off - 0x800
  if off < 0x800 then (if 0x40 ≤ off ∧ off < 0x140 then 0xFF#8 else 0#8)
  else if o < x.groupWaves * waveRecordBytes then
    let o := o % waveRecordBytes
    if inFields waveFields o then waveMask o else 0#8
  else if g = 0 ∧ x.imageSeq.isSome ∧ x.seqAt ≤ off ∧ inFields (seqFields x.tiles) (off - x.seqAt) then seqMask (off - x.seqAt)
  else 0#8

/-- The debugger writes bytes in a mapped image; they count when the unit resumes. What is none of the fields of R375 keeps what it holds: a
reserved bit reads 0. -/
def State.imageWrite (s : State) (u g off : Nat) (bs : List Byte) : State :=
  let x := s.unit u
  s.updUnit u fun y => { y with edits := (List.range bs.length).foldl (fun m i =>
    let k := x.imageMask g (off + i)
    if k = 0#8 then m
    else SMap.put (2 ^ 32 * g + off + i) ((bs.getD i 0#8 &&& k) ||| (s.imageRead u g (off + i) &&& ~~~k)) m) y.edits }

/-! ## What its writes change (R375)

A field is written by the bytes that the debugger has written in it, over the bytes that it held. Registers with their marks, tiles,
predicates, control registers, launch constants and queue fields are changed; the rest of the image is not the debugger's to write, and a written in-flight
record fails its check. -/

/-- The number in `n` bytes at an offset, where one of them has been written. -/
def editAt (f : Nat → Option Byte) (old : Nat → Byte) (o n : Nat) : Option Nat :=
  if (List.range n).any fun i => (f (o + i)).isSome then some (leNat ((List.range n).map fun i => (f (o + i)).getD (old (o + i)))) else none

/-- A field after an edit. -/
def editBits {n : Nat} (old : BitVec n) (x : Option Nat) : BitVec n :=
  match x with
  | some v => BitVec.ofNat n v
  | none => old

/-- The control registers, scalars and predicates of a strand, at their offsets in a record; only a compute strand has a window (R372). A
written control register is no longer marked (R365). -/
def Strand.edited (t : Strand) (get : Nat → Nat → Option Nat) (ctl regs preds : Nat) (window : Bool) : Strand :=
  let w := fun {n : Nat} (o : Nat) (old : BitVec n) => editBits old (get (ctl + o) 8)
  let flag := fun (i : Nat) (old : Bool) => match get (ctl + 0x58) 8 with
    | some v => v.testBit i
    | none => old
  let c := t.csr
  let csr : Csrs :=
    { handler := w 0x10 c.handler &&& ~~~3#64, trapPc := w 0x18 c.trapPc, cause := w 0x20 c.cause, info := w 0x28 c.info,
      trapMode := storeMode (w 0x30 c.trapMode), scratch := w 0x38 c.scratch, inHandler := flag 0 c.inHandler,
      faultAddr := w 0x40 c.faultAddr, faultEaddr := w 0x48 c.faultEaddr, faultLane := w 0x50 c.faultLane, brk := flag 4 c.brk }
  let vw := if window then (get (ctl + 0x68) 8).map (BitVec.ofNat 64) else none
  let file := fun (base n : Nat) (m : SMap W64) => (List.range n).foldl (fun m r => match get (base + 8 * r) 8 with
    | some v => if r = 0 then m else SMap.put r (BitVec.ofNat 64 v) m
    | none => m) m
  let written := [(0x08, 0x020), (0x10, 0x050), (0x18, 0x051), (0x20, 0x052), (0x28, 0x053), (0x30, 0x054), (0x38, 0x055), (0x40, 0x058),
    (0x48, 0x059), (0x50, 0x05A), (0x58, 0x056), (0x58, 0x041), (0x68, 0x021)].filter fun e => (get (ctl + e.1) 8).isSome
  { t with pc := w 0 t.pc, mode := storeMode (w 8 t.mode), csr := csr,
           ctlBad := t.ctlBad.filter fun n => !written.any fun e => e.2 == n,
           vwinBase := (match vw with | some x => storeWinBase x | none => t.vwinBase),
           vwinSize := (match vw with | some x => storeWinSize x | none => t.vwinSize),
           sPoison := w 0x70 t.sPoison &&& ~~~1#64, pPoison := w 0x78 t.pPoison &&& ~~~1#64, s := file regs 64 t.s, p := file preds 16 t.p }

/-- A queue with as many entries as its count says, each edited. -/
def editQueue {α : Type} (count : Option Nat) (blank : α) (es : List α) (f : Nat → α → α) : List α :=
  (List.range (min Config.queueDepth (count.getD es.length))).map fun i => f i (es.getD i blank)

/-- A wave record after a debugger's writes (R372). -/
def Wave.edited (w : Wave) (f : Nat → Option Byte) : Wave :=
  let get := editAt f (imageByte w.image)
  let hit := fun (o n : Nat) => (List.range n).any fun i => (f (o + i)).isSome
  let vec := fun (o : Nat) (v : Vec) => Lanes.ofFn fun l => editBits (Lanes.get32 v l) (get (o + 4 * l) 4)
  let xvec := fun (o : Nat) (v : XVec) => Lanes.ofFn fun l => editBits (Lanes.get64 v l) (get (o + 8 * l) 8)
  let marks := fun (base n : Nat) (m : SMap W64) => (List.range n).foldl (fun m r => match get (base + 8 * r) 8 with
    | some v => SMap.put r (BitVec.ofNat 64 v) m
    | none => m) m
  let count := fun (k : Nat) => get (0x880 + k) 1
  let keep := fun {β : Type} [DecidableEq β] (q : Nat) (old new : List β) (m : SMap (List β)) => if new = old then m else SMap.put q new m
  let vq := fun (k data valid poison : Nat) (q : Nat) (m : SMap (List VEntry)) =>
    let es := SMap.get [] m q
    keep q es (editQueue (count (k + q)) ⟨Lanes.zero32, 0#64, 0#64, 0#64, 0, 0⟩ es fun i e =>
      { e with data := vec (data + 2048 * q + 256 * i) e.data, valid := editBits e.valid (get (valid + 64 * q + 8 * i) 8),
               poison := editBits e.poison (get (poison + 64 * q + 8 * i) 8) }) m
  let qq := fun (k base : Nat) (es : List QEntry) => editQueue (count k) ⟨0#64, false, 0⟩ es fun i e =>
    { e with val := editBits e.val (get (base + 8 * i) 8) }
  { w with
    acc := w.acc.edited get 0 0x200 0x600 false, cmp := w.cmp.edited get 0x100 0x400 0x680 true,
    v := (List.range 256).foldl (fun m r => if hit (0x10000 + 256 * r) 256 then SMap.put r (vec (0x10000 + 256 * r) (w.vreg r)) m else m) w.v,
    x := (List.range 32).foldl (fun m r => if hit (0x1000 + 512 * r) 512 then SMap.put r (xvec (0x1000 + 512 * r) (w.xreg r)) m else m) w.x,
    vPoison := marks 0xB300 256 w.vPoison, xPoison := marks 0xBB00 32 w.xPoison,
    lq := (List.range 8).foldl (fun m q => vq 0 0x5000 0xB000 0xBC00 q m) w.lq,
    wq := (List.range 4).foldl (fun m q => vq 8 0x9000 0xB200 0xBE00 q m) w.wq,
    hq0 := qq 12 0x800 w.hq0, hq1 := qq 13 0x840 w.hq1,
    eqCmd := (List.range 7).foldl (fun m e =>
      let es := SMap.get [] m e
      keep e es (qq (14 + e) (0x900 + 64 * e) es) m) w.eqCmd,
    eqDone := (List.range 7).foldl (fun m e => let es := SMap.get [] m e; keep e es (qq (21 + e) (0xAC0 + 64 * e) es) m) w.eqDone }

/-- The 128 bytes of queue words that a mailbox queue has at an offset, after an edit. -/
def editMail (get : Nat → Nat → Option Nat) (base count : Nat) (qs : SMap (List QEntry)) : SMap (List QEntry) :=
  (List.range 32).foldl (fun m k =>
    let es : List QEntry := SMap.get [] m k
    let new : List QEntry := editQueue (get (0x1300 + 2 * k + count) 1) ⟨0#64, false, 0⟩ es fun i e =>
      { e with val := editBits e.val (get (base + 128 * k + 8 * i) 8) }
    if new = es then m else SMap.put k new m) qs

/-- The sequencer record after a debugger's writes; a written in-flight record fails its check, which traps with "format limit" at its
instruction (R373). -/
def Seq.edited (q : Seq) (f : Nat → Option Byte) : Seq :=
  let get := editAt f (imageByte (q.image fun _ => 0#8))
  let t := q.strand
  let c := t.csr
  let w := fun {n : Nat} (o : Nat) (old : BitVec n) => editBits old (get o 8)
  let bad := (List.range q.flight.length).filter fun i => (List.range 64).any fun j => (f (0x1400 + 64 * i + j)).isSome
  let csr := { c with handler := w 0x10 c.handler &&& ~~~3#64, trapPc := w 0x18 c.trapPc, cause := w 0x20 c.cause, info := w 0x28 c.info,
                      scratch := w 0x30 c.scratch, inHandler := (match get 0x38 8 with | some v => v.testBit 0 | none => c.inHandler) }
  let tile := 0x2000 + 16384 * q.tiles
  { q with
    strand := { t with pc := w 0 t.pc, csr := csr,
                       s := (List.range 64).foldl (fun m r => match get (0x100 + 8 * r) 8 with
                         | some v => if r = 0 then m else SMap.put r (BitVec.ofNat 64 v) m
                         | none => m) t.s },
    client := (match get 8 8 with | some v => storeClient (BitVec.ofNat 64 v) | none => q.client),
    f := (List.range 8).foldl (fun m i => match get (0x40 + 4 * i) 4 with | some v => SMap.put i (BitVec.ofNat 32 v) m | none => m) q.f,
    flight := (List.range q.flight.length).filterMap fun i => (q.flight[i]?).map fun o => { o with bad := o.bad || bad.contains i },
    acc := (List.range (4096 * q.tiles)).foldl (fun m e => match get (0x2000 + 4 * e) 4 with
      | some v => SMap.put e (BitVec.ofNat 32 v) m
      | none => m) q.acc,
    accPoison := (List.range (512 * q.tiles)).foldl (fun m b => match f (tile + b) with
      | some v => (List.range 8).foldl (fun m k => SMap.put (8 * b + k) (v.getLsbD k) m) m
      | none => m) q.accPoison,
    cmdQ := editMail get 0x300 0 q.cmdQ, doneQ := editMail get 0x340 1 q.doneQ }

/-- A sequencer's mailbox as the records of its waves have it. -/
def Seq.takeMail (q : Seq) (slots : List Nat) (ws : List Wave) : Seq :=
  let put := fun (f : Wave → SMap (List QEntry)) (m : SMap (List QEntry)) => (slots.zip ws).foldl (fun m e =>
    let new := SMap.get [] (f e.2) 6
    if new = SMap.get [] m (e.1 % 32) then m else SMap.put (e.1 % 32) new m) m
  { q with cmdQ := put Wave.eqCmd q.cmdQ, doneQ := put Wave.eqDone q.doneQ }

/-- The launch constants that a debugger has written in the headers of a unit's workgroups, over those it wrote before. lc7 and lc11 to
lc14 are a wave's or its place's, and a read gives them afresh. DEDUCED, unsafe (log entry 27). -/
def UnitRec.lcEdited (x : UnitRec) : SMap W64 :=
  (List.range (SMap.get 1#64 x.lc 10).toNat).foldl (fun m g =>
    ((List.range 32).filter fun i => !([7, 11, 12, 13, 14].contains i)).foldl (fun m i =>
      match editAt (fun o => SMap.find x.edits (2 ^ 32 * g + o)) (fun o => (leBytes 8 (x.headerLc g i)).getD (o - (0x40 + 8 * i)) 0#8)
          (0x40 + 8 * i) 8 with
      | some v => SMap.put (32 * g + i) (BitVec.ofNat 64 v) m
      | .none => m) m) x.lcSet

/-- A stopped unit's image after the debugger's writes. DEDUCED, unsafe (log entry 27). -/
def UnitRec.edited (x : UnitRec) : UnitRec :=
  if x.edits.isEmpty then x
  else
    let n := x.groupWaves
    let ws := (List.range x.image.length).map fun i => (x.withMail i).edited fun o =>
      if o < waveRecordBytes then SMap.find x.edits (2 ^ 32 * (i / n) + 0x800 + i % n * waveRecordBytes + o) else .none
    { x with
      image := ws.map fun w => if x.imageSeq.isSome then { w with eqCmd := SMap.del w.eqCmd 6, eqDone := SMap.del w.eqDone 6 } else w,
      imageSeq := x.imageSeq.map fun q => (q.takeMail x.slots ws).edited fun o => SMap.find x.edits (x.seqAt + o),
      lcSet := x.lcEdited, edits := [] }

end Sys2Proof.Machine
end

