-- ==== Sys2Proof/Machine/Move.lean ====
section
/-! DEFINITION. Writes and moves of whole ranges of global memory, which every agent sees at once (R184, R209, R228, R306,
R323, R335), and the reference bits of key-value pages (R323). -/

namespace Sys2Proof.Machine

/-- The granules of a range that are marked poisoned, by number from its start. -/
def State.marksIn (s : State) (pa n : Nat) : List Nat :=
  (s.gPoison.filter fun e => e.2 && decide (pa / 32 ≤ e.1) && decide (e.1 < (pa + n) / 32)).map fun e => e.1 - pa / 32

/-- Replace `n` bytes from physical address `pa`, both multiples of 32, in one step that every agent sees and that carries releases: marks
are those given, monitors on the lines are woken. -/
def State.splice (s : State) (pa n : Nat) (o : Obj) (f : Nat → Byte) (marks : List Nat) (rels : List Rel) (recs : List WriteRec) : State :=
  let time := s.now + 1
  let clear := s.gPoison.filter fun e => decide (e.1 < pa / 32) || decide ((pa + n) / 32 ≤ e.1)
  let span : WriteRec := ⟨time, s.cycle, 0, pa, n, o, 0#8, rels⟩
  let s := { s with mem := Mem.splice s.mem pa n f, now := time, hist := recs ++ span :: s.hist,
                    gPoison := marks.foldl (fun m i => SMap.put (pa / 32 + i) true m) clear }
  s.wakeLines 0 1 ((List.range (n / 128)).map fun i => pa / 128 + i)

/-- The newest rotation or move of the range that holds a location: its moment and the releases it carries. -/
def State.lastSpan (s : State) (loc : Nat) : Nat × List Rel :=
  match s.hist.find? fun r => r.span != 0 && r.who != settler && r.hits loc with
  | some r => (r.time, r.rels)
  | none => (0, [])

/-- Copy the contents of `n` bytes to another place: bytes, marks, and the releases that the newest write of each byte
carries (R184, R228). -/
def State.copyRange (s : State) (src dst n : Nat) (o : Obj) : State :=
  let (floor, rels) := s.lastSpan src
  let newest := s.hist.foldl (fun (acc : List WriteRec) r =>
    if r.span == 0 && decide (floor < r.time) && decide (src ≤ r.loc) && decide (r.loc < src + n) && !acc.any (fun q => q.loc == r.loc) then
      acc ++ [r] else acc) []
  let recs := newest.map fun r =>
    { r with time := s.now + 1, cycle := s.cycle, loc := dst + (r.loc - src), old := Mem.read s.mem r.loc }
  s.splice dst n o (fun i => Mem.read s.mem (src + i)) (s.marksIn src n) rels recs

/-- The monitors armed on lines of a range stand on the lines to which it has moved (R208). -/
def State.carryMonitors (s : State) (src dst n : Nat) : State :=
  s.mapWaves fun _ w => match w.acc.monitor with
    | some m =>
      if src / 128 ≤ m.line ∧ m.line < (src + n) / 128 then
        { w with acc := { w.acc with monitor := some { m with line := dst / 128 + (m.line - src / 128) } } }
      else w
    | none => w

/-- Move the contents of `n` bytes to another place, as a translation change does: the page stays the same to whoever watches it (R184,
R208, R228). -/
def State.moveRange (s : State) (src dst n : Nat) (o : Obj) : State := (s.copyRange src dst n o).carryMonitors src dst n

/-- Every byte of a range becomes 0. -/
def State.zeroRange (s : State) (pa n : Nat) : State := s.splice pa n .all (fun _ => 0#8) [] [] []

/-- The contents of a range become undefined (R312). -/
def State.undefine (s : State) (pa n : Nat) (o : Obj) : State :=
  s.splice pa n o (fun i => Config.freeByte s.fresh (pa + i)) [] [] []

end Sys2Proof.Machine
end

