-- ==== Sys2Proof/Machine/Scout.lean ====
section
/-! DEFINITION. Scouting: streams, takes, predictions, the tolerance compare, commit and squash, and the commands of engine
eq4 (R157 to R181). -/

namespace Sys2Proof.Machine

/-! ## Predictions (R160) -/

/-- A binary32 value doubled, exactly. -/
def Fp.double : Fp → Fp
  | .fin neg m e => .fin neg m (e + 1)
  | x => x

/-- One element of a prediction (R160). -/
def predict (hold : Bool) (vk vp : Nat) : Nat :=
  if hold then vk
  else Fmt.b32.round 0 false (Fp.add 0 (Fmt.b32.val vk).double (Fmt.b32.val vp).neg)

/-- Form the part of a prediction that lies in one page: `n` bytes from `va`, with the page's entry. The marks of S become
those of the granules it is formed from, and are counted (R391). -/
def State.formPart (s : State) (space : Nat) (hold : Bool) (l : Leaf) (va n : Nat) : State :=
  let at' := fun (role i : Nat) => l.pa role va + i
  let elems := (List.range (n / 4)).flatMap fun i =>
    leBytes 4 (predict hold (s.word (at' l.lrole (4 * i)) 4) (s.word (at' l.vrole (4 * i)) 4))
  let bad := (List.range n).filter fun i => s.poisonedAt (at' l.lrole i) || (!hold && s.poisonedAt (at' l.vrole i))
  let marks := (bad.map fun i => at' l.srole i / 32).eraseDups
  let o := Obj.page space l.obj
  let s := (s.perform 0 [] ((List.range n).zip elems |>.map fun e => (at' l.srole e.1, e.2)) o).settleRange (at' l.srole 0) n o
  ({ s with gPoison := marks.foldl (fun m g => SMap.put g true m) s.gPoison } : State).bump (s.space space).part
    ((homeDie (at' l.srole 0)).getD 0) 0x08 marks.length

/-- Form the prediction of the next version of a stream (R160). -/
def State.form (s : State) (c n : Nat) : State :=
  let x := s.stream c n
  let s := (pageChunks 66 x.base x.length).foldl (fun s ch =>
    match s.walk x.part x.space ch.1 with
    | .ok l => s.formPart x.space (x.hold || x.h == 1) l ch.1 ch.2
    | .error _ => s) s
  s.updStream c n fun x => { x with formed := true }

/-! ## scout.open and scout.close (R158, R174, R176) -/

/-- A tolerance is finite and not negative; −0 counts as +0. -/
def tolOk (w : Nat) : Bool :=
  match Fmt.b32.val w with
  | .fin neg m _ => !neg || m == 0
  | _ => false
/-- The tolerance kept for a word: −0 as +0. -/
def tolOf (w : Nat) : W32 := if w = 2 ^ 31 then 0#32 else BitVec.ofNat 32 w

/-- The fields of a stream descriptor lie within R158. -/
def streamOk (b : List Byte) : Bool :=
  let len := fieldOf b 8 4
  fieldOf b 0 8 % 128 == 0 && len % 128 == 0 && decide (128 ≤ len) && decide (len ≤ 4194304) && decide (fieldOf b 0xC 1 ≤ 1)
    && fieldOf b 0xD 3 == 0 && tolOk (fieldOf b 0x10 4) && tolOk (fieldOf b 0x14 4) && fieldOf b 0x18 40 == 0

/-- Every page of a range has four backings. -/
def State.fourBackings (s : State) (part space va n : Nat) : Bool :=
  (pageChunks 66 va n).all fun ch => match s.walk part space ch.1 with
    | .ok l => l.backings == 4
    | .error _ => false

/-- Some open stream of the device holds a base: a virtual address in a space. Two spaces that map one buffer's frames hold two bases.
DESIGN CHOICE, unsafe (log entry 55). -/
def State.baseHeld (s : State) (space base : Nat) : Bool :=
  s.clusters.any fun c => c.2.streams.any fun n => n.2.isOpen && n.2.space == space && n.2.base == base

/-- scout.open: the conditions of R174 in order; it waits in a scout task (R164), and reads its descriptor once the strand's own stores have
been performed (R220). -/
def execScoutOpen (sw : Bool) (r n : BitVec 6) (s : State) : Out :=
  s.statusOp [.s r.toNat] <| s.notScout <|
    let va := (s.readS r.toNat).toNat
    let u := s.unit s.curUnit
    let c := s.curCluster
    let ret := fun (st : Nat) => s.resultS sw r.toNat (BitVec.ofNat 64 st)
    if va % 64 ≠ 0 then ret 4
    else s.probing false .read [⟨0, va, 64, 0#64, 0#64⟩] fun _ =>
      if s.storesOut then s.stand
      else s.readBlock sw r.toNat va 64 (ret 4) fun b s =>
        let ret := fun (st : Nat) => s.resultS sw r.toNat (BitVec.ofNat 64 st)
        let base := fieldOf b 0 8
        let len := fieldOf b 8 4
        if (s.stream c n.toNat).isOpen then ret 1
        else if !streamOk b then ret 4
        else if !s.fourBackings u.part u.space base len then ret 2
        else if s.baseHeld u.space base then ret 3
        else
          (s.updStream c n.toNat fun _ =>
            { Stream.closed with isOpen := true, part := u.part, space := u.space, base := base, length := len,
                                 hold := fieldOf b 0xC 1 == 1, tolAbs := tolOf (fieldOf b 0x10 4), tolRel := tolOf (fieldOf b 0x14 4),
                                 h := 1 }).resultS sw r.toNat 0#64

/-- The units that hold a scouting take on a stream without a verdict, or with a fail that has not squashed them yet. -/
def State.openTakers (s : State) (c n : Nat) : List Nat :=
  (s.units.filter fun e => e.2.life != .gone && e.2.takes.any fun t =>
    t.cluster == c && t.stream == n && t.status != 0 && t.verdict != 1).map Prod.fst

/-- Close a stream: its takers without a verdict, and those whose prediction has failed, are squashed, its pins are released, takes that
block for it go on, and its base is freed (R169, R176). A take that is real or has passed is over with its pin: from then on its unit
reaches the buffer as any unit does. DESIGN CHOICE, unsafe (log entry 55). -/
def State.closeStream (s : State) (c n : Nat) : State :=
  let s := (s.openTakers c n).foldl (fun s u => State.squashUnit 3 s u) s
  let s := { s with units := SMap.mapVals (fun _ (u : UnitRec) =>
    { u with takes := u.takes.filter fun t => !(t.cluster == c && t.stream == n) }) s.units }
  let s := s.mapWaves fun _ w => match w.acc.wait with
    | .take c' n' _ => if c' = c ∧ n' = n then { w with acc := { w.acc with wait := .retry } } else w
    | _ => w
  s.updStream c n fun _ => Stream.closed

/-- scout.close (R176). -/
def execScoutClose (sw : Bool) (r n : BitVec 6) (s : State) : Out :=
  s.statusOp [.s r.toNat] <| s.notScout <|
    if !(s.stream s.curCluster n.toNat).isOpen then s.resultS sw r.toNat 5#64
    else (s.closeStream s.curCluster n.toNat).resultS sw r.toNat 0#64

/-! ## scout.take (R162, R163, R175) -/

/-- The bytes of a held publish's buffer. -/
def State.heldBytes (s : State) (part : Nat) (h : HeldPublish) : Nat :=
  match s.walk part h.space h.base with
  | .ok l => h.pages * l.size
  | .error _ => 0

/-- The scout task of depth at most 1 that holds a publish of a stream's buffer (R175). Of several, that of the lowest unit number is
followed, the taker not excluded. DESIGN CHOICE, unsafe (log entry 55). -/
def State.holderOf (s : State) (x : Stream) : Option Nat :=
  (s.units.find? fun e => e.2.life != .gone && decide (0 < e.2.depthScout) && decide (e.2.depthScout ≤ 1) && e.2.held.any fun h =>
    h.space == x.space && decide (h.base ≤ x.base) && decide (x.base < h.base + s.heldBytes x.part h)).map Prod.fst

/-- S of a stream is pinned for another version (R162). -/
def State.scoutPinned (s : State) (c n : Nat) (v : BitVec 32) : Bool :=
  s.units.any fun e => e.2.life != .gone && e.2.takes.any fun t =>
    t.cluster == c && t.stream == n && t.status == 1 && t.version != v

/-- The releases of the rotation that made the version in backing `j` of a stream's buffer real: the source of a real take (R175,
R217). -/
def State.versionRels (s : State) (x : Stream) (j : Nat) : List Rel :=
  match s.walk x.part x.space x.base with
  | .error _ => []
  | .ok l => match s.hist.find? fun r => r.span != 0 && r.who != settler && r.hits (l.pa j x.base) with
    | some r => r.rels
    | none => []

/-- The buffer's object. -/
def State.streamObj (s : State) (x : Stream) : Obj :=
  match s.walk x.part x.space x.base with
  | .ok l => .page x.space l.obj
  | .error _ => .all

/-- A real take is returned: an acquire of the buffer's object at system scope, over the strand's earlier reads and over the rotation that
made the version real (R175, R217, R218). -/
def State.realTake (s : State) (sw : Bool) (r : Nat) (x : Stream) (t : Take) : Out :=
  let o := s.streamObj x
  let me := s.placeOf s.curWave
  let n := s.strand.seqNo
  let s := s.acquire s.curUnit s.curWave.pos n 5 me [o]
  (s.noteVis s.curUnit s.curWave.pos n (acquired o 5 me (s.versionRels x (t.backingAt x.base)))).resultS sw r t.word

/-- scout.take that nothing has been decided of (R175). A real take waits until the strand's earlier reads have returned. -/
def State.freshTake (s : State) (sw : Bool) (r : Nat) (scouting nowait : Bool) (n : Nat) (v : BitVec 32) : Out :=
  let c := s.curCluster
  let x := s.stream c n
  let u := s.unit s.curUnit
  let t := Take.of c n x v
  let word := fun (s : State) => match (s.unit s.curUnit).takeOn c n with
    | some t => t.word
    | none => 0#64
  let ret := fun (st : Nat) => s.resultS sw r (takeWord x.k u.depthScout st)
  if 8 ≤ u.takes.length then ret 6
  else if v = x.k then
    if s.readsOut then s.stand
    else
      let s := s.addTake s.curUnit { t with backings := s.roleBackings x Leaf.lrole, verdict := 1 } x.k 0
      s.realTake sw r x { t with backings := s.roleBackings x Leaf.lrole, word := word s }
  else if v ≠ x.k + 1#32 then ret 3
  else match (if scouting then s.holderOf x else none) with
    | some p =>
      let s := s.addTake s.curUnit { t with status := 2, backings := s.roleBackings x Leaf.wrole, producer := p } x.k ((s.unit p).depthScout + 1)
      s.resultS sw r (word s)
    | none =>
      if scouting && !s.scoutPinned c n v then
        let s := if x.formed then s else s.form c n
        let s := s.addTake s.curUnit { t with status := 1, backings := s.roleBackings x Leaf.srole } x.k 1
        s.resultS sw r (word s)
      else if nowait then ret 4
      else .next (s.blockWith (.take c n v))

/-- The cluster whose stream `n` a scout.take names: the current one, unless the take has been given to it on the cluster where it blocked
(R175, R180). -/
def State.takeCluster (s : State) (n : Nat) : Nat :=
  match s.strand.wait with
  | .take c _ _ => if ((s.unit s.curUnit).takeOn c n).isSome then c else s.curCluster
  | _ => s.curCluster

/-- scout.take (R175). A take that the unit holds already returns the word it returned when it was made, with status 0 as an acquire again
(R217). One that blocks is given its version, real, when that is published; a unit that has been restored on another cluster meanwhile
evaluates it anew there. DEDUCED, unsafe (log entry 20). -/
def execScoutTake (sw : Bool) (r : BitVec 6) (noscout nowait : BitVec 1) (n : BitVec 6) (s : State) : Out :=
  s.statusOp [.s r.toNat] <|
    let c := s.takeCluster n.toNat
    let x := s.stream c n.toNat
    let u := s.unit s.curUnit
    let v := (s.readS r.toNat).extractLsb' 0 32
    let ret := fun (st : Nat) => s.resultS sw r.toNat (takeWord x.k u.depthScout st)
    let anew := s.freshTake sw r.toNat (noscout == 0#1 && !u.rerun) (nowait == 1#1) n.toNat v
    if !x.isOpen then ret 5
    else match u.takeOn c n.toNat, s.strand.wait with
      | some t, _ => if t.status ≠ 0 then s.resultS sw r.toNat t.word else if s.readsOut then s.stand else s.realTake sw r.toNat x t
      | none, .take d _ _ => if d = c then s.stand else anew
      | none, _ => anew

/-- scout.verdict (R177). -/
def execScoutVerdict (sw : Bool) (r : BitVec 6) (k : BitVec 1) (s : State) : Out :=
  s.statusOp [.s r.toNat]
    (let u := s.unit s.curUnit
     if k = 1#1 && s.isScout then s.stand
     else s.resultS sw r.toNat
       (BitVec.ofNat 64 (u.depthScout * 2 ^ 16 + (if u.rerun then 2 ^ 8 else 0) + (if s.isScout then 1 else 0))))

/-! ## The tolerance compare (R167, R168) -/

/-- An element passes (R168). -/
def tolPass (ta tr : W32) (real scout : Nat) : Bool :=
  match Fmt.b32.val real, Fmt.b32.val scout with
  | .nan, .nan => true
  | .nan, _ => false
  | _, .nan => false
  | .inf a, .inf b => a == b
  | .inf _, _ => false
  | .fin _ _ _, .inf _ => false
  | .fin a m e, .fin b n g =>
    let diff := match Fp.add 0 (.fin a m e) (.fin (!b) n g) with
      | .fin _ p q => Fp.fin false p q
      | y => y
    Fp.cmp diff (Fp.add 0 (Fmt.b32.val ta.toNat) (Fp.mul (Fmt.b32.val tr.toNat) (.fin false m e))) != .gt

/-- Every element of a stream passes; one in a poisoned granule of S or of L fails. -/
def State.comparePasses (s : State) (x : Stream) : Bool :=
  (pageChunks 66 x.base x.length).all fun ch => match s.walk x.part x.space ch.1 with
    | .error _ => false
    | .ok l => (List.range (ch.2 / 4)).all fun i =>
        let a := l.pa l.lrole ch.1 + 4 * i
        let b := l.pa l.srole ch.1 + 4 * i
        !s.poisonedAt a && !s.poisonedAt b && tolPass x.cmpAbs x.cmpRel (s.word a 4) (s.word b 4)

/-- TOLERANCE_COMPARE: the verdict of a version that a publish made real and that some take scouts (R167). -/
def execToleranceCompare (cluster stream : Nat) (s : State) : Out :=
  let x := s.stream cluster stream
  if !x.isOpen || !x.due then .next s
  else
    let v := if s.comparePasses x then 1 else 2
    let s := s.updStream cluster stream fun x => { x with due := false, last := v }
    .next { s with units := SMap.mapVals (fun _ (u : UnitRec) => { u with takes := u.takes.map fun t =>
      if t.cluster == cluster && t.stream == stream && t.version == x.k && t.status == 1 && t.verdict == 0 then
        { t with verdict := v } else t }) s.units }

/-! ## Commit and squash (R169 to R172) -/

/-- Write back the overlay lines of a unit into their backings: W of shadowed pages (R170 step 1). Each byte is the carrier of the releases
that its store carried (R217), and a granule that one store wrote whole loses its mark (R365). -/
def State.mergeOverlay (s : State) (n : Nat) : State :=
  let u := s.unit n
  let locs := u.overlay.filterMap fun e => match s.walk u.part u.space e.1 with
    | .ok l => some (l.pa l.wrole e.1, e.2, Obj.page u.space l.obj)
    | .error _ => none
  let s := locs.foldl (fun s e => s.perform 0 e.2.1.rels [(e.1, e.2.1.val)] e.2.2) s
  let whole := (locs.filter fun e => e.2.1.whole).map fun e => e.1 / 32
  let s := { s with gPoison := s.gPoison.filter fun e => !whole.contains e.1 }
  let vis : View := locs.foldl (fun v e => SMap.put e.1 (s.now, e.2.2) v) []
  let s := (List.range u.slots.length).foldl (fun s i => s.noteVis n i (s.waveOf n i).acc.seqNo vis) s
  s.updUnit n fun u => { u with overlay := [] }

/-- The pages of a held publish, with their entries. -/
def State.pagesOfHeld (s : State) (part : Nat) (h : HeldPublish) : Except (Nat × PFault) (List (Nat × Leaf)) :=
  s.bufferPages 0 part h.space h.base h.pages

/-- The pages of held publishes, each once. -/
def State.heldPages (s : State) (part : Nat) (hs : List HeldPublish) : List (Nat × Leaf) :=
  (hs.flatMap fun h => match s.pagesOfHeld part h with
    | .ok ps => ps
    | .error _ => []).eraseDups

/-- The objects of pages. -/
def pageObjs (space : Nat) (ps : List (Nat × Leaf)) : List Obj := (ps.map fun p => Obj.page space p.2.obj).eraseDups

/-- The wave that made some of the held publishes of a unit releases the objects of their buffers at system scope (R170, R217). -/
def State.releaseHeld (s : State) (n : Nat) (s0 : State) (idx : Nat) : State :=
  let u := s0.unit n
  let objs := pageObjs u.space (s0.heldPages u.part (u.held.filter fun h => h.idx == idx))
  s.updWaveOf n idx fun w => { w with acc := objs.foldl (fun t o => t.release o 5 (s0.placeOf w)) w.acc }

/-- The held publishes of a unit are performed in one step, as a release of their buffers' objects at system scope by the waves that made
them; each buffer is rotated once, which makes the next version of its stream real (R170 step 2). DEDUCED, unsafe (log entry 20). -/
def State.performHeld (s : State) (n : Nat) : State :=
  let u := s.unit n
  let ps := s.heldPages u.part u.held
  match ps with
  | [] => s
  | _ =>
    let waves := (u.held.map HeldPublish.idx).eraseDups
    let r := waves.foldl (fun x i => x.releaseHeld n s i) s
    let rels := (waves.flatMap fun i => (r.waveOf n i).acc.rels).eraseDups
    let streams := (u.held.flatMap fun h => s.streamsOn h.space h.base (s.heldBytes u.part h)).eraseDups
    let s := streams.foldl (fun s e => s.nextVersion e.1 e.2) (r.rotate (32 * n) u.space rels ps)
    s.updUnit n fun u => { u with held := [] }

/-- A scout task's verdicts are all in and good (R169). -/
def UnitRec.passes (u : UnitRec) : Bool := decide (0 < u.depthScout) && u.takes.all fun t => t.status == 0 || t.verdict == 1

/-- A held publish must wait: a page of its buffer does not translate, its rotation would wait, or an access of its wave is in flight that
its release covers. -/
def State.heldWaits (s : State) (unit : Nat) (h : HeldPublish) : Bool :=
  let u := s.unit unit
  match s.pagesOfHeld u.part h with
  | .error _ => true
  | .ok ps => s.rotateWaits h.space h.base (s.heldBytes u.part h) ps
      || (pageObjs u.space ps).any fun o => s.coversOutOf unit h.idx (s.waveOf unit h.idx).acc.rels o

/-- COMMIT: a scout task commits: once its stores into its overlay have been accepted, the overlay merges, its held publishes are
performed in one step, and it is a scout task no longer (R170). -/
def execCommit (unit : Nat) (s : State) : Out :=
  let u := s.unit unit
  if u.life = .gone || !u.passes || (s.flight.any fun e => e.2.unit == unit && e.2.overlay) || u.held.any (s.heldWaits unit) then .next s
  else
    let s := (s.mergeOverlay unit).performHeld unit
    let s := s.updUnit unit fun u => { u with depthScout := 0 }
    .next { s with units := SMap.mapVals (fun _ (v : UnitRec) => { v with takes := v.takes.map fun t =>
      if t.status == 2 && t.producer == unit && t.verdict == 0 then { t with verdict := 1 } else t }) s.units }

/-- SQUASH: a scout task with a failed prediction is squashed, with every task that took its output (R169, R171). -/
def execSquash (unit : Nat) (s : State) : Out :=
  let u := s.unit unit
  if u.life != .gone && decide (0 < u.depthScout) && u.takes.any (fun t => t.status == 1 && t.verdict == 2) then
    .next (State.squashUnit 3 s unit)
  else .next s

/-! ## Engine eq4 (R179) -/

/-- Take `n` words of engine 4 and post a completion. -/
def State.answer4 (s : State) (who n : Nat) (x : W64) : State :=
  s.updWaveBy who fun w => { w with eqCmd := SMap.upd [] 4 (fun q => q.drop n) w.eqCmd }.postDone 4 x 0

/-- The completion of STAT (R179). Of a closed stream k reads 0, as it does in the status word of a scout.take of one: the spec says only that
bits 30:0 do. DESIGN CHOICE, unsafe (log entry 55). -/
def State.statWord (s : State) (c n : Nat) : W64 :=
  let x := s.stream c n
  let takers := (s.units.filter fun e => e.2.life != .gone && e.2.takes.any fun t => t.cluster == c && t.stream == n).length
  if !x.isOpen then BitVec.ofNat 64 (x.k.toNat * 2 ^ 32)
  else BitVec.ofNat 64 (x.k.toNat * 2 ^ 32 + 2 ^ 31 + (if x.hold then 2 ^ 30 else 0) + x.h * 2 ^ 28 + x.last * 2 ^ 24
    + min 255 takers * 2 ^ 16)

/-- A completion of engine 4 may be posted for a wave. -/
def State.ready4 (s : State) (who : Nat) : Bool := (s.slotBy who).isSome && (s.waveBy who).doneRoom 4

/-- STAT: engine 4 answers a command word other than TOL; an unassigned cmd or a reserved bit is answered by all ones, and so is a
word that fails parity. DESIGN CHOICE, unsafe (log entry 51). -/
def execStat (wave : Nat) (s : State) : Out :=
  match SMap.get [] (s.waveBy wave).eqCmd 4 with
  | [] => .next s
  | q :: _ =>
    let x := q.val
    let cmd := bitsOf x.toNat 63 56
    if !s.ready4 wave || cmd == 2 then .next s
    else if !q.parityBad && cmd = 1 && bitsOf x.toNat 55 6 == 0 then
      .next (s.answer4 wave 1 (s.statWord (s.unit (wave / 32)).cluster (bitsOf x.toNat 5 0)))
    else .next (s.answer4 wave 1 (BitVec.allOnes 64))

/-- TOL: engine 4 sets a stream's tolerances from a command word and its operand (R179). DESIGN CHOICE, unsafe (log entry 51): words that
fail parity are answered as reserved ones. -/
def execTol (wave : Nat) (s : State) : Out :=
  match SMap.get [] (s.waveBy wave).eqCmd 4 with
  | p :: q :: _ =>
    let x := p.val
    let y := q.val
    if !s.ready4 wave || bitsOf x.toNat 63 56 != 2 then .next s
    else if bitsOf x.toNat 55 6 ≠ 0 || p.parityBad || q.parityBad then .next (s.answer4 wave 2 (BitVec.allOnes 64))
    else
      let c := (s.unit (wave / 32)).cluster
      let n := bitsOf x.toNat 5 0
      let ta := bitsOf y.toNat 31 0
      let tr := bitsOf y.toNat 63 32
      if !(s.stream c n).isOpen then .next (s.answer4 wave 2 1#64)
      else if !(tolOk ta && tolOk tr) then .next (s.answer4 wave 2 2#64)
      else .next ((s.updStream c n fun x => { x with tolAbs := tolOf ta, tolRel := tolOf tr }).answer4 wave 2 0#64)
  | _ => .next s

end Sys2Proof.Machine
end

