-- ==== Sys2Proof/Machine/Kv.lean ====
section
/-! DEFINITION. Key-value pages of token trees: their frames and leaf entries, the spill clock and the fetch (R304 to R308,
R312, R317, R322 to R324). A page of P slots is held in 64 KiB frames, one for each 64 KiB of it. -/

namespace Sys2Proof.Machine

/-- Bytes of a page of a tree (R306). -/
def Tree.pageBytes (t : Tree) : Nat := t.pslots * t.slotBytes
/-- 64 KiB frames of a page. -/
def Tree.pageFrames (t : Tree) : Nat := t.pageBytes / 65536
/-- The virtual address of page `k`. -/
def Tree.pageVa (t : Tree) (k : Nat) : Nat := t.kvbase + k * t.pageBytes
/-- Tree `t` of a partition. -/
def State.tree (s : State) (part t : Nat) : Tree := SMap.get Tree.none (s.part part).trees t
/-- Change tree `t`. -/
def State.updTree (s : State) (part t : Nat) (f : Tree → Tree) : State :=
  s.updPart part fun p => { p with trees := SMap.upd Tree.none t f p.trees }
/-- Change page `k`. -/
def Tree.updPage (t : Tree) (k : Nat) (f : KvPage → KvPage) : Tree := { t with pages := SMap.upd KvPage.none k f t.pages }
/-- The KV pool of a die. -/
def State.pool (s : State) (part die : Nat) : KvPool := SMap.get KvPool.none (s.part part).kv die
/-- Change the KV pool of a die. -/
def State.updPool (s : State) (part die : Nat) (f : KvPool → KvPool) : State :=
  s.updPart part fun p => { p with kv := SMap.upd KvPool.none die f p.kv }

/-! ## Leaf entries of a page (R306, R338) -/

/-- The address of the level-3 entry of a virtual address, where the tables above it are there. -/
def State.leafSlot (s : State) (part space va : Nat) : Option Nat :=
  let p := s.part part
  let step := fun (t : Option Nat) (idx bytes : Nat) => match t with
    | none => none
    | some t => if p.asn.grants t bytes then (match tableOf (s.word (t + 8 * idx) 8) with
        | .ok n => some n
        | .error _ => none) else none
  let t3 := step (step (step (some (s.space space).root) (bitsOf va 55 47) 4096) (bitsOf va 46 34) 65536) (bitsOf va 33 21) 65536
  t3.map fun t => t + 8 * bitsOf va 20 16

/-- The entry word of a KV page's 64 KiB: mapped to a frame, spilled, or unmapped. The object and the no-migration bit that
stand in the entry are kept. -/
def kvEntry (old : Nat) (valid spill : Bool) (frame : Nat) : Nat :=
  (if valid then 2 ^ 63 + 2 ^ 61 else 0) + (if valid || spill then 2 ^ 62 else 0) + (if old.testBit 59 then 2 ^ 59 else 0)
    + bitsOf old 56 45 * 2 ^ 45 + (if spill then 2 ^ 36 else 0) + (if valid then frame % 2 ^ 31 else 0)

/-- Rewrite the entries of a page, as a translation change of its space (R209, R306). -/
def State.mapPage (s : State) (part : Nat) (t : Tree) (k : Nat) (valid spill : Bool) (frames : List Nat) : State :=
  let vas := (List.range t.pageFrames).map fun i => t.pageVa k + 65536 * i
  let s := (List.range t.pageFrames).foldl (fun s i =>
    let va := t.pageVa k + 65536 * i
    match s.leafSlot part t.space va with
    | none => s
    | some a => s.agentWrite [] a (leBytes 8 (kvEntry (s.word a 8) valid spill (frames.getD i 0)))) s
  s.bumpGen t.space (vas.map fun va => va / 65536)

/-- The object of a virtual address, as its entry names it. -/
def State.vaObj (s : State) (part space va : Nat) : Obj :=
  match s.leafSlot part space va with
  | none => .page space 0
  | some a => .page space (bitsOf (s.word a 8) 56 45)

/-! ## The spill clock (R323) -/

/-- Some unit has pinned a page of a tree (R316). -/
def State.kvPinned (s : State) (part t k : Nat) : Bool :=
  s.units.any fun e => e.2.part == part && e.2.life != .gone && e.2.pins.contains (t, k)

/-- The bytes from `a` may be written by a posted collective, a triggered send to this device that has fired, or an exchange under way
(R281, R285, R290). -/
def State.fabricWrites (s : State) (part space lo hi : Nat) : Bool :=
  let over' := fun (a n : Nat) => decide (a < hi) && decide (lo < a + n)
  (s.colls.any fun c => c.2.part == part && c.2.space == space &&
      over' (fieldOf c.2.block 0x18 8) (4 * (if fieldOf c.2.block 0 1 = 2 then c.2.ranks else 1) * fieldOf c.2.block 0x20 8))
    || (s.triggers.any fun t => t.2.part == part && t.2.space == space && t.2.fired && over' t.2.dst t.2.length)
    || (s.part part).exchanges.any fun x => x.2.space == space && !x.2.closed &&
      (over' (fieldOf x.2.desc 0x38 8) (x.2.post.caprows * x.2.post.rowbytes)
        || over' (fieldOf x.2.desc 0x40 8) (x.2.post.spillrows * x.2.post.rowbytes) || over' (fieldOf x.2.desc 0x48 8) (fieldOf x.2.desc 0x50 4))

/-- An access or engine operation in flight writes a page; the commands of a wave that is switched out run on (R212). -/
def State.pageBusy (s : State) (part : Nat) (t : Tree) (k : Nat) : Bool :=
  let lo := t.pageVa k
  let hi := lo + t.pageBytes
  s.fabricWrites part t.space lo hi ||
  (s.flight.any fun e => e.2.part == part && e.2.space == t.space && !e.2.creel && e.2.isWrite && e.2.lanes.any fun l =>
      decide (l.va < hi) && decide (lo < l.va + l.size))
    || (s.waves.map Prod.snd ++ s.units.flatMap fun u => u.2.image).any fun w =>
      (s.unit w.unit).space == t.space && w.eng.any fun q => q.2.any fun c =>
        c.started && c.dk == 0 && decide (c.dst < hi) && decide (lo < c.dst + c.length)

/-- The resident pages of a partition on a die: address, tree and page number. -/
def State.diePages (s : State) (part die : Nat) : List (Nat × Nat × Nat) :=
  (s.part part).trees.flatMap fun t => if t.2.die = die then
      (t.2.pages.filter fun g => g.2.resident).map fun g => (t.2.pageVa g.1, t.1, g.1)
    else []

/-- The frames of the resident pages of a partition on a die: tree, page and frames. -/
def State.dieFrames (s : State) (part die : Nat) : List (Nat × Nat × List Nat) :=
  (s.part part).trees.flatMap fun t => if t.2.die = die then
      (t.2.pages.filter fun g => g.2.resident).map fun g => (t.1, g.1, g.2.frames)
    else []

/-- From `s` to `t` pages of a die that is off line have been mapped or unmapped: such a translation change waits until the die is
back (R384). DEDUCED, unsafe (log entry 49). -/
def State.touchesOffline (s t : State) (part : Nat) : Bool :=
  (List.range 2).any fun d => s.offline d && decide (s.dieFrames part d ≠ t.dieFrames part d)

/-- Of two places after the hand, the nearer one in ascending order with a wrap. -/
def handFirst (hand : Nat) (a b : Nat × Nat × Nat) : Nat × Nat × Nat :=
  let key := fun (x : Nat × Nat × Nat) => if hand ≤ x.1 then (0, x.1) else (1, x.1)
  let ka := key a
  let kb := key b
  if kb.1 < ka.1 ∨ (kb.1 = ka.1 ∧ kb.2 < ka.2) then b else a

/-- Write a page to the spill area: its contents go to flash, its entries become spilled, its frames are freed. -/
def State.spillPage (s : State) (part tn k : Nat) : State :=
  let t := s.tree part tn
  let g := t.page k
  let slots := (s.part part).spillFree.take t.pageFrames
  let o := fun (i : Nat) => s.vaObj part t.space (t.pageVa k + 65536 * i)
  let s := (List.range t.pageFrames).foldl (fun s i => s.moveRange (65536 * g.frames.getD i 0) (65536 * slots.getD i 0) 65536 (o i)) s
  let s := (s.mapPage part t k false true []).bump part t.die 0x0C 1
  let s := s.updPart part fun p => { p with spillFree := p.spillFree.drop t.pageFrames }
  let s := s.updPool part t.die fun q => { q with free := q.free ++ g.frames }
  s.updTree part tn fun t => t.updPage k fun g => { g with resident := false, frames := slots, fetching := false }

/-- The hand advances to the next page and clears its reference bit, skips it or spills it. DEDUCED, unsafe (log entry 32). -/
def State.advanceHand (s : State) (part die : Nat) : State :=
  match s.diePages part die with
  | [] => s
  | p :: ps =>
    let (va, tn, k) := ps.foldl (handFirst (s.pool part die).hand) p
    let s := s.updPool part die fun q => { q with hand := va + 1 }
    let t := s.tree part tn
    if (t.page k).refBit then s.updTree part tn fun t => t.updPage k fun g => { g with refBit := false }
    else if s.kvPinned part tn k || s.pageBusy part t k || decide ((s.part part).spillFree.length < t.pageFrames) || s.genBusy t.space then s
    else s.spillPage part tn k

/-- Advance the hand until a number of frames is free, at most `fuel` pages. -/
def State.sweep (part die want : Nat) : Nat → State → State
  | 0, s => s
  | fuel + 1, s => if want ≤ (s.pool part die).free.length then s else State.sweep part die want fuel (s.advanceHand part die)

/-- Make `n` frames free on a die, spilling pages where the pool has too few. -/
def State.makeRoom (s : State) (part die n : Nat) : State :=
  State.sweep part die n (2 * (s.diePages part die).length) s

/-- SPILL: where a die's free count is below its low watermark, the clock hand runs until the high watermark is reached or it
has passed every page twice; a die that is off line spills nothing (R323, R384). -/
def execSpill (part die : Nat) (s : State) : Out :=
  let q := s.pool part die
  let t := s.makeRoom part die q.high
  .next (if q.free.length < q.low ∧ s.touchesOffline t part = false then t else s)

/-! ## Allocation, freeing, fetching -/

/-- The lowest free page index of a tree. -/
def Tree.freePage (t : Tree) : Option Nat := (List.range t.kvpages).find? fun k => !SMap.has t.pages k

/-- Allocate a page with a fill and a count: the lowest free index, frames of the tree's die, undefined contents (R306,
R312); none where the range is full or neither the pool nor the spill area has room (status 4). -/
def State.allocPage (s : State) (part tn fill count : Nat) : Option (Nat × State) :=
  let t := s.tree part tn
  match t.freePage with
  | none => none
  | some k =>
    let s := s.makeRoom part t.die t.pageFrames
    let frames := (s.pool part t.die).free.take t.pageFrames
    if frames.length < t.pageFrames then none
    else
      let s := s.updPool part t.die fun q => { q with free := q.free.drop t.pageFrames }
      let s := frames.foldl (fun s f => s.undefine (65536 * f) 65536 .all) s
      let s := s.mapPage part t k true false frames
      some (k, s.updTree part tn fun t => t.updPage k fun _ => ⟨fill, count, true, true, frames, false⟩)

/-- A page that ahead has asked for is to be fetched no more: it has come, or is freed (R316, R322). -/
def Tree.unask (t : Tree) (k : Nat) : Tree := { t with asked := t.asked.filter fun j => j != k }

/-- Free a page whose count has fallen to 0: its backing returns to the pool or the spill area, and a fetch of it is dropped (R306, R322). -/
def State.freePage (s : State) (part tn k : Nat) : State :=
  let t := s.tree part tn
  let g := t.page k
  let s := s.mapPage part t k false false []
  let s := if g.resident then s.updPool part t.die fun q => { q with free := q.free ++ g.frames }
    else s.updPart part fun p => { p with spillFree := p.spillFree ++ g.frames }
  let s := { s with units := SMap.mapVals (fun _ u =>
    if u.part = part then { u with pins := u.pins.filter fun x => x != (tn, k) } else u) s.units }
  s.updTree part tn fun t => { t with pages := SMap.del t.pages k }.unask k

/-- Free every page whose count is 0: how many there were. -/
def State.freeDead (s : State) (part tn : Nat) : Nat × State :=
  let dead := ((s.tree part tn).pages.filter fun g => g.2.count == 0).map Prod.fst
  (dead.length, dead.foldl (fun s k => s.freePage part tn k) s)

/-- Fetch a spilled page to the tree's die, as a translation change (R324); unchanged where there is no room. -/
def State.fetchPage (s : State) (part tn k : Nat) : State :=
  let t := s.tree part tn
  let g := t.page k
  if g.resident then s
  else
    let s := s.makeRoom part t.die t.pageFrames
    let frames := (s.pool part t.die).free.take t.pageFrames
    if frames.length < t.pageFrames || s.genBusy t.space then s
    else
      let s := s.updPool part t.die fun q => { q with free := q.free.drop t.pageFrames }
      let o := fun (i : Nat) => s.vaObj part t.space (t.pageVa k + 65536 * i)
      let s := (List.range t.pageFrames).foldl (fun s i => s.moveRange (65536 * g.frames.getD i 0) (65536 * frames.getD i 0) 65536 (o i)) s
      let s := s.mapPage part t k true false frames
      let s := s.updPart part fun p => { p with spillFree := p.spillFree ++ g.frames }
      s.updTree part tn fun t => (t.updPage k fun g => { g with resident := true, frames := frames, fetching := false }).unask k

/-- The page that ahead's fetches have come to: the first of those asked for that is still in spill (R316). -/
def Tree.nextAsked (t : Tree) : Option Nat := t.asked.find? fun k => SMap.has t.pages k && !(t.page k).resident

/-- PAGE_FETCH: the page engine fetches a page that an access waits for, or the next one that ahead has asked for, onto a die that is not
off line (R316, R324, R384). -/
def execPageFetch (part tree page : Nat) (s : State) : Out :=
  let t := s.tree part tree
  let f := s.fetchPage part tree page
  .next (if SMap.has (s.part part).trees tree && SMap.has t.pages page && ((t.page page).fetching || t.nextAsked == some page)
            && ((f.tree part tree).page page).resident && !s.touchesOffline f part then f else s)

/-! ## Nodes, ancestors and path lists (R304, R308) -/

/-- A node is live. -/
def Tree.live (t : Tree) (n : Nat) : Bool := SMap.has t.nodes n
/-- Node `n`. -/
def Tree.node (t : Tree) (n : Nat) : TreeNode := SMap.get TreeNode.none t.nodes n

/-- A node and its ancestors among the live nodes, from the node up. -/
def Tree.chain (t : Tree) : Nat → Nat → List Nat
  | 0, _ => []
  | fuel + 1, n => if t.live n then n :: t.chain fuel (t.node n).parent else []
/-- A node and its live ancestors. -/
def Tree.ancestors (t : Tree) (n : Nat) : List Nat := t.chain 4096 n
/-- A node and its descendants. -/
def Tree.descendants (t : Tree) (n : Nat) : List Nat := (t.nodes.filter fun e => (t.ancestors e.1).contains n).map Prod.fst

/-- The position of a node or of the trunk tip plus 1. -/
def Tree.nextPos (t : Tree) (parent : Nat) : Nat := if parent = 0xFFFF then t.trunk else (t.node parent).pos + 1

/-- The page of the path of `q` at position `p`: a live ancestor's, or a trunk page. -/
def Tree.pageAt (t : Tree) (anc : List Nat) (p : Nat) : Nat :=
  match anc.find? fun n => (t.node n).pos == p with
  | some n => (t.node n).page
  | .none => t.trunkPages.getD (p / t.pslots) 0

/-- The path list of a node or of the trunk tip, as page numbers (R308). -/
def Tree.pathList (t : Tree) (q : Nat) : List Nat :=
  let len := t.nextPos q
  let anc := if q = 0xFFFF then [] else t.ancestors q
  (List.range ((len + t.pslots - 1) / t.pslots)).map fun b => t.pageAt anc (min (len - 1) (b * t.pslots + t.pslots - 1))

end Sys2Proof.Machine
end

