-- ==== Sys2Proof/Machine/Tree.lean ====
section
/-! DEFINITION. The tree instructions, delivery rings, the mask generator and the token-ready barrier (R303 to R329, R396). -/

namespace Sys2Proof.Machine

/-! ## The serial order (R309 to R311, R319) -/

/-- From `s` to `t` a space's generation has passed an outstanding access by more than 32,767: one of the changes between must wait
(R210). -/
def State.passesTags (s t : State) : Bool :=
  t.flight.any fun e => !e.2.creel && (s.space e.2.space).gen != (t.space e.2.space).gen
    && (decide (32767 < ((t.space e.2.space).gen - e.2.gen).toNat)
        || decide (32767 < ((t.space e.2.space).gen - (s.space e.2.space).gen).toNat))

/-- What a tree instruction does, unless it would map or unmap pages of a die that is off line or one of its translation changes must
wait: it stands then (R210, R384). DEDUCED, unsafe (log entry 49). -/
def State.treeHeld (s : State) (k : Out) : Out :=
  match k with
  | .next t => if s.touchesOffline t (s.unit s.curUnit).part || s.passesTags t then s.stand else .next t
  | o => o

/-- Go on once no page of the ranges that the page engine will write for the current unit is in spill (R324). -/
def State.fetchFirst (s : State) (space : Nat) (ranges : List (Nat × Nat)) (k : Out) : Out :=
  let part := (s.unit s.curUnit).part
  match ranges.findSome? fun r => s.spilledIn s.curUnit part space r.1 r.2 .write with
  | some a => (s.wantPage part space a).stand
  | none => k

/-- A translation change must wait in a unit's space or in a space of its partition's trees (R210). -/
def State.treesBusy (s : State) : Bool :=
  let u := s.unit s.curUnit
  s.genBusy u.space || (s.part u.part).trees.any fun t => s.genBusy t.2.space

/-- A tree instruction: its operand is used, in a scout task it waits, and it is sent once the strand's earlier accesses have
happened and no translation change must wait (R198, R210, R309, R310, R384). -/
def State.treeOp (s : State) (r : BitVec 6) (k : Out) : Out :=
  s.statusOp [.s r.toNat] <| s.notScout <| s.whenQuiet <| if s.treesBusy then s.stand else s.treeHeld k

/-- The status word of a tree instruction (R311): status, bits 15:8, bits 31:16 and bits 63:32. -/
def treeWord (st b h hi : Nat) : W64 := BitVec.ofNat 64 (st + b % 256 * 256 + h % 65536 * 65536 + hi % 2 ^ 32 * 2 ^ 32)

/-- The operation synchronises with every earlier operation of its tree (R309). -/
def State.treeBegin (s : State) (part tn : Nat) : State :=
  s.noteVis s.curUnit s.curWave.pos s.strand.seqNo (acquired .all 4 (s.placeOf s.curWave) (s.tree part tn).rels)

/-- The operation releases every object at device scope, for its strand's later writes and for the later operations of its
tree (R309). -/
def State.treeEnd (s : State) (part tn : Nat) : State :=
  let s := (s.releaseAll [.all] 4).2
  let r : Rel := ⟨.all, 4, s.placeOf s.curWave, s.strand.seqNo, s.strand.cover⟩
  s.updTree part tn fun t => { t with rels := [r] }

/-- An operation that fails is performed at its tree's record all the same, and synchronises there (R309); one that is malformed or
names no tree reaches none. DEDUCED, unsafe (log entry 33). -/
def State.treeFailed (s : State) (part tn st : Nat) : State :=
  if st = 1 ∨ st = 2 then s else (s.treeBegin part tn).treeEnd part tn

/-- The object of a virtual address. -/
def State.objAt (s : State) (part space va : Nat) : Obj :=
  match s.walk part space va with
  | .ok l => .page space l.obj
  | .error _ => .page space 0

/-- A write of a tree operation, which counts as a write of the strand (R227, R309); where the range cannot be written nothing
happens. -/
def State.treeWrite (s : State) (space va : Nat) (rels : List Rel) (bs : List Byte) : State :=
  let part := (s.unit s.curUnit).part
  match s.vaLocs s.curUnit part space va bs.length .write with
  | .error _ => s
  | .ok ls =>
    let o := s.objAt part space va
    let t := (s.touchVa part space va bs.length).perform s.curWave.who rels (ls.zip bs) o
    t.noteVis s.curUnit s.curWave.pos s.strand.seqNo (t.justWritten (ls.map fun l => (l, o)))

/-- Why an operation that names a tree fails before it looks at nodes: no such tree, or its other side (R311, R325). -/
def State.treeBar (s : State) (tn : Nat) : Option Nat :=
  let part := (s.unit s.curUnit).part
  if !SMap.has (s.part part).trees tn then some 1
  else if (s.tree part tn).decode != (s.cluster s.curCluster).decode then some 7
  else none

/-- All bytes from one offset to another of a block are 0. -/
def zeros (b : List Byte) (lo hi : Nat) : Bool := ((b.drop lo).take (hi - lo)).all fun x => x == 0#8

/-! ## create (R305, R312) -/

/-- A power of two from 16 to 65,536. -/
def ringSizeOk (n : Nat) : Bool := (List.range 13).any fun i => n == 2 ^ (i + 4)

/-- The tree that a descriptor describes. -/
def treeOf (part space : Nat) (b : List Byte) : Tree :=
  { part := part, space := space, pslots := 4 ^ (fieldOf b 0 1 + 1), die := fieldOf b 1 1, decode := fieldOf b 2 1 == 1,
    slotBytes := fieldOf b 4 4, trunk := fieldOf b 8 4, maxpos := fieldOf b 0xC 4, tokarea := fieldOf b 0x10 8,
    ring := fieldOf b 0x18 8, rentries := fieldOf b 0x20 4, kvpages := fieldOf b 0x24 4, kvbase := fieldOf b 0x28 8, nodes := [],
    pages := [], trunkPages := [], held := [], tail := 0, asked := [], rels := [] }

/-- A descriptor obeys R305. -/
def treeDescOk (b : List Byte) : Bool :=
  let t := treeOf 0 0 b
  decide (fieldOf b 0 1 ≤ 3) && decide (fieldOf b 1 1 ≤ 1) && decide (fieldOf b 2 1 ≤ 1) && fieldOf b 3 1 == 0
    && t.slotBytes % 128 == 0 && decide (128 ≤ t.slotBytes) && t.pageBytes % 65536 == 0 && decide (t.pageBytes ≤ 67108864)
    && decide (1 ≤ t.maxpos) && decide (t.maxpos ≤ 16777216) && decide (t.trunk ≤ t.maxpos) && t.tokarea % 128 == 0
    && t.ring % 128 == 0 && (t.ring == 0 || ringSizeOk t.rentries) && decide (1 ≤ t.kvpages) && decide (t.kvpages ≤ 65535)
    && t.kvbase % 65536 == 0 && zeros b 0x30 0x40

/-- Bytes of a tree's KV range. -/
def Tree.kvBytes (t : Tree) : Nat := t.kvpages * t.pageBytes

/-- A tree's KV range lies in the partition's aperture and overlaps no other tree's (R306). -/
def Partition.kvRangeOk (p : Partition) (t : Tree) : Bool :=
  decide (p.asn.kvBase ≤ t.kvbase) && decide (t.kvbase + t.kvBytes ≤ p.asn.kvBase + p.asn.kvSize)
    && p.trees.all fun e => decide (e.2.kvbase + e.2.kvBytes ≤ t.kvbase) || decide (t.kvbase + t.kvBytes ≤ e.2.kvbase)

/-- The lowest-numbered free tree number. -/
def Partition.freeTree (p : Partition) : Nat := ((List.range (p.trees.length + 1)).find? fun n => !SMap.has p.trees n).getD 0

/-- Allocate the trunk pages of a new tree: each is full but the last. -/
def State.allocTrunk (s : State) (part tn : Nat) : Nat → Nat → Option State
  | 0, _ => some s
  | n + 1, left =>
    let t := s.tree part tn
    match s.allocPage part tn (min left t.pslots) 1 with
    | none => none
    | some (k, s) => (s.updTree part tn fun t => { t with trunkPages := t.trunkPages ++ [k] }).allocTrunk part tn n (left - t.pslots)

/-- tree.create: the trunk pages are allocated and the ring's tail is set to 0 (R312). -/
def execTreeCreate (w : Bool) (r : BitVec 6) (s : State) : Out :=
  s.treeOp r <|
    let va := (s.readS r.toNat).toNat
    let u := s.unit s.curUnit
    s.probing false .read [⟨0, va, 1, 0#64, 0#64⟩] fun _ =>
      let fail := fun (st : Nat) => s.resultS w r.toNat (treeWord st 0 0 0)
      if va % 64 ≠ 0 then fail 2
      else s.readBlock w r.toNat va 64 (fail 2) fun b s =>
          let fail := fun (st : Nat) => s.resultS w r.toNat (treeWord st 0 0 0)
          let p := s.part u.part
          let t := treeOf u.part u.space b
          if !treeDescOk b || !p.kvRangeOk t then fail 2
          else if t.decode != (s.cluster s.curCluster).decode then fail 7
          else if 65536 ≤ p.trees.length ∨ p.asn.maxTrees ≤ p.trees.length then fail 3
          else
            s.fetchFirst u.space (if t.ring = 0 then [] else [(t.ring + 0x40, 8)]) <|
            let tn := p.freeTree
            let s' := s.setPart u.part { p with trees := SMap.put tn t p.trees }
            match s'.allocTrunk u.part tn ((t.trunk + t.pslots - 1) / t.pslots) t.trunk with
            | none => fail 4
            | some s' =>
              let s' := if t.ring = 0 then s' else s'.treeWrite u.space (t.ring + 0x40) [] (leBytes 8 0)
              (s'.treeEnd u.part tn).resultS w r.toNat (treeWord 0 0 tn 0)

/-! ## fork and append (R307, R313, R396) -/

/-- Copy the first `n` bytes of a page to another, page frame by page frame. -/
def State.copySlots (s : State) (part : Nat) (t : Tree) (src dst n : Nat) : State :=
  let a := (t.page src).frames
  let b := (t.page dst).frames
  (List.range ((n + 65535) / 65536)).foldl (fun s i =>
    s.copyRange (65536 * a.getD i 0) (65536 * b.getD i 0) (min 65536 (n - 65536 * i)) (s.vaObj part t.space (t.pageVa dst + 65536 * i))) s

/-- The page that holds a parent's slot: the last trunk page for the trunk tip (R307). -/
def Tree.pageOf (t : Tree) (parent : Nat) : Nat :=
  if parent = 0xFFFF then t.trunkPages.getLastD 0 else (t.node parent).page

/-- The lowest-numbered free node number. -/
def Tree.freeNode (t : Tree) : Nat := ((List.range 4096).find? fun n => !t.live n).getD 0

/-- Put a new node on a slot of a page and set the page's reference bit. -/
def Tree.addNode (t : Tree) (n parent pos : Nat) (token : W32) (page slot : Nat) : Tree :=
  { (t.updPage page fun g => { g with refBit := true }) with nodes := SMap.put n ⟨parent, pos, token, page, slot⟩ t.nodes }

/-- One placement (R307): the node, its slot's address, whether it split a page; none where no page is to be had. -/
def State.placeNode (s : State) (part tn parent : Nat) (token : W32) : Option (Nat × Nat × Bool × State) :=
  let t := s.tree part tn
  let pos := t.nextPos parent
  let slot := pos % t.pslots
  let n := t.freeNode
  let fin := fun (s : State) (page : Nat) (split : Bool) =>
    some (n, t.pageVa page + slot * t.slotBytes, split, s.updTree part tn fun t => t.addNode n parent pos token page slot)
  if slot = 0 then
    match s.allocPage part tn 1 1 with
    | none => none
    | some (k, s) => fin s k false
  else
    let pg := t.pageOf parent
    if (t.page pg).fill = slot then
      fin (s.updTree part tn fun t => t.updPage pg fun g => { g with fill := slot + 1, count := g.count + 1 }) pg false
    else
      let s := s.fetchPage part tn pg
      if !((s.tree part tn).page pg).resident then none
      else match s.allocPage part tn (slot + 1) 1 with
        | none => none
        | some (k, s) =>
          let s := s.fetchPage part tn pg
          if !((s.tree part tn).page pg).resident then none
          else fin (s.copySlots part (s.tree part tn) pg k (slot * t.slotBytes)) k true

/-- Place the nodes of a grow block in list order; a chain's nodes each under the one before: nodes and slots, splits. -/
def State.placeAll (s : State) (part tn : Nat) (chain : Bool) : Nat → List W32 → Option (List (Nat × Nat) × Nat × State)
  | _, [] => some ([], 0, s)
  | parent, tok :: toks =>
    match s.placeNode part tn parent tok with
    | none => none
    | some (n, va, split, s) =>
      match s.placeAll part tn chain (if chain then n else parent) toks with
      | none => none
      | some (l, k, s) => some ((n, va) :: l, (if split then k + 1 else k), s)

/-- Write the nodes and slots fields of a grow block (R396). -/
def State.writeGrow (s : State) (space va : Nat) (l : List (Nat × Nat)) : State :=
  let ns := (List.range 8).flatMap fun i => leBytes 2 (match l[i]? with | some e => e.1 | none => 0xFFFF)
  let vs := (List.range 8).flatMap fun i => leBytes 8 (match l[i]? with | some e => e.2 | none => 0)
  (s.treeWrite space (va + 0x28) [] ns).treeWrite space (va + 0x40) [] vs

/-- The status with which a grow fails before it places anything, or none. -/
def State.growBar (s : State) (chain : Bool) (b : List Byte) : Option Nat :=
  let tn := fieldOf b 0 2
  let parent := fieldOf b 2 2
  let n := fieldOf b 4 1
  let t := s.tree (s.unit s.curUnit).part tn
  if n = 0 ∨ 8 < n ∨ (4095 < parent ∧ parent ≠ 0xFFFF) ∨ !zeros b 5 8 ∨ !zeros b 0x38 0x40 then some 2
  else match s.treeBar tn with
    | some st => some st
    | none =>
      if parent ≠ 0xFFFF ∧ !t.live parent then some 5
      else if !t.held.isEmpty then some 6
      else if 4096 < t.nodes.length + n then some 3
      else if t.maxpos < t.nextPos parent + (if chain then n else 1) then some 8
      else none

/-- fork and append (R313). -/
def State.grow (s : State) (w : Bool) (r : BitVec 6) (chain : Bool) : Out :=
  s.treeOp r <|
    let va := (s.readS r.toNat).toNat
    let u := s.unit s.curUnit
    s.probing false .write [⟨0, va, 1, 0#64, 0#64⟩] fun _ =>
      if va % 128 ≠ 0 then s.resultS w r.toNat (treeWord 2 0 0 0)
      else s.readBlock w r.toNat va 128 (s.resultS w r.toNat (treeWord 2 0 0 0)) fun b s =>
          let tn := fieldOf b 0 2
          let fail := fun (st : Nat) => ((s.writeGrow u.space va []).treeFailed u.part tn st).resultS w r.toNat (treeWord st 0 0 0)
          match s.growBar chain b with
          | some st => fail st
          | none =>
            let toks := (List.range (fieldOf b 4 1)).map fun i => BitVec.ofNat 32 (fieldOf b (8 + 4 * i) 4)
            match (s.treeBegin u.part tn).placeAll u.part tn chain (fieldOf b 2 2) toks with
            | none => fail 4
            | some (l, splits, s) => (((s.bump u.part (s.tree u.part tn).die 0x0B splits).writeGrow u.space va l).treeEnd u.part tn).resultS w r.toNat (treeWord 0 splits 0 0)

/-- tree.fork: siblings under a parent. -/
def execTreeFork (w : Bool) (r : BitVec 6) (s : State) : Out := s.grow w r false
/-- tree.append: a chain under a parent. -/
def execTreeAppend (w : Bool) (r : BitVec 6) (s : State) : Out := s.grow w r true

/-! ## prune, commit and destroy (R314, R315, R318, R322) -/

/-- Take nodes out of a tree; each one's page loses 1 from its count. -/
def Tree.remove (t : Tree) (ns : List Nat) : Tree :=
  let t' := ns.foldl (fun x n => x.updPage (t.node n).page fun g => { g with count := g.count - 1 }) t
  { t' with nodes := t'.nodes.filter fun e => !ns.contains e.1 }

/-- The status with which an operation on a node operand fails, or none. -/
def State.nodeBar (s : State) (x : Nat) : Option Nat :=
  if x % 65536 + bitsOf x 27 16 * 65536 ≠ x then some 2
  else match s.treeBar (x % 65536) with
    | some st => some st
    | none => if (s.tree (s.unit s.curUnit).part (x % 65536)).live (bitsOf x 27 16) then none else some 5

/-- tree.prune: a node and its descendants go. -/
def execTreePrune (w : Bool) (r : BitVec 6) (s : State) : Out :=
  s.treeOp r <|
    let x := (s.readS r.toNat).toNat
    let part := (s.unit s.curUnit).part
    let tn := x % 65536
    match s.nodeBar x with
    | some st => (s.treeFailed part tn st).resultS w r.toNat (treeWord st 0 0 0)
    | none =>
      let s := s.treeBegin part tn
      let gone := (s.tree part tn).descendants (bitsOf x 27 16)
      let (freed, s) := (s.updTree part tn fun t => t.remove gone).freeDead part tn
      .next ((((s.treeEnd part tn).writeS r.toNat (treeWord 0 0 gone.length freed)).retire w).stopTagged part tn gone)

/-- The engine may write the ring entries from number `tail` on, `n` of them, and the tail; where a page of theirs is in spill it is
fetched first (R324). -/
def State.ringOpen (s : State) (unit part : Nat) (t : Tree) (n : Nat) : Except PFault (List Nat) :=
  ((List.range n).map fun i => t.ring + 128 + 8 * ((t.tail + i) % t.rentries)).foldl (fun acc va => match acc with
    | .error f => .error f
    | .ok _ => s.vaLocs unit part t.space va 8 .write) (s.vaLocs unit part t.space (t.ring + 0x40) 8 .write)

/-- Deliver the first held tokens that a ring has room for: entries, then the tail with a release of every object at system
scope (R326, R327). Where head cannot be read, or an entry or the tail not be written, every token stays held.
DEDUCED, unsafe (log entry 33). -/
def State.deliverRing (s : State) (unit part tn : Nat) (put : State → Nat → List Rel → List Byte → State) (rels : State → List Rel) : State :=
  let t := s.tree part tn
  if t.ring = 0 ∨ t.held.isEmpty then s
  else match s.readVa unit part t.space t.ring 8 with
    | .error (.spilled a) => s.wantPage part t.space a
    | .error _ => s
    | .ok b =>
      let s := s.touchVa part t.space t.ring 8
      let used := (t.tail + 2 ^ 64 - leNat b) % 2 ^ 64
      let out := t.held.take (t.rentries - used)
      if out.isEmpty then s
      else match s.ringOpen unit part t out.length with
        | .error (.spilled a) => s.wantPage part t.space a
        | .error _ => s
        | .ok _ =>
          let s := ((List.range out.length).zip out).foldl (fun s e =>
            put s (t.ring + 128 + 8 * ((t.tail + e.1) % t.rentries)) [] (leBytes 8 (e.2.1 * 2 ^ 32 + e.2.2.toNat))) s
          let tail := (t.tail + out.length) % 2 ^ 64
          let s := put s (t.ring + 0x40) (rels s) (leBytes 8 tail)
          s.updTree part tn fun t => { t with held := t.held.drop out.length, tail := tail }

/-- The trunk takes a node and its ancestors in: the trunk pages become the node's path list, and counts follow; the
committed nodes leave, their children hang on the trunk tip (R315, steps 1, 2 and 4). -/
def Tree.commit (t : Tree) (q : Nat) : Tree :=
  let up := t.ancestors q
  let old := t.trunkPages
  let new := t.pathList q
  let t' := up.foldl (fun x n => x.updPage (t.node n).page fun g => { g with count := g.count - 1 }) t
  let t' := (new.filter fun k => !old.contains k).foldl (fun x k => x.updPage k fun g => { g with count := g.count + 1 }) t'
  let t' := (old.filter fun k => !new.contains k).foldl (fun x k => x.updPage k fun g => { g with count := g.count - 1 }) t'
  let kept := t'.nodes.filter fun e => !up.contains e.1
  let toks := up.reverse.map fun n => ((t.node n).pos, (t.node n).token)
  { t' with nodes := SMap.mapVals (fun _ n => if up.contains n.parent then { n with parent := 0xFFFF } else n) kept,
            trunk := (t.node q).pos + 1, trunkPages := new, held := if t.ring = 0 then t.held else t.held ++ toks }

/-- Units lose their tags of committed nodes (R315). -/
def State.dropTags (s : State) (part tn : Nat) (ns : List Nat) : State :=
  { s with units := SMap.mapVals (fun _ u =>
      if u.part = part then { u with tags := u.tags.filter fun t => !(t.1 == tn && ns.contains t.2) } else u) s.units }

/-- tree.commit. -/
def execTreeCommit (w : Bool) (r : BitVec 6) (s : State) : Out :=
  s.treeOp r <|
    let x := (s.readS r.toNat).toNat
    let part := (s.unit s.curUnit).part
    let tn := x % 65536
    let q := bitsOf x 27 16
    match s.nodeBar x with
    | some st => (s.treeFailed part tn st).resultS w r.toNat (treeWord st 0 0 0)
    | none =>
      let t := s.tree part tn
      let up := t.ancestors q
      s.fetchFirst t.space [(t.tokarea + 4 * t.trunk, 4 * up.length)] <|
      let s := s.treeBegin part tn
      let down := t.descendants q
      let gone := (t.nodes.map Prod.fst).filter fun n => !up.contains n && !down.contains n
      let toks := up.reverse.flatMap fun n => leBytes 4 (t.node n).token.toNat
      let s := s.treeWrite t.space (t.tokarea + 4 * t.trunk) [] toks
      let s := s.updTree part tn fun t => (t.commit q).remove gone
      let s := (s.freeDead part tn).2
      let s := (s.dropTags part tn up).treeEnd part tn
      let s := s.deliverRing s.curUnit part tn (fun s va rels bs => s.treeWrite t.space va rels bs) fun s => s.sysRelease :: s.strand.rels
      .next (((s.writeS r.toNat (treeWord 0 0 gone.length ((s.tree part tn).trunk))).retire w).stopTagged part tn gone)

/-- RING_HEAD_ADVANCE: the engine has seen the head of a stalled ring move and delivers more (R327). -/
def execRingHeadAdvance (part tree : Nat) (s : State) : Out :=
  let t := s.tree part tree
  .next (s.deliverRing 0 part tree (fun s va rels bs => s.writeVa 0 part t.space rels va bs)
    fun s => [schedRelease (View.join (relsView t.rels) (ownWrites s.hist 0))])

/-- Free pages of a tree, whatever their counts. -/
def State.freeAll (s : State) (part tn : Nat) : State :=
  ((s.tree part tn).pages.map Prod.fst).foldl (fun s k => s.freePage part tn k) s

/-- A tree number becomes free. -/
def State.dropTree (s : State) (part tn : Nat) : State :=
  (s.freeAll part tn).updPart part fun p => { p with trees := SMap.del p.trees tn }

/-- tree.destroy. -/
def execTreeDestroy (w : Bool) (r : BitVec 6) (s : State) : Out :=
  s.treeOp r <|
    let x := (s.readS r.toNat).toNat
    let part := (s.unit s.curUnit).part
    let ret := fun (s : State) (st hi : Nat) => (s.writeS r.toNat (treeWord st 0 0 hi)).retire w
    if 65536 ≤ x then .next (ret s 2 0)
    else match s.treeBar x with
      | some st => .next (ret (s.treeFailed part x st) st 0)
      | none =>
        let t := s.tree part x
        if !t.held.isEmpty then .next (ret (s.treeFailed part x 6) 6 0)
        else
          let s := ((s.treeBegin part x).treeEnd part x).dropTree part x
          .next ((ret s 0 t.pages.length).stopTagged part x (t.nodes.map Prod.fst))

/-! ## ahead (R316) -/

/-- The pages of a tree that are not resident among `ks`; a page that has been freed is waited for no longer. -/
def Tree.absent (t : Tree) (ks : List Nat) : List Nat := ks.filter fun k => SMap.has t.pages k && !(t.page k).resident

/-- The reference bits of pages are set, and those in spill are to be fetched in the order in which they are named, after those asked for
before (R316). DEDUCED, unsafe (log entry 33). -/
def Tree.wanted (t : Tree) (ks : List Nat) : Tree :=
  { t with pages := SMap.mapVals (fun k (g : KvPage) => if ks.contains k then { g with refBit := true } else g) t.pages,
           asked := t.asked ++ (t.absent ks).eraseDups.filter fun k => !t.asked.contains k }

/-- ahead returns, with the pages that are not resident yet; with wait it stands until there are none. -/
def State.aheadEnd (s : State) (w : Bool) (r part tn : Nat) (pages : List Nat) (wait : Bool) : Out :=
  let out := (s.tree part tn).absent pages
  if wait && !out.isEmpty then
    .next ((s.updTree part tn fun t => t.wanted out).blockWith (.ahead tn pages))
  else s.resultS w r (treeWord 0 0 out.length 0)

/-- The nodes and trunk tips that an ahead block queries. -/
def aheadQueries (b : List Byte) : List Nat := (List.range (fieldOf b 2 2)).map fun j => fieldOf b (0x18 + 2 * j) 2

/-- The tags and pins that a unit holds after an ahead. -/
def addNew (old new : List (Nat × Nat)) : List (Nat × Nat) := new.foldl (fun l x => if l.contains x then l else l ++ [x]) old

/-- The ranges that ahead's path lists take, of the queries that are there. -/
def State.aheadRanges (s : State) (b : List Byte) : List (Nat × Nat) :=
  let t := s.tree (s.unit s.curUnit).part (fieldOf b 0 2)
  let qs := aheadQueries b
  if 16 < qs.length then []
  else ((List.range qs.length).zip qs).filterMap fun e =>
    if e.2 = 0xFFFF ∨ t.live e.2 then some (fieldOf b 8 8 + e.1 * fieldOf b 0x10 4, 8 + 8 * (t.pathList e.2).length) else none

/-- The status with which ahead fails, or none. DEDUCED, unsafe (log entry 33). -/
def State.aheadBar (s : State) (b : List Byte) (tag pin : Bool) : Option Nat :=
  let tn := fieldOf b 0 2
  let m := fieldOf b 2 2
  let stride := fieldOf b 0x10 4
  let u := s.unit s.curUnit
  let t := s.tree u.part tn
  let qs := aheadQueries b
  if m = 0 ∨ 16 < m ∨ !zeros b 4 8 ∨ !zeros b 0x14 0x18 ∨ !zeros b 0x38 0x80 ∨ fieldOf b 8 8 % 8 ≠ 0 ∨ stride % 8 ≠ 0
      ∨ qs.any (fun q => decide (4095 < q) && q != 0xFFFF) then some 2
  else
    let there := fun (q : Nat) => q == 0xFFFF || t.live q
    let full := fun (j : Nat) =>
      let q := qs.getD j 0
      let n := 8 + 8 * (t.pathList q).length
      there q && (decide (stride < n) || !s.vaWritable s.curUnit u.part u.space (fieldOf b 8 8 + j * stride) n)
    if SMap.has (s.part u.part).trees tn && (List.range m).any full then some 2
    else match s.treeBar tn with
    | some st => some st
    | none =>
      if !qs.all there then some 5
      else
        let tags := addNew u.tags ((qs.filter fun q => q != 0xFFFF).map fun q => (tn, q))
        let pins := addNew u.pins ((qs.flatMap t.pathList).map fun k => (tn, k))
        if (tag ∧ 16 < tags.length) ∨ (pin ∧ 4096 < pins.length) then some 9 else none

/-- ahead's effects: path lists, reference bits and fetches, tags and pins. -/
def State.ahead (s : State) (b : List Byte) (tag pin : Bool) : State :=
  let tn := fieldOf b 0 2
  let u := s.unit s.curUnit
  let t := s.tree u.part tn
  let qs := aheadQueries b
  let ks := qs.flatMap t.pathList
  let put := fun (s : State) (e : Nat × Nat) =>
    let l := t.pathList e.2
    s.treeWrite u.space (fieldOf b 8 8 + e.1 * fieldOf b 0x10 4) []
      (leBytes 4 l.length ++ leBytes 4 (t.nextPos e.2) ++ l.flatMap fun k => leBytes 8 (t.pageVa k))
  let s := ((List.range qs.length).zip qs).foldl put (s.treeBegin u.part tn)
  let s := s.updTree u.part tn fun t => t.wanted ks
  let s := s.updUnit s.curUnit fun u =>
    { u with tags := if tag then addNew u.tags ((qs.filter fun q => q != 0xFFFF).map fun q => (tn, q)) else u.tags,
             pins := if pin then addNew u.pins (ks.map fun k => (tn, k)) else u.pins }
  s.treeEnd u.part tn

/-- tree.ahead: `g` pins, `t` tags, `k` waits. With wait it is a point at which a pending store error is delivered (R362). -/
def execTreeAhead (w : Bool) (r : BitVec 6) (g t k : BitVec 1) (s : State) : Out :=
  let u := s.unit s.curUnit
  match s.strand.wait with
  | .ahead tn pages => s.aheadEnd w r.toNat u.part tn pages true
  | _ =>
    let body := s.treeOp r <|
      let va := (s.readS r.toNat).toNat
      s.probing false .read [⟨0, va, 1, 0#64, 0#64⟩] fun _ =>
        let fail := fun (st : Nat) => s.resultS w r.toNat (treeWord st 0 0 0)
        if va % 128 ≠ 0 then fail 2
        else s.readBlock w r.toNat va 128 (fail 2) fun b s =>
            s.fetchFirst u.space (s.aheadRanges b) <|
            match s.aheadBar b (t == 1#1) (g == 1#1) with
            | some st => (s.treeFailed u.part (fieldOf b 0 2) st).resultS w r.toNat (treeWord st 0 0 0)
            | none =>
              let tn := fieldOf b 0 2
              let ks := (aheadQueries b).flatMap (s.tree u.part tn).pathList
              (s.ahead b (t == 1#1) (g == 1#1)).aheadEnd w r.toNat u.part tn ks.eraseDups (k == 1#1)
    if k = 1#1 then s.syncPoint body else body

/-! ## handover (R317) -/

/-- Move a resident page to frames of another die; none where its pool has no room. -/
def State.movePage (s : State) (part tn die k : Nat) : Option State :=
  let t := s.tree part tn
  let g := t.page k
  let s := s.makeRoom part die t.pageFrames
  let frames := (s.pool part die).free.take t.pageFrames
  if frames.length < t.pageFrames then none
  else
    let s := s.updPool part die fun q => { q with free := q.free.drop t.pageFrames }
    let s := (List.range t.pageFrames).foldl (fun s i =>
      s.moveRange (65536 * g.frames.getD i 0) (65536 * frames.getD i 0) 65536 (s.vaObj part t.space (t.pageVa k + 65536 * i))) s
    let s := s.mapPage part t k true false frames
    let s := s.updPool part t.die fun q => { q with free := q.free ++ g.frames }
    some (s.updTree part tn fun t => t.updPage k fun g => { g with frames := frames })

/-- Move pages one after another. -/
def State.movePages (s : State) (part tn die : Nat) : List Nat → Option State
  | [] => some s
  | k :: ks => match s.movePage part tn die k with
    | none => none
    | some s => s.movePages part tn die ks

/-- tree.handover: every resident page moves to the target die; the side changes. -/
def execTreeHandover (w : Bool) (r : BitVec 6) (s : State) : Out :=
  s.treeOp r <|
    let x := (s.readS r.toNat).toNat
    let part := (s.unit s.curUnit).part
    let tn := x % 65536
    let die := bitsOf x 16 16
    let fail := fun (st : Nat) => (s.treeFailed part tn st).resultS w r.toNat (treeWord st 0 0 0)
    if 2 ^ 18 ≤ x then fail 2
    else match s.treeBar tn with
      | some st => fail st
      | none =>
        let t := s.tree part tn
        let ks := if t.die = die then [] else (t.pages.filter fun g => g.2.resident).map Prod.fst
        match (s.treeBegin part tn).movePages part tn die ks with
        | none => fail 4
        | some s =>
          let s := s.updTree part tn fun t => { t with die := die, decode := x.testBit 17 }
          (s.treeEnd part tn).resultS w r.toNat (treeWord 0 0 ks.length 0)

/-! ## The token-ready barrier (R328, R329, R382) -/

/-- Of the writes performed just now, those of some bytes carry these releases instead. -/
def State.carryOnly (s : State) (locs : List Nat) (rels : List Rel) : State :=
  { s with hist := s.hist.map fun r => if r.time = s.now && r.span == 0 && locs.contains r.loc then { r with rels := rels } else r }

/-- tokrdy post: target rises by need, the phase by 1, in one step; the phase write is the carrier of a release of every object at system
scope; the interrupt follows. -/
def State.tokPost (s : State) (w : Bool) (r : BitVec 6) : Out :=
  let va := (s.readS r.toNat).toNat
  let u := s.unit s.curUnit
  s.probing false .atomic [⟨0, va, 1, 0#64, 0#64⟩] fun as =>
    let pa := match as with | a :: _ => a.loc | [] => 0
    let obj := match as with | a :: _ => a.obj | [] => .all
    let locs := (List.range 16).map fun i => pa + i
    if va % 64 ≠ 0 then s.resultS w r.toNat (BitVec.allOnes 64)
    else if s.unreachable u.part pa || (List.range 0x1E).any fun i => s.poisonedAt (pa + i) then s.resultBad w r.toNat
    else
      let s := s.touchVa u.part u.space va 32
      let phase := (s.word pa 8 + 1) % 2 ^ 64
      let target := (s.word (pa + 8) 8 + s.word (pa + 0x18) 4) % 2 ^ 64
      let gcore := s.word (pa + 0x1C) 2
      let chain := fun (ls : List Nat) => (readSources s.hist s.now (ls.map fun l => (l, Obj.all))).2
      let rels := s.strand.rels
      let x := s.perform s.curWave.who (s.sysRelease :: (rels ++ chain (locs.take 8))) (locs.zip (leBytes 8 phase ++ leBytes 8 target)) obj
      let x := x.carryOnly (locs.drop 8) (rels ++ chain (locs.drop 8))
      let x := x.noteVis x.curUnit x.curWave.pos x.strand.seqNo (x.justWritten (locs.map fun l => (l, obj)))
      let x := if gcore.testBit 15 then x.updPart u.part fun p => { p with tokIrq := gcore % 32 :: p.tokIrq } else x
      x.resultS w r.toNat (BitVec.ofNat 64 phase)

/-- A waiting barrier's block cannot be read again: its home is not live or its spilled page cannot be fetched (R350, R382). -/
def State.tokLost (s : State) (unit va : Nat) : Bool :=
  let u := s.unit unit
  match s.vaLocs unit u.part u.space va 64 .read with
  | .error (.dieOffline _) => true
  | .error .refused => true
  | .error (.spilled a) => s.pageLost u.part u.space a
  | _ => false

/-- Where the block of a barrier stands now, by its virtual address in a unit's space; none while it cannot be read (R324). -/
def State.blockAt (s : State) (unit va : Nat) : Option Nat :=
  match s.vaLocs unit (s.unit unit).part (s.unit unit).space va 64 .read with
  | .ok (pa :: _) => some pa
  | _ => none

/-- The count got of the barrier block at a virtual address. -/
def State.blockGot (s : State) (unit va : Nat) : Option Nat := (s.blockAt unit va).map fun pa => s.word (pa + 0x10) 8

/-- The count got of the barrier block at a place is marked, so that it is not used (R350). -/
def State.gotMarked (s : State) (pa : Nat) : Bool := (List.range 8).any fun i => s.poisonedAt (pa + 0x10 + i)

/-- tokrdy wait has read its target, and the die of the core that the block names: it returns got once it meets the target, as an acquire
of every object at system scope over the update it reads. Once that die has failed it returns with status.brk set; so it does, with s[s]
marked poisoned, once the block cannot be read again (R350, R362, R382). A marked got is not compared: s[s] is marked as that of a load
is (R364). DEDUCED, unsafe (log entry 63). -/
def State.tokWaits (s : State) (w : Bool) (r block target die : Nat) (broken : Bool) : Out :=
  let ret := fun (s : State) (got : Nat) => s.resultS w r (BitVec.ofNat 64 got)
  let brk := s.updStrand fun x => { x with csr := { x.csr with brk := true } }
  let stay := fun (s : State) => Host.Outcome.next (s.blockWith (.tokrdy block target die broken))
  match s.blockAt s.curUnit block with
  | none =>
    let u := s.unit s.curUnit
    if s.tokLost s.curUnit block then brk.resultBad w r
    else match s.spilledIn s.curUnit u.part u.space block 64 .read with
      | some a => stay (s.wantPage u.part u.space a)
      | none => if broken then brk.resultBad w r else stay s
  | some pa =>
    let got := s.word (pa + 0x10) 8
    if s.gotMarked pa then (if broken then brk else s).resultBad w r
    else if broken then ret brk got
    else if target ≤ got then
      let src := readSources s.hist s.now ((List.range 8).map fun i => (pa + 0x10 + i, s.objAt (s.unit s.curUnit).part (s.unit s.curUnit).space block))
      let s := s.noteVis s.curUnit s.curWave.pos s.strand.seqNo src.1
      ret (s.syncWith src.2) got
    else stay s

/-- tree.tokrdy: bit 0 clear posts, set waits. -/
def execTreeTokrdy (w : Bool) (r : BitVec 6) (k : BitVec 1) (s : State) : Out :=
  if k = 0#1 then s.statusOp [.s r.toNat] <| s.notScout <| s.whenQuiet <| s.tokPost w r
  else match s.strand.wait with
    | .tokrdy block target die broken => s.tokWaits w r.toNat block target die broken
    | _ => s.syncPoint <| s.statusOp [.s r.toNat] <| s.notScout <|
      let va := (s.readS r.toNat).toNat
      let u := s.unit s.curUnit
      s.probing false .read [⟨0, va, 1, 0#64, 0#64⟩] fun as =>
        let pa := match as with | a :: _ => a.loc | [] => 0
        if va % 64 ≠ 0 then s.resultS w r.toNat (BitVec.allOnes 64)
        else if s.unreachable u.part pa || (List.range 0x1E).any fun i => s.poisonedAt (pa + i) then s.resultBad w r.toNat
        else (s.touchVa u.part u.space va 32).tokWaits w r.toNat va (s.word (pa + 8) 8) (s.word (pa + 0x1C) 2 / 16 % 2) false

/-- TOKRDY_RELEASE: a waiting tokrdy whose target is met or whose got is marked, or whose core or block has failed, goes on at its next
turn (R329, R382). -/
def execTokrdyRelease (wave : Nat) (s : State) : Out :=
  match s.slotBy wave with
  | none => .next s
  | some k => match (s.wave k).acc.wait with
    | .tokrdy block target _ broken =>
      .next (if broken || s.tokLost (s.wave k).unit block || (s.blockAt (s.wave k).unit block).any s.gotMarked
        || (s.blockGot (s.wave k).unit block).any (fun got => decide (target ≤ got)) then s.wakeUp k else s)
    | _ => .next s

/-! ## Masks from ancestry (R320, R321) -/

/-- A mask command: its words' fields. -/
structure MaskCmd where
  tree : Nat
  tag : Nat
  nq : Nat
  nk : Nat
  queries : Nat
  keys : Nat
  dst : Nat
  deriving DecidableEq, Repr

/-- The command of four words; the flag says that a field breaks R320. DEDUCED, unsafe (log entry 34). -/
def maskCmd (w0 w1 w2 w3 : W64) : MaskCmd × Bool :=
  let x := w0.toNat
  let c : MaskCmd := ⟨bitsOf x 47 32, bitsOf x 31 16, bitsOf x 53 48 + 1, bitsOf x 12 0, w1.toNat, w2.toNat, w3.toNat⟩
  (c, bitsOf x 55 54 != 0 || bitsOf x 15 13 != 0 || c.nk == 0 || decide (4096 < c.nk))

/-- Words of 32 bits of a unit's creel. -/
def State.creelWords (s : State) (cluster off n : Nat) : List Nat :=
  (List.range n).map fun i => leNat ((List.range 4).map fun j => s.byteNow (locOfCreel cluster (off + 4 * i + j)))

/-- A byte of a range of a unit's creel is marked. -/
def State.creelMarked (s : State) (cluster off n : Nat) : Bool := (List.range n).any fun i => s.poisonedAt (locOfCreel cluster (off + i))

/-- Bytes of a row (R320). -/
def MaskCmd.rowBytes (c : MaskCmd) : Nat := 8 * ((c.nk + 63) / 64)

/-- Key `k` is attended to by live node `q` (R321). -/
def Tree.attends (t : Tree) (up : List Nat) (k : Nat) : Bool :=
  if k.testBit 31 then t.live (bitsOf k 11 0) && up.contains (bitsOf k 11 0) else decide (bitsOf k 30 0 < t.trunk)

/-- The bytes of the row of a query. -/
def Tree.maskRow (t : Tree) (c : MaskCmd) (keys : List Nat) (q : Nat) : List Byte :=
  let up := t.ancestors q
  let bits := if t.live q then keys.map (t.attends up) else []
  leBytes c.rowBytes ((List.range bits.length).foldl (fun n i => if bits.getD i false then n + 2 ^ i else n) 0)

/-- Entries of the query and key lists have their reserved bits clear. -/
def listsOk (qs ks : List Nat) : Bool :=
  (qs.all fun q => bitsOf q 31 12 == 0) && ks.all fun k => !k.testBit 31 || bitsOf k 30 12 == 0

/-- Perform a mask command for the wave numbered `who` and post its completion. A marked entry of a list is not used (R350), and no status
names it: the command is answered as an unassigned one. DESIGN CHOICE, unsafe (log entry 51). -/
def State.runMask (s : State) (who : Nat) (c : MaskCmd) (malformed : Bool) : State :=
  let uk := who / 32
  let u := s.unit uk
  let outside := fun (a n : Nat) => decide (2 ^ 22 ≤ a) || s.creelOutside uk a n
  let post := fun (s : State) (st dead num : Nat) =>
    s.updWaveBy who fun w => w.postDone 3 (BitVec.ofNat 64 (st * 2 ^ 56 + c.tag * 2 ^ 32 + dead)) num
  if malformed || outside c.queries (4 * c.nq) || outside c.keys (4 * c.nk) || outside c.dst (c.nq * c.rowBytes) then post s 2 0 0
  else if s.creelMarked u.cluster c.queries (4 * c.nq) || s.creelMarked u.cluster c.keys (4 * c.nk) then
    s.updWaveBy who fun w => w.postDone 3 (BitVec.allOnes 64) 0
  else
    let qs := s.creelWords u.cluster c.queries c.nq
    let ks := s.creelWords u.cluster c.keys c.nk
    if !listsOk qs ks then post s 2 0 0
    else if !SMap.has (s.part u.part).trees c.tree then post s 1 0 0
    else
      let t := s.tree u.part c.tree
      if t.decode != (s.cluster u.cluster).decode then post s 7 0 0
      else
        let rows := qs.flatMap (t.maskRow c ks)
        let num := s.nextCmd
        let base := locOfCreel u.cluster c.dst
        let s := s.perform (2 ^ 40 + num) [] ((List.range rows.length).zip rows |>.map fun e => (base + e.1, e.2)) .creel
        let s := { s with nextCmd := num + 1 }.updWaveBy who fun w => { w with cmdNums := w.cmdNums ++ [num] }
        post s 0 (qs.filter fun q => !t.live q).length num

/-- MASK: the mask generator performs the next command of a wave, once its completion queue has room. A command with a word that fails
parity is answered as an unassigned one. DESIGN CHOICE, unsafe (log entry 51). -/
def execMask (wave : Nat) (s : State) : Out :=
  if s.slotBy wave = none ∨ !(s.waveBy wave).doneRoom 3 then .next s
  else
    let pop := fun (n : Nat) => s.updWaveBy wave fun w => { w with eqCmd := SMap.upd [] 3 (fun q => q.drop n) w.eqCmd }
    let refuse := fun (n : Nat) => (pop n).updWaveBy wave fun w => w.postDone 3 (BitVec.allOnes 64) 0
    match SMap.get [] (s.waveBy wave).eqCmd 3 with
    | [] => .next s
    | w0 :: rest =>
      if bitsOf w0.val.toNat 63 56 ≠ 1 then .next (refuse 1)
      else match rest with
        | w1 :: w2 :: w3 :: _ =>
          let (c, bad) := maskCmd w0.val w1.val w2.val w3.val
          .next (if (s.waveBy wave).cmdBad 3 4 then refuse 4 else (pop 4).runMask wave c bad)
        | _ => .next s

end Sys2Proof.Machine
end

