-- ==== Sys2Proof/Machine/Exchange.lean ====
section
/-! DEFINITION. The host link, receive counters, triggered sends, collectives and the posted-demand exchange (R273 to R298,
R395). The arbiter of a group is one agent of the model, wherever it runs: its inputs are the events of the fabric. -/

namespace Sys2Proof.Machine

/-! ## The host link (R273, R275) -/

/-- The partition that holds virtual function `fn`. -/
def State.fnPart (s : State) (fn : Nat) : Option Nat := (s.parts.find? fun e => e.2.started && e.2.asn.vf == fn).map Prod.fst

/-- A host access through a function reaches a range of device memory: the physical function all of it, a virtual function
what its partition is granted. -/
def State.hostReaches (s : State) (fn pa n : Nat) : Bool :=
  let live := match homeDie pa with
    | some d => !s.offline d
    | none => false
  let dev := match paKind pa, paKind (pa + n - 1) with
    | .hbm a, .hbm b => a == b
    | .flash, .flash => true
    | _, _ => false
  dev && live && (fn == 0 || match s.fnPart fn with
    | some p => (s.part p).asn.grants pa n
    | none => false)

/-- A write of the host, which it has made visible to itself. -/
def State.hostStore (s : State) (rels : List Rel) (addr : Nat) (bytes : List Byte) : State :=
  let s := s.perform hostAgent rels ((List.range bytes.length).zip bytes |>.map fun e => (addr + e.1, e.2))
  { s with hostCover := View.join s.hostCover (s.justWritten ((List.range bytes.length).map fun i => (addr + i, Obj.all))) }

/-- A range of the host's own memory (R21, R273). -/
def hostOwn (a n : Nat) : Bool := paKind a == .host && paKind (a + n - 1) == .host

/-- HOST_POSTED_WRITE: performed at its home slice as its own carrier of a release of every object at system scope; outside the
function's grant, and to flash, it is discarded. A debugger's writes in a mapped image come in under function 0 (R375).
A write in a partition's debug block comes in there too, and a store of the host to its own memory, which is no release.
DESIGN CHOICE, unsafe (log entry 13). -/
def execHostPostedWrite (fn addr : Nat) (bytes : List Byte) (s : State) : Out :=
  if bytes.isEmpty then .next s
  else if s.hostReaches fn addr bytes.length then
    if paKind addr == .flash then .next s
    else
      .next (s.hostStore [⟨.all, 5, hostPlace, 0, s.hostCover⟩] addr bytes)
  else if fn ≠ 0 then .next s
  else match s.imageIn addr bytes.length, s.debugIn addr bytes.length with
    | some (u, g, off), _ => .next (s.imageWrite u g off bytes)
    | none, some (p, off) => .next (s.debugWrite p off bytes)
    | none, none => if hostOwn addr bytes.length then .next (s.hostStore [] addr bytes) else .next s

/-- HOST_READ: returns the bytes as an acquire of every object at system scope; outside the grant it completes with
Unsupported Request, recorded as no bytes. A debugger's reads of a mapped image and of a debug block come in under function 0 (R375), and
the host's loads of its own memory, which acquire nothing.
DESIGN CHOICE, unsafe (log entry 13). DEDUCED, unsafe (log entries 27 and 38). -/
def execHostRead (fn addr len : Nat) (s : State) : Out :=
  if len = 0 || !s.hostReaches fn addr len then
    let own := fn == 0 && decide (0 < len) && hostOwn addr len
    let locs := (List.range len).map fun i => addr + i
    let bytes := if fn ≠ 0 then [] else match s.imageIn addr len, s.debugIn addr len with
      | some (u, g, off), _ => (List.range len).map fun i => s.imageRead u g (off + i)
      | none, some (p, off) => ((s.dbg p).bytes.drop off).take len
      | none, none => if own then locs.map s.byteNow else []
    let seen := if own then (readSources s.hist s.now (locs.map fun l => (l, Obj.all))).1 else []
    .next { s with hostReads := (addr, bytes) :: s.hostReads, hostCover := View.join s.hostCover seen }
  else
    let locs := (List.range len).map fun i => addr + i
    let (vis, rels) := readSources s.hist s.now (locs.map fun l => (l, Obj.all))
    .next { s with hostReads := (addr, locs.map s.byteNow) :: s.hostReads,
                   hostCover := View.join (View.join s.hostCover vis) (acquired .all 5 hostPlace rels) }

/-! ## Receive counters and triggers (R279 to R283) -/

/-- Receive counter `c` of a partition. -/
def Partition.counter (p : Partition) (c : Nat) : Counter := SMap.get Counter.zero p.counters c

/-- A counter changes, carrying a release; armed triggers that it brings to their threshold fire, each once, and acquire what the value at
which they fire makes visible. -/
def State.setCounter (s : State) (part c : Nat) (v : W64) (r : Rel) : State :=
  let view := View.join (relsView ((s.part part).counter c).rels) r.cover
  let s := s.updPart part fun p => { p with counters := SMap.put c ⟨v, [schedRelease view]⟩ p.counters }
  let fires := fun (t : Trigger) => !t.fired && t.part == part && t.tcnt == c && decide (t.thresh.toNat ≤ v.toNat)
  { s with triggers := SMap.mapVals (fun _ t => if fires t then { t with fired := true, view := view } else t) s.triggers }

/-- An arrival or a completion adds 1 to a counter. -/
def State.countOne (s : State) (part c : Nat) (r : Rel) : State := s.setCounter part c (((s.part part).counter c).value + 1#64) r

/-- xch.rcnt: reads, adds to or sets a counter; every form acquires, a change is the one carrier of its release (R280, R298). -/
def execXchRcnt (w : Bool) (r : BitVec 6) (o : BitVec 2) (c : BitVec 8) (s : State) : Out :=
  s.task r <| s.whenQuiet <|
    let part := (s.unit s.curUnit).part
    let x := (s.part part).counter c.toNat
    let v := s.readS r.toNat
    let s := s.syncWith x.rels
    let s := if o = 0#2 then s else s.setCounter part c.toNat (if o = 1#2 then x.value + v else v) s.sysRelease
    s.resultS w r.toNat x.value

/-- A trigger descriptor obeys R281; the group is one that the partition holds and the rank one of its ranks. -/
def triggerOk (p : Partition) (b : List Byte) : Bool :=
  let n := match SMap.find p.groups (fieldOf b 8 2) with
    | some g => g.members.length
    | none => 0
  fieldOf b 0 8 % 4 == 0 && decide (fieldOf b 0xA 2 < n) && fieldOf b 0xC 4 % 4 == 0 && decide (4 ≤ fieldOf b 0xC 4)
    && decide (fieldOf b 0xC 4 ≤ 0x00FFFFFF) && fieldOf b 0x10 8 % 4 == 0 && decide (fieldOf b 0x1A 1 < 4) && zeros b 0x1C 0x20
    && zeros b 0x28 0x40

/-- The lowest free trigger slot, within the partition's share. -/
def State.freeTrigger (s : State) (part : Nat) : Option Nat :=
  if (s.part part).asn.maxTriggers ≤ (s.triggers.filter fun e => e.2.part == part).length then none
  else (List.range 1024).find? fun k => !SMap.has s.triggers k

/-- xch.tsend: arms a triggered send, or fires it at once (R282). -/
def execXchTsend (w : Bool) (r : BitVec 6) (s : State) : Out :=
  s.task r <|
    let va := (s.readS r.toNat).toNat
    let u := s.unit s.curUnit
    s.probing false .read [⟨0, va, 1, 0#64, 0#64⟩] fun _ =>
      let ret := fun (st : Nat) => s.resultS w r.toNat (BitVec.ofNat 64 st)
      if s.storesOut then s.stand
      else if va % 64 ≠ 0 then ret 2
      else s.readBlock w r.toNat va 64 (ret 2) fun b s =>
        let p := s.part u.part
        if !triggerOk p b then s.resultS w r.toNat 2#64
        else match s.freeTrigger u.part with
          | none => s.resultS w r.toNat 3#64
          | some k =>
            let tcnt := fieldOf b 0x18 1
            let flags := fieldOf b 0x1A 1
            let thresh : W64 := BitVec.ofNat 64 (fieldOf b 0x20 8)
            let hit := decide (thresh.toNat ≤ (p.counter tcnt).value.toNat)
            let t : Trigger :=
              { num := s.nextCmd, part := u.part, space := u.space, wave := s.curWave.who, unit := s.curUnit, launch := u.launch,
                src := fieldOf b 0 8, dst := fieldOf b 0x10 8, length := fieldOf b 0xC 4, group := fieldOf b 8 2,
                rank := fieldOf b 0xA 2, tcnt := tcnt, rcnt := if flags.testBit 0 then some (fieldOf b 0x19 1) else none,
                lcnt := if flags.testBit 1 then some (fieldOf b 0x1B 1) else none, thresh := thresh, fired := hit,
                view := if hit then relsView (p.counter tcnt).rels else [], done := 0 }
            ({ s with triggers := SMap.put k t s.triggers, nextCmd := s.nextCmd + 1 } : State).resultS w r.toNat (if hit then 1#64 else 0#64)

/-- A send stops at a fault: its address goes to fault.eaddr of the arming wave when resident, else to the error log (R282,
R360); no counter changes. -/
def State.stopSend (s : State) (slot : Nat) (t : Trigger) (va : Nat) : State :=
  let s := { s with triggers := SMap.del s.triggers slot }
  if (s.slotBy t.wave).isSome then s.engFault t.wave va else s.logSwitched t.wave va

/-- The device that a rank of a group names. -/
def Partition.deviceOf (p : Partition) (group rank : Nat) : Nat :=
  match SMap.find p.groups group with
  | some g => g.members.getD rank 128
  | none => 128

/-- An engine's access for a unit to a range: it waits, in a state in which what it waits for is under way, or it faults at an address, or
it reaches the range's locations, with the reference bits of its pages set (R323, R324, R349, R378). -/
inductive EngRange where
  | waits (s : State)
  | faults (va : Nat)
  | reaches (locs : List Nat) (s : State)

/-- An engine of a unit names a range; its view of buffers that the unit has taken is the unit's (R164, R175). -/
def State.engRange (s : State) (unit part space va n : Nat) (want : Want) : EngRange :=
  match s.vaLocs unit part space va n want with
  | .error (.spilled a) => .waits (s.wantPage part space a)
  | .error _ => .faults (s.faultVa unit part space va n want)
  | .ok ls =>
    if ls.any (s.crosses unit) then .waits s
    else .reaches ls (s.touchVa part space va n)

/-- What comes of an engine's write. -/
inductive EngWrote where
  | waits (s : State)
  | faults (va : Nat)
  | wrote (s : State)

/-- Write as an agent for an engine command of a unit. -/
def State.engWrite (s : State) (who unit part space va : Nat) (bs : List Byte) : EngWrote :=
  match s.engRange unit part space va bs.length .write with
  | .waits s => .waits s
  | .faults a => .faults a
  | .reaches ls s => .wrote (s.perform who [] (ls.zip bs) (s.objAt part space va))

/-- TRIGGER_FIRE: a fired send moves the next piece, at most a line; the last one adds to the counters, each change with a release that
covers what the firing acquired (R280, R282). Whether the destination faults at another device is free. DESIGN CHOICE, safe (log entry
37). -/
def execTriggerFire (slot : Nat) (s : State) : Out :=
  match SMap.find s.triggers slot with
  | none => .next s
  | some t =>
    if !t.fired then .next s
    else
      let src := t.src + t.done
      let dst := t.dst + t.done
      let n := min (t.length - t.done) (min (128 - src % 128) (128 - dst % 128))
      match s.engRange t.unit t.part t.space src n .send with
      | .waits s => .next s
      | .faults a => .next (s.stopSend slot t a)
      | .reaches locs s =>
        -- source granules marked poisoned stop the send before their own bytes
        let good := (locs.findIdx? s.poisonedAt).getD n
        let bs := (locs.take good).map s.byteNow
        let dev := (s.part t.part).deviceOf t.group t.rank
        let last := t.done + n == t.length
        let out := if dev == Config.deviceNumber then s.engWrite (2 ^ 40 + t.num) t.unit t.part t.space dst bs
          else if !(s.part t.part).reaches dev || Config.farFault s.fresh slot then .faults dst
          else .wrote { s with sentChunks := ⟨t.rank, t.group, .send dst (if last && good == n then t.rcnt else none), bs⟩ :: s.sentChunks }
        match out with
        | .waits s => .next s
        | .faults a => .next (s.stopSend slot t a)
        | .wrote s =>
          if good < n then .next (s.stopSend slot t (src + good))
          else if !last then .next { s with triggers := SMap.put slot { t with done := t.done + n } s.triggers }
          else
            let s := { s with triggers := SMap.del s.triggers slot }
            let s := match t.lcnt with
              | some c => s.countOne t.part c (schedRelease t.view)
              | none => s
            .next (match t.rcnt, dev == Config.deviceNumber with
              | some c, true => s.countOne t.part c (schedRelease (View.join t.view (ownWrites s.hist (2 ^ 40 + t.num))))
              | _, _ => s)

/-- RECEIVE_COUNTER_ARRIVAL: a piece of a peer's send arrives at a physical address: its bytes are performed, and with the last piece the
counter that it names rises by 1, with a release of all the send's bytes (R279, R280). `counter` holds the counter's number in its low 9
bits, of which 256 or more name none, and the send's number above. Outside the partition's grant, and where the home is not live, it stops.
DEDUCED, unsafe (log entry 37). -/
def execReceiveCounterArrival (part counter addr : Nat) (bytes : List Byte) (s : State) : Out :=
  let p := s.part part
  let n := bytes.length
  let ok := p.started && (n == 0 || (p.asn.grants addr n && match paKind addr with
    | .hbm d => !s.offline d
    | .host => !s.offline 0
    | _ => false))
  if !ok then .next s
  else
    let s := s.agentWrite [] addr bytes
    let v := if n = 0 then [] else s.justWritten ((List.range n).map fun i => (addr + i, Obj.all))
    let send := counter / 512
    let all := View.join (SMap.get [] p.arrivals send) v
    .next (if counter % 512 < 256 then
        (s.updPart part fun p => { p with arrivals := SMap.del p.arrivals send }).countOne part (counter % 512) (schedRelease all)
      else s.updPart part fun p => { p with arrivals := SMap.put send all p.arrivals })

/-! ## Collectives (R284 to R289) -/

/-- Bytes of an element of a type. -/
def collSize (t : Nat) : Nat := if t = 1 ∨ t = 2 then 2 else 4
/-- An element widened to the format in which it is combined (R88, R286). -/
def collWide (t x : Nat) : Nat :=
  match t with
  | 1 => Fmt.b32.round 0 false (Fmt.bf16.val x)
  | 2 => Fmt.b32.round 0 false (Fmt.b16.val x)
  | _ => x
/-- A result rounded once as it is written; every NaN is canonical. -/
def collNarrow (t x : Nat) : Nat :=
  match t with
  | 0 => Fmt.b32.round 0 false (Fmt.b32.val x)
  | 1 => Fmt.bf16.round 0 false (Fmt.b32.val x)
  | 2 => Fmt.b16.round 0 false (Fmt.b32.val x)
  | _ => x
/-- One reduction step, the running value on the left (R286). -/
def collStep (t red x y : Nat) : Nat :=
  if t ≤ 2 then
    match red with
    | 0 => Fmt.b32.round 0 false (Fp.add 0 (Fmt.b32.val x) (Fmt.b32.val y))
    | 1 => minmaxElem Fmt.b32 false false x y
    | _ => minmaxElem Fmt.b32 false true x y
  else
    let less := if t = 3 then decide ((BitVec.ofNat 32 x).toInt < (BitVec.ofNat 32 y).toInt) else decide (x < y)
    match red with
    | 0 => (x + y) % 2 ^ 32
    | 1 => if less then x else y
    | _ => if less then y else x

/-- The algorithms of R286. -/
inductive CollAlgo where
  | ring
  | halving
  | switch
  deriving DecidableEq, Repr

/-- A power of two. -/
def isPow2 (n : Nat) : Bool := n != 0 && n == 2 ^ Nat.log2 n

/-- Combine the values of ranks along a list, from the left. -/
def foldRanks (t red : Nat) (x : Nat → Nat) : List Nat → Nat
  | [] => 0
  | r :: rs => rs.foldl (fun v i => collStep t red v (x i)) (x r)

/-- Halving-doubling over 2^k ranks from `lo`: the lower half's partial is on the left. -/
def halve (t red : Nat) (x : Nat → Nat) : Nat → Nat → Nat
  | 0, lo => x lo
  | k + 1, lo => collStep t red (halve t red x k lo) (halve t red x k (lo + 2 ^ k))

/-- The reduction over `n` ranks of an element of chunk `q` (R286). -/
def reduceRanks (a : CollAlgo) (t red n q : Nat) (x : Nat → Nat) : Nat :=
  let y := fun r => collWide t (x r)
  collNarrow t (match a with
    | .ring => foldRanks t red y ((List.range n).map fun i => (q + 1 + i) % n)
    | .halving => halve t red y (Nat.log2 n) 0
    | .switch => foldRanks t red y (List.range n))

/-- The algorithm of a block for a group of `n` ranks. -/
def algoOf (b : List Byte) (n : Nat) (reduce : Bool) : CollAlgo :=
  match fieldOf b 3 1 with
  | 1 => .ring
  | 2 => .halving
  | 3 => .switch
  | _ =>
    let op := fieldOf b 0 1
    if reduce && (op == 0 || op == 4) then .switch
    else if isPow2 n && decide (fieldOf b 0x20 8 * collSize (fieldOf b 2 1) ≤ 1048576) then .halving else .ring

/-- A block obeys R285 and names an algorithm that R286 and R287 admit for its group. -/
def collOk (b : List Byte) (n : Nat) (reduce : Bool) : Bool :=
  let op := fieldOf b 0 1
  let algo := fieldOf b 3 1
  let root := fieldOf b 6 2
  let chunk := fieldOf b 0x28 4
  decide (op ≤ 4) && decide (fieldOf b 1 1 ≤ 2) && (!(op == 2 || op == 3) || fieldOf b 1 1 == 0) && decide (fieldOf b 2 1 ≤ 4)
    && decide (algo ≤ 3) && (if op = 3 ∨ op = 4 then decide (root < n) else root == 0) && decide (fieldOf b 0xD 1 ≤ 1)
    && zeros b 0xE 0x10 && zeros b 0x2C 0x80 && fieldOf b 0x10 8 % 128 == 0 && fieldOf b 0x18 8 % 128 == 0
    && (op == 0 || fieldOf b 0x10 8 != fieldOf b 0x18 8) && decide (1 ≤ fieldOf b 0x20 8) && decide (fieldOf b 0x20 8 < 2 ^ 32)
    && (chunk == 0 || (isPow2 chunk && decide (4096 ≤ chunk) && decide (chunk ≤ 1048576)))
    && (algo != 2 || isPow2 n) && (algo != 3 || reduce)

namespace Coll

/-- The operation. -/
def op (c : Coll) : Nat := fieldOf c.block 0 1
/-- The root rank. -/
def root (c : Coll) : Nat := fieldOf c.block 6 2
/-- Bytes of an element. -/
def size (c : Coll) : Nat := collSize (fieldOf c.block 2 1)
/-- Chunk bytes. -/
def chunk (c : Coll) : Nat := if fieldOf c.block 0x28 4 = 0 then 262144 else fieldOf c.block 0x28 4
/-- Bytes of one rank's part. -/
def part1 (c : Coll) : Nat := fieldOf c.block 0x20 8 * c.size
/-- Bytes that a rank that reads its source reads. -/
def srcBytes (c : Coll) : Nat := if c.op = 1 then c.ranks * c.part1 else c.part1
/-- Chunks of a source. -/
def count (c : Coll) : Nat := (c.srcBytes + c.chunk - 1) / c.chunk
/-- Bytes of chunk `q`. -/
def len (c : Coll) (q : Nat) : Nat := min c.chunk (c.srcBytes - q * c.chunk)
/-- This rank reads its source. -/
def reads (c : Coll) : Bool := c.op != 3 || c.rank == c.root
/-- The ranks to which this one's chunks go. -/
def targets (c : Coll) : List Nat :=
  if c.op = 4 then (if c.rank = c.root then [] else [c.root]) else (List.range c.ranks).filter fun r => r != c.rank
/-- The bytes held of chunk `q` of rank `r`. -/
def held (c : Coll) (q r : Nat) : Option (List Byte) := (c.chunks.find? fun e => e.1 == q && e.2.1 == r).map fun e => e.2.2
/-- The next chunk of its own source that this rank has not read. -/
def nextRead (c : Coll) : Option Nat := if c.reads then (List.range c.count).find? fun q => (c.held q c.rank).isNone else none
/-- Chunk `q` of the source holds bytes of this rank's part of a reduce-scatter. -/
def mine (c : Coll) (q : Nat) : Bool :=
  decide (q * c.chunk < (c.rank + 1) * c.part1) && decide (c.rank * c.part1 < q * c.chunk + c.len q)
/-- What this rank writes: chunk numbers, each with the source rank of an allgather. -/
def outputs (c : Coll) : List (Nat × Nat) :=
  let qs := List.range c.count
  match c.op with
  | 1 => (qs.filter c.mine).map fun q => (q, 0)
  | 2 => (List.range c.ranks).flatMap fun r => qs.map fun q => (q, r)
  | 4 => if c.rank = c.root then qs.map fun q => (q, 0) else []
  | _ => qs.map fun q => (q, 0)
/-- The ranks whose chunk an output needs. -/
def needs (c : Coll) (o : Nat × Nat) : List Nat :=
  match c.op with
  | 2 => [o.2]
  | 3 => [c.root]
  | _ => List.range c.ranks
/-- The next output whose chunks are all there. -/
def nextWrite (c : Coll) : Option (Nat × Nat) :=
  c.outputs.find? fun o => !c.written.contains o && (c.needs o).all fun r => (c.held o.1 r).isSome
/-- Everything has been read and written. -/
def finished (c : Coll) : Bool := c.nextRead.isNone && c.outputs.all c.written.contains
/-- The bytes of chunk `q` reduced over the ranks. -/
def reduced (c : Coll) (q : Nat) : List Byte :=
  let t := fieldOf c.block 2 1
  let bs := (List.range c.ranks).map fun r => (c.held q r).getD []
  (List.range (c.len q / c.size)).flatMap fun i =>
    leBytes c.size (reduceRanks (algoOf c.block c.ranks c.reduce) t (fieldOf c.block 1 1) c.ranks q
      fun r => fieldOf (bs.getD r []) (i * c.size) c.size)
/-- Where an output goes: destination address and bytes. -/
def output (c : Coll) (o : Nat × Nat) : Nat × List Byte :=
  let dst := fieldOf c.block 0x18 8
  let at' := o.1 * c.chunk
  match c.op with
  | 1 =>
    let lo := c.rank * c.part1
    let skip := lo - at'
    (dst + (at' - lo), ((c.reduced o.1).drop skip).take (lo + c.part1 - max at' lo))
  | 2 => (dst + o.2 * c.part1 + at', (c.held o.1 o.2).getD [])
  | 3 => (dst + at', (c.held o.1 c.root).getD [])
  | _ => (dst + at', c.reduced o.1)
/-- A chunk taken in, once; bytes that it does not bring are free values. -/
def take (c : Coll) (fresh q r : Nat) (bs : List Byte) : Coll :=
  if (c.held q r).isSome || decide (c.count ≤ q) then c
  else { c with chunks := c.chunks ++ [(q, r, (List.range (c.len q)).map fun i => bs.getD i (Config.freeByte fresh i))] }

end Coll

/-- xch.coll: posts a collective, which first consumes its entries of the waystation (R285, R289, R298). -/
def execXchColl (w : Bool) (r : BitVec 6) (s : State) : Out :=
  s.task r <|
    let va := (s.readS r.toNat).toNat
    let u := s.unit s.curUnit
    s.probing false .read [⟨0, va, 1, 0#64, 0#64⟩] fun _ =>
      let ret := fun (st : Nat) => s.resultS w r.toNat (BitVec.ofNat 64 st)
      if s.storesOut then s.stand
      else if va % 128 ≠ 0 then ret 2
      else s.readBlock w r.toNat va 128 (ret 2) fun b s =>
        let group := fieldOf b 4 2
        let seq := fieldOf b 8 4
        match SMap.find (s.part u.part).groups group with
        | none => s.resultS w r.toNat 2#64
        | some g =>
          let rank := g.members.idxOf Config.deviceNumber
          if g.members.length ≤ rank ∨ !collOk b g.members.length g.reduce then s.resultS w r.toNat 2#64
          else if s.colls.any fun e => e.2.part == u.part && e.2.group == group && e.2.seq == seq then s.resultS w r.toNat 1#64
          else
            let here := fun (e : WayEntry) => e.group == group && e.seq == seq
            let c : Coll := { part := u.part, wave := s.curWave.who, unit := s.curUnit, space := u.space, block := b, group := group,
                              seq := seq, rank := rank, ranks := g.members.length, reduce := g.reduce, chunks := [], written := [],
                              ended := none }
            let c := ((s.part u.part).way.filter here).foldl (fun c e => c.take s.fresh e.chunk e.rank e.bytes) c
            let s := s.updPart u.part fun p => { p with way := p.way.filter fun e => !here e }
            let s := s.updWave s.cur.wave fun w => { w with cmdNums := w.cmdNums ++ [s.nextCmd] }
            ({ s with colls := SMap.put s.nextCmd c s.colls, nextCmd := s.nextCmd + 1 } : State).resultS w r.toNat 0#64

/-- The completion of a collective that has ended goes to eq2 once its wave is resident and the queue has room, or nowhere if its unit has
retired (R212, R288). -/
def State.postColl (s : State) (n : Nat) (c : Coll) (status : Nat) : State :=
  let gone := (s.unit c.unit).life == .gone
  if !gone && (s.slotBy c.wave == none || !(s.waveBy c.wave).doneRoom 2) then
    { s with colls := SMap.put n { c with ended := some status } s.colls }
  else
    let s := { s with colls := SMap.del s.colls n }
    if gone then s
    else s.updWaveBy c.wave fun w => w.postDone 2 (BitVec.ofNat 64 (status * 2 ^ 56 + c.group % 256 * 2 ^ 32 + c.seq)) n

/-- A collective ends on the device: done, it adds to its counter there and then (R279, R288). -/
def State.endColl (s : State) (n : Nat) (c : Coll) (status : Nat) : State :=
  let s := if status = 0 ∧ fieldOf c.block 0xD 1 = 1 then
      s.countOne c.part (fieldOf c.block 0xC 1) (schedRelease (ownWrites s.hist (2 ^ 40 + n))) else s
  s.postColl n c status

/-- A collective is stopped by a fault at an address, which fault.eaddr of its wave records (R200, R288, R360). -/
def State.stopColl (s : State) (n : Nat) (c : Coll) (status va : Nat) : State := (s.engFault c.wave va).endColl n c status

/-- The ranks that a collective still waits for: those to which a chunk of its source is to go, then those whose chunks are missing. -/
def Coll.waitsFor (c : Coll) : List Nat :=
  if c.nextRead.isSome then c.targets
  else if c.nextWrite.isSome then []
  else c.outputs.flatMap fun o => if c.written.contains o then [] else (c.needs o).filter fun r => (c.held o.1 r).isNone

/-- A rank of a group is another device that no fibre of the partition reaches (R378). -/
def Partition.cutOff (p : Partition) (group rank : Nat) : Bool :=
  p.deviceOf group rank != Config.deviceNumber && !p.reaches (p.deviceOf group rank)

/-- COLLECTIVE_COMPLETION: with status 0 the collective engine takes the collective's next step: it reads a chunk of its source and
sends it, writes a chunk whose inputs are there, or completes; a fault or poison ends it, and so does a member that it still needs and
cannot reach, with status 6 (R378). With status 6 a member is lost whose chunks are missing (R286 to R288). DEDUCED, unsafe (log entries
35 and 52). -/
def execCollectiveCompletion (coll status : Nat) (s : State) : Out :=
  match SMap.find s.colls coll with
  | none => .next s
  | some c =>
    let put := fun (s : State) (c : Coll) => ({ s with colls := SMap.put coll c s.colls } : State)
    match c.ended with
    | some st => .next (s.postColl coll c st)
    | none =>
    if status = 6 then .next (if c.nextWrite.isNone && !c.finished && c.nextRead.isNone then s.endColl coll c 6 else s)
    else if status ≠ 0 then .next s
    else if c.waitsFor.any ((s.part c.part).cutOff c.group) then .next (s.endColl coll c 6)
    else match c.nextRead with
      | some q =>
        let src := fieldOf c.block 0x10 8 + q * c.chunk
        (match s.engRange c.unit c.part c.space src (c.len q) .send with
        | .waits s => .next s
        | .faults a => .next (s.stopColl coll c 3 a)
        | .reaches ls s =>
          match ls.findIdx? s.poisonedAt with
          | some i => .next (s.stopColl coll c 5 (src + i))
          | none =>
            let bs := ls.map s.byteNow
            .next (put { s with sentChunks := (c.targets.map fun t => ⟨t, c.group, .chunk c.seq q, bs⟩) ++ s.sentChunks } (c.take s.fresh q c.rank bs)))
      | none => match c.nextWrite with
        | some o =>
          let (va, bs) := c.output o
          (match s.engWrite (2 ^ 40 + coll) c.unit c.part c.space va bs with
          | .waits s => .next s
          | .faults a => .next (s.stopColl coll c 4 a)
          | .wrote s => .next (put s { c with written := c.written ++ [o] }))
        | none => .next (if c.finished then s.endColl coll c 0 else s)

/-- Bytes that the waystation's entries take, with a 64-byte header each. -/
def wayBytes (es : List WayEntry) : Nat := es.foldl (fun n e => n + 64 + e.bytes.length) 0

/-- The frames of the waystation region on which an entry lies that is appended to the list (R289, R334). -/
def Partition.wayPlace (p : Partition) (e : WayEntry) : List Nat :=
  let off := wayBytes p.way
  (p.asn.wayFrames.drop (off / 2097152)).take ((off + 63 + e.bytes.length) / 2097152 + 1 - off / 2097152)

/-- A chunk arrives: its collective consumes it, or it waits in the waystation, or it finds no room and is refused (R289). Where its place in
the waystation is on a die that is off line it gets an error reply, and nothing is kept of it (R383). DEDUCED, unsafe (log entry 35). -/
def State.chunkIn (s : State) (part : Nat) (e : WayEntry) : State :=
  let p := s.part part
  match s.colls.find? fun c => c.2.part == part && c.2.group == e.group && c.2.seq == e.seq with
  | some c => { s with colls := SMap.put c.1 (c.2.take s.fresh e.chunk e.rank e.bytes) s.colls }
  | none =>
    if wayBytes (p.way ++ [e]) ≤ p.asn.wayBytes then
      if (p.wayPlace e).any fun f => (homeDie (2097152 * f)).any s.offline then s else s.setPart part { p with way := p.way ++ [e] }
    else s.setPart part { p with retries := p.retries ++ [(s.cycle, e)] }

/-- CHUNK_ARRIVAL: a chunk of another member arrives. -/
def execChunkArrival (part group seq chunk rank : Nat) (bytes : List Byte) (s : State) : Out :=
  let p := s.part part
  match SMap.find p.groups group with
  | none => .next s
  | some g =>
    if !p.started || decide (g.members.length ≤ rank) || g.members.getD rank 128 == Config.deviceNumber then .next s
    else .next (s.chunkIn part ⟨group, seq, chunk, rank, bytes⟩)

/-- CHUNK_RETRY: 2,000 cycles after its refusal a chunk is sent again. -/
def execChunkRetry (part idx : Nat) (s : State) : Out :=
  let p := s.part part
  match p.retries[idx]? with
  | none => .next s
  | some (c, e) =>
    if s.cycle < c + 2000 then .next s
    else .next ((s.setPart part { p with retries := p.retries.eraseIdx idx }).chunkIn part e)

/-- A word written to eq2 or eq5 is consumed and answered with all ones (R288, R297). -/
def State.answerWord (s : State) (wave e : Nat) : State :=
  if s.slotBy wave = none ∨ !(s.waveBy wave).doneRoom e ∨ (SMap.get [] (s.waveBy wave).eqCmd e).isEmpty then s
  else s.updWaveBy wave fun w => { w with eqCmd := SMap.upd [] e List.tail w.eqCmd }.postDone e (BitVec.allOnes 64) 0

/-- EQ2_WORD. -/
def execEq2Word (wave : Nat) (s : State) : Out := .next (s.answerWord wave 2)
/-- EQ5_WORD. -/
def execEq5Word (wave : Nat) (s : State) : Out := .next (s.answerWord wave 5)

/-! ## The arbiter's plan (R291, R292, R395) -/

/-- The quantum (R291). -/
def quantum : Nat := 262144

/-- Bytes granted to demands in ascending source order out of `free` rows of `rb` bytes. -/
def grantRows (rb : Nat) : Nat → List Nat → List Nat
  | _, [] => []
  | free, d :: ds =>
    let g := min ((d + rb - 1) / rb) free
    min d (g * rb) :: grantRows rb (free - g) ds

/-- What every source is granted at destination `d`. -/
def grantsTo (rb d : Nat) (dest : ExPost) (demands : List Nat) : List Grant :=
  let gr := grantRows rb dest.caprows demands
  let rest := (demands.zip gr).map fun e => e.1 - e.2
  let sp := grantRows rb (if dest.spill then dest.spillrows else 0) rest
  (List.range demands.length).map fun s =>
    ⟨s, d, gr.getD s 0, sp.getD s 0, rest.getD s 0 - sp.getD s 0⟩

/-- A post that asks for nothing and receives nothing, for a member that is not live. -/
def ExPost.none : ExPost := ⟨0, 0, 0, 0, false, 0, []⟩

/-- The post of a rank, where the member is live and has posted. -/
def Arb.postOf (a : Arb) (live : List Bool) (r : Nat) : ExPost :=
  if live.getD r false then (match a.posts.find? fun e => e.1 == r with | some e => e.2 | none => ExPost.none) else ExPost.none

/-- The grants of every pair among `n` ranks. -/
def Arb.allGrants (a : Arb) (n rb : Nat) (live : List Bool) : List Grant :=
  (List.range n).flatMap fun d =>
    grantsTo rb d (a.postOf live d) ((List.range n).map fun s => (a.postOf live s).demand.getD d 0)

/-- One convoy: each source in order takes the first destination in its turn that has a quantum left and is free. -/
def convoyOf (n k : Nat) (left : SMap Nat) : List (Nat × Nat) :=
  (List.range n).foldl (fun out s =>
    match (List.range n).find? fun i =>
        let d := (s + k + i) % n
        d != s && SMap.get 0 left (s * n + d) != 0 && !out.any (fun e => e.2 == d) with
    | some i => out ++ [(s, (s + k + i) % n)]
    | none => out) []

/-- The convoys of a pass from number `k` on: the convoy entries and the next number. -/
def convoyPass (n : Nat) (spill : Bool) (bytes : SMap Nat) : Nat → Nat → SMap Nat → List Convoy × Nat
  | 0, k, _ => ([], k)
  | fuel + 1, k, left =>
    if left.all fun e => e.2 == 0 then ([], k)
    else
      let cs := convoyOf n k left
      let here := cs.map fun e =>
        let key := e.1 * n + e.2
        let total := SMap.get 0 bytes key
        let off := ((total + quantum - 1) / quantum - SMap.get 0 left key) * quantum
        (⟨k, e.1, e.2, off, min quantum (total - off), spill⟩ : Convoy)
      let left := cs.foldl (fun m e => SMap.upd 0 (e.1 * n + e.2) (fun x => x - 1) m) left
      let (rest, k') := convoyPass n spill bytes fuel (k + 1) left
      (here ++ rest, k')

/-- The quanta of byte counts. -/
def quantaOf (bytes : SMap Nat) : SMap Nat := SMap.mapVals (fun _ b => (b + quantum - 1) / quantum) bytes

/-- All convoys of a plan, the regular ones first. -/
def convoysOf (n : Nat) (gs : List Grant) : List Convoy :=
  let bytes := fun (f : Grant → Nat) =>
    gs.foldl (fun (m : SMap Nat) g => if g.src = g.dst ∨ f g = 0 then m else SMap.put (g.src * n + g.dst) (f g) m) []
  let fuel := fun (b : SMap Nat) => (quantaOf b).foldl (fun t e => t + e.2) 0
  let reg := bytes Grant.granted
  let sp := bytes Grant.spilled
  let (a, k) := convoyPass n false reg (fuel reg) 0 (quantaOf reg)
  a ++ (convoyPass n true sp (fuel sp) k (quantaOf sp)).1

/-- Number of convoys of a plan. -/
def convoyCount (cs : List Convoy) : Nat := cs.foldl (fun n c => max n (c.num + 1)) 0

/-- The arbiter decides: the posts of live members agree in rowbytes and a plan is made, or the exchange is refused. -/
def Arb.decide' (a : Arb) (n : Nat) (live : List Bool) : Arb :=
  let posts := a.posts.filter fun e => live.getD e.1 false
  let rb := match posts with
    | e :: _ => e.2.rowbytes
    | [] => 128
  if posts.any fun e => e.2.rowbytes != rb then { a with decided := true, refused := true, grants := [], plan := [] }
  else
    let gs := a.allGrants n rb live
    { a with decided := true, refused := false, grants := gs, plan := convoysOf n gs }

/-! ## Calendars (R293) -/

/-- The grant of a pair. -/
def Arb.grantOf (a : Arb) (s d : Nat) : Grant := (a.grants.find? fun g => g.src == s && g.dst == d).getD ⟨s, d, 0, 0, 0⟩

/-- Rows that bytes take. -/
def rowsOf (rb n : Nat) : Nat := (n + rb - 1) / rb

/-- The entry of a rank in a member's calendar: what it sends there, and rows it receives from there. -/
def rankEntry (a : Arb) (me r rows spillRows : Nat) : List Byte :=
  let o := a.grantOf me r
  if a.refused then leBytes 32 0
  else leBytes 8 o.granted ++ leBytes 8 o.spilled ++ leBytes 8 o.denied ++ leBytes 4 rows ++ leBytes 4 spillRows

/-- The convoys in which a member takes part, ascending. -/
def convoysFor (cs : List Convoy) (me : Nat) : List Nat := ((cs.filter fun c => c.src == me || c.dst == me).map Convoy.num).eraseDups

/-- The entry of a convoy in a member's calendar. -/
def convoyEntry (cs : List Convoy) (me k : Nat) : List Byte :=
  let out := cs.find? fun c => c.num == k && c.src == me
  let inn := cs.find? fun c => c.num == k && c.dst == me
  let f := fun (o : Option Convoy) (g : Convoy → Nat) (d : Nat) => match o with | some c => g c | none => d
  leBytes 2 (f out Convoy.dst 0xFFFF) ++ leBytes 2 (f inn Convoy.src 0xFFFF) ++ leBytes 4 (f out Convoy.bytes 0)
    ++ leBytes 4 (f inn Convoy.bytes 0) ++ leBytes 4 k

/-- A member's calendar as pieces with their offsets; pieces that do not fit are left out. -/
def calendar (a : Arb) (x : Exchange) (n epoch idle : Nat) (anyDead : Bool) : List (Nat × List Byte) :=
  let status := if a.refused then 2 else if anyDead then 1 else 0
  let rb := x.post.rowbytes
  let head := leBytes 4 x.xseq ++ leBytes 4 (convoyCount a.plan) ++ leBytes 1 status ++ leBytes 1 epoch ++ leBytes 6 0
    ++ leBytes 4 (min idle (2 ^ 32 - 1)) ++ leBytes 44 0
  let ranks := (List.range n).map fun r =>
    (0x40 + 32 * r, rankEntry a x.rank r (rowsOf rb (a.grantOf r x.rank).granted) (rowsOf rb (a.grantOf r x.rank).spilled))
  let ks := convoysFor a.plan x.rank
  let convoys := (List.range ks.length).map fun j => (0x40 + 32 * n + 16 * j, convoyEntry a.plan x.rank (ks.getD j 0))
  ((0, head) :: ranks ++ convoys).filter fun e => decide (e.1 + e.2.length ≤ fieldOf x.desc 0x50 4)

/-! ## Groups and exchanges -/

/-- Group `g` of a partition. -/
def Partition.group (p : Partition) (g : Nat) : CollGroup := SMap.get ⟨[], false, [], 0#8, []⟩ p.groups g
/-- Change a group. -/
def State.updGroup (s : State) (part g : Nat) (f : CollGroup → CollGroup) : State :=
  s.updPart part fun p => if SMap.has p.groups g then { p with groups := SMap.put g (f (p.group g)) p.groups } else p
/-- The rank of this device in a group; the number of ranks where it is no member. -/
def CollGroup.mine (g : CollGroup) : Nat := g.members.idxOf Config.deviceNumber
/-- The rank that arbitrates: the live member of lowest device number (R296). -/
def CollGroup.arbiter (g : CollGroup) : Option Nat :=
  ((List.range g.members.length).filter fun r => g.live.getD r false).foldl (fun best r =>
    match best with
    | none => some r
    | some b => if g.members.getD r 128 < g.members.getD b 128 then some r else some b) none
/-- Mark a rank not live. -/
def CollGroup.lose (g : CollGroup) (r : Nat) : CollGroup := { g with live := listSet g.live r false }
/-- Some rank is not live. -/
def CollGroup.anyDead (g : CollGroup) : Bool := (List.range g.members.length).any fun r => !g.live.getD r false

/-- The exchange of a group that is open on this member. -/
def Partition.openEx (p : Partition) (g : Nat) : Option Exchange :=
  match SMap.find p.exchanges g with
  | some x => if x.closed then none else some x
  | none => none
/-- Put the exchange of a group. -/
def State.putEx (s : State) (part g : Nat) (x : Exchange) : State :=
  s.updPart part fun p => { p with exchanges := SMap.put g x p.exchanges }
/-- Put the arbiter's work on a group. -/
def State.putArb (s : State) (part g : Nat) (a : Arb) : State := s.updPart part fun p => { p with arbs := SMap.put g a p.arbs }

/-- An exchange descriptor obeys R290. -/
def exDescOk (b : List Byte) : Bool :=
  let rb := fieldOf b 8 4
  decide (fieldOf b 0 2 ≤ 255) && decide (fieldOf b 2 2 ≤ 1) && isPow2 rb && decide (128 ≤ rb) && decide (rb ≤ 262144)
    && decide (fieldOf b 0x15 1 ≤ 1) && zeros b 0x16 0x18 && fieldOf b 0x48 8 % 64 == 0 && zeros b 0x54 0x80

/-- The post that a descriptor with a demand array makes. -/
def postOf (b : List Byte) (demand : List Nat) (epoch : Nat) : ExPost :=
  { xseq := fieldOf b 4 4, epoch := epoch, rowbytes := fieldOf b 8 4, caprows := fieldOf b 0xC 4, spill := (fieldOf b 2 2).testBit 0,
    spillrows := fieldOf b 0x10 4, demand := demand }

/-- Read an exchange descriptor for an instruction: it answers `bad` where it is malformed, as one that names a group which the partition
does not hold is (R290, R349). -/
def State.exDesc (s : State) (sw : Bool) (r va : Nat) (bad : Out) (k : List Byte → State → Out) : Out :=
  if va % 128 ≠ 0 then bad
  else s.readBlock sw r va 128 bad fun b t =>
    if exDescOk b && SMap.has (s.part (s.unit s.curUnit).part).groups (fieldOf b 0 2) then k b t else bad

/-- This device sends a post (0), heartbeat (1) or go (2) of a group in the courier class; it counts on the die of the unit that has posted
the open exchange, or on die 0 (R276, R391). -/
def State.courierMsg (s : State) (part gn kind : Nat) : State :=
  let die := match (s.part part).openEx gn with
    | some x => dieOfCluster (s.unit x.unit).cluster
    | none => 0
  ({ s with courierSent := (kind, gn) :: s.courierSent } : State).bump part die 0x09 1

/-- xch.dpost: sends the member's post (R290, R298). A demand array that cannot be read gives status 2, before status 3 is tested.
DESIGN CHOICE, unsafe (log entry 36). -/
def execXchDpost (w : Bool) (r : BitVec 6) (s : State) : Out :=
  s.task r <|
    let va := (s.readS r.toNat).toNat
    let u := s.unit s.curUnit
    s.probing false .read [⟨0, va, 1, 0#64, 0#64⟩] fun _ =>
      if s.storesOut then s.stand
      else
        let bad := s.resultS w r.toNat 2#64
        s.exDesc w r.toNat va bad fun b s =>
          let p := s.part u.part
          let gn := fieldOf b 0 2
          let g := p.group gn
          let n := 8 * g.members.length
          let ret := fun (s : State) (st : Nat) => s.resultS w r.toNat (BitVec.ofNat 64 st)
          s.gotBlock w r.toNat (s.readVa s.curUnit u.part u.space (fieldOf b 0x18 8) n) bad fun dem =>
            let s := s.touchVa u.part u.space (fieldOf b 0x18 8) n
            if g.members.length ≤ g.mine ∨ !g.live.getD g.mine false then ret s 3
            else if (p.openEx gn).isSome then ret s 1
            else
              let demand := (List.range g.members.length).map fun i => fieldOf dem (8 * i) 8
              let x : Exchange :=
                { num := s.nextCmd, xseq := fieldOf b 4 4, wave := s.curWave.who, unit := s.curUnit, space := u.space, desc := b,
                  rank := g.mine, post := postOf b demand g.epoch.toNat, heard := s.cycle, written := false, refused := false,
                  going := false, closed := false, localDone := false, sent := [], recv := [], inBytes := [], idleOut := 0, fault := 0,
                  lost := [], arb := ⟨fieldOf b 4 4, [], s.cycle, s.cycle, false, false, [], []⟩ }
              let s := s.putEx u.part gn x
              let s := s.updWave s.cur.wave fun w => { w with cmdNums := w.cmdNums ++ [s.nextCmd] }
              (({ s with nextCmd := s.nextCmd + 1 } : State).courierMsg u.part gn 0).resultS w r.toNat 0#64

/-- The agent that writes the calendar of an exchange: what it writes is the source of dcal's acquire, and other writes of the exchange are
not (R298). -/
def calendarAgent (num : Nat) : Nat := 2 ^ 44 + num

/-- xch.dcal: the standing of an exchange's calendar; with wait it blocks until it is written or refused (R298, R395). A calendar that has
been written stays so after the convoys have run, until the member posts the group's next exchange (R300).
DEDUCED, unsafe (log entry 36). -/
def execXchDcal (w : Bool) (r : BitVec 6) (k : BitVec 1) (s : State) : Out :=
  s.task r <|
    let va := (s.readS r.toNat).toNat
    let u := s.unit s.curUnit
    s.probing false .read [⟨0, va, 1, 0#64, 0#64⟩] fun _ =>
      let ret := fun (s : State) (st : Nat) => s.resultS w r.toNat (BitVec.ofNat 64 st)
      if !s.quiet then s.stand
      else s.exDesc w r.toNat va (ret s 4) fun b s =>
          let p := s.part u.part
          match SMap.find p.exchanges (fieldOf b 0 2) with
          | none => ret s 2
          | some x =>
            if x.xseq ≠ fieldOf b 4 4 then ret s 2
            else if x.refused then ret s 3
            else if !x.written then (if x.closed then ret s 2 else if k = 1#1 then s.stand else ret s 1)
            else
              let s := s.noteVis s.curUnit s.curWave.pos s.strand.seqNo (ownWrites s.hist (calendarAgent x.num))
              ret s (convoyCount x.arb.plan * 2 ^ 32)

/-! ## The arbiter's events (R296) -/

/-- A member discards its calendar and posts again under a new epoch. -/
def Exchange.again (x : Exchange) (epoch : BitVec 8) (cycle : Nat) : Exchange :=
  if x.closed || x.going then x else { x with written := false, refused := false, fault := 0, heard := cycle, post := { x.post with epoch := epoch.toNat } }

/-- The group turns to the next arbiter under an epoch, once for each epoch between: the old ones are not live, posts start anew. The
member's open exchange, where it is of the sequence number named, discards its calendar and is posted again. -/
def State.nextArbiter (s : State) (part gn : Nat) (epoch : BitVec 8) (xseq : Nat) : State :=
  let g := (s.part part).group gn
  let s := s.updGroup part gn fun x =>
    { (List.range (epoch - g.epoch).toNat).foldl (fun x _ => match x.arbiter with | some r => x.lose r | none => x) x with epoch := epoch }
  let s := s.updPart part fun p => { p with arbs := SMap.del p.arbs gn }
  match (s.part part).openEx gn with
  | none => s
  | some x => if x.going ∨ x.xseq ≠ xseq then s else (s.putEx part gn (x.again epoch s.cycle)).courierMsg part gn 0

/-- A post comes to the arbiter's hand: it joins the exchange that is being collected, or opens one. -/
def State.takePost (s : State) (part gn rank : Nat) (p : ExPost) : State :=
  let fresh : Arb := ⟨p.xseq, [(rank, p)], s.cycle, s.cycle, false, false, [], []⟩
  match SMap.find (s.part part).arbs gn with
  | none => s.putArb part gn fresh
  | some a =>
    if a.decided then (if a.xseq = p.xseq then s else s.putArb part gn fresh)
    else if a.xseq ≠ p.xseq ∨ a.posts.any fun e => e.1 == rank then s
    else s.putArb part gn { a with posts := a.posts ++ [(rank, p)] }

/-- POST: the arbiter receives a member's post; this device's own is the one its descriptor made. A post of a higher epoch turns
the group to the next arbiter, one of a lower epoch is discarded. DESIGN CHOICE, unsafe (log entries 14 and 36). -/
def execPost (part group rank : Nat) (p : ExPost) (s : State) : Out :=
  let g := (s.part part).group group
  if g.members.length ≤ rank ∨ !g.live.getD rank false then .next s
  else
    let own := rank == g.mine
    let p := if own then (match (s.part part).openEx group with | some x => x.post | none => p) else p
    if own ∧ ((s.part part).openEx group).isNone then .next s
    else
      let d := (BitVec.ofNat 8 p.epoch - g.epoch).toNat
      if d = 0 then .next (s.takePost part group rank p)
      else if d < 128 then .next ((s.nextArbiter part group (BitVec.ofNat 8 p.epoch) p.xseq).takePost part group rank p)
      else .next s

/-- The live ranks whose post is missing. -/
def CollGroup.missing (g : CollGroup) (a : Arb) : List Nat :=
  (List.range g.members.length).filter fun r => g.live.getD r false && !a.posts.any fun e => e.1 == r

/-- POST_TIMEOUT: 55,000 cycles after the first post, members whose post is missing are marked not live. -/
def execPostTimeout (part group : Nat) (s : State) : Out :=
  match SMap.find (s.part part).arbs group with
  | none => .next s
  | some a =>
    if a.decided ∨ s.cycle < a.firstPost + 55000 then .next s
    else .next (s.updGroup part group fun g => (g.missing a).foldl CollGroup.lose g)

/-- Write this member's calendar, as an engine; a destination fault is reported at the end of the exchange. -/
def State.writeCalendar (s : State) (part gn : Nat) (a : Arb) (x : Exchange) : State :=
  let g := (s.part part).group gn
  let pieces := calendar a x g.members.length g.epoch.toNat (SMap.get 0 g.idle x.rank) g.anyDead
  let (s, bad) := pieces.foldl (fun (acc : State × Option Nat) e =>
    match acc.1.engWrite (calendarAgent x.num) x.unit part x.space (fieldOf x.desc 0x48 8 + e.1) e.2 with
    | .wrote s => (s, acc.2)
    | .waits _ => acc
    | .faults va => (acc.1, acc.2.or (some va))) (s, none)
  let s := match bad with
    | some va => s.engFault x.wave va
    | none => s
  s.putEx part gn { x with written := true, refused := a.refused, heard := s.cycle, fault := if bad.isSome then 4 else x.fault, arb := a }

/-- An exchange's calendar area is not to be written now: a page of it is in spill, or the link is down; the state in which it is fetched. -/
def State.calendarWaits (s : State) (part : Nat) (x : Exchange) : Option State :=
  match s.engRange x.unit part x.space (fieldOf x.desc 0x48 8) (fieldOf x.desc 0x50 4) .write with
  | .waits s => some s
  | _ => none

/-- GRANT: with the post of every live member in hand the arbiter decides, sends every calendar and then go; this member's
calendar is written (R291 to R293, R395). -/
def execGrant (part group : Nat) (s : State) : Out :=
  let g := (s.part part).group group
  match SMap.find (s.part part).arbs group with
  | none => .next s
  | some a =>
    if a.decided ∨ !(g.missing a).isEmpty then .next s
    else
      let a := a.decide' g.members.length g.live
      match (match (s.part part).openEx group with | some x => s.calendarWaits part x | none => none) with
      | some s => .next s
      | none =>
      let s := (s.putArb part group a)
      let s := if g.arbiter = some g.mine then s.courierMsg part group 2 else s
      .next (match (s.part part).openEx group with
        | some x => if x.xseq = a.xseq ∧ g.live.getD x.rank false then s.writeCalendar part group a x else s
        | none => s)

/-- HEARTBEAT: until go the arbiter beats every 11,000 cycles, and a member that has posted hears it. -/
def execHeartbeat (part group : Nat) (s : State) : Out :=
  match SMap.find (s.part part).arbs group with
  | none => .next s
  | some a =>
    if a.decided ∨ s.cycle < a.beat + 11000 then .next s
    else
      let g := (s.part part).group group
      let s := s.putArb part group { a with beat := s.cycle }
      let s := if g.arbiter = some g.mine then s.courierMsg part group 1 else s
      .next (match (s.part part).openEx group with
        | some x => s.putEx part group { x with heard := s.cycle }
        | none => s)

/-- GO: a member with its calendar receives go of the group's epoch, forwards it and starts its convoys; a refused exchange is
closed (R296, R395). DESIGN CHOICE, unsafe (log entry 14). -/
def execGo (part group epoch : Nat) (s : State) : Out :=
  match (s.part part).openEx group with
  | none => .next s
  | some x =>
    if !x.written || x.going || ((s.part part).group group).epoch != BitVec.ofNat 8 epoch then .next s
    else
      let s := s.courierMsg part group 2
      .next (s.putEx part group { x with going := !x.refused, closed := x.refused, heard := s.cycle })

/-- ARBITER_SILENCE: a member that has posted and heard nothing for 55,000 cycles turns to the next arbiter. -/
def execArbiterSilence (part group : Nat) (s : State) : Out :=
  match (s.part part).openEx group with
  | none => .next s
  | some x =>
    if x.going ∨ s.cycle < x.heard + 55000 then .next s
    else .next (s.nextArbiter part group (((s.part part).group group).epoch + 1#8) x.xseq)

/-! ## Running the convoys (R294, R295, R297) -/

/-- The address of a source's rows at this member: the sum of the rows granted or spilled to it by lower sources. -/
def Arb.rowBase (a : Arb) (x : Exchange) (src : Nat) (spill : Bool) : Nat :=
  let rb := x.post.rowbytes
  let rows := (List.range src).foldl (fun n s =>
    let g := a.grantOf s x.rank
    n + rowsOf rb (if spill then g.spilled else g.granted)) 0
  fieldOf x.desc (if spill then 0x40 else 0x38) 8 + rb * rows

/-- What an exchange reads of its source: it waits, it stops with a status, or the bytes. -/
inductive ExRead where
  | waits (s : State)
  | stops (status va : Nat)
  | bytes (bs : List Byte) (s : State)

/-- Read a range for an exchange. -/
def State.exRead (s : State) (part : Nat) (x : Exchange) (va n : Nat) : ExRead :=
  if n = 0 then .bytes [] s
  else match s.engRange x.unit part x.space va n .send with
    | .waits s => .waits s
    | .faults a => .stops 3 a
    | .reaches ls s => match ls.findIdx? s.poisonedAt with
      | some i => .stops 5 (va + i)
      | none => .bytes (ls.map s.byteNow) s

/-- The source bytes of a part of the segment for rank `d`, as far as its actual length goes. -/
def State.exBytes (s : State) (part : Nat) (x : Exchange) (d off n : Nat) : ExRead :=
  match s.exRead part x (fieldOf x.desc 0x20 8 + 8 * d) 8 with
  | .bytes so s => match s.exRead part x (fieldOf x.desc 0x28 8 + 8 * d) 8 with
    | .bytes sl s => s.exRead part x (fieldOf x.desc 0x30 8 + leNat so + off) (min n (leNat sl - off))
    | other => other
  | other => other

/-- A fault that an exchange has met: the first one is reported. -/
def Exchange.failed (x : Exchange) (f : Nat) : Exchange := if x.fault = 0 then { x with fault := f } else x

/-- Bytes received from a source are counted. -/
def Exchange.got (x : Exchange) (src n : Nat) (spill : Bool) : Exchange :=
  { x with inBytes := SMap.upd 0 (2 * src + (if spill then 1 else 0)) (fun k => k + n) x.inBytes }

/-- Move a part of the bytes for the member's own rank; none while it waits. -/
def State.exMove (s : State) (part : Nat) (a : Arb) (x : Exchange) (off n : Nat) (spill : Bool) : Except State (State × Exchange) :=
  match s.exBytes part x x.rank off n with
  | .waits s => .error s
  | .stops f va => .ok (s.engFault x.wave va, x.failed f)
  | .bytes bs s =>
    if bs.isEmpty then .ok (s, x)
    else match s.engWrite (2 ^ 40 + x.num) x.unit part x.space (a.rowBase x x.rank spill) bs with
      | .waits s => .error s
      | .faults va => .ok (s.engFault x.wave va, x.failed 4)
      | .wrote s => .ok (s, x.got x.rank bs.length spill)

/-- Move the bytes for the member's own rank, before convoy 0. -/
def State.exLocal (s : State) (part gn : Nat) (a : Arb) (x : Exchange) : State :=
  let g := a.grantOf x.rank x.rank
  match s.exMove part a x 0 g.granted false with
  | .error s => s
  | .ok (s1, x1) => match s1.exMove part a x1 g.granted g.spilled true with
    | .error t => { s with parts := t.parts }
    | .ok (s, x) => s.putEx part gn { x with localDone := true }

/-- A quantum of a source carried no byte: it is counted against the source. -/
def State.idleQuantum (s : State) (part gn src : Nat) : State :=
  s.updGroup part gn fun g => { g with idle := SMap.upd 0 src (fun n => n + 1) g.idle }

/-- Send the quantum of a convoy; one whose source faults travels with no byte, as an idle one does (R294, R295). -/
def State.exSend (s : State) (part gn : Nat) (a : Arb) (x : Exchange) (c : Convoy) : State :=
  let off := (if c.spill then (a.grantOf c.src c.dst).granted else 0) + c.off
  let send := fun (s : State) (x : Exchange) (bs : List Byte) =>
    let s := { s with sentChunks := ⟨c.dst, gn, .quantum x.xseq c.num, bs⟩ :: s.sentChunks }
    let s := if bs.isEmpty then s.idleQuantum part gn c.src else s
    s.putEx part gn { x with sent := c.num :: x.sent, idleOut := if bs.isEmpty then x.idleOut + 1 else x.idleOut }
  match s.exBytes part x c.dst off c.bytes with
  | .waits s => s
  | .stops f va => send (s.engFault x.wave va) (x.failed f) []
  | .bytes bs s => send s x bs

/-- A member of an exchange is lost: it has been reported so, or no fibre of the partition reaches it (R297, R378). -/
def State.exLost (s : State) (part gn : Nat) (x : Exchange) (r : Nat) : Bool := x.lost.contains r || (s.part part).cutOff gn r

/-- A member is done with a convoy: its quantum sent and its expected one arrived, of members that are not lost. -/
def Exchange.passed (x : Exchange) (lost : Nat → Bool) (cs : List Convoy) (k : Nat) : Bool :=
  cs.all fun c => c.num != k || ((c.src != x.rank || x.sent.contains k || lost c.dst) && (c.dst != x.rank || x.recv.contains k || lost c.src))

/-- A quantum of a plan that this member sends or receives has not moved, because the other member is lost. -/
def Exchange.missed (x : Exchange) (lost : Nat → Bool) (cs : List Convoy) : Bool :=
  cs.any fun c => (c.src == x.rank && !x.sent.contains c.num && lost c.dst) || (c.dst == x.rank && !x.recv.contains c.num && lost c.src)

/-- Post an exchange's completion and close it, once its wave is resident and eq5 has room. DEDUCED, unsafe (log entry 36). -/
def State.endEx (s : State) (part gn : Nat) (x : Exchange) (status : Nat) : State :=
  if (s.unit x.unit).life = .gone then s.putEx part gn { x with closed := true }
  else if s.slotBy x.wave = none ∨ !(s.waveBy x.wave).doneRoom 5 then s
  else
    let s := s.putEx part gn { x with closed := true }
    s.updWaveBy x.wave fun w =>
      w.postDone 5 (BitVec.ofNat 64 (status * 2 ^ 56 + x.idleOut % 65536 * 2 ^ 40 + gn % 256 * 2 ^ 32 + x.xseq)) x.num

/-- Rewrite the in rows and in spill rows fields of the calendar with the rows received (R295). -/
def State.exRows (s : State) (part : Nat) (x : Exchange) (n : Nat) : State :=
  (List.range n).foldl (fun s r =>
    let at' := 0x40 + 32 * r
    if fieldOf x.desc 0x50 4 < at' + 32 then s
    else
      let rows := fun (k : Nat) => rowsOf x.post.rowbytes (SMap.get 0 x.inBytes (2 * r + k))
      match s.engWrite (2 ^ 40 + x.num) x.unit part x.space (fieldOf x.desc 0x48 8 + at' + 24) (leBytes 4 (rows 0) ++ leBytes 4 (rows 1)) with
      | .wrote s => s
      | _ => s) s

/-- A member completes its exchange: the rows it has received are in its calendar, then its word is posted (R295, R297). -/
def State.exDone (s : State) (part gn : Nat) (x : Exchange) (status : Nat) : State :=
  let n := ((s.part part).group gn).members.length
  if (s.unit x.unit).life ≠ .gone ∧ (s.slotBy x.wave = none ∨ !(s.waveBy x.wave).doneRoom 5) then s
  else match s.calendarWaits part x with
    | some s => s
    | none => (s.exRows part x n).endEx part gn x status

/-- EXCHANGE_COMPLETION: with status 0 the exchange engine takes the member's next step after go: it moves its own bytes, sends its
next quantum, or completes, with the status of the first fault it met, once every quantum that it expects has arrived and been counted
(R302). A status whose low byte is 6 reports that the rank in its higher bits is lost during the convoys: its quanta are sent and expected
no longer, those of the other members still are, and the exchange ends with status 6 (R294, R297, R378). DEDUCED, unsafe (log entry 36). -/
def execExchangeCompletion (part group status : Nat) (s : State) : Out :=
  match (s.part part).openEx group with
  | none => .next s
  | some x =>
    let a := x.arb
    let ks := convoysFor a.plan x.rank
    let lost := s.exLost part group x
    if !x.going then .next s
    else if status % 256 = 6 then
      .next (if status / 256 = x.rank then s else s.putEx part group { x with lost := status / 256 :: x.lost })
    else if status ≠ 0 then .next s
    else if !x.localDone then .next (s.exLocal part group a x)
    else match ks.find? fun k => !x.passed lost a.plan k with
      | some k =>
        .next (match a.plan.find? fun c => c.num == k && c.src == x.rank && !lost c.dst with
        | some c => if x.sent.contains k then s else s.exSend part group a x c
        | none => s)
      | none => .next (s.exDone part group x (if x.missed lost a.plan then 6 else x.fault))

/-- QUANTUM_ARRIVAL: the quantum of a convoy arrives after go: its bytes are performed, the counter rises, idle or not (R294,
R295). -/
def execQuantumArrival (part group convoy : Nat) (bytes : List Byte) (s : State) : Out :=
  match (s.part part).openEx group with
  | none => .next s
  | some x =>
    let a := x.arb
    match a.plan.find? fun c => c.num == convoy && c.dst == x.rank with
    | none => .next s
    | some c =>
      if !x.going ∨ x.recv.contains convoy ∨ c.bytes < bytes.length then .next s
      else
        let come := fun (s : State) (x : Exchange) =>
          let s := s.putEx part group { x with recv := convoy :: x.recv }
          let s := if bytes.isEmpty then s.idleQuantum part group c.src else s
          if fieldOf x.desc 0x15 1 = 1 then
            s.countOne part (fieldOf x.desc 0x14 1) (schedRelease (ownWrites s.hist (2 ^ 40 + x.num)))
          else s
        if bytes.isEmpty then .next (come s x)
        else match s.engWrite (2 ^ 40 + x.num) x.unit part x.space (a.rowBase x c.src c.spill + c.off) bytes with
          | .waits s => .next s
          | .faults va => .next (come (s.engFault x.wave va) (x.failed 4))
          | .wrote s => .next (come s (x.got c.src bytes.length c.spill))

end Sys2Proof.Machine
end

