-- ==== Sys2Proof/Machine/Lanes.lean ====
section
/-! DEFINITION. Scans, reductions and the lane movement of the compute strand (R95, R123 to R128). -/

namespace Sys2Proof.Machine

/-- The operations of scans and reductions. -/
inductive ScanOp where
  | add | min | max | and | or | xor
  deriving DecidableEq, Repr

/-- The element width of a chain: 32 bits for the bitwise operations, else the type's (R99). -/
def ScanOp.width (o : ScanOp) (t : Nat) : Nat :=
  match o with
  | .and => 32
  | .or => 32
  | .xor => 32
  | _ => typeWidth t

/-- The identity of an operation for a type (R123). -/
def ScanOp.identity (o : ScanOp) (t : Nat) : Nat :=
  let (w, sg) := intType t
  let F := floatType t
  match o with
  | .add => 0
  | .min => if isFloatType t then F.infCode else wrapInt w (intMax w sg)
  | .max => if isFloatType t then F.signed true F.infCode else wrapInt w (intMin w sg)
  | .and => 2 ^ 32 - 1
  | .or => 0
  | .xor => 0

/-- An element read as an input of the type: flushed when flush is set, a NaN made canonical (R95, R123). -/
def ScanOp.input (o : ScanOp) (t : Nat) (flush : Bool) (x : Nat) : Nat :=
  match o with
  | .and => x
  | .or => x
  | .xor => x
  | _ =>
    if isFloatType t then
      let F := floatType t
      let y := F.flush flush x
      if (F.val y).isNan then F.nanCode else y
    else x

/-- One step, exactly as the two-operand instruction would do (R95). -/
def ScanOp.step (o : ScanOp) (t mode : Nat) (sat flush : Bool) (x y : Nat) : Nat :=
  let (w, sg) := intType t
  let F := floatType t
  match o with
  | .and => x &&& y
  | .or => x ||| y
  | .xor => x ^^^ y
  | .add => if isFloatType t then F.result mode flush (Fp.add mode (F.input flush x) (F.input flush y))
            else fitInt w sg sat (intVal w sg x + intVal w sg y)
  | .min => if isFloatType t then minmaxElem F flush false x y
            else wrapInt w (Min.min (intVal w sg x) (intVal w sg y))
  | .max => if isFloatType t then minmaxElem F flush true x y
            else wrapInt w (Max.max (intVal w sg x) (intVal w sg y))

/-- The chain over the active lanes' elements in ascending order: the final value, if any lane is active, and for each
active lane the value before it (the identity for the first) and after it (R123). -/
def scanChain (step : Nat → Nat → Nat) (identity : Nat) : Option Nat → List (Nat × Nat) → Option Nat × List (Nat × Nat × Nat)
  | acc, [] => (acc, [])
  | acc, (l, x) :: rest =>
    let after := match acc with
      | none => x
      | some a => step a x
    let (fin, out) := scanChain step identity (some after) rest
    (fin, (l, acc.getD identity, after) :: out)

/-- The chain of element `k` of a vector under a guard. -/
def scanElem (o : ScanOp) (t mode : Nat) (sat flush : Bool) (g : W64) (v : Vec) (k : Nat) :
    Option Nat × List (Nat × Nat × Nat) :=
  scanChain (o.step t mode sat flush) (o.identity t) none
    ((maskLanes g).map fun l => (l, o.input t flush (elemOf (o.width t) k (Lanes.get32 v l))))

/-- A scan, inclusive or exclusive (R123). -/
def State.scan (s : State) (sw : Bool) (d a : BitVec 8) (o : ScanOp) (exclusive : Bool) : Out :=
  s.using [s.useGuard, s.useV a.toNat]
    (let t := s.strand
     let w := o.width t.etype
     let chains := (List.range (32 / w)).map fun k =>
       (scanElem o t.etype t.rmode t.sat t.flush s.guard (s.vec a.toNat) k).2
     s.resultV sw d.toNat s.guard fun l => packLane w fun k =>
       match (chains.getD k []).find? fun e => e.1 == l with
       | some e => if exclusive then e.2.1 else e.2.2
       | none => 0)

/-- A reduction to s[d]: the packed final values, or the identity with no active lane; bits 63:32 copy bit 31 for i32 and
are 0 for every other type (R124). -/
def State.vred (s : State) (sw : Bool) (d a : BitVec 8) (o : ScanOp) : Out :=
  s.using [s.useGuard, s.useV a.toNat]
    (let t := s.strand
     let w := o.width t.etype
     let r : W32 := packLane w fun k =>
       ((scanElem o t.etype t.rmode t.sat t.flush s.guard (s.vec a.toNat) k).1).getD (o.identity t.etype)
     s.resultS sw d.toNat (if t.etype = 0 then sext64 r else zext64 r))

/-- scan.add (R123). -/
def execScanAdd (sw : Bool) (d a : BitVec 8) (s : State) : Out :=
  s.scan sw d a .add false

/-- scan.min (R123). -/
def execScanMin (sw : Bool) (d a : BitVec 8) (s : State) : Out :=
  s.scan sw d a .min false

/-- scan.max (R123). -/
def execScanMax (sw : Bool) (d a : BitVec 8) (s : State) : Out :=
  s.scan sw d a .max false

/-- scan.and (R123). -/
def execScanAnd (sw : Bool) (d a : BitVec 8) (s : State) : Out :=
  s.scan sw d a .and false

/-- scan.or (R123). -/
def execScanOr (sw : Bool) (d a : BitVec 8) (s : State) : Out :=
  s.scan sw d a .or false

/-- scan.xor (R123). -/
def execScanXor (sw : Bool) (d a : BitVec 8) (s : State) : Out :=
  s.scan sw d a .xor false

/-- scan.addx (R123). -/
def execScanAddx (sw : Bool) (d a : BitVec 8) (s : State) : Out :=
  s.scan sw d a .add true

/-- scan.minx (R123). -/
def execScanMinx (sw : Bool) (d a : BitVec 8) (s : State) : Out :=
  s.scan sw d a .min true

/-- scan.maxx (R123). -/
def execScanMaxx (sw : Bool) (d a : BitVec 8) (s : State) : Out :=
  s.scan sw d a .max true

/-- scan.andx (R123). -/
def execScanAndx (sw : Bool) (d a : BitVec 8) (s : State) : Out :=
  s.scan sw d a .and true

/-- scan.orx (R123). -/
def execScanOrx (sw : Bool) (d a : BitVec 8) (s : State) : Out :=
  s.scan sw d a .or true

/-- scan.xorx (R123). -/
def execScanXorx (sw : Bool) (d a : BitVec 8) (s : State) : Out :=
  s.scan sw d a .xor true

/-- vred.add (R124). -/
def execVredAdd (sw : Bool) (d a : BitVec 8) (s : State) : Out :=
  s.vred sw d a .add

/-- vred.min (R124). -/
def execVredMin (sw : Bool) (d a : BitVec 8) (s : State) : Out :=
  s.vred sw d a .min

/-- vred.max (R124). -/
def execVredMax (sw : Bool) (d a : BitVec 8) (s : State) : Out :=
  s.vred sw d a .max

/-- vred.and (R124). -/
def execVredAnd (sw : Bool) (d a : BitVec 8) (s : State) : Out :=
  s.vred sw d a .and

/-- vred.or (R124). -/
def execVredOr (sw : Bool) (d a : BitVec 8) (s : State) : Out :=
  s.vred sw d a .or

/-- vred.xor (R124). -/
def execVredXor (sw : Bool) (d a : BitVec 8) (s : State) : Out :=
  s.vred sw d a .xor

/-! ## Lane movement (R125 to R128) -/

/-- The lanes that the active lanes take data from, in which a poisoned element traps and is reported (R125, R126, R364).
DEDUCED, unsafe (log entry 57). -/
def sourceLanes (g : W64) (f : Nat → Nat) : W64 := maskOf fun j => (maskLanes g).any fun l => f l == j

/-- vperm: v[a] at the lane that v[b] names, modulo 64 (R125). A poisoned source lane that an active lane reads traps, an inactive one too.
DEDUCED, unsafe (log entry 57). -/
def execVperm (sw : Bool) (d a b : BitVec 8) (s : State) : Out :=
  let idx := fun l => (Lanes.get32 (s.vec b.toNat) l).toNat % 64
  s.using [s.useGuard, s.useVM a.toNat (sourceLanes s.guard idx), s.useV b.toNat]
    (s.resultV sw d.toNat s.guard fun l => Lanes.get32 (s.vec a.toNat) (idx l))

/-- vxshuf: v[a] at the lane number xor s[b] modulo 64 (R126). A poisoned source lane that an active lane reads traps, an inactive one too.
DEDUCED, unsafe (log entry 57). -/
def execVxshuf (sw : Bool) (d a b : BitVec 8) (s : State) : Out :=
  let m := (s.readS b.toNat).toNat % 64
  s.using [s.useGuard, s.useVM a.toNat (sourceLanes s.guard fun l => l ^^^ m), .s b.toNat]
    (s.resultV sw d.toNat s.guard fun l => Lanes.get32 (s.vec a.toNat) (l ^^^ m))

/-- vbcast: the low half of s[a] plus l times the low half of s[b], modulo 2^32 (R127). -/
def execVbcast (sw : Bool) (d a b : BitVec 8) (s : State) : Out :=
  s.using [s.useGuard, .s a.toNat, .s b.toNat]
    (s.resultV sw d.toNat s.guard fun l =>
      (s.readS a.toNat).setWidth 32 + BitVec.ofNat 32 l * (s.readS b.toNat).setWidth 32)

/-- The register number that lane `l` gives: the base plus bits 7:0 of the index, modulo 256 (R128). -/
def laneReg (base : BitVec 8) (idx : Vec) (l : Nat) : Nat := (base.toNat + (Lanes.get32 idx l).toNat % 256) % 256

/-- The uses of vgetr's table: each register that some active lane names, in the lanes that name it. -/
def State.tableUses (s : State) (base : BitVec 8) (idx : Vec) : List Use :=
  (List.range 256).filterMap fun r =>
    let m := maskOf fun l => maskBit s.guard l && laneReg base idx l == r
    if m = 0#64 then none else some (s.useVM r m)

/-- vgetr: each active lane reads its lane of the register it names, mapped by the window (R41, R128). -/
def execVgetr (sw : Bool) (d a b : BitVec 8) (s : State) : Out :=
  let idx := s.vec a.toNat
  s.using ([s.useGuard, s.useV a.toNat] ++ s.tableUses b idx)
    (s.resultV sw d.toNat s.guard fun l => Lanes.get32 (s.vec (laneReg b idx l)) l)

/-- Write each physical register that some active lane names, in the lanes that name it. -/
def State.scatterV (s : State) (base : BitVec 8) (idx : Vec) (g : W64) (v : Vec) : List Nat → State
  | [] => s
  | r :: rs =>
    let m := maskOf fun l => maskBit g l && s.strand.phys (laneReg base idx l) == r
    (if m = 0#64 then s else s.writeV r m fun l => Lanes.get32 v l).scatterV base idx g v rs

/-- vsetr: each active lane writes its lane of the register it names, mapped by the window (R41, R128). -/
def execVsetr (sw : Bool) (d a b : BitVec 8) (s : State) : Out :=
  s.using [s.useGuard, s.useV a.toNat, s.useV b.toNat]
    (.next ((s.scatterV d (s.vec a.toNat) s.guard (s.vec b.toNat)
      ((maskLanes s.guard).map fun l => s.strand.phys (laneReg d (s.vec a.toNat) l)).eraseDups).retire sw))

end Sys2Proof.Machine
end

