-- ==== Sys2Proof/Machine/Sched.lean ====
section
/-! DEFINITION. The scheduler's events: queue packets, ageing, placement, retirement, and the completion of nodes, launches and
graphs (R244 to R264, R268, R344, R382, R394). -/

namespace Sys2Proof.Machine

/-! ## Queues (R244, R245, R249, R344) -/

/-- Write a queue's status, in its record and in its descriptor. -/
def State.queueStatus (s : State) (part q st : Nat) : State :=
  let s := s.updQueue part q fun x => { x with status := st }
  s.agentWrite [] (((s.part part).queue q).desc + 0x20) (leBytes 8 st)

/-- A queue stops reading at a malformed packet, and raises its error interrupt (R245). -/
def State.malformedPacket (s : State) (part q : Nat) : State := (s.queueStatus part q 1).updQueue part q HwQueue.raiseError

/-- A die on which a queue may place is live (R249). -/
def State.queueHasDie (s : State) (part : Nat) (q : HwQueue) : Bool :=
  (List.range 2).any fun d => q.affinity.testBit d && (s.part part).asn.dies.contains d && (s.die d).state == .live && (s.die d).placing

/-- A queue that has lost every die it may place on reads "no live die" and raises its error interrupt once; the status clears
when a die is back (R249). A status 1 or 3 stays meanwhile, and a 2 for a broken timeline clears then too. DESIGN CHOICE, unsafe (log
entry 25). -/
def State.refreshQueue (s : State) (part q : Nat) : State :=
  let x := (s.part part).queue q
  if !x.set then s
  else if s.queueHasDie part x then
    (if x.noDie then (if x.status = 2 then s.queueStatus part q 0 else s).updQueue part q fun x => { x with noDie := false } else s)
  else if x.noDie then s
  else (if x.status = 0 then s.queueStatus part q 2 else s).updQueue part q fun x => { x.raiseError with noDie := true }

/-- The same for every queue of the device. -/
def State.refreshQueues (s : State) : State :=
  s.parts.foldl (fun s p => p.2.queues.foldl (fun s q => s.refreshQueue p.1 q.1) s) s

/-- A queue reads packets: it is running, or only without a live die. -/
def HwQueue.reads (q : HwQueue) : Bool := q.set && (q.status == 0 || (q.status == 2 && q.noDie))

/-- The tail of a queue's ring, in its descriptor, lies in a marked granule, so that it is not used (R350). -/
def State.tailMarked (s : State) (x : HwQueue) : Bool := (List.range 8).any fun i => s.poisonedAt (x.desc + 0x18 + i)

/-- A queue has a packet to read: its tail is past its head, or cannot be used. -/
def State.packetDue (s : State) (x : HwQueue) : Bool := x.reads && (s.tailMarked x || x.head != s.word (x.desc + 0x18) 8)

/-- The packet at the head of a queue stands in spill and is fetched first (R324). -/
def State.ringSpill (s : State) (part q : Nat) : Option Nat :=
  let x := (s.part part).queue q
  if s.packetDue x then s.spilledBlock part x.space (x.ring + 64 * (x.head % x.entries)) 64 else none

/-- The packet at the head of a queue, none where it is empty or not reading; one that cannot be read, or whose ring's tail cannot, reads
as no bytes. DEDUCED, unsafe (log entry 25). -/
def State.headPacket (s : State) (part q : Nat) : Option (List Byte) :=
  let x := (s.part part).queue q
  if !s.packetDue x || (s.ringSpill part q).isSome then none
  else match (if s.tailMarked x then .error .poisoned else s.readVa 0 part x.space (x.ring + 64 * (x.head % x.entries)) 64) with
    | .ok b => some b
    | .error _ => some []

/-- A packet obeys R244. -/
def packetOk (b : List Byte) : Bool :=
  let kind := fieldOf b 0 1
  let flags := fieldOf b 1 1
  let addr := fieldOf b 8 8
  let value := fieldOf b 0x10 8
  b.length == 64 && decide (1 ≤ kind) && decide (kind ≤ 4) && decide (flags < 4) && (!flags.testBit 0 || kind == 1)
    && (!flags.testBit 1 || kind == 4) && zeros b 2 4 && zeros b 0x18 0x40
    && (match kind with
        | 1 => addr % 64 == 0
        | 4 => addr == 0
        | _ => decide (addr < 512))
    && (kind == 2 || kind == 3 || value == 0)

/-- Every earlier graph of a queue has completed. -/
def Partition.graphsDone (p : Partition) (q : Nat) : Bool := !p.graphs.any fun e => e.2.queue == q && !e.2.done

/-- Consume the head packet: the head rises in the record and in the descriptor, and the packet's job becomes the queue's, one of those of
which it has read a packet (R246). -/
def State.consume (s : State) (part q : Nat) (b : List Byte) : State :=
  let x := (s.part part).queue q
  let head := (x.head + 1) % 2 ^ 64
  let job := fieldOf b 4 4
  (s.updQueue part q fun x => { x with head := head, job := job, jobs := if x.jobs.contains job then x.jobs else x.jobs ++ [job] }).agentWrite [] (x.desc + 0x10) (leBytes 8 head)

/-- Go on unless a block that the scheduler needs stands in spill: its page is then fetched first (R324). DEDUCED, unsafe (log entry 24). -/
def State.fetchBlock (s : State) (part space : Nat) (a : Option Nat) (k : State) : State :=
  match a with
  | some a => s.wantPage part space a
  | none => k

/-- Take the head packet of a queue if it is of a kind; a malformed one stops the queue. -/
def State.packet (s : State) (part q kind : Nat) (f : List Byte → State) : Out :=
  match s.headPacket part q with
  | none => .next (s.fetchBlock part ((s.part part).queue q).space (s.ringSpill part q) s)
  | some b =>
    if !packetOk b then .next (s.malformedPacket part q)
    else if fieldOf b 0 1 ≠ kind then .next s
    else .next (f b)

/-- GRAPH_PACKET: starts the graph, with overlap at once and otherwise once every earlier graph has completed. -/
def execGraphPacket (part queue : Nat) (s : State) : Out :=
  s.packet part queue 1 fun b =>
    if (fieldOf b 1 1).testBit 0 || (s.part part).graphsDone queue then
      let space := ((s.part part).queue queue).space
      s.fetchBlock part space (s.graphSpill part space (fieldOf b 8 8)) ((s.consume part queue b).startGraph part queue (fieldOf b 8 8))
    else s

/-- A packet has met a broken timeline: the queue stops with status 2 (R382). -/
def State.brokenPacket (s : State) (part q : Nat) : State := (s.queueStatus part q 2).updQueue part q fun x => { x with noDie := false }

/-- TIMELINE_WAIT_PACKET: passes once earlier graphs have completed and the timeline has reached the threshold, as an acquire of every
object at system scope by the queue: its later graphs' units and its later signals hold what it acquires (R267). -/
def execTimelineWaitPacket (part queue : Nat) (s : State) : Out :=
  s.packet part queue 2 fun b =>
    let t := (s.part part).timeline (fieldOf b 8 8)
    if !(s.part part).graphsDone queue then s
    else if t.broken then s.brokenPacket part queue
    else if fieldOf b 0x10 8 ≤ t.value.toNat then
      (s.consume part queue b).updQueue part queue fun x => { x with view := View.join x.view (acquired .all 5 hostPlace t.rels) }
    else s

/-- What the completed graphs of a queue have written and what its timeline waits have acquired. -/
def Partition.queueCover (p : Partition) (q : Nat) : View :=
  (p.graphs.filter fun e => e.2.queue == q).foldl (fun v e => View.join v e.2.cover) (p.queue q).view

/-- TIMELINE_SIGNAL_PACKET: once earlier graphs have completed, the set form of tlsig, releasing what they have written. -/
def execTimelineSignalPacket (part queue : Nat) (s : State) : Out :=
  s.packet part queue 3 fun b =>
    let n := fieldOf b 8 8
    if !(s.part part).graphsDone queue then s
    else if ((s.part part).timeline n).broken then s.brokenPacket part queue
    else
      (s.consume part queue b).signal part n false (BitVec.ofNat 64 (fieldOf b 0x10 8)) (schedRelease ((s.part part).queueCover queue))

/-- PHASE_END_PACKET: once every phase closed before has completed, closes the current phase, as the job's last one where the flag says
so, and opens the next (R246, R268). -/
def execPhaseEndPacket (part queue : Nat) (s : State) : Out :=
  s.packet part queue 4 fun b =>
    let x := (s.part part).queue queue
    if !x.doneTo x.phase then s else
    (s.consume part queue b).updQueue part queue fun x =>
      let x := { x with closedPhases := x.closedPhases ++ [x.phase],
                        jobEnds := if (fieldOf b 1 1).testBit 1 then SMap.put x.phase (fieldOf b 4 4) x.jobEnds else x.jobEnds }
      { x.settle with phase := x.phase + 1 }

/-- AGE_INTERVAL: at the end of an interval of 65,536 cycles in which a queue with a unit ready placed none, its age rises by 1,
to 7 at most (R247). -/
def execAgeInterval (part queue : Nat) (s : State) : Out :=
  let x := (s.part part).queue queue
  if !x.set ∨ s.cycle < x.ageFrom + 65536 then .next s
  else .next (s.updQueue part queue fun x =>
    { x with ageFrom := x.ageFrom + 65536, age := if (s.nextUnitOf part queue).isSome then min 7 (x.age + 1) else x.age })

/-! ## Placement (R247, R253, R257) -/

/-- Place the next unit of a queue at slots and a creel offset of a cluster; a saved one is restored by an event of its own. -/
def State.placeNext (s : State) (part cluster : Nat) (n : NextUnit) (slots : List Nat) (off : Nat) (k : Kernel) (reserved : Bool) : State :=
  match n with
  | .again u => s.placeAgain u cluster slots off k reserved
  | .back _ => s
  | .fresh l => s.placeNew part l cluster slots off k reserved

/-- The gang that a queue places next on a cluster: of those at its head that are to be placed again the first that fits there, or the next
position of a launch, which waits while any unit stands at the head (R247). -/
def State.nextGang (s : State) (part queue cluster : Nat) : Option NextUnit :=
  let gangs := (s.nextUnits part queue).filter fun n => (match n with | .back _ => false | _ => true) && !(s.nextLaunchOf part n).spawn
  match gangs.find? fun n => s.unitFits part n cluster with
  | some n => some n
  | none => gangs.head?

/-- A launch whose kernel descriptor has been spilled has its page fetched (R324). -/
def State.wantKernel (s : State) (part : Nat) (l : Launch) : State :=
  s.fetchBlock part l.space (s.spilledBlock part l.space l.kdesc 128) s

/-- GANG_PLACEMENT: the next gang of a queue whose turn it is is placed whole where it fits; which fitting place is not fixed
(R253). -/
def execGangPlacement (part queue cluster : Nat) (slots : List Nat) (off : Nat) (s : State) : Out :=
  match s.nextGang part queue cluster with
  | none => .next s
  | some n =>
    let l := s.nextLaunchOf part n
    match s.kernelAt part l.space l.kdesc with
    | none => .next (s.wantKernel part l)
    | some k =>
      if !s.dieAllows part (s.launchMask part l) cluster || !s.mayStand n cluster || !s.gangFits k cluster slots off || !s.served part queue cluster
      then .next s
      else .next ((s.placeNext part cluster n slots off k false).queueServed part queue)

/-- The next sprout of a launch for a cluster: a squashed one again, of several the first that may stand there, or the next position; none of
a cancelled launch (R269). -/
def State.nextSprout (s : State) (part launch cluster : Nat) : Option NextUnit :=
  let l := SMap.get Launch.empty (s.part part).launches launch
  let again := s.units.filter fun e => e.2.life == .waiting && e.2.part == part && e.2.launch == launch && !l.cancelled
  match again.find? (fun e => s.mayStand (.again e.1) cluster), again with
  | some e, _ => some (.again e.1)
  | none, e :: _ => some (.again e.1)
  | none, [] => if l.waiting then some (.fresh launch) else none

/-- The next sprout of a launch can be given a free place now: it is a next unit of its queue, it fits on a cluster, and the queue is served
there (R247, R257). -/
def State.sproutHasPlace (s : State) (part : Nat) (l : Launch) (n : NextUnit) (k : Kernel) (c : Nat) : Bool :=
  s.dieAllows part (s.launchMask part l) c && s.mayStand n c && s.fitsOn k c && (s.nextUnits part l.queue).contains n && s.served part l.queue c

/-- SPROUT_PLACEMENT: a sprout goes to a free place in its queue's turn, or to its launch's reserved place while it can be given no
other, so that a unit ahead of it in the queue which fits nowhere does not starve it (R241, R257). DEDUCED, unsafe (log entry 46). -/
def execSproutPlacement (part launch cluster slot off : Nat) (s : State) : Out :=
  let l := SMap.get Launch.empty (s.part part).launches launch
  match s.nextSprout part launch cluster, s.kernelAt part l.space l.kdesc with
  | some n, some k =>
    let need := { k with waves := 1, groups := 1 }
    let place := fun (reserved : Bool) => (s.placeNext part cluster n [slot] off k reserved).queueServed part l.queue
    if !l.spawn || !s.dieAllows part (s.launchMask part l) cluster || !s.mayStand n cluster then .next s
    else if l.resv = some ⟨cluster, slot, off, k.creel, k.tiles⟩ then
      .next (if !l.resvBusy && !(List.range Config.clusters).any (s.sproutHasPlace part l n need) then place true else s)
    else if s.gangFits need cluster [slot] off && s.sproutHasPlace part l n need cluster then .next (place false)
    else .next s
  | some _, none => .next (s.wantKernel part l)
  | none, _ => .next s

/-! ## Retirement and completion (R255, R261, R264, R268) -/

/-- Words in the queues of the mask, tolerance, collective and exchange engines still ask for something. -/
def Wave.wordsLeft (w : Wave) : Bool :=
  (match SMap.get [] w.eqCmd 3 with
   | [] => false
   | x :: rest => bitsOf x.val.toNat 63 56 != 1 || decide (3 ≤ rest.length))
  || (match SMap.get [] w.eqCmd 4 with
      | [] => false
      | x :: rest => bitsOf x.val.toNat 63 56 != 2 || !rest.isEmpty)
  || !(SMap.get [] w.eqCmd 2).isEmpty || !(SMap.get [] w.eqCmd 5).isEmpty

/-- Both strands of a wave have ended and none of its engine commands is left. -/
def Wave.finished (w : Wave) : Bool :=
  w.acc.ended && w.cmp.ended && (w.eng.all fun q => q.2.isEmpty) && !w.wordsLeft

/-- A unit may retire: its strands have ended, its accesses have happened, its engine commands and matrix instructions have
finished, and it is no scout task. -/
def State.mayRetire (s : State) (u : Nat) : Bool :=
  let x := s.unit u
  x.life == .resident && x.depthScout == 0 && (x.slots.all fun k => (s.wave k).finished) && !s.flight.any (fun e => e.2.unit == u)
    && (!x.hasSeq || ((s.cluster x.cluster).seq.strand.ended && (s.cluster x.cluster).seq.flight.isEmpty))

/-- RETIREMENT: a release of every object at system scope that covers the unit's writes; its places are freed and its launch's
counter falls by 1. -/
def execRetirement (unit : Nat) (s : State) : Out :=
  if !s.mayRetire unit then .next s
  else
    let x := s.unit unit
    let v := s.unitCover unit
    .next ((s.removeUnit unit).updLaunch x.part x.launch fun l => { l with cover := View.join l.cover v })

/-- A node that waits for a spilled page is enqueued once that is mapped, unless its graph has been cancelled (R324). -/
def State.enqueueWaiting (s : State) (part key node : Nat) (g : Graph) : State :=
  match g.waiting.find? fun e => e.1 == node with
  | none => s
  | some (_, view) =>
    s.fetchBlock part g.space (if g.cancelled then none else s.nodeSpill part g.space node) <|
      let s := s.updGraph part key fun g => { g with waiting := g.waiting.filter fun e => e.1 != node, openNodes := g.openNodes - 1 }
      if g.cancelled then s else s.enqueueNode part key node view

/-- NODE_COMPLETION: a completed node's next successor is decremented, in list order; after the last the node counts no longer,
and the sink's completion is noted (R261, R262, R264). What it reads or writes in spill is fetched first (R324). -/
def execNodeCompletion (part gid node : Nat) (s : State) : Out :=
  match (s.part part).liveGraph gid with
  | none => .next s
  | some (key, g) =>
    match g.complete.find? fun e => e.1 == node with
    | none => .next (s.enqueueWaiting part key node g)
    | some (_, i, v) =>
      let rest := g.complete.filter fun e => e.1 != node
      let finish := fun (s : State) (bad : Bool) => s.updGraph part key fun g =>
        { g with complete := rest, openNodes := g.openNodes - 1, sinkDone := g.sinkDone || node == g.sink, cover := View.join g.cover v,
                 malformed := g.malformed || bad }
      match s.readVa 0 part g.space node 64 with
      | .error _ => .next (s.fetchBlock part g.space (s.spilledBlock part g.space node 64) (finish s true))
      | .ok b =>
        let n := fieldOf b 0xC 2
        if 64 < n then .next (finish s true)
        else if n ≤ i then .next (finish s false)
        else
          let step := fun (s : State) (bad : Bool) => s.updGraph part key fun g =>
            { g with complete := g.complete.map (fun e => if e.1 = node then (e.1, i + 1, e.2.2) else e), malformed := g.malformed || bad }
          match s.readVa 0 part g.space (fieldOf b 0x10 8 + 8 * i) 8 with
          | .error _ => .next (s.fetchBlock part g.space (s.spilledBlock part g.space (fieldOf b 0x10 8 + 8 * i) 8) (step s true))
          | .ok a =>
            .next (s.fetchBlock part g.space (s.spilledBlock part g.space (leNat a + 8) 4) (match s.decrement part key (leNat a) 0 (schedRelease v) with
              | (some old, s) => step s (old == 0)
              | (none, s) => step s true))

/-- LAUNCH_COMPLETION: every unit has retired and the last group has been placed, or the launch was cancelled: its node completes, or
its spawn signals its timeline (R258, R259, R268, R269). -/
def execLaunchCompletion (part launch : Nat) (s : State) : Out :=
  match SMap.find (s.part part).launches launch with
  | none => .next s
  | some l =>
    if l.done ∨ l.live ≠ 0 ∨ l.waiting ∨ s.cancels.any (fun c => c.part == part && c.launches.contains launch) then .next s
    else
      let s := s.updLaunch part launch fun l => { l with done := true, resv := none }
      let s := s.updPart part fun p => { p with doneLaunches := (launch :: p.doneLaunches).take 1024 }
      let s := s.updGraph part l.graph fun g => { g with lost := g.lost || l.cancelled }
      if l.spawn then
        .next (match l.tl with
        | some (n, v) => if l.cancelled then s else s.signal part n false v (schedRelease l.cover)
        | none => s)
      else
        .next (s.nodeDone part l.graph l.node l.cover)

/-- GRAPH_COMPLETION: the sink and every other enqueued node have completed, or the graph was cancelled and nothing of it is left:
its record is written and its interrupt raised (R264). -/
def execGraphCompletion (part gid : Nat) (s : State) : Out :=
  match (s.part part).liveGraph gid with
  | none => .next s
  | some (key, g) =>
    let left := (s.part part).launches.any fun e => e.2.graph == key && !e.2.done && (!e.2.spawn || g.cancelled)
    if g.openNodes ≠ 0 ∨ !(g.sinkDone || g.cancelled) ∨ left then .next s
    else .next <| s.fetchBlock part g.space (s.recordSpill part g.space g.sink) (s.finishGraph part key (if g.malformed then 2 else if g.cancelled || g.lost then 1 else 0))

end Sys2Proof.Machine
end

