-- ==== Sys2Proof/Machine/Preempt.lean ====
section
/-! DEFINITION. Pre-emption, save and restore, and the debugger (R248, R366 to R370, R374 to R377). -/

namespace Sys2Proof.Machine

/-! ## Requests (R248, R366, R368) -/

/-- The effective priority of a unit's queue. -/
def State.unitPriority (s : State) (u : Nat) : Nat := ((s.part (s.unit u).part).queue (s.unit u).queue).effective

/-- The state as far as places go, with the places of units freed. -/
def State.without (s : State) (us : List Nat) : State :=
  us.foldl (fun s u => (s.freePlaces u).updUnit u fun x => { x with life := .saved }) s

/-- The resident units that a test admits. -/
def State.residents (s : State) (f : Nat → UnitRec → Bool) : List Nat := (s.units.filter fun e => e.2.life == .resident && f e.1 e.2).map Prod.fst

/-- A saved sprout may be put back on its launch's reserved place: nothing else runs there, and its allotment stands at its offset. -/
def State.resvFits (s : State) (u c : Nat) (slots : List Nat) : Bool :=
  let x := s.unit u
  let l := s.launchOfUnit u
  x.sprout && !l.resvBusy && (match slots with
    | [k] => l.resv == some ⟨c, k, x.creelOff, x.creelBytes, x.tiles⟩
    | _ => false)

/-- A next unit can run on the place that its spawn has reserved (R257). -/
def State.resvOpen (s : State) (part : Nat) (n : NextUnit) : Bool :=
  let l := s.nextLaunchOf part n
  match l.resv with
  | none => false
  | some p => !l.resvBusy && s.dieAllows part (s.launchMask part l) p.cluster && s.mayStand n p.cluster && (match n with
    | .back u => s.resvFits u p.cluster [p.slot] && !s.replyOut u
    | _ => true)

/-- With the place of unit `u` there would be room, and without it not: `fits` says of which units the places together give room. The test
is made beside as many of the others as give none, added in turn, each of them first in one try. -/
def frees (fits : List Nat → Bool) (start others : List Nat) (u : Nat) : Bool :=
  let fill := others.foldl fun acc v => if fits (acc ++ [v]) then acc else acc ++ [v]
  (start :: others.map fun v => if fits (start ++ [v]) then start else start ++ [v]).any fun us => fits (fill us ++ [u]) && !fits (fill us)

/-- Some next unit of a queue at least two steps of effective priority above a resident unit's fits nowhere, nor would it once the units that
have been asked have left, nor on the unit's cluster once those of lower priority there have left as well; and the unit's place is one of
those, two steps below that next unit and lower, that would free enough room there (R248). DEDUCED, unsafe (log entry 26). -/
def State.pressed (s : State) (u : Nat) : Bool :=
  let x := s.unit u
  let e := s.unitPriority u
  let asked := s.residents fun _ y => y.preReq && y.part == x.part
  let there := fun (f : Nat → Bool) => s.residents fun v y => y.part == x.part && y.cluster == x.cluster && !y.preReq && f (s.unitPriority v)
  (s.part x.part).queues.any fun q => decide (e + 2 ≤ q.2.effective) && (s.nextUnits x.part q.1).any fun n =>
    let fits := fun (us : List Nat) (d : Nat) => (s.without us).unitFits x.part n d
    !s.resvOpen x.part n && !((List.range Config.clusters).any fun d => s.unitFits x.part n d || fits asked d)
      && frees (fits · x.cluster) (asked ++ there fun p => decide (p < e))
        ((there fun p => decide (e ≤ p) && decide (p + 2 ≤ q.2.effective)).filter (· != u)) u

/-- Record a wake in every armed monitor of a unit (R208). -/
def State.wakeUnit (s : State) (u c : Nat) : State := s.wakeWaves (fun w => w.unit == u) c

/-- Raise status.pre in a unit and start its deadline. -/
def State.request (s : State) (u deadline why : Nat) : State :=
  (s.updUnit u fun x => { x with preReq := true, deadline := s.cycle + deadline, why := why }).wakeUnit u 3

/-- PREEMPTION_REQUEST: the scheduler asks a resident unit to leave for a unit that fits nowhere and for which its place helps to free
enough room, lowest effective priority first. -/
def execPreemptionRequest (unit : Nat) (s : State) : Out :=
  let x := s.unit unit
  let e := s.unitPriority unit
  let lower := s.units.any fun v => v.2.life == .resident && !v.2.preReq && v.2.part == x.part && decide (s.unitPriority v.1 < e)
    && s.pressed v.1
  if x.life = .resident && !x.preReq && s.pressed unit && !lower then
    .next (s.request unit (s.part x.part).asn.deadline 0)
  else .next s

/-- A strand is at rest (R367): yielded, ended, made to stand, or blocked at an instruction boundary; not while a switch mark parks it. -/
def Strand.atRest (t : Strand) : Bool := (t.yielded && !t.parked) || t.ended || t.stopped || (t.blocked && !t.parked)

/-- Every access and compute strand of a unit is at rest. -/
def State.unitAtRest (s : State) (u : Nat) : Bool := (s.unit u).slots.all fun k => (s.wave k).acc.atRest && (s.wave k).cmp.atRest

/-- Change both strands of a unit's resident waves. -/
def State.updStrands (s : State) (u : Nat) (f : Strand → Strand) : State :=
  (s.unit u).slots.foldl (fun s k => s.updWave k fun w => { w with acc := f w.acc, cmp := f w.cmp }) s

/-- PREEMPTION_WITHDRAW: before the switch begins the request is withdrawn; yielded strands run on. -/
def execPreemptionWithdraw (unit : Nat) (s : State) : Out :=
  let x := s.unit unit
  if x.life = .resident && x.preReq && x.why = 0 && !s.unitAtRest unit then
    .next ((s.updUnit unit fun x => { x with preReq := false }).updStrands unit fun t => { t with yielded := false })
  else .next s

/-- Strands not at rest are made to stand at their next instruction boundary. -/
def State.forceRest (s : State) (u : Nat) : State := s.updStrands u fun t => if t.atRest then t else { t with stopped := true }

/-- DEADLINE: the save of a unit is forced (R368). -/
def execDeadline (unit : Nat) (s : State) : Out :=
  let x := s.unit unit
  if x.life = .resident && x.preReq && decide (x.deadline ≤ s.cycle) && !s.unitAtRest unit then
    .next ((s.forceRest unit).updUnit unit fun x => { x with why := if x.why = 0 then 1 else x.why })
  else .next s

/-! ## Save (R369) -/

/-- An access in flight that a save does not wait for: a scalar load, be its register overwritten since or not, or an atomic. -/
def Access.leaves (a : Access) : Bool :=
  match a.kind, a.dest with
  | .store, _ => false
  | .atomic _, _ => true
  | .load, .lq _ _ => false
  | .load, _ => true

/-- Nothing of a unit is left that its save must wait for; a debugger's save waits for every reply (R376). -/
def State.saveReady (s : State) (u : Nat) : Bool :=
  s.flight.all fun e => e.2.unit != u || (e.2.leaves && (s.unit u).why != 2)

/-- A strand as it is saved: its register results have returned, and a waiting full/empty instruction is abandoned. -/
def Strand.saved (t : Strand) : Strand :=
  { t with outs := [], wait := match t.wait with
      | .fullEmpty _ => .none
      | w => w }

/-- The newest writes of the bytes of a unit's creel allotment since it was placed, with their places in it as locations: who made them and
what they carry goes with the creel (R213, R217). -/
def State.creelRecs (s : State) (x : UnitRec) : List WriteRec :=
  let lo := locOfCreel x.cluster x.creelOff
  let inside := fun (r : WriteRec) => decide (lo ≤ r.loc) && decide (r.loc < lo + x.creelBytes)
  ((s.hist.takeWhile fun r => r.span == 0 || !inside r).filter inside).foldl (fun out r =>
    if out.any fun q => q.loc == r.loc - lo then out else out ++ [{ r with loc := r.loc - lo }]) []

/-- Write a unit's context image and free its places; `life` is what it is from then on. Instructions of the sequencer that poison has
stopped go on when it is restored (R154, R156). DEDUCED, unsafe (log entry 27). -/
def State.saveUnit (s : State) (u : Nat) (life : UnitLife) : State :=
  let s := s.leaveResv u
  let x := s.unit u
  let lo := x.cluster * Config.creelBytes + x.creelOff
  let inside := fun (a : Nat) => decide (lo ≤ a) && decide (a < lo + x.creelBytes)
  let waves := x.slots.map fun k => { s.wave k with acc := (s.wave k).acc.saved, cmp := (s.wave k).cmp.saved }
  let q := (s.cluster x.cluster).seq
  let seq := if x.hasSeq then some { q with strand := q.strand.saved } else none
  let s := s.setUnit u
    { x with life := life, image := waves, imageSeq := seq, imageRecs := s.creelRecs x, preReq := false, mappedAt := none, edits := [],
             imageCreel := (s.creel.filter fun e => inside e.1).map fun e => (e.1 - lo, e.2),
             imageFull := ((s.full.filter fun e => e.2 && inside (4 * e.1)).map fun e => (e.1 - lo / 4, true)),
             imagePoison := ((s.creelPoison.filter fun e => e.2 && inside (4 * e.1)).map fun e => (e.1 - lo / 4, true)) }
  s.freePlaces u

/-! ## Restore (R370) -/

/-- A strand as it resumes: a yielded one after its yield; of a stepped unit only the named strand may issue (R377). -/
def Strand.resumed (t : Strand) (step : Option Nat) (code : Nat) : Strand :=
  { t with yielded := false, stopped := match step with
      | some c => c != code
      | none => false }

/-- The waves of a restored unit: deposited replies are in their registers. -/
def UnitRec.wavesBack (x : UnitRec) : List Wave :=
  (List.range x.image.length).map fun i =>
    let w := x.image.getD i Wave.idle
    let acc := (x.replies.filter fun r => r.wave == i).foldl (fun t r => t.reply r.reg r.val r.poisoned) w.acc
    { w with acc := acc.resumed x.stepping i, cmp := w.cmp.resumed x.stepping (i + 32) }

/-- Where the wave that stood in slot `k` of a cluster stands now. -/
def newSlot (old new : List Nat) (k : Nat) : Nat :=
  match (old.zip new).find? fun e => e.1 % 32 == k with
  | some e => e.2
  | none => k

/-- A saved sequencer with its mailbox and its client keyed by the slots that its waves have now (R135, R154, R370). -/
def Seq.moved (q : Seq) (old new : List Nat) : Seq :=
  let keys := fun (m : SMap (List QEntry)) => m.foldl (fun x e => SMap.put (newSlot old new e.1) e.2 x) []
  { q with cmdQ := keys q.cmdQ, doneQ := keys q.doneQ,
           client := if q.client.toNat < 32 then BitVec.ofNat 8 (newSlot old new q.client.toNat) else q.client }

/-- The writes of a restored creel allotment stand again as the newest of their bytes, at the moment of the restore (R213, R218). -/
def State.recsBack (s : State) (x : UnitRec) (lo : Nat) : State :=
  let back := fun (r : WriteRec) =>
    { r with time := s.now, cycle := s.cycle, loc := creelLoc + lo + r.loc, old := Mem.read s.creel (lo + r.loc) }
  { s with hist := x.imageRecs.map back ++ s.hist }

/-- Put a unit back on a cluster, its allotment at the offset it had; what waits at the allotment reaches it there (R196). -/
def State.restoreUnit (s : State) (u c : Nat) (slots : List Nat) : State :=
  let x := s.unit u
  let s := s.moveHeld u c x.creelOff
  let ks := slots.map fun i => 32 * c + i
  let lo := c * Config.creelBytes + x.creelOff
  let s := s.setUnit u { x with life := .resident, cluster := c, slots := ks, image := [], imageSeq := none, imageCreel := [], imageRecs := [],
                                imageFull := [], imagePoison := [], replies := [], preReq := false, why := 0 }
  let s := (ks.zip x.wavesBack).foldl (fun s e => s.setWave e.1 e.2) s
  let s := s.zeroCreel c x.creelOff x.creelBytes
  let s := { s with creel := x.imageCreel.foldl (fun m (e : Nat × Byte) => Mem.write m (lo + e.1) e.2) s.creel,
                    full := x.imageFull.foldl (fun m (e : Nat × Bool) => SMap.put (lo / 4 + e.1) true m) s.full,
                    creelPoison := x.imagePoison.foldl (fun m (e : Nat × Bool) => SMap.put (lo / 4 + e.1) true m) s.creelPoison }
  let s := s.recsBack x lo
  match x.imageSeq with
  | some q => s.updSeq c fun _ => { q.moved x.slots slots with strand := q.strand.resumed x.stepping 64, stoppedOn := false }
  | none => s

/-- RESTORE: a saved unit is placed again whole, once its scalar replies have come, on a cluster that its queue's mask allows and where
its allotment is free at the same offset, when its queue is served there; a weave member on the same die, where no other unit is one;
a sprout also on its launch's reserved place (R247, R257, R370). DEDUCED, unsafe (log entry 27). -/
def execRestore (unit cluster : Nat) (slots : List Nat) (s : State) : Out :=
  let x := s.unit unit
  let free := s.gangFits x.shape cluster slots x.creelOff && s.served x.part x.queue cluster
  let resv := !free && s.resvFits unit cluster slots
  if x.life = .saved && !s.replyOut unit && s.dieAllows x.part (s.launchMask x.part (s.launchOfUnit unit)) cluster
      && s.weaveAllows unit cluster && (free || resv) then
    let s := (s.restoreUnit unit cluster slots).queueServed x.part x.queue
    .next (if resv then (s.updUnit unit fun x => { x with reserved := true }).updLaunch x.part x.launch fun l => { l with resvBusy := true } else s)
  else .next s

/-! ## The debugger (R375 to R377) -/

/-- A debug command is in the block, with where it stands. -/
def State.dbgSet (s : State) (part cmd launch pos status : Nat) (f : Debug → Debug) : State :=
  { s with debug := SMap.put part (f { s.dbg part with cmd := cmd, launch := launch, pos := pos, status := status }) s.debug }

/-- A stopped unit's image is mapped at an address that the monitor chooses; the command is done. -/
def State.dbgMapped (s : State) (u part launch pos status : Nat) : State :=
  let a := (Config.freeWord s.fresh 1).toNat
  (s.updUnit u fun x => { x with mappedAt := some a }).dbgSet part 0 launch pos status fun d => { d with image := a, mapped := true }

/-- The launch and position that a debug command acts on: those of the block while that command is in it, else its event's (R375).
DEDUCED, unsafe (log entry 27). -/
def Debug.target (d : Debug) (cmd launch pos : Nat) : Nat × Nat := if d.cmd = cmd then (d.launch, d.pos) else (launch, pos)

/-- A debugger stops a unit: it is to be saved with why = 2. No pre-emption is requested of it. -/
def State.stopFor (s : State) (u : Nat) : State := s.updUnit u fun x => { x with preReq := true, deadline := s.cycle, why := 2 }

/-- SAVE: once every strand of a requested unit is at rest and what it waits for has happened, its image is written and its
places are freed; a debugger's image is mapped. -/
def execSave (unit : Nat) (s : State) : Out :=
  let x := s.unit unit
  if x.life = .resident && x.preReq && s.unitAtRest unit && s.saveReady unit then
    .next (if x.why = 2 then (s.saveUnit unit .stopped).dbgMapped unit x.part x.launch x.pos (s.dbg x.part).status else s.saveUnit unit .saved)
  else .next s

/-- STOP: the unit's strands are made to stand, and once every reply has returned it is saved and its image mapped (R376). The
command stays in the block until then. -/
def execStop (part launch pos : Nat) (s : State) : Out :=
  let (launch, pos) := (s.dbg part).target 1 launch pos
  match s.debugUnit part launch pos with
  | none => .next (s.dbgSet part 0 launch pos 1 id)
  | some u =>
    let x := s.unit u
    match x.life with
    | .stopped => .next (s.dbgMapped u part launch pos 0)
    | .saved =>
      if s.flight.any fun e => e.2.unit == u then .next (s.dbgSet part 1 launch pos 0 id)
      else
        let x := { x with life := .stopped, why := 2, replies := [], image := (List.range x.image.length).map fun i =>
          let w := x.image.getD i Wave.idle
          { w with acc := (x.replies.filter fun r => r.wave == i).foldl (fun t r => t.reply r.reg r.val r.poisoned) w.acc } }
        .next ((s.setUnit u x).dbgMapped u part launch pos 0)
    | _ =>
      let s := (s.forceRest u).stopFor u
      if s.unitAtRest u && s.saveReady u then .next ((s.saveUnit u .stopped).dbgMapped u part launch pos 0)
      else .next (s.dbgSet part 1 launch pos 0 id)

/-- Do something with a stopped unit, or report that there is none or that it is not stopped. -/
def State.withStopped (s : State) (part launch pos : Nat) (k : Nat → State) : Out :=
  match s.debugUnit part launch pos with
  | none => .next (s.dbgSet part 0 launch pos 1 id)
  | some u => if (s.unit u).life = .stopped then .next (k u) else .next (s.dbgSet part 0 launch pos 2 id)

/-- RESUME: the stopped unit, with what the debugger has written in its image, waits to be restored, ahead of its queue's other
units. -/
def execResume (part launch pos : Nat) (s : State) : Out :=
  let (launch, pos) := (s.dbg part).target 2 launch pos
  s.withStopped part launch pos fun u =>
    (s.setUnit u { (s.unit u).edited with life := .saved, stepping := none, mappedAt := none }).dbgSet part 0 launch pos 0 fun d => { d with mapped := false }

/-- STEP: the stopped unit is restored with one strand allowed to issue one instruction (wave in bits 2:0, bit 4 compute, bit 5
the sequencer): the three bits name a wave of the unit's first workgroup. DEDUCED, unsafe (log entry 28). -/
def execStep (part launch pos strand : Nat) (s : State) : Out :=
  let (launch, pos) := (s.dbg part).target 3 launch pos
  let strand := if (s.dbg part).cmd = 3 then (s.dbg part).strand else strand
  if 64 ≤ strand ∨ strand.testBit 3 then .next (s.dbgSet part 0 launch pos 3 id)
  else s.withStopped part launch pos fun u =>
    (s.setUnit u { (s.unit u).edited with life := .saved, stepping := some (if strand.testBit 5 then 64 else strand % 8 + if strand.testBit 4 then 32 else 0), mappedAt := none }).dbgSet part 3 launch pos 0
      fun d => { d with strand := strand, mapped := false }

/-- RELEASE: the image is unmapped; the unit stays stopped. -/
def execRelease (part launch pos : Nat) (s : State) : Out :=
  let (launch, pos) := (s.dbg part).target 4 launch pos
  s.withStopped part launch pos fun u =>
    (s.updUnit u fun x => { x with mappedAt := none }).dbgSet part 0 launch pos 0 fun d => { d with mapped := false }

/-- The code under which a debugger names the strand whose turn it is. -/
def State.strandCode (s : State) : Nat :=
  match s.cur.kind with
  | .access => s.curWave.pos
  | .compute => s.curWave.pos + 32
  | .seq => 64

/-- A strand has had a turn: if a debugger's step let it issue, its unit is stopped again, with status 4 if the instruction
blocked (R377). DEDUCED, unsafe (log entry 28). -/
def State.afterTurn (s : State) (u : Nat) (part : Nat) (code : Nat) : State :=
  let x := s.unit u
  if x.stepping ≠ some code ∨ x.life ≠ .resident then s
  else
    let st := if s.strand.blocked then 4 else 0
    let s := s.updUnit u fun x => { x with stepping := none }
    let s := (s.updStrand fun t => { t with stopped := true }).stopFor u
    s.dbgSet part 1 x.launch x.pos st id

end Sys2Proof.Machine
end

