-- ==== Sys2Proof/Machine/Recover.lean ====
section
/-! DEFINITION. Page migration, soft errors, links, fatal errors, warm reset and power states (R184, R363, R378 to R384, R389). -/

namespace Sys2Proof.Machine

/-! ## Migration (R184) -/

/-- What one of the 32 home slices of a die has counted for a page: atomics from its own die and from the other one. -/
def State.atomicCounts (s : State) (pa die slice : Nat) : Nat × Nat :=
  let c := SMap.get (0, 0) s.atomCounts (pa / 65536 * 32 + slice)
  if die = 0 then c else (c.2, c.1)

/-- A home slice asks for the migration of a page of a die. -/
def State.asksMove (s : State) (pa die : Nat) : Bool :=
  (List.range 32).any fun k =>
    let (home, other) := s.atomicCounts pa die k
    decide (192 ≤ other) && decide (4 * home ≤ other)

/-- MIGRATION: the page of a virtual address moves to a free frame of its partition's migration pool on the other die, as a
translation change, where the counts of a home slice ask for it and nothing excludes it. A page of a tree moves by the page engine alone
(R306). DEDUCED, safe (log entry 44). -/
def execMigration (space va frame : Nat) (s : State) : Out :=
  let part := (s.space space).part
  let pool := (s.part part).migPool
  match s.walk part space va with
  | .error _ => .next s
  | .ok l =>
    match homeDie l.frame, homeDie (65536 * frame) with
    | some d, some e =>
      let hbm := paKind l.frame == .hbm d && paKind (65536 * frame) == .hbm e
      if l.big || l.backings != 1 || l.nomig || !hbm || d == e || !pool.contains frame || !s.asksMove l.frame d
          || (s.part part).inKv space va || s.genBusy space || s.offline d || s.offline e || s.links.training then .next s
      else
        let s := s.moveRange l.frame (65536 * frame) 65536 (.page space l.obj)
        let s := s.setLeaf { l with frame := 65536 * frame }
        let s := s.bumpGen space (l.pages va)
        let s := { s with atomCounts := s.atomCounts.filter fun e => e.1 / 32 != l.frame / 65536 }
        .next (s.updPart part fun p => { p with migPool := (p.migPool.filter fun f => f != frame) ++ [l.frame / 65536] })
    | _, _ => .next s

/-- COUNTER_HALVING: every 1,048,576 cycles the atomic counters of every page are halved. -/
def execCounterHalving (s : State) : Out :=
  if s.cycle < s.halvedAt + 1048576 then .next s
  else .next { s with halvedAt := s.halvedAt + 1048576, atomCounts := SMap.mapVals (fun _ c => (c.1 / 2, c.2 / 2)) s.atomCounts }

/-! ## Fatal errors of a die (R379 to R382) -/

/-- The other die. -/
def otherDie (d : Nat) : Nat := if d = 0 then 1 else 0

/-- A partition holds something of a die: a use of it, a cluster, a general core or memory (R334). -/
def Record.onDie (r : Record) (die : Nat) : Bool :=
  r.dies.contains die || r.clusters.any (fun c => dieOfCluster c.1 == die) || r.cores.any (fun c => c / 16 == die)
    || r.frames.any fun f => homeDie (2097152 * f) == some die

/-- Write a log entry for every started partition that a die concerns. -/
def State.logDie (s : State) (die kind : Nat) : State :=
  s.parts.foldl (fun s p =>
    if p.2.started && p.2.asn.onDie die then s.logError p.1 (LogEntry.device kind die 0) else s) s

/-- A tlwait that blocks on a timeline which breaks is released then, with its value and status.brk, whatever becomes of the timeline before
its turn (R382). -/
def Wave.breakLine (n : Nat) (value : W64) (w : Wave) : Wave :=
  match w.acc.wait with
  | .timeline m _ => if m = n then { w with acc := { w.acc with blocked := false, wait := .released value true [] } } else w
  | _ => w

/-- A timeline breaks, and releases what blocks on it, of waves in place and of saved ones; a log entry of kind 6 names it (R382). -/
def State.breakTimelines (s : State) (die : Nat) : State :=
  s.parts.foldl (fun s p =>
    p.2.timelines.foldl (fun s t =>
      if t.2.dies.contains die && !t.2.broken then
        ((s.updTimeline p.1 t.1 fun t => { t with broken := true }).mapWaves fun _ w =>
          if (s.unit w.unit).part = p.1 then w.breakLine t.1 t.2.value else w).logError p.1 (LogEntry.device 6 die t.1)
      else s) s) s

/-- A wave whose tokrdy wait names a general core of a die is released from it with status.brk (R382). -/
def Wave.breakToken (die : Nat) (w : Wave) : Wave :=
  match w.acc.wait with
  | .tokrdy block target d _ => if d = die then { w with acc := { w.acc with wait := .tokrdy block target d true } } else w
  | _ => w

/-- Every such wait is, of waves in place and of saved ones. -/
def State.breakTokens (s : State) (die : Nat) : State := s.mapWaves fun _ w => w.breakToken die

/-- The graphs of the units resident on a die complete cancelled (R381). -/
def State.cancelDie (s : State) (die : Nat) : State :=
  let us := s.units.filter fun e => e.2.life == .resident && dieOfCluster e.2.cluster == die
  us.foldl (fun x e => x.cancelGraph e.2.part (s.graphOfUnit e.1)) s

/-- Accesses in flight to a die's home slices are answered with error replies (R381, R384). -/
def State.failFlight (s : State) (die : Nat) : State :=
  { s with flight := SMap.mapVals (fun _ a =>
      if !a.creel && a.lanes.any (fun l => homeDie l.loc == some die) then { a with errored := true, rejected := false } else a) s.flight }

/-- The partition monitor goes on from the other die, with what its standby copy recorded last (R380). -/
def State.moveMonitor (s : State) (die : Nat) : State :=
  let m := s.mgmt
  if m.monitorDie = die then
    { s with mgmt := { m with monitorDie := otherDie die, moved := true, bootImage := m.standby.image, bootDigest := m.standby.digest,
                              records := m.standby.records } }
  else s

/-- A die suffers a fatal error, in operation or while it is held in reset; the device stops where the monitor runs from it and the other
die is not live (R379, R380, R389). Calls that were in progress on a failed monitor's die will return busy.
DESIGN CHOICE, unsafe (log entry 43). -/
def State.fatal (s : State) (die : Nat) : Out :=
  let d := s.die die
  if 1 < die ∨ d.state = .off ∨ d.state = .fatal then .next s
  else if s.mgmt.monitorDie = die ∧ s.offline (otherDie die) then .fault .deviceStopped
  else
    let s := s.setDie die { d with state := .fatal, step := 3, fatalStart := true, placing := false, coresHalted := true }
    let s := if s.mgmt.monitorDie = die then ({ s with mgmt := { s.mgmt with callsCut := true } } : State).moveMonitor die else s
    let s := (s.failFlight die).cancelDie die
    let s := ((s.breakTimelines die).breakTokens die).logDie die 4
    .next s.refreshQueues

/-- FATAL_ERROR: an internal fault that a die's management interface reports (R379). -/
def execFatalError (die : Nat) (s : State) : Out := s.fatal die
/-- THERMAL_TRIP: a die passes its thermal trip (R389). -/
def execThermalTrip (die : Nat) (s : State) : Out := s.fatal die

/-! ## Soft errors (R363) -/

/-- The partition that owns a physical frame. -/
def State.frameOwner (s : State) (pa : Nat) : Option Nat := (s.parts.find? fun p => p.2.started && p.2.asn.grants (pa / 32 * 32) 32).map Prod.fst

/-- Change the strand of a wave: 0 access, 1 compute; 2 is the sequencer of the cluster with that number. -/
def State.updStrandOf (s : State) (wave strand : Nat) (f : Strand → Strand) : State :=
  match strand with
  | 0 => s.updWaveBy wave fun w => { w with acc := f w.acc }
  | 1 => s.updWaveBy wave fun w => { w with cmp := f w.cmp }
  | _ => s.updSeq wave fun q => { q with strand := f q.strand }

/-- Mark a bit of the marks of an entry. -/
def markIn (m : SMap W64) (k lane : Nat) : SMap W64 := SMap.upd 0#64 k (fun x => x ||| BitVec.twoPow 64 lane) m

/-- A queue entry's lane fails parity: queue codes 0 to 7 lq, 8 to 11 wq, 12 hq0, 13 hq1, from 16 the completion queues and from 32 the
command words of the engine queues (R12, R363). -/
def Wave.failParity (w : Wave) (code idx lane : Nat) : Wave :=
  let v := fun (es : List VEntry) => listUpd es idx fun e => { e with parityBad := e.parityBad ||| BitVec.twoPow 64 lane }
  let q := fun (es : List QEntry) => listUpd es idx fun e => { e with parityBad := true }
  if code < 8 then { w with lq := SMap.upd [] code v w.lq }
  else if code < 12 then { w with wq := SMap.upd [] (code - 8) v w.wq }
  else if code = 12 then { w with hq0 := q w.hq0 }
  else if code = 13 then { w with hq1 := q w.hq1 }
  else if code < 32 then { w with eqDone := SMap.upd [] (code - 16) q w.eqDone }
  else { w with eqCmd := SMap.upd [] (code - 32) q w.eqCmd }

/-- A word of the sequencer's mailbox fails parity: of the command words of a slot, or of its completions (R14, R363). -/
def Seq.failParity (q : Seq) (slot idx : Nat) (done : Bool) : Seq :=
  let bad := fun (es : List QEntry) => listUpd es idx fun e => { e with parityBad := true }
  if done then { q with doneQ := SMap.upd [] slot bad q.doneQ } else { q with cmdQ := SMap.upd [] slot bad q.cmdQ }

/-- Mark a control register of a strand, 0x020 for the mode word. -/
def Strand.markCtl (t : Strand) (n : Nat) : Strand := if t.ctlBad.contains n then t else { t with ctlBad := t.ctlBad ++ [n] }

/-- A granule homed on a die is marked poisoned, which is counted and logged (R363, R384, R391). -/
def State.poisonGranule (s : State) (die g : Nat) : State :=
  let s := { s with gPoison := SMap.put g true s.gPoison }
  match s.frameOwner (32 * g) with
  | some p => (s.logError p (LogEntry.device 3 die (32 * g))).bump p die 0x08 1
  | none => s

/-- The partition and die that an error concerns. Whose entry a translation cache has corrected, or whose a corrected tag of a home slice, the
directory or the scheduler is, is free among the partitions of the die. DESIGN CHOICE, safe (log entry 43). -/
def State.errOwner (s : State) (loc : ErrLoc) : Option (Nat × Nat) :=
  let ofWave := fun (w : Nat) =>
    if SMap.has s.units (w / 32) then let u := s.unit (w / 32); some (u.part, dieOfCluster u.cluster) else none
  let ofCluster := fun (c : Nat) => if c < Config.clusters then some ((s.cluster c).part, dieOfCluster c) else none
  let ofDie := fun (d : Nat) =>
    let ps := s.parts.filter fun p => p.2.started && p.2.asn.dies.contains d
    (ps[(Config.freeWord s.fresh 9).toNat % ps.length]?).map fun p => (p.1, d)
  match loc with
  | .scalar w st _ => if st < 2 then ofWave w else ofCluster w
  | .pred w st _ => if st < 2 then ofWave w else ofCluster w
  | .vector w _ _ => ofWave w
  | .address w _ _ => ofWave w
  | .queue w _ _ _ => ofWave w
  | .ctl w st _ => if st < 2 then ofWave w else ofCluster w
  | .mailbox c _ _ _ => ofCluster c
  | .creel c _ => ofCluster c
  | .acc c _ => ofCluster c
  | .granule pa => (s.frameOwner pa).map fun p => (p, (homeDie pa).getD 0)
  | .translation d => ofDie d
  | .logic d => ofDie d

/-- An error counts for the partition and die that it concerns, where there is one (R391). -/
def State.countError (s : State) (loc : ErrLoc) (src : Nat) : State :=
  match s.errOwner loc with
  | some (p, d) => s.bump p d src 1
  | none => s

/-- UNCORRECTABLE_ERROR: the granule is marked poisoned and counted, a translation entry is dropped and walked again, and an error of the
logic that holds a die together is fatal (R363, R391). s0 and p0 have no storage. A granule of flash or of host memory fails in the L2 of
the die that homes it (R17). DEDUCED, unsafe (log entry 19). -/
def execUncorrectableError (loc : ErrLoc) (s : State) : Out :=
  let mark := fun (x : State) => Host.Outcome.next (x.countError loc 0x08)
  match loc with
  | .scalar w st r =>
    if r = 0 ∨ 63 < r then .next s else mark (s.updStrandOf w st fun t => { t with sPoison := t.sPoison ||| BitVec.twoPow 64 r })
  | .pred w st r =>
    if r = 0 ∨ 15 < r then .next s else mark (s.updStrandOf w st fun t => { t with pPoison := t.pPoison ||| BitVec.twoPow 64 r })
  | .vector w r l => mark (s.updWaveBy w fun w => { w with vPoison := markIn w.vPoison (r % 256) (l % 64) })
  | .address w r l => mark (s.updWaveBy w fun w => { w with xPoison := markIn w.xPoison (r % 32) (l % 64) })
  | .queue w c i l => .next (s.updWaveBy w fun w => w.failParity c i (l % 64))
  | .ctl w st n => mark (s.updStrandOf w st fun t => t.markCtl n)
  | .mailbox c slot i done => .next (s.updSeq c fun q => q.failParity slot i done)
  | .creel c w =>
    if c < Config.clusters ∧ w < 1048576 then mark { s with creelPoison := SMap.put (1048576 * c + w) true s.creelPoison } else .next s
  | .acc c e => mark (s.updSeq c fun q => { q with accPoison := SMap.put e true q.accPoison })
  | .granule pa => .next (match homeDie pa with
    | some d => s.poisonGranule d (pa / 32)
    | none => s)
  | .translation _ => .next s
  | .logic d => s.fatal d

/-- CORRECTED_ERROR: the word is rewritten corrected and counted (R363, R391). -/
def execCorrectedError (loc : ErrLoc) (s : State) : Out :=
  .next (({ s with corrected := s.corrected + 1 } : State).countError loc 0x07)

/-! ## Links (R378) -/

/-- The flit that this step retries arrives: the link decides, so it is free. DESIGN CHOICE, safe (log entry 43). -/
def State.flitArrives (s : State) : Bool := Config.pick s.fresh 3200000 % 2 = 1

/-- FLIT_RETRY: a failed die-to-die flit is retried from the replay buffer; the retry fails again, or ends the run of failed ones. After 16
the link retrains instead. -/
def execFlitRetry (s : State) : Out :=
  .next (if s.links.training ∨ 16 ≤ s.links.retries then s
    else { s with links := { s.links with retries := if s.flitArrives then 0 else s.links.retries + 1 } })

/-- RETRAIN: after 16 consecutive failed retries the link retrains. -/
def execRetrain (s : State) : Out :=
  .next (if s.links.training ∨ s.links.retries < 16 then s else { s with links := { s.links with training := true } })

/-- LINK_RETRAINED: a retraining ends, in success or as a failed one; the third failed in a row is fatal to the die from which the
monitor is not running. -/
def execLinkRetrained (ok : Bool) (s : State) : Out :=
  let l := s.links
  if !l.training then .next s
  else if ok then .next { s with links := { l with training := false, retries := 0, failedTrainings := 0 } }
  else if l.failedTrainings + 1 < 3 then .next { s with links := { l with failedTrainings := l.failedTrainings + 1 } }
  else ({ s with links := { l with training := false, retries := 0, failedTrainings := 0 } } : State).fatal (otherDie s.mgmt.monitorDie)

/-- FEC_RETRY: a Viaro flit that FEC cannot correct is retried on its hop. -/
def execFecRetry (part fibre : Nat) (s : State) : Out :=
  .next (if (s.part part).asn.fibres.any fun f => f.1 == fibre then
    { s with links := { s.links with fecRetries := SMap.upd 0 fibre (fun n => n + 1) s.links.fecRetries } } else s)

/-- FIBRE_REMOVAL: a fibre that fails retraining leaves its partition's set. -/
def execFibreRemoval (part fibre : Nat) (s : State) : Out :=
  .next (if ((s.part part).asn.fibres.any fun f => f.1 == fibre) && !(s.part part).fibresOut.contains fibre then
    s.updPart part fun p => { p with fibresOut := p.fibresOut ++ [fibre] } else s)

/-! ## Warm reset (R383, R384) -/

/-- The units resident on a die. -/
def State.unitsOn (s : State) (die : Nat) : List Nat :=
  (s.units.filter fun e => e.2.life == .resident && dieOfCluster e.2.cluster == die).map Prod.fst

/-- Step 1: the die leaves placement and its units are asked to leave, to be saved with why = 3. The monitor moves off it first. -/
def State.beginReset (s : State) (die : Nat) : State :=
  let s := (s.moveMonitor die).setDie die { s.die die with step := 1, placing := false }
  ((s.unitsOn die).foldl (fun s u => s.request u (s.part (s.unit u).part).asn.deadline 3) s).refreshQueues

/-- A warm reset of a die can begin: it is live and so is the other, which runs on. -/
def State.mayReset (s : State) (die : Nat) : Bool :=
  decide (die < 2) && (s.die die).state == .live && (s.die die).step == 0 && (s.die (otherDie die)).state == .live
    && (s.die (otherDie die)).step == 0

/-- The first address of a die's HBM (R21). -/
def hbmBase (die : Nat) : Nat := die * 0x4000000000

/-- The ranges of 32-byte granules that a die homes: first granule and number (R17, R21). -/
def homedGranules (die : Nat) : List (Nat × Nat) :=
  (hbmBase die / 32, 0x200000000) :: if die = 0 then [(0x100000000000 / 32, 0x4000000000), (0x200000000000 / 32, 0x8000000000)] else []

/-- Step 4 of a reset that began with a fatal error: every granule of a line whose write-back fails is marked poisoned, and every granule
of a slice whose tags cannot be read. Which lines and slices these are is free; a line that holds nothing and that nothing has written is
not dirty (R384). DESIGN CHOICE, safe (log entry 43). -/
def State.failLines (s : State) (die : Nat) : State :=
  let homed := fun (a : Nat) => homeDie a == some die
  let dirty := (((s.mem.map Prod.fst) ++ (s.hist.filter fun r => r.span == 0).map WriteRec.loc).filter homed |>.map fun a => a / 128).eraseDups
  let failed := (dirty.filter fun l => Config.pick s.fresh (3000000 + l) % 2 == 1).flatMap fun l => (List.range 4).map fun i => 4 * l + i
  let slices := (List.range 32).filter fun k => Config.pick s.fresh (2900000 + k) % 2 == 1
  let lost := if slices.isEmpty then [] else
    (homedGranules die).flatMap fun r => ((List.range r.2).map fun i => r.1 + i).filter fun g => slices.contains (homeSlice (32 * g))
  (failed ++ lost.filter fun g => !failed.contains g).foldl (fun s g => s.poisonGranule die g) s

/-- Step 4: no private cache holds a copy of a line homed on the die any more (R386). -/
def State.writeBack (s : State) (die : Nat) : State :=
  let s := s.settleRange (hbmBase die) 0x4000000000 .all
  if die = 0 then (s.settleRange 0x100000000000 0x80000000000 .all).settleRange 0x200000000000 0x100000000000 .all else s

/-- Step 5: monitors armed at the die's home slices record a wake with cause 1, each by a courier message (R276, R391). -/
def State.wakeDie (s : State) (die : Nat) : State :=
  let homed := fun (w : Wave) => match w.acc.monitor with
    | some m => if homeDie (128 * m.line) = some die then [m.line] else []
    | none => []
  let lines := (s.waves.flatMap fun e => homed e.2) ++ s.units.flatMap fun u => u.2.image.flatMap homed
  let s := (s.armedOn settler lines).foldl (fun s m => s.bump m.1 die 0x09 1) s
  s.mapWaves fun _ w =>
    match w.acc.monitor with
    | some m => if homeDie (128 * m.line) = some die then
        { w with acc := { w.acc with monitor := some { m with wake := 1 } } } else w
    | none => w

/-- Step 6: the die's creels and accumulators are cleared while its compute die is held in reset. -/
def State.clearDie (s : State) (die : Nat) : State :=
  let on := fun (c : Nat) => dieOfCluster c == die
  { s with creel := s.creel.filter fun e => !on (e.1 / Config.creelBytes), full := s.full.filter fun e => !on (e.1 / 1048576),
           creelPoison := s.creelPoison.filter fun e => !on (e.1 / 1048576),
           clusters := SMap.mapVals (fun c (x : Cluster) => if on c then { x with seq := Seq.idle } else x) s.clusters }

/-- An access in flight to a die's home slices. -/
def State.flightTo (s : State) (die : Nat) : Bool := s.flight.any fun e => !e.2.creel && e.2.lanes.any fun l => homeDie l.loc == some die

/-- WARM_RESET: the warm reset of a die begins, or goes on to its next step once what that step waits for has happened. -/
def execWarmReset (die : Nat) (s : State) : Out :=
  let d := s.die die
  let go := fun (s : State) (n : Nat) => .next (s.setDie die { s.die die with step := n })
  match d.step with
  | 0 => .next (if s.mayReset die then s.beginReset die else s)
  | 1 => if (s.unitsOn die).isEmpty then .next (s.setDie die { d with step := 2, coresHalted := true }) else .next s
  | 2 => go s 3
  | 3 => if s.flightTo die then .next s else go ((if d.fatalStart then s.failLines die else s).writeBack die) 4
  | 4 => go (s.wakeDie die) 5
  | 5 => .next ((s.clearDie die).setDie die { d with step := 6, state := .reset })
  | 6 => go s 7
  | _ =>
    if d.state ≠ .reset then .next s
    else .next ((s.setDie die Die.running).refreshQueues.logDie die 5)

/-! ## Power (R389) -/

/-- POWER_CAP: drawn power or temperature has passed its cap; the die delays issue, which no result shows. -/
def execPowerCap (die : Nat) (s : State) : Out :=
  .next (if (s.die die).state = .live then s.setDie die { s.die die with capped := true } else s)
/-- POWER_BELOW_CAP: the die stops delaying issue. -/
def execPowerBelowCap (die : Nat) (s : State) : Out :=
  .next (if (s.die die).state = .live then s.setDie die { s.die die with capped := false } else s)

end Sys2Proof.Machine
end

