-- ==== Sys2Proof/Machine/Monitor.lean ====
section
/-! DEFINITION. Boot, partitions, monitor calls, the management mailbox and the event counters (R64 to R73, R333 to R349, R390 to
R392). What software on the general cores does besides is outside the machine. -/

namespace Sys2Proof.Machine

/-- The assignment records that a monitor image carries: its configuration, whose layout the manual does not give (R334, R347). -/
opaque bootRecords : List Byte → SMap Record
/-- The bytes of an assignment record, whose layout the manual does not give (R348). -/
opaque recordBytes : Record → List Byte

/-- Bytes of physical memory as system software reads them. -/
def State.phys (s : State) (pa n : Nat) : List Byte := (List.range n).map fun i => s.byteNow (pa + i)

/-! ## Signed images (R64 to R66, R73) -/

/-- A section header (R65). -/
structure Section where
  kind : Nat
  flags : Nat
  addr : Nat
  offset : Nat
  size : Nat
  align : Nat
  backings : Nat
  object : Nat
  link : Nat
  deriving DecidableEq, Repr

/-- Where section header `i` of a file stands. -/
def sectionAt (f : List Byte) (i : Nat) : Nat := fieldOf f 0x10 8 + 48 * i

/-- Section header `i` of a file. -/
def sectionOf (f : List Byte) (i : Nat) : Section :=
  let h := sectionAt f i
  ⟨fieldOf f (h + 4) 2, fieldOf f (h + 6) 2, fieldOf f (h + 8) 8, fieldOf f (h + 0x10) 8, fieldOf f (h + 0x18) 8, fieldOf f (h + 0x20) 1,
    fieldOf f (h + 0x21) 1, fieldOf f (h + 0x22) 2, fieldOf f (h + 0x24) 4⟩

/-- The section headers of a file. -/
def sectionsOf (f : List Byte) : List Section := (List.range (fieldOf f 0xC 2)).map (sectionOf f)

/-- A section's flags are those that its kind must carry; kinds 1 to 4 may add large pages (R66). -/
def Section.flagsOk (x : Section) : Bool :=
  let need := fun (n : Nat) (large : Bool) => x.flags == n || (large && x.flags == n + 8)
  match x.kind with
  | 0 => need 0 false
  | 1 => need 5 true
  | 2 => need 3 true
  | 3 => need 1 true
  | 4 => need 3 true
  | 5 => need 0 false
  | 6 => need 0 false
  | 7 => need 0 false
  | 8 => need 1 false
  | 9 => need 1 false
  | 10 => need 0 false
  | _ => false

/-- A section's alignment, backings, object and link keep their limits (R65). -/
def Section.limitsOk (x : Section) : Bool :=
  decide (x.align ≤ 21) && (x.kind != 1 || decide (2 ≤ x.align)) && ((x.kind != 8 && x.kind != 9) || decide (7 ≤ x.align))
    && (if x.flags.testBit 0 then decide (1 ≤ x.backings) && decide (x.backings ≤ 4) else x.backings == 0)
    && decide (x.object < 4096) && (x.kind == 7 || x.link == 0)

/-- The section headers are legal: header 0 is all zero, and every other one keeps the limits of its fields, with reserved fields 0. That a
limit of R65 other than a reserved field is tested at all is the model's choice. DESIGN CHOICE, unsafe (log entry 56). -/
def sectionsOk (f : List Byte) : Bool :=
  zeros f (sectionAt f 0) (sectionAt f 1)
    && (List.range (fieldOf f 0xC 2 - 1)).all fun i =>
      let x := sectionOf f (i + 1)
      x.flagsOk && x.limitsOk && zeros f (sectionAt f (i + 1) + 0x28) (sectionAt f (i + 2))

/-- The header of a type 3 file with its sections (R64, R66). Section indices at or above nsect, and a memsize that disagrees with the
sections, are no ground on which the manual has a file rejected: they are not tested. Nor is what the sections hold: relocation
entries, kernel descriptors and templates. DESIGN CHOICE, unsafe (log entry 56). -/
def hofOk (f : List Byte) : Bool :=
  fieldOf f 0 4 == 0x04464F48 && fieldOf f 4 2 == 1 && fieldOf f 6 2 == 3 && zeros f 8 0xC && decide (fieldOf f 0x1A 2 ≠ 0)
    && zeros f 0x1C 0x20 && zeros f 0x38 0x40 && fieldOf f 0x10 8 % 8 == 0 && sectionsOk f

/-- The signature section of a file. -/
def sigSection (f : List Byte) : Section := sectionOf f (fieldOf f 0x1A 2)

/-- The digest of an image: over its bytes below the signature section (R73). -/
def imageDigest (f : List Byte) : List Byte := Config.sha3 (f.take (sigSection f).offset)

/-- A verifier accepts a signed image under one of the keys it trusts (R73). Beside its four conditions the section's version, its siglen,
its reserved field and its end at the file's end reject a file; a second signature section, offsets that do not point below the signature
section, and the size in the section's header are not tested. DESIGN CHOICE, unsafe (log entry 56). -/
def signedBy (keys : List (List Byte)) (f : List Byte) : Bool :=
  let o := (sigSection f).offset
  hofOk f && (sigSection f).kind == 10 && o + 4707 == f.length && fieldOf f 0x30 8 == f.length && fieldOf f o 4 == 1
    && fieldOf f (o + 8) 4 == 4627 && zeros f (o + 0xC) (o + 0x10) && (f.drop (o + 0x10)).take 64 == imageDigest f
    && keys.any fun k => (Config.sha3 k).take 4 == (f.drop (o + 4)).take 4
      && Config.mldsaVerify k (imageDigest f) ((f.drop (o + 0x50)).take 4627)

/-! ## Boot (R345, R346) -/

/-- The boot directory's place: offset 0 of module flash. -/
def flashBase : Nat := 0x100000000000

/-- The keys of the directory that the ROM trusts. -/
def State.bootKeys (s : State) : List (List Byte) :=
  ((List.range (fieldOf (s.phys flashBase 8) 4 4)).filterMap fun i =>
    let k := s.phys (flashBase + 0x1000 + 0xC00 * i) 2592
    if Config.sha3 k = Config.fuseDigest i ∧ Config.fuseRevoked.getLsbD i = false then some k else none)

/-- The image at an offset of flash is accepted: it verifies, and its memory lies in die 0 HBM (R346). That its base is a multiple of 2 MiB and
its sections start on page boundaries (R70) is not tested. DESIGN CHOICE, unsafe (log entry 56). -/
def State.bootImageOk (s : State) (off size : Nat) : Bool :=
  let f := s.phys (flashBase + off) size
  signedBy s.bootKeys f && decide (0 < fieldOf f 0x28 8) && decide (fieldOf f 0x20 8 + fieldOf f 0x28 8 ≤ 0x004000000000)

/-- Place the allocated sections of an image at their addresses. -/
def State.loadImage (s : State) (f : List Byte) : State :=
  ((sectionsOf f).filter fun x => x.flags.testBit 0).foldl (fun s x =>
    let bs := if x.kind = 4 then [] else (f.drop x.offset).take x.size
    s.agentWrite [] x.addr (bs ++ List.replicate (x.size - bs.length) 0#8)) s

/-- Start the monitor from an accepted image, 1 A, 2 B, with the dies that are held in reset out of it; it writes its standby copy (R346,
R380). -/
def State.bootFrom (s : State) (off size which : Nat) : State :=
  let f := s.phys (flashBase + off) size
  let s := s.loadImage f
  let release := fun (s : State) (d : Nat) => if (s.die d).state = .reset then s.setDie d Die.running else s
  let s := release (release s 0) 1
  { s with mgmt := { s.mgmt with booted := true, bootImage := which, bootDigest := imageDigest f, records := bootRecords f,
                                 standby := ⟨which, imageDigest f, bootRecords f, []⟩ } }

/-- BOOT: the ROM of die 0 verifies image A, then image B; if both fail the compute dies stay in reset and the failure is reported
(R346). -/
def execBoot (s : State) : Out :=
  if s.mgmt.booted ∨ s.mgmt.bootFailed then .next s
  else
    let d := s.phys flashBase 0x28
    let ok := fieldOf d 0 4 == 0x31444248 && decide (1 ≤ fieldOf d 4 4) && decide (fieldOf d 4 4 ≤ 4)
    let a := (fieldOf d 8 8, fieldOf d 0x10 8)
    let b := (fieldOf d 0x18 8, fieldOf d 0x20 8)
    .next (if ok && s.bootImageOk a.1 a.2 then s.bootFrom a.1 a.2 1
      else if ok && b.1 != 0 && s.bootImageOk b.1 b.2 then s.bootFrom b.1 b.2 2
      else { s with mgmt := { s.mgmt with bootFailed := true } })

/-! ## Partitions (R334, R335, R347) -/

/-- The partition as it starts on its record: timelines, counters and its cycle count are 0. -/
def Record.start (r : Record) (cycle : Nat) (digest : List Byte) : Partition :=
  { Partition.idle with
    started := true, asn := r, startCycle := cycle, digest := digest, spillFree := r.spill, migPool := r.migPool,
    groups := r.groups.foldl (fun m g => SMap.put g.1 ⟨g.2.1, g.2.2, g.2.1.map fun _ => true, 0#8, []⟩ m) [],
    kv := (List.range r.pools.length).foldl (fun m d => SMap.put d (r.pools.getD d ⟨[], 0, 0, 0⟩) m) [],
    counterPages := r.dies.foldl (fun m d => SMap.put d CounterPage.zero m) [] }

/-- Two ranges of an address and a size overlap. -/
def overlap (a b : Nat × Nat) : Bool := decide (a.1 < b.1 + b.2) && decide (b.1 < a.1 + a.2)

/-- The partitions that may share a frame by a record. -/
def Record.sharers (r : Record) (frame : Nat) : List Nat := ((r.shared.find? fun e => e.1 == frame).map Prod.snd).getD []

/-- The records of partitions `p` and `q` name a resource that only one of them may hold (R334). -/
def Record.clash (r : Record) (p : Nat) (o : Record) (q : Nat) : Bool :=
  r.cores.any o.cores.contains
    || r.frames.any (fun f => o.frames.contains f && !((r.sharers f).contains q && (o.sharers f).contains p))
    || r.flashRanges.any (fun g => o.flashRanges.any (overlap g)) || r.fibres.any (fun f => o.fibres.any fun g => f.1 == g.1)
    || (r.vf != 0 && r.vf == o.vf)

/-- What a record takes from the partition's own grant lies in it: the frames of the migration pool and of the key-value pools, the frames of
the waystation region, and the spill slots; and it has a cluster on every die that it names (R306, R334). -/
def Record.ownGrant (r : Record) : Bool :=
  let own := fun (frame : Nat) => r.frames.contains (frame / 32)
  r.migPool.all own && r.pools.all (fun p => p.free.all own) && r.wayFrames.all (fun f => r.frames.contains f && (homeDie (2097152 * f)).isSome)
    && decide (r.wayBytes ≤ 2097152 * r.wayFrames.length)
    && r.spill.all (fun k => rangesCover r.flashRanges r.flashRanges.length (65536 * k) (65536 * k + 65536))
    && r.dies.all fun d => r.clusters.any fun c => dieOfCluster c.1 == d

/-- What a record's numbers may be: a group is numbered 0 to 255 and has 1 to 128 members (R284), the log ring has a power of two of entries
from 16 to 65,536 (R359), the deadline is 1,100 to 1,100,000 cycles (R366), spaces are below 4,096 and clusters are the device's (R334). -/
def Record.inLimits (r : Record) : Bool :=
  (r.groups.all fun g => decide (g.1 ≤ 255) && decide (1 ≤ g.2.1.length) && decide (g.2.1.length ≤ 128))
    && (r.logRing.all fun g => (List.range 13).any fun i => g.2 == 2 ^ (i + 4))
    && decide (1100 ≤ r.deadline) && decide (r.deadline ≤ 1100000)
    && (r.spaces.all fun a => decide (a.1 < 4096)) && r.clusters.all fun c => decide (c.1 < Config.clusters)

/-- A record can be carried out: its numbers keep their limits, it holds a general core and at most one virtual function, what it takes from
its own grant lies there, and every resource that belongs to one partition at a time is free (R275, R333, R334). The frames of the standby
copy are granted to no partition (R380). -/
def State.recordFree (s : State) (part : Nat) (r : Record) : Bool :=
  !r.cores.isEmpty && r.inLimits && r.ownGrant && decide (r.vf ≤ 15) && (r.clusters.all fun c => (s.cluster c.1).part == 32)
    && (r.spaces.all fun a => (s.space a.1).part == 32) && !r.frames.any Config.standbyFrame
    && s.parts.all fun p => !p.2.started || p.1 == part || !r.clash part p.2.asn p.1

/-- Give a record's clusters and spaces to a partition. -/
def State.assign (s : State) (part : Nat) (r : Record) : State :=
  let s := r.clusters.foldl (fun s c => s.setCluster c.1 { Cluster.idle with part := part, decode := c.2 }) s
  r.spaces.foldl (fun s a => s.setSpace a.1 ⟨part, a.2, 0#16, []⟩) s

/-- The monitor writes to its standby copy which partitions run (R380). -/
def State.keepStandby (s : State) (f : List Nat → List Nat) : State :=
  { s with mgmt := { s.mgmt with standby := { s.mgmt.standby with started := f s.mgmt.standby.started } } }

/-- PARTITION_START: the monitor starts a partition from the signed image at a physical address, if it verifies against an owner key
of its record (R347). The file's own filesize field says how long it is. DESIGN CHOICE, unsafe (log entries 42 and 56). -/
def execPartitionStart (part image : Nat) (s : State) : Out :=
  let r := SMap.get Record.empty s.mgmt.records part
  if !s.mgmt.booted ∨ 31 < part ∨ (s.part part).started ∨ !SMap.has s.mgmt.records part ∨ !s.recordFree part r then .next s
  else
    let f := s.phys image (fieldOf (s.phys image 64) 0x30 8)
    if signedBy r.owners f then .next (((s.assign part r).setPart part (r.start s.cycle (imageDigest f))).keepStandby fun l => l ++ [part])
    else .next { s with mgmt := { s.mgmt with refusedImages := s.mgmt.refusedImages + 1 } }

/-- Every byte of a range becomes 0, which every agent sees; the counts of atomics on its pages go with it (R184, R335).
DEDUCED, unsafe (log entry 18). -/
def State.scrub (s : State) (pa n : Nat) : State :=
  let time := s.now + 1
  let span : WriteRec := ⟨time, s.cycle, 0, pa, n, .all, 0#8, []⟩
  { s with mem := s.mem.filter fun e => decide (e.1 < pa) || decide (pa + n ≤ e.1),
           gPoison := s.gPoison.filter fun e => decide (e.1 < pa / 32) || decide ((pa + n) / 32 ≤ e.1),
           atomCounts := s.atomCounts.filter fun e => decide (e.1 / 32 * 65536 < pa) || decide (pa + n ≤ e.1 / 32 * 65536), now := time, hist := span :: s.hist }

/-- Cancel everything of a partition and disarm its triggers; a send that has fired completes (R283). -/
def State.cancelPart (s : State) (part : Nat) : State :=
  let s := ((s.part part).graphs.map Prod.fst).foldl (fun s g => s.cancelGraph part g) s
  let s := s.cancelLaunches part ((s.part part).launches.map Prod.fst)
  { s with triggers := s.triggers.filter fun e => e.2.part != part || e.2.fired, colls := s.colls.filter fun e => e.2.part != part,
           cancels := s.cancels.filter fun c => c.part != part }

/-- The frames of a partition that no other one holds: those that are scrubbed when it ends (R335). -/
def State.lastHeld (s : State) (part : Nat) : List Nat :=
  (s.part part).asn.frames.filter fun f => !s.parts.any fun p => p.1 != part && p.2.started && p.2.asn.frames.contains f

/-- Scrub what a partition held: frames that no other holds, flash, clusters and creels. -/
def State.scrubPart (s : State) (part : Nat) : State :=
  let r := (s.part part).asn
  let s := (s.lastHeld part).foldl (fun s f => s.scrub (2097152 * f) 2097152) s
  let s := r.flashRanges.foldl (fun s g => s.scrub g.1 g.2) s
  r.clusters.foldl (fun s c => (s.zeroCreel c.1 0 Config.creelBytes).setCluster c.1 Cluster.idle) s

/-- A die that is off line, so that a frame of it that the partition must give back cannot be scrubbed. -/
def State.scrubFails (s : State) (part : Nat) : Option Nat :=
  (s.lastHeld part).findSome? fun f => (homeDie (2097152 * f)).bind fun d => if s.offline d then some d else none

/-- PARTITION_TEARDOWN: the monitor cancels every unit of a partition, and once nothing of it is in flight, nor any send that has fired,
scrubs its resources, commits a change to its spaces, and takes them back (R335). A scrub that an off-line die prevents is logged as
failed, and is to be made again (R360). DESIGN CHOICE, unsafe (log entry 42). -/
def execPartitionTeardown (part : Nat) (s : State) : Out :=
  let p := s.part part
  if !p.started then .next s
  else
    let s := s.cancelPart part
    if s.flight.any (fun e => e.2.part == part) || s.triggers.any (fun e => e.2.part == part) then .next s
    else match s.scrubFails part with
    | some d => .next (s.logError part (LogEntry.device 7 d 0))
    | none =>
      let s := s.scrubPart part
      let s := p.asn.spaces.foldl (fun s a => s.setSpace a.1 { Space.none with gen := (s.space a.1).gen + 1#16 }) s
      let s := { s with weaves := s.weaves.filter (fun w => w.2.part != part), debug := SMap.del s.debug part }
      .next ((s.setPart part Partition.idle).keepStandby fun l => l.filter fun q => q != part)

/-! ## Monitor calls (R341, R343, R344, R348) -/

/-- A monitor call returns an error code and a value. -/
def State.callRet (s : State) (err : Nat) (val : W64) : State := { s with mgmt := { s.mgmt with callError := err, callValue := val } }

/-- A partition that runs calls the monitor; no other may. After a fatal error of the monitor's die a call may be one that was in progress
there, which returns busy and has no effect (R343, R380). DESIGN CHOICE, safe (log entry 43). -/
def State.call (s : State) (part : Nat) (k : State) : Out :=
  .next (if s.mgmt.booted ∧ (s.part part).started then
      (if s.mgmt.callsCut && Config.pick s.fresh 3100000 % 2 == 1 then s.callRet 3 0#64 else k)
    else s.callRet 1 0#64)

/-- A commit touches a page that is, or was at its last change, homed on a die that is off line: it waits until the die is back
(R384). -/
def State.commitWaits (s : State) (part space va pages : Nat) : Bool :=
  (List.range 2).any s.offline && (List.range pages).any fun i =>
    let a := va + 65536 * i
    [(s.space space).changedAt a, s.now].any fun time => match s.walkBy (s.entryAt time) part space a with
      | .ok l => (match homeDie l.frame with
        | some d => s.offline d
        | none => false)
      | .error _ => false

/-- The 64 KiB pieces of the pages that a commit changes: a 2 MiB page that the range touches changes as a whole, by the entry before the
commit or by the one after it (R340, R341). -/
def State.commitPages (s : State) (part space va pages : Nat) : List Nat :=
  ((List.range pages).flatMap fun i =>
    let a := va + 65536 * i
    (a / 65536) :: [(s.space space).changedAt a, s.now].flatMap fun time => match s.walkBy (s.entryAt time) part space a with
      | .ok l => l.pages a
      | .error _ => []).eraseDups

/-- SPACE_COMMIT: the entries in memory of a range take effect in one step, as a translation change; while it must
wait the call returns busy (R209, R210, R341, R384). DEDUCED, unsafe (log entry 39). -/
def execSpaceCommit (part space va pages : Nat) (s : State) : Out :=
  s.call part <|
    if (s.space space).part ≠ part then s.callRet 1 0#64
    else if va % 65536 ≠ 0 ∨ pages = 0 ∨ 2 ^ 24 < pages ∨ 2 ^ 56 < va + 65536 * pages then s.callRet 2 0#64
    else if s.genBusy space || s.commitWaits part space va pages then s.callRet 3 0#64
    else
      let s := s.bumpGen space (s.commitPages part space va pages)
      s.callRet 0 (zext64 (s.space space).gen)

/-- A queue descriptor obeys R344. -/
def queueDescOk (b : List Byte) : Bool :=
  let irq := fieldOf b 0x28 2
  fieldOf b 0 8 % 64 == 0 && isPow2 (fieldOf b 8 4) && decide (16 ≤ fieldOf b 8 4) && decide (fieldOf b 8 4 ≤ 65536)
    && decide (fieldOf b 0xC 1 ≤ 7) && decide (1 ≤ fieldOf b 0xD 1) && decide (fieldOf b 0xD 1 ≤ 3) && bitsOf irq 14 5 == 0
    && zeros b 0x2A 0x40

/-- The general core that a descriptor names for interrupts is held (R343, R344). -/
def queueCoreOk (r : Record) (b : List Byte) : Bool :=
  let irq := fieldOf b 0x28 2
  !irq.testBit 15 || r.cores.contains (irq % 32)

/-- QUEUE_SET: loads a queue descriptor and starts the queue. A descriptor, space or core that the partition does not hold is not
permitted. A queue that was set before keeps its phase and its jobs, and its ageing interval begins. DESIGN CHOICE, unsafe (log
entry 25). -/
def execQueueSet (part queue addr : Nat) (s : State) : Out :=
  s.call part <|
    let p := s.part part
    let b := s.phys addr 64
    if 255 < queue then s.callRet 1 0#64
    else if addr % 64 ≠ 0 then s.callRet 2 0#64
    else if !p.asn.grants addr 64 then s.callRet 1 0#64
    else if !queueDescOk b then s.callRet 2 0#64
    else if (s.space (fieldOf b 0xE 2)).part ≠ part ∨ !queueCoreOk p.asn b then s.callRet 1 0#64
    else
      let irq := fieldOf b 0x28 2
      let s := s.updQueue part queue fun x =>
        { x with set := true, desc := addr, space := fieldOf b 0xE 2, ring := fieldOf b 0 8, entries := fieldOf b 8 4, base := fieldOf b 0xC 1,
                 affinity := fieldOf b 0xD 1, head := fieldOf b 0x10 8, age := 0, ageFrom := s.cycle, noDie := false,
                 irqCore := if irq.testBit 15 then some (irq % 32) else none }
      ((s.queueStatus part queue 0).refreshQueue part queue).callRet 0 0#64

/-- QUEUE_STOP: the queue reads no more packets; what has started runs on. -/
def execQueueStop (part queue : Nat) (s : State) : Out :=
  s.call part (if ((s.part part).queue queue).set then (s.queueStatus part queue 3).callRet 0 0#64 else s.callRet 1 0#64)

/-- TIMELINE_SET: sets a timeline, backward moves included, and makes a broken one whole (R265, R382). -/
def execTimelineSet (part timeline : Nat) (x : W64) (s : State) : Out :=
  s.call part <|
    if 511 < timeline then s.callRet 2 0#64
    else
      let old := ((s.part part).timeline timeline).value
      (s.updTimeline part timeline fun t => { t with value := x, dies := [], broken := false }).callRet 0 old

/-- ARB_READMIT: marks a device live again in a group (R296). -/
def execArbReadmit (part group dev : Nat) (s : State) : Out :=
  s.call part <|
    let g := (s.part part).group group
    let r := g.members.idxOf dev
    if !SMap.has (s.part part).groups group then s.callRet 1 0#64
    else if g.members.length ≤ r then s.callRet 2 0#64
    else (s.updGroup part group fun g => { g with live := listSet g.live r true }).callRet 0 0#64

/-- The report of ATTEST without its signature. -/
def State.report (s : State) (part : Nat) (nonce : List Byte) : List Byte :=
  let p := s.part part
  let fit := fun (n : Nat) (l : List Byte) => (List.range n).map fun i => l.getD i 0#8
  leBytes 4 1 ++ leBytes 4 part ++ fit 64 nonce ++ fit 64 s.mgmt.bootDigest ++ fit 64 p.digest ++ fit 64 (Config.sha3 (recordBytes p.asn))
    ++ leBytes 8 Config.serial.toNat ++ leBytes 1 Config.fuseRevoked.toNat ++ leBytes 7 0 ++ leBytes 8 (s.cycle - p.startCycle)

/-- ATTEST: writes a report for a nonce, signed with the identity key that comes from the fused seed; busy while die 0 is not live (R348,
R380). -/
def execAttest (part nonce report : Nat) (s : State) : Out :=
  s.call part <|
    let p := s.part part
    if (s.die 0).state ≠ .live ∨ s.offline 0 then s.callRet 3 0#64
    else if !p.asn.grants nonce 64 ∨ !p.asn.grants report 4915 then s.callRet 1 0#64
    else
      let b := s.report part (s.phys nonce 64)
      let sig := Config.mldsaSign (Config.mldsaKeys Config.identitySeed).1 (Config.sha3 b)
      (s.agentWrite [] report (b ++ (List.range 4627).map fun i => sig.getD i 0#8)).callRet 0 (BitVec.ofNat 64 4915)

/-! ## The management mailbox (R390)

The monitor writes an argument and a command; the controller carries the command out later and then clears the command word. A command's
form is both: with no command in progress it is the monitor's write, and where its own command is in progress and the argument, as it stands
then, says to the controller what the form says, it is the controller's answer. Otherwise it is a write of which the argument stands and the
command is discarded. -/

/-- A management command: it is written where none is in progress, is carried out where it is the one in progress, on the argument as that
stands then, and otherwise only its argument is written. `form` admits the arguments that ask for this form of the command.
DESIGN CHOICE, unsafe (log entry 40). -/
def State.mailbox (s : State) (cmd : Nat) (arg : W64) (form : W64 → Bool) (k : Out) : Out :=
  if s.mgmt.command = 0#64 then .next { s with mgmt := { s.mgmt with argument := arg, command := BitVec.ofNat 64 cmd } }
  else if s.mgmt.command = BitVec.ofNat 64 cmd ∧ form s.mgmt.argument = true then k
  else .next { s with mgmt := { s.mgmt with argument := arg } }

/-- The controller answers: the result, and then 0 in the command word. -/
def State.mgmtRet (s : State) (x : W64) : Out := .next { s with mgmt := { s.mgmt with result := x, command := 0#64 } }

/-- The address of the telemetry record: in the mailbox's page, past its words; where, the manual does not give.
DESIGN CHOICE, safe (log entry 40). -/
def telemetryAddress : W64 := BitVec.ofNat 64 (4096 * Config.mailboxPage + 0x18 + Config.telemetryAt % (4096 - 0x18 - 256 + 1))

/-- The telemetry record takes new values, which are free. -/
def State.newTelemetry (s : State) : State :=
  { s with mgmt := { s.mgmt with telemetry := (List.range 256).map (Config.telemetryByte s.fresh), telemetryCycle := s.cycle } }

/-- TELEMETRY: the address in the mailbox page of the telemetry record, which has been filled; whatever the argument. -/
def execTelemetry (s : State) : Out :=
  s.mailbox 1 0#64 (fun _ => true) ((if s.mgmt.telemetry.isEmpty then s.newTelemetry else s).mgmtRet telemetryAddress)

/-- TELEMETRY_REFRESH: every 1,100,000 cycles the record takes new values. -/
def execTelemetryRefresh (s : State) : Out :=
  if s.cycle < s.mgmt.telemetryCycle + 1100000 ∧ !s.mgmt.telemetry.isEmpty then .next s
  else .next s.newTelemetry

/-- SETCAP: 600 to 2,400 watts. -/
def execSetcap (watts : Nat) (s : State) : Out :=
  s.mailbox 2 (BitVec.ofNat 64 watts) (· == BitVec.ofNat 64 watts)
    (let watts := s.mgmt.argument.toNat
     if 600 ≤ watts ∧ watts ≤ 2400 then ({ s with mgmt := { s.mgmt with cap := watts } } : State).mgmtRet 0#64 else s.mgmtRet 1#64)

/-- The answer of DIERESET about a die: 0 live, 1 in reset, 2 fatal; of a die that is off the manual gives none.
DESIGN CHOICE, unsafe (log entry 40). -/
def State.dieStatus (s : State) (die : Nat) : W64 :=
  match (s.die die).state with
  | .live => if (s.die die).step = 0 then 0#64 else 1#64
  | .reset => 1#64
  | .fatal => 2#64
  | .off => Config.freeWord s.fresh 3

/-- An argument of DIERESET names a die in bit 0 and says in bit 8 whether to begin; its other bits say nothing (R390). -/
def dieresetSays (die : Nat) (begins : Bool) (x : W64) : Bool := (x.getLsbD 0 == decide (die % 2 = 1)) && (x.getLsbD 8 == begins)

/-- DIERESET with bit 8 set: begins the warm reset of a live die. -/
def execDieresetBegin (die : Nat) (s : State) : Out :=
  s.mailbox 3 (BitVec.ofNat 64 (die % 2 + 0x100)) (dieresetSays die true)
    (if s.mayReset (die % 2) then (s.beginReset (die % 2)).mgmtRet 0#64 else s.mgmtRet (s.dieStatus (die % 2)))

/-- DIERESET with bit 8 clear: a query. -/
def execDieresetQuery (die : Nat) (s : State) : Out :=
  s.mailbox 3 (BitVec.ofNat 64 (die % 2)) (dieresetSays die false) (s.mgmtRet (s.dieStatus (die % 2)))

/-- A die holds granted resources: a started partition has it, a cluster, a core or a frame of it (R334, R390). -/
def State.dieHeld (s : State) (die : Nat) : Bool :=
  s.parts.any fun p => p.2.started && p.2.asn.onDie die

/-- DIEOFF: powers a die down that holds nothing; its HBM contents are lost (R389). The die from which the monitor runs leaves the monitor
to the other, and where there is none the device stops. DESIGN CHOICE, unsafe (log entry 40). -/
def execDieoff (die : Nat) (s : State) : Out :=
  s.mailbox 4 (BitVec.ofNat 64 die) (· == BitVec.ofNat 64 die)
    (let die := s.mgmt.argument.toNat
     if s.dieHeld die ∨ 1 < die then s.mgmtRet 1#64
     else if s.mgmt.monitorDie = die ∧ s.offline (otherDie die) then .fault .deviceStopped
     else
       let s := (s.moveMonitor die).setDie die { Die.atReset with state := .off }
       let s := { s with mem := s.mem.filter fun e => paKind e.1 != PaKind.hbm die }
       (s.refreshQueues).mgmtRet 0#64)

/-- BOOTSTAT: which image the ROM accepted; whatever the argument. -/
def execBootstat (s : State) : Out := s.mailbox 5 0#64 (fun _ => true) (s.mgmtRet (BitVec.ofNat 64 s.mgmt.bootImage))

/-! ## Event counters (R391, R392) -/

/-- Change the counter page of a partition and die, where it has one. -/
def State.updCounters (s : State) (part die : Nat) (f : CounterPage → CounterPage) : State :=
  match SMap.find (s.part part).counterPages die with
  | none => s
  | some c => s.updPart part fun p => { p with counterPages := SMap.put die (f c) p.counterPages }

/-- SELECT: a write of a select word, whose reserved bits are stored as 0, sets its counter to 0 in the same step.
DESIGN CHOICE, safe (log entry 41). -/
def execSelect (part die i : Nat) (x : W64) (s : State) : Out :=
  if 15 < i then .next s
  else .next (s.updCounters part die fun c =>
    { c with sel := SMap.put i (x &&& 0x80000000000000FF#64) c.sel, val := SMap.put i 0#64 c.val })

/-- VALUE: a write of a counter's value sets it. -/
def execValue (part die i : Nat) (x : W64) (s : State) : Out :=
  if 15 < i then .next s else .next (s.updCounters part die fun c => { c with val := SMap.put i x c.val })

/-- FREEZE: a write of the freeze word freezes or thaws all 16 counters in one step; only bit 0 is kept, the others read 0 (R3). -/
def execFreeze (part die : Nat) (x : W64) (s : State) : Out := .next (s.updCounters part die fun c => { c with freeze := x &&& 1#64 })

/-- The counters of a page over `n` cycles: source 1 counts them; how many of the events of sources 4, 5 and, while the die is capped, 13
occurred, which the manual makes a matter of time, is free; 4 and 13 count cycles, of which no more than these have passed.
DESIGN CHOICE, safe (log entry 41). -/
def CounterPage.elapse (c : CounterPage) (capped : Bool) (fresh n : Nat) : CounterPage :=
  let free := fun (src : Nat) => Config.pick fresh (4000000 + src)
  let c := ((c.add 0x01 n).add 0x04 (free 4 % (n + 1))).add 0x05 (free 5)
  if capped then c.add 0x0D (free 13 % (n + 1)) else c

/-- `n` cycles pass on every counter page (R391). -/
def State.tickCounters (s : State) (n : Nat) : State :=
  { s with parts := SMap.mapVals (fun _ (p : Partition) =>
      { p with counterPages := SMap.mapVals (fun d c => c.elapse (s.die d).capped s.fresh n) p.counterPages }) s.parts }

end Sys2Proof.Machine
end

