-- ==== Sys2Proof/Machine/Dispatch.lean ====
section
/-! DEFINITION. One arm for each instruction: a direct call of its meaning. -/

namespace Sys2Proof.Machine

/-- What instruction `i` does at state `s`. -/
def exec (i : Instr) (s : State) : Host.Outcome State Fault Refusal :=
  match i with
  | .add w d a b => Sys2Proof.Machine.execAdd w d a b s
  | .sub w d a b => Sys2Proof.Machine.execSub w d a b s
  | .mul w d a b => Sys2Proof.Machine.execMul w d a b s
  | .mulh w d a b => Sys2Proof.Machine.execMulh w d a b s
  | .mulhu w d a b => Sys2Proof.Machine.execMulhu w d a b s
  | .and w d a b => Sys2Proof.Machine.execAnd w d a b s
  | .or w d a b => Sys2Proof.Machine.execOr w d a b s
  | .xor w d a b => Sys2Proof.Machine.execXor w d a b s
  | .sll w d a b => Sys2Proof.Machine.execSll w d a b s
  | .srl w d a b => Sys2Proof.Machine.execSrl w d a b s
  | .sra w d a b => Sys2Proof.Machine.execSra w d a b s
  | .slt w d a b => Sys2Proof.Machine.execSlt w d a b s
  | .sltu w d a b => Sys2Proof.Machine.execSltu w d a b s
  | .div w d a b => Sys2Proof.Machine.execDiv w d a b s
  | .divu w d a b => Sys2Proof.Machine.execDivu w d a b s
  | .rem w d a b => Sys2Proof.Machine.execRem w d a b s
  | .addi w d n0 => Sys2Proof.Machine.execAddi w d n0 s
  | .movi w d n0 => Sys2Proof.Machine.execMovi w d n0 s
  | .orhi w d n0 => Sys2Proof.Machine.execOrhi w d n0 s
  | .andi w d n0 => Sys2Proof.Machine.execAndi w d n0 s
  | .remu w d n0 => Sys2Proof.Machine.execRemu w d n0 s
  | .sunClz w d a => Sys2Proof.Machine.execSunClz w d a s
  | .sunCtz w d a => Sys2Proof.Machine.execSunCtz w d a s
  | .sunPopc w d a => Sys2Proof.Machine.execSunPopc w d a s
  | .sunSext8 w d a => Sys2Proof.Machine.execSunSext8 w d a s
  | .sunSext16 w d a => Sys2Proof.Machine.execSunSext16 w d a s
  | .sunSext32 w d a => Sys2Proof.Machine.execSunSext32 w d a s
  | .sunZext8 w d a => Sys2Proof.Machine.execSunZext8 w d a s
  | .sunZext16 w d a => Sys2Proof.Machine.execSunZext16 w d a s
  | .sunZext32 w d a => Sys2Proof.Machine.execSunZext32 w d a s
  | .sunNeg w d a => Sys2Proof.Machine.execSunNeg w d a s
  | .sunNot w d a => Sys2Proof.Machine.execSunNot w d a s
  | .beq w a b f => Sys2Proof.Machine.execBeq w a b f s
  | .bne w a b f => Sys2Proof.Machine.execBne w a b f s
  | .blt w a b f => Sys2Proof.Machine.execBlt w a b f s
  | .bge w a b f => Sys2Proof.Machine.execBge w a b f s
  | .bltu w a b f => Sys2Proof.Machine.execBltu w a b f s
  | .bgeu w a b f => Sys2Proof.Machine.execBgeu w a b f s
  | .loop w a k f => Sys2Proof.Machine.execLoop w a k f s
  | .jmp w f => Sys2Proof.Machine.execJmp w f s
  | .call w f => Sys2Proof.Machine.execCall w f s
  | .jr w d a => Sys2Proof.Machine.execJr w d a s
  | .mode w n0 => Sys2Proof.Machine.execMode w n0 s
  | .sysNop w => Sys2Proof.Machine.execSysNop w s
  | .sysTrap w n0 => Sys2Proof.Machine.execSysTrap w n0 s
  | .sysRet w => Sys2Proof.Machine.execSysRet w s
  | .sysCsrr w r c => Sys2Proof.Machine.execSysCsrr w r c s
  | .sysCsrw w r c => Sys2Proof.Machine.execSysCsrw w r c s
  | .sysCsrs w r c => Sys2Proof.Machine.execSysCsrs w r c s
  | .sysCsrc w r c => Sys2Proof.Machine.execSysCsrc w r c s
  | .sysYield w => Sys2Proof.Machine.execSysYield w s
  | .xadd w d a b => Sys2Proof.Machine.execXadd w d a b s
  | .xaddsc w d a b => Sys2Proof.Machine.execXaddsc w d a b s
  | .xmulsc w d a b => Sys2Proof.Machine.execXmulsc w d a b s
  | .xshl w d a b => Sys2Proof.Machine.execXshl w d a b s
  | .xiota w d a b => Sys2Proof.Machine.execXiota w d a b s
  | .xcmpEq w p a b => Sys2Proof.Machine.execXcmpEq w p a b s
  | .xcmpNe w p a b => Sys2Proof.Machine.execXcmpNe w p a b s
  | .xcmpLt w p a b => Sys2Proof.Machine.execXcmpLt w p a b s
  | .xcmpGe w p a b => Sys2Proof.Machine.execXcmpGe w p a b s
  | .xcmpLtu w p a b => Sys2Proof.Machine.execXcmpLtu w p a b s
  | .xcmpGeu w p a b => Sys2Proof.Machine.execXcmpGeu w p a b s
  | .vadd w d a b => Sys2Proof.Machine.execVadd w d a b s
  | .vsub w d a b => Sys2Proof.Machine.execVsub w d a b s
  | .vmul w d a b => Sys2Proof.Machine.execVmul w d a b s
  | .vmulh w d a b => Sys2Proof.Machine.execVmulh w d a b s
  | .vmin w d a b => Sys2Proof.Machine.execVmin w d a b s
  | .vmax w d a b => Sys2Proof.Machine.execVmax w d a b s
  | .vand w d a b => Sys2Proof.Machine.execVand w d a b s
  | .vor w d a b => Sys2Proof.Machine.execVor w d a b s
  | .vxor w d a b => Sys2Proof.Machine.execVxor w d a b s
  | .vshl w d a b => Sys2Proof.Machine.execVshl w d a b s
  | .vshr w d a b => Sys2Proof.Machine.execVshr w d a b s
  | .vabsd w d a b => Sys2Proof.Machine.execVabsd w d a b s
  | .vmac w d a b => Sys2Proof.Machine.execVmac w d a b s
  | .vsel w d a b => Sys2Proof.Machine.execVsel w d a b s
  | .vunClz w d a => Sys2Proof.Machine.execVunClz w d a s
  | .vunFfs w d a => Sys2Proof.Machine.execVunFfs w d a s
  | .vunPopc w d a => Sys2Proof.Machine.execVunPopc w d a s
  | .vunNeg w d a => Sys2Proof.Machine.execVunNeg w d a s
  | .vunAbs w d a => Sys2Proof.Machine.execVunAbs w d a s
  | .vunNot w d a => Sys2Proof.Machine.execVunNot w d a s
  | .vunMov w d a => Sys2Proof.Machine.execVunMov w d a s
  | .vcmpEq w p a b => Sys2Proof.Machine.execVcmpEq w p a b s
  | .vcmpNe w p a b => Sys2Proof.Machine.execVcmpNe w p a b s
  | .vcmpLt w p a b => Sys2Proof.Machine.execVcmpLt w p a b s
  | .vcmpGe w p a b => Sys2Proof.Machine.execVcmpGe w p a b s
  | .vcmpLe w p a b => Sys2Proof.Machine.execVcmpLe w p a b s
  | .vcmpGt w p a b => Sys2Proof.Machine.execVcmpGt w p a b s
  | .vcmpOrd w p a b => Sys2Proof.Machine.execVcmpOrd w p a b s
  | .vcmpUnord w p a b => Sys2Proof.Machine.execVcmpUnord w p a b s
  | .fadd w d a b => Sys2Proof.Machine.execFadd w d a b s
  | .fsub w d a b => Sys2Proof.Machine.execFsub w d a b s
  | .fmul w d a b => Sys2Proof.Machine.execFmul w d a b s
  | .fma w d a b => Sys2Proof.Machine.execFma w d a b s
  | .fmin w d a b => Sys2Proof.Machine.execFmin w d a b s
  | .fmax w d a b => Sys2Proof.Machine.execFmax w d a b s
  | .funNeg w d a => Sys2Proof.Machine.execFunNeg w d a s
  | .funAbs w d a => Sys2Proof.Machine.execFunAbs w d a s
  | .funSqrt w d a => Sys2Proof.Machine.execFunSqrt w d a s
  | .funRint w d a => Sys2Proof.Machine.execFunRint w d a s
  | .cvt w d a t => Sys2Proof.Machine.execCvt w d a t s
  | .sfuSinpi w d a => Sys2Proof.Machine.execSfuSinpi w d a s
  | .sfuCospi w d a => Sys2Proof.Machine.execSfuCospi w d a s
  | .sfuExp2 w d a => Sys2Proof.Machine.execSfuExp2 w d a s
  | .sfuLog2 w d a => Sys2Proof.Machine.execSfuLog2 w d a s
  | .sfuRcp w d a => Sys2Proof.Machine.execSfuRcp w d a s
  | .sfuRsqrt w d a => Sys2Proof.Machine.execSfuRsqrt w d a s
  | .vmovi w d n0 => Sys2Proof.Machine.execVmovi w d n0 s
  | .vmovhi w d n0 => Sys2Proof.Machine.execVmovhi w d n0 s
  | .scanAdd w d a => Sys2Proof.Machine.execScanAdd w d a s
  | .scanMin w d a => Sys2Proof.Machine.execScanMin w d a s
  | .scanMax w d a => Sys2Proof.Machine.execScanMax w d a s
  | .scanAnd w d a => Sys2Proof.Machine.execScanAnd w d a s
  | .scanOr w d a => Sys2Proof.Machine.execScanOr w d a s
  | .scanXor w d a => Sys2Proof.Machine.execScanXor w d a s
  | .scanAddx w d a => Sys2Proof.Machine.execScanAddx w d a s
  | .scanMinx w d a => Sys2Proof.Machine.execScanMinx w d a s
  | .scanMaxx w d a => Sys2Proof.Machine.execScanMaxx w d a s
  | .scanAndx w d a => Sys2Proof.Machine.execScanAndx w d a s
  | .scanOrx w d a => Sys2Proof.Machine.execScanOrx w d a s
  | .scanXorx w d a => Sys2Proof.Machine.execScanXorx w d a s
  | .vredAdd w d a => Sys2Proof.Machine.execVredAdd w d a s
  | .vredMin w d a => Sys2Proof.Machine.execVredMin w d a s
  | .vredMax w d a => Sys2Proof.Machine.execVredMax w d a s
  | .vredAnd w d a => Sys2Proof.Machine.execVredAnd w d a s
  | .vredOr w d a => Sys2Proof.Machine.execVredOr w d a s
  | .vredXor w d a => Sys2Proof.Machine.execVredXor w d a s
  | .vperm w d a b => Sys2Proof.Machine.execVperm w d a b s
  | .vxshuf w d a b => Sys2Proof.Machine.execVxshuf w d a b s
  | .vbcast w d a b => Sys2Proof.Machine.execVbcast w d a b s
  | .cqVpop w d a => Sys2Proof.Machine.execCqVpop w d a s
  | .cqVpush w d a => Sys2Proof.Machine.execCqVpush w d a s
  | .cqHpop w d => Sys2Proof.Machine.execCqHpop w d s
  | .cqHpush w a => Sys2Proof.Machine.execCqHpush w a s
  | .vgetr w d a b => Sys2Proof.Machine.execVgetr w d a b s
  | .vsetr w d a b => Sys2Proof.Machine.execVsetr w d a b s
  | .plogAnd w d a b => Sys2Proof.Machine.execPlogAnd w d a b s
  | .plogOr w d a b => Sys2Proof.Machine.execPlogOr w d a b s
  | .plogXor w d a b => Sys2Proof.Machine.execPlogXor w d a b s
  | .plogAndn w d a b => Sys2Proof.Machine.execPlogAndn w d a b s
  | .plogNot w d a => Sys2Proof.Machine.execPlogNot w d a s
  | .plogMov w d a => Sys2Proof.Machine.execPlogMov w d a s
  | .predPopc w d a => Sys2Proof.Machine.execPredPopc w d a s
  | .predAny w d a => Sys2Proof.Machine.execPredAny w d a s
  | .predAll w d a => Sys2Proof.Machine.execPredAll w d a s
  | .predFirst w d a => Sys2Proof.Machine.execPredFirst w d a s
  | .predMask w d a => Sys2Proof.Machine.execPredMask w d a s
  | .ld w q b x z r q0 => Sys2Proof.Machine.execLd w q b x z r q0 s
  | .st w q b x z r q0 => Sys2Proof.Machine.execSt w q b x z r q0 s
  | .lds w q b z r q0 => Sys2Proof.Machine.execLds w q b z r q0 s
  | .sts w q b z r q0 => Sys2Proof.Machine.execSts w q b z r q0 s
  | .stc w q b z r q0 => Sys2Proof.Machine.execStc w q b z r q0 s
  | .cld w q b x z r q0 => Sys2Proof.Machine.execCld w q b x z r q0 s
  | .cst w q b x z r q0 => Sys2Proof.Machine.execCst w q b x z r q0 s
  | .cldf w q b x => Sys2Proof.Machine.execCldf w q b x s
  | .cste w q b x => Sys2Proof.Machine.execCste w q b x s
  | .aadd w q b x z r q0 => Sys2Proof.Machine.execAadd w q b x z r q0 s
  | .aswap w q b x z r q0 => Sys2Proof.Machine.execAswap w q b x z r q0 s
  | .acas w q b x z r q0 => Sys2Proof.Machine.execAcas w q b x z r q0 s
  | .amin w q b x z r q0 => Sys2Proof.Machine.execAmin w q b x z r q0 s
  | .amax w q b x z r q0 => Sys2Proof.Machine.execAmax w q b x z r q0 s
  | .aor w q b x z r q0 => Sys2Proof.Machine.execAor w q b x z r q0 s
  | .aand w q b x z r q0 => Sys2Proof.Machine.execAand w q b x z r q0 s
  | .aqHpush w a => Sys2Proof.Machine.execAqHpush w a s
  | .aqHpop w d => Sys2Proof.Machine.execAqHpop w d s
  | .aqXpop w d a => Sys2Proof.Machine.execAqXpop w d a s
  | .aqXpops w d a => Sys2Proof.Machine.execAqXpops w d a s
  | .aqEqw w d a => Sys2Proof.Machine.execAqEqw w d a s
  | .aqEqr w d a => Sys2Proof.Machine.execAqEqr w d a s
  | .syncAcq w k r j => Sys2Proof.Machine.execSyncAcq w k r j s
  | .syncRel w k r j => Sys2Proof.Machine.execSyncRel w k r j s
  | .syncFence w r => Sys2Proof.Machine.execSyncFence w r s
  | .syncGbar w k => Sys2Proof.Machine.execSyncGbar w k s
  | .copyPublish w r n => Sys2Proof.Machine.execCopyPublish w r n s
  | .copyBclose w r => Sys2Proof.Machine.execCopyBclose w r s
  | .copyBwait w r => Sys2Proof.Machine.execCopyBwait w r s
  | .taskSpawn w r k => Sys2Proof.Machine.execTaskSpawn w r k s
  | .taskTlwait w r n0 => Sys2Proof.Machine.execTaskTlwait w r n0 s
  | .taskTlsig w r n0 => Sys2Proof.Machine.execTaskTlsig w r n0 s
  | .taskMarm w r => Sys2Proof.Machine.execTaskMarm w r s
  | .taskMwait w r => Sys2Proof.Machine.execTaskMwait w r s
  | .taskDdec w r => Sys2Proof.Machine.execTaskDdec w r s
  | .taskWjoin w r k t => Sys2Proof.Machine.execTaskWjoin w r k t s
  | .taskWleave w r => Sys2Proof.Machine.execTaskWleave w r s
  | .taskCancel w r k l => Sys2Proof.Machine.execTaskCancel w r k l s
  | .scoutOpen w r n => Sys2Proof.Machine.execScoutOpen w r n s
  | .scoutTake w r c k n => Sys2Proof.Machine.execScoutTake w r c k n s
  | .scoutClose w r n => Sys2Proof.Machine.execScoutClose w r n s
  | .scoutVerdict w r k => Sys2Proof.Machine.execScoutVerdict w r k s
  | .treeCreate w r => Sys2Proof.Machine.execTreeCreate w r s
  | .treeFork w r => Sys2Proof.Machine.execTreeFork w r s
  | .treeAppend w r => Sys2Proof.Machine.execTreeAppend w r s
  | .treePrune w r => Sys2Proof.Machine.execTreePrune w r s
  | .treeCommit w r => Sys2Proof.Machine.execTreeCommit w r s
  | .treeAhead w r g t k => Sys2Proof.Machine.execTreeAhead w r g t k s
  | .treeHandover w r => Sys2Proof.Machine.execTreeHandover w r s
  | .treeTokrdy w r k => Sys2Proof.Machine.execTreeTokrdy w r k s
  | .treeDestroy w r => Sys2Proof.Machine.execTreeDestroy w r s
  | .xchDpost w r => Sys2Proof.Machine.execXchDpost w r s
  | .xchDcal w r k => Sys2Proof.Machine.execXchDcal w r k s
  | .xchTsend w r => Sys2Proof.Machine.execXchTsend w r s
  | .xchColl w r => Sys2Proof.Machine.execXchColl w r s
  | .xchRcnt w r o c => Sys2Proof.Machine.execXchRcnt w r o c s
  | .mmul w d a b => Sys2Proof.Machine.execMmul w d a b s
  | .mzero w d a => Sys2Proof.Machine.execMzero w d a s
  | .mfill w d a c => Sys2Proof.Machine.execMfill w d a c s
  | .mdrain w d a c => Sys2Proof.Machine.execMdrain w d a c s
  | .mfmt w d a => Sys2Proof.Machine.execMfmt w d a s
  | .msacc w d a b => Sys2Proof.Machine.execMsacc w d a b s
  | .seqMbox w r => Sys2Proof.Machine.execSeqMbox w r s
  | .seqPost w r => Sys2Proof.Machine.execSeqPost w r s
  | .seqClient w o r => Sys2Proof.Machine.execSeqClient w o r s
  | .vwin w o r => Sys2Proof.Machine.execVwin w o r s
  | .statusBrk w r => Sys2Proof.Machine.execStatusBrk w r s
  | .trapMode w o r => Sys2Proof.Machine.execTrapMode w o r s
  | .copy wave => Sys2Proof.Machine.execCopy wave s
  | .gather wave => Sys2Proof.Machine.execGather wave s
  | .completion wave eng idx => Sys2Proof.Machine.execCompletion wave eng idx s
  | .mask wave => Sys2Proof.Machine.execMask wave s
  | .stat wave => Sys2Proof.Machine.execStat wave s
  | .tol wave => Sys2Proof.Machine.execTol wave s
  | .eq2Word wave => Sys2Proof.Machine.execEq2Word wave s
  | .eq5Word wave => Sys2Proof.Machine.execEq5Word wave s
  | .collectiveCompletion coll status => Sys2Proof.Machine.execCollectiveCompletion coll status s
  | .exchangeCompletion part group status => Sys2Proof.Machine.execExchangeCompletion part group status s
  | .fullEmptyPerform wave => Sys2Proof.Machine.execFullEmptyPerform wave s
  | .gbarDeparture unit => Sys2Proof.Machine.execGbarDeparture unit s
  | .accessAccept id => Sys2Proof.Machine.execAccessAccept id s
  | .replay id => Sys2Proof.Machine.execReplay id s
  | .atomicPerform id => Sys2Proof.Machine.execAtomicPerform id s
  | .errorReply id => Sys2Proof.Machine.execErrorReply id s
  | .monitorWake wave => Sys2Proof.Machine.execMonitorWake wave s
  | .mwaitTimeout wave => Sys2Proof.Machine.execMwaitTimeout wave s
  | .courierToken core => Sys2Proof.Machine.execCourierToken core s
  | .migration space va frame => Sys2Proof.Machine.execMigration space va frame s
  | .counterHalving => Sys2Proof.Machine.execCounterHalving s
  | .toleranceCompare cluster stream => Sys2Proof.Machine.execToleranceCompare cluster stream s
  | .commit unit => Sys2Proof.Machine.execCommit unit s
  | .squash unit => Sys2Proof.Machine.execSquash unit s
  | .graphPacket part queue => Sys2Proof.Machine.execGraphPacket part queue s
  | .timelineWaitPacket part queue => Sys2Proof.Machine.execTimelineWaitPacket part queue s
  | .timelineSignalPacket part queue => Sys2Proof.Machine.execTimelineSignalPacket part queue s
  | .phaseEndPacket part queue => Sys2Proof.Machine.execPhaseEndPacket part queue s
  | .ageInterval part queue => Sys2Proof.Machine.execAgeInterval part queue s
  | .gangPlacement part queue cluster slots off => Sys2Proof.Machine.execGangPlacement part queue cluster slots off s
  | .sproutPlacement part launch cluster slot off => Sys2Proof.Machine.execSproutPlacement part launch cluster slot off s
  | .retirement unit => Sys2Proof.Machine.execRetirement unit s
  | .nodeCompletion part gid node => Sys2Proof.Machine.execNodeCompletion part gid node s
  | .launchCompletion part launch => Sys2Proof.Machine.execLaunchCompletion part launch s
  | .graphCompletion part gid => Sys2Proof.Machine.execGraphCompletion part gid s
  | .timelineRelease wave => Sys2Proof.Machine.execTimelineRelease wave s
  | .preemptionRequest unit => Sys2Proof.Machine.execPreemptionRequest unit s
  | .preemptionWithdraw unit => Sys2Proof.Machine.execPreemptionWithdraw unit s
  | .deadline unit => Sys2Proof.Machine.execDeadline unit s
  | .save unit => Sys2Proof.Machine.execSave unit s
  | .restore unit cluster slots => Sys2Proof.Machine.execRestore unit cluster slots s
  | .hostPostedWrite fn addr bytes => Sys2Proof.Machine.execHostPostedWrite fn addr bytes s
  | .hostRead fn addr len => Sys2Proof.Machine.execHostRead fn addr len s
  | .triggerFire slot => Sys2Proof.Machine.execTriggerFire slot s
  | .receiveCounterArrival part counter addr bytes => Sys2Proof.Machine.execReceiveCounterArrival part counter addr bytes s
  | .chunkArrival part group seq chunk rank bytes => Sys2Proof.Machine.execChunkArrival part group seq chunk rank bytes s
  | .chunkRetry part idx => Sys2Proof.Machine.execChunkRetry part idx s
  | .post part group rank p => Sys2Proof.Machine.execPost part group rank p s
  | .postTimeout part group => Sys2Proof.Machine.execPostTimeout part group s
  | .grant part group => Sys2Proof.Machine.execGrant part group s
  | .heartbeat part group => Sys2Proof.Machine.execHeartbeat part group s
  | .go part group epoch => Sys2Proof.Machine.execGo part group epoch s
  | .arbiterSilence part group => Sys2Proof.Machine.execArbiterSilence part group s
  | .quantumArrival part group convoy bytes => Sys2Proof.Machine.execQuantumArrival part group convoy bytes s
  | .ringHeadAdvance part tree => Sys2Proof.Machine.execRingHeadAdvance part tree s
  | .tokrdyRelease wave => Sys2Proof.Machine.execTokrdyRelease wave s
  | .spill part die => Sys2Proof.Machine.execSpill part die s
  | .pageFetch part tree page => Sys2Proof.Machine.execPageFetch part tree page s
  | .uncorrectableError loc => Sys2Proof.Machine.execUncorrectableError loc s
  | .correctedError loc => Sys2Proof.Machine.execCorrectedError loc s
  | .flitRetry => Sys2Proof.Machine.execFlitRetry s
  | .retrain => Sys2Proof.Machine.execRetrain s
  | .fecRetry part fibre => Sys2Proof.Machine.execFecRetry part fibre s
  | .fibreRemoval part fibre => Sys2Proof.Machine.execFibreRemoval part fibre s
  | .fatalError die => Sys2Proof.Machine.execFatalError die s
  | .warmReset die => Sys2Proof.Machine.execWarmReset die s
  | .powerCap die => Sys2Proof.Machine.execPowerCap die s
  | .thermalTrip die => Sys2Proof.Machine.execThermalTrip die s
  | .boot => Sys2Proof.Machine.execBoot s
  | .spaceCommit part space va pages => Sys2Proof.Machine.execSpaceCommit part space va pages s
  | .queueSet part queue addr => Sys2Proof.Machine.execQueueSet part queue addr s
  | .queueStop part queue => Sys2Proof.Machine.execQueueStop part queue s
  | .timelineSet part timeline x => Sys2Proof.Machine.execTimelineSet part timeline x s
  | .arbReadmit part group dev => Sys2Proof.Machine.execArbReadmit part group dev s
  | .attest part nonce report => Sys2Proof.Machine.execAttest part nonce report s
  | .telemetry => Sys2Proof.Machine.execTelemetry s
  | .telemetryRefresh => Sys2Proof.Machine.execTelemetryRefresh s
  | .setcap watts => Sys2Proof.Machine.execSetcap watts s
  | .dieresetBegin die => Sys2Proof.Machine.execDieresetBegin die s
  | .dieresetQuery die => Sys2Proof.Machine.execDieresetQuery die s
  | .dieoff die => Sys2Proof.Machine.execDieoff die s
  | .bootstat => Sys2Proof.Machine.execBootstat s
  | .stop part launch pos => Sys2Proof.Machine.execStop part launch pos s
  | .resume part launch pos => Sys2Proof.Machine.execResume part launch pos s
  | .step part launch pos strand => Sys2Proof.Machine.execStep part launch pos strand s
  | .release part launch pos => Sys2Proof.Machine.execRelease part launch pos s
  | .select part die n0 x => Sys2Proof.Machine.execSelect part die n0 x s
  | .value part die n0 x => Sys2Proof.Machine.execValue part die n0 x s
  | .freeze part die x => Sys2Proof.Machine.execFreeze part die x s
  | .tileStep cluster idx => Sys2Proof.Machine.execTileStep cluster idx s
  | .linkRetrained ok => Sys2Proof.Machine.execLinkRetrained ok s
  | .powerBelowCap die => Sys2Proof.Machine.execPowerBelowCap die s
  | .partitionStart part image => Sys2Proof.Machine.execPartitionStart part image s
  | .partitionTeardown part => Sys2Proof.Machine.execPartitionTeardown part s

end Sys2Proof.Machine
end

