-- ==== Sys2Proof/Machine/Turn.lean ====
section
/-! DEFINITION. A turn of one agent: fetching and running the next instruction of a strand, an engine's, the scheduler's or an
outside event, and the schedule that is followed where no turn is given (R8, R12, R13, R27, R31, R34, R39, R339, R352). -/

namespace Sys2Proof.Machine

/-! ## Fetch (R27, R339, R352) -/

/-- The word at the strand's pc: translated as a fetch, and read as the ordering rules let the strand read it. A place that gives an error
reply, and a poisoned granule, give no word (R21, R350). -/
def State.fetch (s : State) : Except PFault W32 :=
  let x := s.unit s.curUnit
  match s.probeGlobal s.curUnit x.part x.space s.strand.pc.toNat 4 .fetch with
  | .error f => .error f
  | .ok (_, pa) =>
    let locs := (List.range 4).map fun i => pa + i
    if s.unreachable x.part pa then .error .refused
    else if locs.any s.poisonedAt then .error .poisoned
    else
    let t := s.readTime s.strand.view locs 0
    .ok (BitVec.ofNat 32 (leNat (locs.map (s.byteAt t))))

/-- A fetch fails: it is reported at the target, which is the pc; a spilled page blocks the strand, and a poisoned word is poisoned data
(R105, R324, R350, R352). -/
def State.fetchFault (s : State) (f : PFault) : Out :=
  match f with
  | .spilled a => (s.wantPage (s.unit s.curUnit).part (s.unit s.curUnit).space a).stand
  | .waits _ => s.stand
  | .dieOffline d => .next (s.trapAddr 0x0D d s.strand.pc 0)
  | .poisoned => .next s.trapBlock
  | _ => .next (s.trapAddr 0x04 0 s.strand.pc 0)

/-- Fetch, decode for the strand's kind (R39) and run one instruction. -/
def State.runWord (s : State) : Out :=
  match s.fetch with
  | .error f => s.fetchFault f
  | .ok w =>
    match decodeCheck s.cur.kind w with
    | .error .unassigned => .next (s.illegal false w)
    | .error .wrongStrand => .next (s.illegal true w)
    | .ok i => exec i s

/-! ## A strand's turn -/

/-- A strand that may run: its wave is in place, or its sequencer has an owner in place, and it has not ended, yielded, nor been made to
stand. -/
def State.mayRun (s : State) : Bool :=
  let t := s.strand
  (match s.cur.kind with
    | .seq => s.seqPlaced s.curCluster
    | _ => s.curWave.live)
    && (!t.ended || t.csr.inHandler) && !t.yielded && !t.stopped

/-- The strand stands at a sys.trap, which issues before its trap is taken. -/
def State.atSysTrap (s : State) : Bool :=
  match s.fetch with
  | .error _ => false
  | .ok w => match decodeCheck s.cur.kind w with
    | .ok (.sysTrap _ _) => true
    | _ => false

/-- The turn that led from `s` to `t` took a trap: it waits, it has been entered, or it was unhandled and the unit is gone. -/
def State.trapped (s t : State) : Bool :=
  t.strand.pendTrap.isSome || (t.strand.csr.inHandler && !s.strand.csr.inHandler) || (t.unit s.curUnit).life == .gone

/-- What comes of a strand's turn from `s` to `t`: an instruction that an access or compute strand has issued is counted (R391), and a
debugger's step ends. -/
def State.issued (s t : State) : State :=
  let part := (s.unit s.curUnit).part
  let counts := s.cur.kind != .seq && (s.atSysTrap || (!t.strand.blocked && !s.trapped t))
  (if counts then t.bump part (dieOfCluster s.curCluster) 0x02 1 else t).afterTurn s.curUnit part s.strandCode

/-- A function of the next state. -/
def Out.map (f : State → State) : Out → Out
  | .next s => .next (f s)
  | .fault e => .fault e
  | .refused r => .refused r

/-- A record in flight that failed its check leaves the sequencer, which takes the format limit trap at its instruction (R373). -/
def State.dropRecord (s : State) (o : MatOp) : State :=
  (s.updSeq s.curCluster fun q => { q with flight := q.flight.erase o }).trap
    { cause := 0x14, info := some (zext64 o.word), addr := none, lane := none, stop := o.addr }

/-- The record that the sequencer whose turn it is must report before it runs on. -/
def State.badRecord (s : State) : Option MatOp :=
  if s.cur.kind = .seq then (s.cluster s.curCluster).seq.badRecord else none

/-- The strand whose turn it is is no longer parked once its results have returned, though it yielded at its mark (R31, R367). -/
def State.unpark (s : State) : State :=
  if s.strand.parked && s.drained then s.updStrand fun t => { t with parked := false } else s

/-- The strand whose turn it is: a trap on its way is entered once the older results have returned; a parked strand waits for its
memory results; otherwise one instruction is fetched and run (R31, R34). -/
def State.strandTurn (s : State) : Out :=
  if !s.mayRun then .next s.unpark
  else match s.strand.pendTrap with
    | some t => .next (if s.drained then s.enterTrap t else s)
    | none => match s.badRecord with
    | some o => .next (s.dropRecord o)
    | none =>
      if s.strand.parked && !s.drained then .next s
      else
        s.unpark.runWord.map s.unpark.issued

/-- Give the turn to a strand. -/
def State.withCur (s : State) (wave : Nat) (kind : StrandKind) : State := { s with cur := ⟨wave, kind⟩ }

/-! ## Turns -/

/-- One turn. An instruction word is no event: it runs only where a strand fetches it. -/
def State.turn (s : State) : Turn → Out
  | .strand k kind => (s.withCur k kind).strandTurn
  | .sequencer c => (s.withCur (32 * c) .seq).strandTurn
  | .event i => match encode i with
    | none => exec i s
    | some _ => .next s

/-- What takes an access in flight on, where something can. -/
def State.accessTurn (s : State) (e : Nat × Access) : Option (State → Out) :=
  if e.2.errored then (if s.inOrder e.2 then some (execErrorReply e.1) else none)
  else if e.2.rejected then none
  else if s.acceptable e.2 then (match e.2.kind with
    | .atomic _ => some (execAtomicPerform e.1)
    | _ => some (execAccessAccept e.1))
  else none

/-- The turns of a wave: its strands, its engines and what may release one of its strands. -/
def waveTurns (k : Nat) (w : Wave) : List (State → Out) :=
  let on := fun (b : Bool) (l : List (State → Out)) => if b then l else []
  [fun s => s.turn (.strand k .access), fun s => s.turn (.strand k .compute)]
    ++ on (!w.eng.isEmpty || !w.fin.isEmpty)
         [execCopy w.who, execGather w.who, execCompletion w.who 0 0, execCompletion w.who 1 0]
    ++ on (!w.eqCmd.isEmpty) [execMask w.who, execStat w.who, execTol w.who, execEq2Word w.who, execEq5Word w.who]
    ++ on (w.acc.wait != .none) [execFullEmptyPerform w.who, execTimelineRelease w.who, execTokrdyRelease w.who]
    ++ on (w.acc.monitor != none) [execMonitorWake w.who]

/-- The turns of a unit. -/
def unitTurns (e : Nat × UnitRec) : List (State → Out) :=
  if e.2.life = .resident then [execGbarDeparture e.1, execRetirement e.1, execCommit e.1] else []

/-- The turns of a partition's queues, graphs and launches. -/
def partTurns (e : Nat × Partition) : List (State → Out) :=
  (e.2.queues.flatMap fun q =>
      [execGraphPacket e.1 q.1, execTimelineWaitPacket e.1 q.1, execTimelineSignalPacket e.1 q.1, execPhaseEndPacket e.1 q.1])
    ++ (e.2.graphs.flatMap fun g => ((g.2.complete.map Prod.fst ++ g.2.waiting.map Prod.fst).map fun n => execNodeCompletion e.1 g.2.gid n) ++ [execGraphCompletion e.1 g.2.gid])
    ++ (e.2.launches.map fun l => execLaunchCompletion e.1 l.1)

/-- What each agent of the device would do with a turn. -/
def State.agents (s : State) : List (State → Out) :=
  (s.waves.flatMap fun e => if e.2.live then waveTurns e.1 e.2 else [])
    ++ (s.clusters.flatMap fun e => if e.2.seq.owner = 0 then [] else
          (fun s => s.turn (.sequencer e.1)) :: if e.2.seq.flight.isEmpty then [] else [execTileStep e.1 0])
    ++ s.units.flatMap unitTurns
    ++ ((s.flight.filter fun e => e.2.rejected).map fun e => execReplay e.1)
    ++ s.parts.flatMap partTurns

/-- The turn taken where the list of turns is empty: the lowest-numbered access that can be taken on, and otherwise the agents in
rotation. DESIGN CHOICE, unsafe (log entry 10). -/
def State.defaultTurn (s : State) : Out :=
  match s.flight.findSome? s.accessTurn with
  | some f => f s
  | none => let l := s.agents
    match l[s.fresh % l.length]? with
    | some f => f s
    | none => .next s

/-- Time passes: the step counter rises, the arithmetic clock by at least 1, accepted cancels come due, and counters count.
DESIGN CHOICE, safe (log entry 4). -/
def State.tick (s : State) : State :=
  let n := 1 + Config.extraCycles s.fresh
  ({ s with cycle := s.cycle + n, fresh := s.fresh + 1 }.runCancels).tickCounters n

/-- Take the next turn. -/
def State.nextTurn (s : State) : Out :=
  match s.turns with
  | t :: ts => { s with turns := ts }.turn t
  | [] => s.defaultTurn

/-- One step: a turn, and time passes. DESIGN CHOICE, unsafe (log entry 1). -/
def State.stepTurn (s : State) : Out := s.nextTurn.map State.tick

/-! ## Where the next instruction is fetched

A program comes to run by BOOT, PARTITION_START, QUEUE_SET and a launch; what follows stands for that load (log entry 11). -/

/-- The kind of strand that runs a word: the first whose decoder takes it. -/
def kindFor (w : W32) : StrandKind :=
  let ok := fun (k : StrandKind) => match decodeCheck k w with
    | .ok _ => true
    | .error _ => false
  if ok .access then .access else if ok .compute then .compute else if ok .seq then .seq else .access

/-- The kernel that stands for the load: one wave, its sequencer, the whole creel and all tiles. -/
def loadKernel : Kernel :=
  { sprout := false, waves := 1, groups := 1, tiles := 32, creel := Config.creelBytes, fvalid := 0, hasSeq := true,
    aentry := 0x100000, centry := 0x100000, sentry := 0x100000, fwords := [] }

/-- Its launch: one gang, in a graph of its own. -/
def loadLaunch : Launch := { Launch.empty with counts := (1, 1, 1), graph := 1, gid := 1, next := 1, live := 1 }

/-- The graph that holds it. -/
def loadGraph : Graph :=
  { gid := 1, header := 0, sink := 0, queue := 0, phase := 0, job := 0, space := 0, openNodes := 1, sinkDone := false,
    cancelled := false, lost := false, malformed := false, done := false, waiting := [], complete := [], cover := [] }

/-- Partition 0 holds die 0, its cluster 0 and its first two frames, with the launch. -/
def loadPart (p : Partition) : Partition :=
  { p with started := true, nextLaunch := 2, graphNo := 2, launches := [(1, loadLaunch)], graphs := [(1, loadGraph)],
           asn := { p.asn with dies := [0], clusters := [(0, false)], frames := [0, 1], spaces := [(0, 0)] } }

/-- Space 0 maps addresses below 2 MiB to frame 1, for reading, writing and fetching; its tables stand in frame 0. -/
def State.loadTables (s : State) : State :=
  let leaf := 2 ^ 63 + 2 ^ 62 + 2 ^ 61 + 2 ^ 60 + 32
  let words := [(0, 2 ^ 63 + 0x10000 / 256), (0x10000, 2 ^ 63 + 0x20000 / 256), (0x20000, leaf)]
  { s with mem := words.foldl (fun m e => Mem.writes m e.1 (leBytes 8 e.2)) s.mem,
           spaces := SMap.put 0 { Space.none with part := 0, root := 0 } s.spaces }

/-- The machine with one resident unit, on cluster 0, whose strands stand at 0x100000. -/
def State.loaded (s : State) : State :=
  let s := (s.loadTables.setDie 0 Die.running).updPart 0 loadPart
  let s := s.setCluster 0 { Cluster.idle with part := 0 }
  { s with nextUnit := s.nextUnit + 1 }.startUnit s.nextUnit (unitRecord 0 1 0 0 loadLaunch loadKernel 0 [0] 0) loadKernel []

/-- Where the strand of a state fetches next, if it can run at once. -/
def State.fetchPa (s : State) : Option Nat :=
  let x := s.unit s.curUnit
  if s.mayRun && !s.strand.parked && s.strand.pendTrap == none && s.badRecord == none then
    match s.probeGlobal s.curUnit x.part x.space s.strand.pc.toNat 4 .fetch with
    | .error _ => none
    | .ok (_, pa) => if s.unreachable x.part pa then none else some pa
  else none

/-- The word is what the strand of a state fetches next, and it has the next turn. -/
def State.placeWord (s : State) (w : W32) : State :=
  match s.fetchPa with
  | none => s
  | some pa =>
    let bytes := (List.range 4).zip (leBytes 4 w.toNat) |>.map fun e => (pa + e.1, e.2)
    let s := { s with hist := s.hist.filter fun r => !bytes.any fun e => r.hits e.1, gPoison := SMap.del s.gPoison (pa / 32) }.putBytes bytes
    let s := s.updStrand fun t => { t with blocked := false, wait := .none }
    { s with turns := (match s.cur.kind with
        | .seq => Turn.sequencer s.curCluster
        | k => Turn.strand s.cur.wave k) :: s.turns }

/-- The word stands where the next step fetches: at the strand that had the last turn, or its fellow of the kind that runs the
word, and where it cannot run, at a unit that is loaded for it. DESIGN CHOICE, unsafe (log entry 11). -/
def State.loadWord (s : State) (w : W32) : State :=
  let here := s.withCur s.cur.wave (kindFor w)
  if here.fetchPa.isSome then here.placeWord w
  else (s.loaded.withCur 0 (kindFor w)).placeWord w

end Sys2Proof.Machine
end

