-- ==== Sys2Proof/Machine/Step.lean ====
section
/-! DEFINITION. The step of the machine, and the state in which the next step fetches a given word. -/

namespace Sys2Proof.Machine

/-- One step: the next turn, after which time has passed. -/
def step (s : State) : Host.Outcome State Fault Refusal := s.stepTurn

/-- The state with the instruction word `w` stored where the next step fetches. Every instruction is one 32-bit word (R27); the
bits above `nbits` are 0. DESIGN CHOICE, unsafe (log entry 11). -/
def State.withFetchWord (s : State) (nbits w : Nat) : State := s.loadWord (BitVec.ofNat 32 (w % 2 ^ nbits))

end Sys2Proof.Machine
end

