-- ==== Sys2Proof/Safety.lean ====
section
/-! DEFINITION. What the claims are said in: a run that meets no stop, the canonical form of the byte memories, the legality of
mode words, and what an instruction leaves unchanged (its frame). -/

namespace Sys2Proof.Machine

/-- The machine takes `n` steps from `s` and meets neither a fault nor a refusal. -/
def runs : Nat → State → Bool
  | 0, _ => true
  | n + 1, s => match step s with
    | .next t => runs n t
    | _ => false

/-- Both byte memories are in canonical form. -/
def State.memOk (s : State) : Bool := Mem.wf s.mem && Mem.wf s.creel

/-- A mode word as the machine stores it: an assigned type and rounding mode, zero in the bits that must be zero (R35, R354). -/
def modeOk (m : BitVec 16) : Bool := okMode m

/-- Every strand of a wave holds legal mode words. -/
def Wave.modesOk (w : Wave) : Bool :=
  modeOk w.acc.mode && modeOk w.cmp.mode && modeOk w.acc.csr.trapMode && modeOk w.cmp.csr.trapMode

/-! ## Frames

From `s` to `t` an instruction of the strand whose turn it is has issued. -/

/-- Nothing outside the wave and the sequencer of the strand whose turn it is has changed, but for the destinations of accesses in
flight: no byte of memory, no other wave or cluster, no unit, partition or other field of the device. -/
structure Outside (s t : State) : Prop where
  rest : { t with waves := s.waves, clusters := s.clusters, flight := s.flight } = s
  bytes : ∀ loc, t.byteNow loc = s.byteNow loc
  waves : ∀ k, k ≠ s.cur.wave → t.wave k = s.wave k
  clusters : ∀ c, c ≠ s.curCluster → t.cluster c = s.cluster c

/-- Accesses in flight are unchanged, but that replies to scalar register `d` of the current access strand no longer write it
(R30); `d = 0` for none. -/
def Replies (s t : State) (d : Nat) : Prop :=
  ∀ n, SMap.find t.flight n = (SMap.find s.flight n).map fun a =>
    if s.cur.kind = .access ∧ d ≠ 0 ∧ a.unit = s.curWave.unit ∧ a.idx = s.curWave.pos ∧ a.dest = .s d then
      { a with dest := .none } else a

/-- The strand whose turn it is stands at `pc`, not blocked; its outstanding results are `outs`, or none after a switch mark, which
parks it while a memory result is outstanding (R31). Its scalar, predicate, vector and address registers apart, nothing of its
wave and its sequencer has changed: no queue, no control register, no mode word, not the strand beside it. -/
structure Issues (s t : State) (sw : Bool) (pc : W64) (outs : List OutReg) : Prop where
  pcIs : t.strand.pc = pc
  goesOn : t.strand.blocked = false
  outsAre : t.strand.outs = if sw then [] else outs
  parks : t.strand.parked = if sw then !s.drained else s.strand.parked
  strand : { t.strand with pc := s.strand.pc, blocked := s.strand.blocked, wait := s.strand.wait, outs := s.strand.outs,
                           parked := s.strand.parked, s := s.strand.s, sPoison := s.strand.sPoison, p := s.strand.p,
                           pPoison := s.strand.pPoison } = s.strand
  wave : { t.curWave with acc := s.curWave.acc, cmp := s.curWave.cmp, v := s.curWave.v, vPoison := s.curWave.vPoison,
                          x := s.curWave.x, xPoison := s.curWave.xPoison } = s.curWave
  acc : s.cur.kind ≠ .access → t.curWave.acc = s.curWave.acc
  cmp : s.cur.kind ≠ .compute → t.curWave.cmp = s.curWave.cmp
  seq : { t.cluster s.curCluster with seq := { (t.cluster s.curCluster).seq with strand := (s.cluster s.curCluster).seq.strand } }
    = s.cluster s.curCluster
  seqStrand : s.cur.kind ≠ .seq → (t.cluster s.curCluster).seq.strand = (s.cluster s.curCluster).seq.strand

/-- The scalar registers and their poison marks: `d` holds `v`, unmarked, unless it is s0, and every other is unchanged. -/
structure SetsS (s t : State) (d : Nat) (v : W64) : Prop where
  value : d ≠ 0 → t.strand.sreg d = v
  good : d ≠ 0 → d < 64 → maskBit t.strand.sPoison d = false
  zero : t.strand.sreg 0 = 0#64
  others : ∀ r, r ≠ d → t.strand.sreg r = s.strand.sreg r
  marks : ∀ r, r ≠ d → maskBit t.strand.sPoison r = maskBit s.strand.sPoison r

/-- The predicates and their poison marks: `d` holds `v`, unmarked, unless it is p0, and every other is unchanged. -/
structure SetsP (s t : State) (d : Nat) (v : W64) : Prop where
  value : d ≠ 0 → t.strand.preg d = v
  good : d ≠ 0 → d < 64 → maskBit t.strand.pPoison d = false
  ones : t.strand.preg 0 = BitVec.allOnes 64
  others : ∀ r, r ≠ d → t.strand.preg r = s.strand.preg r
  marks : ∀ r, r ≠ d → maskBit t.strand.pPoison r = maskBit s.strand.pPoison r

/-- The vector registers by physical number, and their poison marks: the lanes of `m` of `d` hold `f`, with the marks
`bad`, and every other lane and register is unchanged. -/
structure SetsV (s t : State) (d : Nat) (m : W64) (f : Nat → W32) (bad : W64) : Prop where
  lanes : ∀ l, l < 64 → Lanes.get32 (t.curWave.vreg d) l = if maskBit m l then f l else Lanes.get32 (s.curWave.vreg d) l
  good : ∀ l, l < 64 → maskBit (SMap.get 0#64 t.curWave.vPoison d) l
    = if maskBit m l then maskBit bad l else maskBit (SMap.get 0#64 s.curWave.vPoison d) l
  others : ∀ r, r ≠ d → t.curWave.vreg r = s.curWave.vreg r
  marks : ∀ r, r ≠ d → SMap.get 0#64 t.curWave.vPoison r = SMap.get 0#64 s.curWave.vPoison r

/-- The address vectors and their poison marks, in the same way. -/
structure SetsX (s t : State) (d : Nat) (m : W64) (f : Nat → W64) (bad : W64) : Prop where
  lanes : ∀ l, l < 64 → Lanes.get64 (t.curWave.xreg d) l = if maskBit m l then f l else Lanes.get64 (s.curWave.xreg d) l
  good : ∀ l, l < 64 → maskBit (SMap.get 0#64 t.curWave.xPoison d) l
    = if maskBit m l then maskBit bad l else maskBit (SMap.get 0#64 s.curWave.xPoison d) l
  others : ∀ r, r ≠ d → t.curWave.xreg r = s.curWave.xreg r
  marks : ∀ r, r ≠ d → SMap.get 0#64 t.curWave.xPoison r = SMap.get 0#64 s.curWave.xPoison r

/-- No scalar register changes. -/
def KeepsS (s t : State) : Prop := t.strand.s = s.strand.s ∧ t.strand.sPoison = s.strand.sPoison
/-- No predicate changes. -/
def KeepsP (s t : State) : Prop := t.strand.p = s.strand.p ∧ t.strand.pPoison = s.strand.pPoison
/-- No vector register changes. -/
def KeepsV (s t : State) : Prop := t.curWave.v = s.curWave.v ∧ t.curWave.vPoison = s.curWave.vPoison
/-- No address vector changes. -/
def KeepsX (s t : State) : Prop := t.curWave.x = s.curWave.x ∧ t.curWave.xPoison = s.curWave.xPoison

/-- The outstanding results once scalar register `d` awaits its new value (R32); none is added for s0. -/
def State.outsS (s : State) (d : Nat) : List OutReg :=
  if d = 0 then s.strand.outs else s.strand.outs ++ [.s d (s.strand.sreg d) (maskBit s.strand.sPoison d)]
/-- The outstanding results once predicate `d` awaits its new value (R32); none is added for p0. -/
def State.outsP (s : State) (d : Nat) : List OutReg :=
  if d = 0 then s.strand.outs else s.strand.outs ++ [.p d (s.strand.preg d) (maskBit s.strand.pPoison d)]
/-- The outstanding results once physical vector register `d` awaits its new value (R32). -/
def State.outsV (s : State) (d : Nat) : List OutReg :=
  s.strand.outs ++ [.v d (s.curWave.vreg d) (SMap.get 0#64 s.curWave.vPoison d)]
/-- The outstanding results once address vector `d` awaits its new value (R32). -/
def State.outsX (s : State) (d : Nat) : List OutReg :=
  s.strand.outs ++ [.x d (s.curWave.xreg d) (SMap.get 0#64 s.curWave.xPoison d)]

/-- An instruction has issued at the next word with `v` for scalar register `d` as its only result. -/
def ScalarResult (s t : State) (sw : Bool) (d : Nat) (v : W64) : Prop :=
  Outside s t ∧ Issues s t sw (s.strand.pc + 4#64) (s.outsS d) ∧ SetsS s t d v ∧ KeepsP s t ∧ KeepsV s t ∧ KeepsX s t ∧ Replies s t d

/-- An instruction has issued at the next word with `v` for predicate `d` as its only result. -/
def PredResult (s t : State) (sw : Bool) (d : Nat) (v : W64) : Prop :=
  Outside s t ∧ Issues s t sw (s.strand.pc + 4#64) (s.outsP d) ∧ SetsP s t d v ∧ KeepsS s t ∧ KeepsV s t ∧ KeepsX s t ∧ Replies s t 0

/-- An instruction has issued at the next word with `f`, marked `bad`, for the lanes of `m` of the vector register named `d` as its
only result (R41, R98). -/
def VecMarked (s t : State) (sw : Bool) (d : Nat) (m : W64) (f : Nat → W32) (bad : W64) : Prop :=
  Outside s t ∧ Issues s t sw (s.strand.pc + 4#64) (s.outsV (s.strand.phys d)) ∧ SetsV s t (s.strand.phys d) m f bad
    ∧ KeepsS s t ∧ KeepsP s t ∧ KeepsX s t ∧ Replies s t 0
/-- The same with good data. -/
def VecResult (s t : State) (sw : Bool) (d : Nat) (m : W64) (f : Nat → W32) : Prop := VecMarked s t sw d m f 0#64

/-- An instruction has issued at the next word with `f`, marked `bad`, for the lanes of `m` of address vector `d` as its only
result. -/
def AddrMarked (s t : State) (sw : Bool) (d : Nat) (m : W64) (f : Nat → W64) (bad : W64) : Prop :=
  Outside s t ∧ Issues s t sw (s.strand.pc + 4#64) (s.outsX d) ∧ SetsX s t d m f bad
    ∧ KeepsS s t ∧ KeepsP s t ∧ KeepsV s t ∧ Replies s t 0
/-- The same with good data. -/
def AddrResult (s t : State) (sw : Bool) (d : Nat) (m : W64) (f : Nat → W64) : Prop := AddrMarked s t sw d m f 0#64

/-- An instruction has issued and the strand goes on at `pc`; no register has changed. -/
def GoesTo (s t : State) (sw : Bool) (pc : W64) : Prop :=
  Outside s t ∧ Issues s t sw pc s.strand.outs ∧ KeepsS s t ∧ KeepsP s t ∧ KeepsV s t ∧ KeepsX s t ∧ Replies s t 0

/-- An instruction has issued and the strand goes on at `pc`, with scalar register `d` holding `v` before the next instruction
issues (R32, the row "none"). -/
def GoesToWith (s t : State) (sw : Bool) (pc : W64) (d : Nat) (v : W64) : Prop :=
  Outside s t ∧ Issues s t sw pc (if d = 0 then s.strand.outs else s.strand.outs.filter fun o => !o.isS d)
    ∧ SetsS s t d v ∧ KeepsP s t ∧ KeepsV s t ∧ KeepsX s t ∧ Replies s t d

/-- The strand stands before its instruction, blocked; nothing else changes (R12). -/
def Stands (s t : State) : Prop :=
  t.strand.blocked = true ∧ { t.strand with blocked := s.strand.blocked, wait := s.strand.wait } = s.strand
    ∧ t.setStrand s.strand = s.setStrand s.strand

/-- An access-strand instruction has issued at the next word and has sent the accesses of its lanes: like `a`, at the strand's next
place in the program order, one for each line of 128 bytes, or granule of 32 creel bytes, that the lanes touch. No byte of memory
and no register has changed. -/
structure Sends (s t : State) (sw : Bool) (a : Access) (own : List Nat) (lanes : List LaneAcc) : Prop where
  rest : { t with parts := s.parts, flight := s.flight, nextAccess := s.nextAccess, waves := s.waves } = s
  bytes : ∀ loc, t.byteNow loc = s.byteNow loc
  waves : ∀ k, k ≠ s.cur.wave → t.wave k = s.wave k
  wave : { t.curWave with acc := s.curWave.acc } = s.curWave
  strand : { t.strand with pc := s.strand.pc, blocked := s.strand.blocked, wait := s.strand.wait, outs := s.strand.outs,
                           parked := s.strand.parked, seqNo := s.strand.seqNo } = s.strand
  pcIs : t.strand.pc = s.strand.pc + 4#64
  goesOn : t.strand.blocked = false
  outsAre : t.strand.outs = if sw then [] else s.strand.outs
  parks : t.strand.parked = if sw then !t.drained else s.strand.parked
  place : t.strand.seqNo = s.strand.seqNo + 1
  older : ∀ n, n < s.nextAccess → SMap.find t.flight n = SMap.find s.flight n
  sent : ∀ x, x ∈ lanes → ∃ n c, s.nextAccess ≤ n ∧ n < t.nextAccess ∧ SMap.find t.flight n = some c ∧ x ∈ c.lanes
  only : ∀ n, s.nextAccess ≤ n → n < t.nextAccess → ∃ ls, SMap.find t.flight n = some { a with
      lanes := ls, rels := if a.kind = .load then [] else carriedBy own s.strand.rels ls, seqNo := s.strand.seqNo }
    ∧ (∀ x, x ∈ ls → x ∈ lanes)
    ∧ ∀ x y, x ∈ ls → y ∈ ls → x.loc / (if a.creel then 32 else 128) = y.loc / (if a.creel then 32 else 128)

/-- The strand after a trap has been entered (R356): trap.pc is the stop address, the cause and the information are recorded,
trap.mode holds the old mode word of an access or compute strand, trap.flags bit 0 is set, the mode word is 0, and the pc is
trap.handler; the other control registers, every register and the window are unchanged, and no result is outstanding. -/
def Entered (s t : State) (cause : BitVec 8) (info stop : W64) : Prop :=
  Outside s t
    ∧ t.strand.csr = { s.strand.csr with cause := cause, info := info, trapPc := stop, inHandler := true,
                                         trapMode := if s.cur.kind = .seq then s.strand.csr.trapMode else s.strand.mode }
    ∧ t.strand.mode = 0#16 ∧ t.strand.pc = s.strand.csr.handler ∧ t.strand.outs = []
    ∧ KeepsS s t ∧ KeepsP s t ∧ KeepsV s t ∧ KeepsX s t
    ∧ t.strand.vwinBase = s.strand.vwinBase ∧ t.strand.vwinSize = s.strand.vwinSize

/-- The same with a fault address and a lane. -/
def Faulted (s t : State) (cause : BitVec 8) (info addr : W64) (lane : Nat) : Prop :=
  Entered (s.updStrand fun x => { x with csr := { x.csr with faultAddr := addr, faultLane := BitVec.ofNat 6 lane } }) t cause info
    s.strand.pc

/-- A handler may be entered at once: one is set, the strand is not in it, no memory result is outstanding (R34, R356), and trap.handler and
trap.flags are unmarked (R350, R363). -/
abbrev State.canEnter (s : State) : Prop :=
  s.drained = true ∧ s.strand.csr.handler ≠ 0#64 ∧ s.strand.csr.inHandler = false ∧ s.strand.ctlBad.contains 0x050 = false
    ∧ s.strand.ctlBad.contains 0x056 = false

end Sys2Proof.Machine
end

