-- ==== Sys2Proof/Certificates/Slice0/Obligations.lean ====
section
/-! DEFINITION. The statements for the provers, from the numbered rules of the specification. -/

open Sys2Proof Sys2Proof.Machine

/-! ## Encodings (R27, R28) -/

/-- A word of the three-register format: the switch mark, op, d, a and b. -/
def threeReg (w : Bool) (op : BitVec 7) (d a b : BitVec 8) : BitVec 32 := BitVec.ofBool w ++ op ++ d ++ a ++ b
/-- A word of the register-immediate format. -/
def regImm (w : Bool) (op : BitVec 7) (d : BitVec 8) (i : BitVec 16) : BitVec 32 := BitVec.ofBool w ++ op ++ d ++ i
/-- A word of the compare format. -/
def compareWord (w : Bool) (op : BitVec 7) (cond pd : BitVec 4) (a b : BitVec 8) : BitVec 32 :=
  BitVec.ofBool w ++ op ++ cond ++ pd ++ a ++ b
/-- `x` is the word of `i`: the one that `i` encodes to, and, where the fields of `i` are legal, the one from which it is decoded. -/
def HasWord (i : Instr) (x : BitVec 32) : Prop := encode i = some x ∧ (i.wellFormed = true → decodeWord x = some i)

/-! ## Scalar instructions (R101 to R107, R42) -/

/-- R101, R102: a three-register scalar instruction whose operands carry no poison mark completes, with the table's result as
its only result; a write of s0 is discarded. R103: a register-immediate scalar instruction completes, with the table's result
as its only result. R104: a sun instruction completes, with the table's result as its only result. Each has the word that R101,
R103 and R104 give it. -/
def Obligations.ScalarArithmetic : Prop :=
  (∀ (s : State) (w : Bool) (d a b : BitVec 8), s.badUse [.s a.toNat, .s b.toNat] = none →
    let A := s.readS a.toNat
    let B := s.readS b.toNat
    ∀ e ∈ ([(.add w d a b, A + B), (.sub w d a b, A - B), (.mul w d a b, A * B),
        (.mulh w d a b, (A.signExtend 128 * B.signExtend 128).extractLsb' 64 64),
        (.mulhu w d a b, (A.setWidth 128 * B.setWidth 128).extractLsb' 64 64),
        (.and w d a b, A &&& B), (.or w d a b, A ||| B), (.xor w d a b, A ^^^ B),
        (.sll w d a b, A <<< (B.toNat % 64)), (.srl w d a b, A >>> (B.toNat % 64)),
        (.sra w d a b, A.sshiftRight (B.toNat % 64)),
        (.slt w d a b, if A.toInt < B.toInt then 1#64 else 0#64), (.sltu w d a b, if A.toNat < B.toNat then 1#64 else 0#64),
        (.div w d a b, if B = 0#64 then BitVec.allOnes 64 else BitVec.ofInt 64 (A.toInt.tdiv B.toInt)),
        (.divu w d a b, if B = 0#64 then BitVec.allOnes 64 else BitVec.ofNat 64 (A.toNat / B.toNat)),
        (.rem w d a b, if B = 0#64 then A else BitVec.ofInt 64 (A.toInt.tmod B.toInt))] : List (Instr × W64)),
      ∃ t, exec e.1 s = .next t ∧ ScalarResult s t w d.toNat e.2)
  ∧ (∀ (s : State) (w : Bool) (d : BitVec 8) (i : BitVec 16), s.badUse [.s d.toNat] = none →
    let D := s.readS d.toNat
    ∀ e ∈ ([(.addi w d i, D + i.signExtend 64), (.movi w d i, i.signExtend 64), (.orhi w d i, (D <<< 16) ||| i.setWidth 64),
        (.andi w d i, D &&& i.signExtend 64),
        (.remu w d i, if i = 0#16 then D else BitVec.ofNat 64 (D.toNat % i.toNat))] : List (Instr × W64)),
      ∃ t, exec e.1 s = .next t ∧ ScalarResult s t w d.toNat e.2)
  ∧ (∀ (s : State) (w : Bool) (d a : BitVec 8), s.badUse [.s a.toNat] = none →
    let A := s.readS a.toNat
    ∀ e ∈ ([(.sunClz w d a, BitVec.ofNat 64 (((List.range 64).find? fun i => A.getLsbD (63 - i)).getD 64)),
        (.sunCtz w d a, BitVec.ofNat 64 (((List.range 64).find? fun i => A.getLsbD i).getD 64)),
        (.sunPopc w d a, BitVec.ofNat 64 ((List.range 64).filter fun i => A.getLsbD i).length),
        (.sunSext8 w d a, (A.setWidth 8).signExtend 64), (.sunSext16 w d a, (A.setWidth 16).signExtend 64),
        (.sunSext32 w d a, (A.setWidth 32).signExtend 64), (.sunZext8 w d a, BitVec.ofNat 64 (A.toNat % 2 ^ 8)),
        (.sunZext16 w d a, BitVec.ofNat 64 (A.toNat % 2 ^ 16)), (.sunZext32 w d a, BitVec.ofNat 64 (A.toNat % 2 ^ 32)),
        (.sunNeg w d a, -A), (.sunNot w d a, ~~~A)] : List (Instr × W64)),
      ∃ t, exec e.1 s = .next t ∧ ScalarResult s t w d.toNat e.2)
  ∧ (∀ (w : Bool) (d a b : BitVec 8) (i : BitVec 16),
    (∀ e ∈ ([(.add w d a b, 0), (.sub w d a b, 1), (.mul w d a b, 2), (.mulh w d a b, 3), (.mulhu w d a b, 4), (.and w d a b, 5), (.or w d a b, 6), (.xor w d a b, 7), (.sll w d a b, 8), (.srl w d a b, 9), (.sra w d a b, 10), (.slt w d a b, 11), (.sltu w d a b, 12), (.div w d a b, 13), (.divu w d a b, 14), (.rem w d a b, 15)] : List (Instr × BitVec 7)), HasWord e.1 (threeReg w e.2 d a b))
    ∧ (∀ e ∈ ([(.addi w d i, 16), (.movi w d i, 17), (.orhi w d i, 18), (.andi w d i, 19), (.remu w d i, 20)] : List (Instr × BitVec 7)), HasWord e.1 (regImm w e.2 d i))
    ∧ ∀ e ∈ ([(.sunClz w d a, 0), (.sunCtz w d a, 1), (.sunPopc w d a, 2), (.sunSext8 w d a, 3), (.sunSext16 w d a, 4), (.sunSext32 w d a, 5), (.sunZext8 w d a, 6), (.sunZext16 w d a, 7), (.sunZext32 w d a, 8), (.sunNeg w d a, 9), (.sunNot w d a, 10)] : List (Instr × BitVec 8)), HasWord e.1 (threeReg w 0x16 d a e.2))

/-! ## MODE, control registers and traps (R34 to R36, R134 to R136, R255, R352 to R358, R362, R367) -/

/-- R34, R352, R355, R356: sys.trap raises the software trap with the immediate as trap.info and the next word as the stop
address. With a handler to enter and no memory result outstanding the strand is in its handler; with one outstanding it stands,
blocked and with the trap on its way, its registers unchanged. R34, R356: once the results that were outstanding have returned,
the strand's next turn enters the trap that was on its way, and no instruction runs before it. -/
def Obligations.SoftwareTraps : Prop :=
  (∀ (s : State) (w : Bool) (i : BitVec 16),
    (s.canEnter → ∃ t, exec (.sysTrap w i) s = .next t ∧ Entered s t 3#8 (i.setWidth 64) (s.strand.pc + 4#64))
    ∧ (s.drained = false → ∃ t, exec (.sysTrap w i) s = .next t ∧ Outside s t
      ∧ t.strand.pendTrap = some ⟨3, some (i.setWidth 64), none, none, s.strand.pc + 4#64⟩ ∧ t.strand.blocked = true
      ∧ t.strand.pc = s.strand.pc ∧ KeepsS s t ∧ KeepsP s t ∧ KeepsV s t ∧ KeepsX s t ∧ t.strand.csr = s.strand.csr))
  ∧ (∀ (s : State) (k : Nat) (ts : List Turn) (trap : TrapRec), s.turns = .strand k .access :: ts →
    let u := ({ s with turns := ts } : State).withCur k .access
    u.mayRun = true → u.strand.pendTrap = some trap →
      (u.drained = true → step s = .next (u.enterTrap trap).tick) ∧ (u.drained = false → step s = .next u.tick))

/-- R358: a trap of a strand without a handler, or already in it, is logged as kind 1 with the cause, the place, the launch,
the stop address, the fault address and the information, and the unit's graph is cancelled. Said of sys.trap. R255, R357, R362:
in a handler sys.ret, where the trap registers that it reads carry no error mark, puts back the pc from trap.pc and the mode
word from trap.mode, clears trap.flags bit 0 and changes no other register of an access or compute strand; outside one it ends
the strand, or, where a store error is pending, takes the store-failure trap first. -/
def Obligations.UnhandledTrapsAndReturn : Prop :=
  (∀ (s : State) (w : Bool) (i : BitVec 16), s.drained = true → s.strand.csr.handler = 0#64 ∨ s.strand.csr.inHandler = true →
    let x := s.unit s.curUnit
    let entry : LogEntry :=
      { kind := 1, cause := 3, cluster := s.curCluster, core := if s.cur.kind = .seq then 0xFF else s.cur.wave % 32 / 8,
        slot := if s.cur.kind = .seq then 0xFF else s.cur.wave % 8,
        strand := if s.cur.kind = .access then 0 else if s.cur.kind = .compute then 1 else 2, die := dieOfCluster s.curCluster,
        launch := x.launch, pc := (s.strand.pc + 4#64).toNat, addr := s.strand.csr.faultAddr.toNat, info := i.toNat }
    let logged := s.logError x.part entry
    exec (.sysTrap w i) s
      = .next (logged.cancelGraph x.part (SMap.get Launch.empty (logged.part x.part).launches x.launch).graph))
  ∧ (∀ (s : State) (w : Bool), s.cur.kind ≠ .seq →
    (s.strand.csr.inHandler = true → s.badUse [.ctl 0x051, .ctl 0x054, .ctl 0x056] = none →
      ∃ t, exec (.sysRet w) s = .next t ∧ t.strand.mode = s.strand.csr.trapMode
      ∧ t.strand.csr = { s.strand.csr with inHandler := false } ∧ t.strand.ctlBad = (s.strand.clearCtl 0x020).ctlBad
      ∧ GoesTo s (t.updStrand fun x => { x with mode := s.strand.mode, csr := s.strand.csr, ctlBad := s.strand.ctlBad }) w s.strand.csr.trapPc)
    ∧ (s.strand.csr.inHandler = false → s.strand.storeErr = none → ∃ t, exec (.sysRet w) s = .next t ∧ t.strand.ended = true
      ∧ GoesTo s (t.updStrand fun x => { x with ended := s.strand.ended }) w (s.strand.pc + 4#64))
    ∧ (∀ a, s.strand.storeErr = some a → s.canEnter →
      ∃ t, exec (.sysRet w) s = .next t ∧ t.strand.storeErr = none ∧ t.strand.csr.faultAddr = a
        ∧ Entered (s.updStrand fun x => { x with csr := { x.csr with faultAddr := a } }) t 0x0C#8 0#64 s.strand.pc))

/-- R353, R355: sys.csrr reads a control register that carries no error mark into a scalar register, as its only result: the
mode word, vwin, status.pre, status.brk, the trap and fault registers, cycle, and the sequencer's registers. status.pre shows a
request to leave, and not a debugger's stop (why 2). R24, R25, R132, R355: sys.csrr of a launch constant, of the strand's own
wave in an access or compute strand and of the client's in the sequencer: the wave and group index, the place (cluster, core,
slot and die), and for the others the constant of its unit, or what a debugger has written for it in the header of the wave's
workgroup (R375; log entry 27's reading). A sequencer whose client is none, or a slot without a wave of its owner, reads 0. -/
def Obligations.ControlReads : Prop :=
  (∀ (s : State) (w : Bool) (r : BitVec 6),
    let c := s.strand.csr
    let u := s.unit s.curUnit
    let q := (s.cluster s.curCluster).seq
    ∀ e ∈ ([(0x020, s.strand.mode.setWidth 64), (0x021, (s.strand.vwinBase ++ s.strand.vwinSize).setWidth 64),
        (0x040, if u.preReq ∧ u.why ≠ 2 then BitVec.ofNat 64 (1 + (u.deadline - s.cycle) % 2 ^ 32 * 2 ^ 32) else 0#64),
        (0x041, if c.brk then 1#64 else 0#64), (0x050, c.handler), (0x051, c.trapPc), (0x052, c.cause.setWidth 64),
        (0x053, c.info), (0x054, c.trapMode.setWidth 64), (0x055, c.scratch), (0x056, if c.inHandler then 1#64 else 0#64),
        (0x058, c.faultAddr), (0x059, c.faultEaddr), (0x05A, c.faultLane.setWidth 64),
        (0x060, BitVec.ofNat 64 (s.cycle - (s.part u.part).startCycle)), (0x1C2, q.client.setWidth 64),
        (0x1C3, BitVec.ofNat 64 q.flight.length), (0x1C4, BitVec.ofNat 64 q.tiles)] : List (BitVec 10 × W64)),
      s.badUse [.ctl e.1.toNat] = none → ∃ t, exec (.sysCsrr w r e.1) s = .next t ∧ ScalarResult s t w r.toNat e.2)
  ∧ (∀ (s : State) (w : Bool) (r : BitVec 6) (n : BitVec 10), n.toNat < 32 → s.badUse [.ctl n.toNat] = none →
    let of := fun (k : Nat) =>
      let u := s.unit (s.wave k).unit
      let fixed := fun (x : W64) => SMap.get x u.lcSet (32 * (s.wave k).group + n.toNat)
      if n = 7#10 then BitVec.ofNat 64 (s.wave k).index else if n = 8#10 then fixed (BitVec.ofNat 64 (s.wave k).group)
      else if n = 11#10 then BitVec.ofNat 64 (k / 32) else if n = 12#10 then BitVec.ofNat 64 (k % 32 / 8)
      else if n = 13#10 then BitVec.ofNat 64 (k % 8) else if n = 14#10 then (if k / 32 < 144 then 0#64 else 1#64)
      else fixed (SMap.get 0#64 u.lc n.toNat)
    let q := (s.cluster s.curCluster).seq
    let k := 32 * s.curCluster + q.client.toNat
    ∃ t, exec (.sysCsrr w r n) s = .next t ∧ ScalarResult s t w r.toNat
      (if s.cur.kind ≠ .seq then of s.cur.wave
        else if q.client.toNat < 32 ∧ (s.wave k).live = true ∧ (s.wave k).unit = q.owner ∧ q.owner ≠ 0 then of k else 0#64))

/-- R353 to R355: sys.csrw, sys.csrs and sys.csrc put the operand into a control register, set its bits or clear them, before
the next instruction issues: trap.handler without bits 1:0, trap.pc, trap.scratch and fault.eaddr. A write of any other control
register that these three instructions reach is discarded. The two that read the register need it free of an error mark (R363);
what is written loses its mark. R40, R354: the control registers with a rule of their own. vwin: a size of 129 to 255 is stored
as 128 and the base modulo the stored size; trap.mode: an unassigned type or rounding mode and the must-be-zero bits are stored
as 0; sys.csrc on status.brk clears it where the operand's bit 0 is 1. A register that is read needs to be free of an error
mark; what is written whole loses its mark. -/
def Obligations.ControlWrites : Prop :=
  (∀ (s : State) (w : Bool) (r : BitVec 6), s.badUse [.s r.toNat] = none →
    let x := s.readS r.toNat
    let c := s.strand.csr
    let marked := fun (n : BitVec 10) => s.strand.ctlBad.contains n.toNat
    ∀ e ∈ ([(Instr.sysCsrw w r, fun _ => x, true), (Instr.sysCsrs w r, fun v => v ||| x, false),
        (Instr.sysCsrc w r, fun v => v &&& ~~~x, false)] : List ((BitVec 10 → Instr) × (W64 → W64) × Bool)),
      let puts := fun (n : BitVec 10) (d : Csrs) => (e.2.2 = true ∨ marked n = false) → ∃ t, exec (e.1 n) s = .next t ∧ t.strand.csr = d
        ∧ t.strand.ctlBad = (s.strand.clearCtl n.toNat).ctlBad
        ∧ GoesTo s (t.updStrand fun y => { y with csr := c, ctlBad := s.strand.ctlBad }) w (s.strand.pc + 4#64)
      puts 0x050 { c with handler := e.2.1 c.handler &&& ~~~3#64 } ∧ puts 0x051 { c with trapPc := e.2.1 c.trapPc }
      ∧ puts 0x055 { c with scratch := e.2.1 c.scratch } ∧ puts 0x059 { c with faultEaddr := e.2.1 c.faultEaddr }
      ∧ (∀ n : BitVec 10, n ∉ [0x050, 0x051, 0x055, 0x059] → e.2.2 = true ∨ marked n = false →
        ∃ t, exec (e.1 n) s = .next t ∧ GoesTo s t w (s.strand.pc + 4#64)))
  ∧ (∀ (s : State) (w : Bool) (o : CsrOp) (r : BitVec 6), s.badUse [.s r.toNat] = none →
    let x := s.readS r.toNat
    let readable := fun (n : Nat) => o = .write ∨ s.strand.ctlBad.contains n = false
    let put := fun (old : W64) => match o with
      | .write => x
      | .set => old ||| x
      | .clear => old &&& ~~~x
    let v := put ((s.strand.vwinBase ++ s.strand.vwinSize).setWidth 64)
    let size := min 128 (v.toNat % 256)
    let m := (put (s.strand.csr.trapMode.setWidth 64)).setWidth 16
    let type := if 8#4 < m.extractLsb' 8 4 then 0#4 else m.extractLsb' 8 4
    let round := if 4#3 < m.extractLsb' 5 3 then 0#3 else m.extractLsb' 5 3
    (readable 0x021 → ∃ t, exec (.vwin w o r) s = .next t ∧ t.strand.vwinSize = BitVec.ofNat 8 size
      ∧ t.strand.vwinBase = (if size = 0 then 0#8 else BitVec.ofNat 8 (v.toNat / 256 % 256 % size))
      ∧ t.strand.ctlBad = (s.strand.clearCtl 0x021).ctlBad
      ∧ GoesTo s (t.updStrand fun y => { y with vwinBase := s.strand.vwinBase, vwinSize := s.strand.vwinSize, ctlBad := s.strand.ctlBad }) w
          (s.strand.pc + 4#64))
    ∧ (readable 0x054 → ∃ t, exec (.trapMode w o r) s = .next t
      ∧ t.strand.csr = { s.strand.csr with trapMode := m.extractLsb' 12 4 ++ type ++ round ++ m.extractLsb' 3 2 ++ 0#3 }
      ∧ t.strand.ctlBad = (s.strand.clearCtl 0x054).ctlBad
      ∧ GoesTo s (t.updStrand fun y => { y with csr := s.strand.csr, ctlBad := s.strand.ctlBad }) w (s.strand.pc + 4#64))
    ∧ (s.strand.ctlBad.contains 0x041 = false →
      ∃ t, exec (.statusBrk w r) s = .next t ∧ t.strand.csr = { s.strand.csr with brk := s.strand.csr.brk && !x.getLsbD 0 }
      ∧ GoesTo s (t.updStrand fun y => { y with csr := s.strand.csr }) w (s.strand.pc + 4#64)))

/-! ## Address vectors, vectors and predicates (R98 to R128) -/

/-- R99, R110: an integer vector instruction completes: each element of each active lane is the table's value of the elements of the
sources, of the width and signedness of the mode word's type, wrapped or clamped by its sat bit where the table refers to R78;
nothing else changes. -/
def Obligations.VectorIntegerArithmetic : Prop :=
  ∀ (s : State) (w : Bool) (d a b : BitVec 8),
    let n := (intType s.strand.etype).1
    let sg := (intType s.strand.etype).2
    let fit := fitInt n sg s.strand.sat
    let low := fun (x : Int) => (x % 2 ^ n).toNat
    let E := fun (r : BitVec 8) l k => intVal n sg (elemOf n k (Lanes.get32 (s.vec r.toNat) l))
    (s.badUse [s.useGuard, s.useV a.toNat, s.useV b.toNat] = none →
      ∀ e ∈ ([(.vadd w d a b, fun x y => fit (x + y)), (.vsub w d a b, fun x y => fit (x - y)),
          (.vmul w d a b, fun x y => fit (x * y)), (.vmulh w d a b, fun x y => low (x * y / 2 ^ n)),
          (.vmin w d a b, fun x y => low (min x y)), (.vmax w d a b, fun x y => low (max x y)),
          (.vshl w d a b, fun x y => low (x * 2 ^ (y % n).toNat)), (.vshr w d a b, fun x y => low (x / 2 ^ (y % n).toNat)),
          (.vabsd w d a b, fun x y => (x - y).natAbs)] : List (Instr × (Int → Int → Nat))),
        ∃ t f, exec e.1 s = .next t ∧ VecResult s t w d.toNat s.guard f
          ∧ ∀ l k, l < 64 → k < 32 / n → elemOf n k (f l) = e.2 (E a l k) (E b l k))
    ∧ (s.badUse [s.useGuard, s.useV a.toNat, s.useV b.toNat, s.useV d.toNat] = none →
      ∃ t f, exec (.vmac w d a b) s = .next t ∧ VecResult s t w d.toNat s.guard f
        ∧ ∀ l k, l < 64 → k < 32 / n → elemOf n k (f l) = fit (E d l k + E a l k * E b l k))

/-- R83, R99, R117 to R119: a float instruction completes: each element of each active lane is the exact value rounded once by the mode
word's rounding field, inputs and result flushed where flush is set; the difference of two zeros is +0, and -0 in mode 2; fmin and fmax give
one of their inputs as read; fun.neg and fun.abs act on the sign bit alone. Nothing else changes. That the flush bit acts under an integer
type too, which is read as f32, is the model's choice (log entry 60). -/
def Obligations.FloatArithmetic : Prop :=
  ∀ (s : State) (w : Bool) (d a b : BitVec 8),
    let F := floatType s.strand.etype
    let m := s.strand.rmode
    let z := s.strand.flush
    let round := fun v => F.result m z v
    let C := fun (r : BitVec 8) l k => elemOf F.width k (Lanes.get32 (s.vec r.toNat) l)
    let V := fun r l k => F.input z (C r l k)
    let gives := fun (i : Instr) (v : Nat → Nat → Nat) => ∃ t f, exec i s = .next t ∧ VecResult s t w d.toNat s.guard f
      ∧ ∀ l k, l < 64 → k < 32 / F.width → elemOf F.width k (f l) = v l k % 2 ^ F.width
    (s.badUse [s.useGuard, s.useV a.toNat, s.useV b.toNat] = none →
      gives (.fadd w d a b) (fun l k => round (Fp.add m (V a l k) (V b l k)))
      ∧ gives (.fsub w d a b) (fun l k => round (match V a l k, V b l k with
          | .fin _ 0 _, .fin _ 0 _ => .fin (m == 2) 0 0
          | x, y => Fp.add m x y.neg))
      ∧ gives (.fmul w d a b) (fun l k => round (Fp.mul (V a l k) (V b l k)))
      ∧ gives (.fmin w d a b) (fun l k => if (V a l k).isNan ∧ (V b l k).isNan then F.nanCode
          else if (V b l k).isNan ∨ (¬ (V a l k).isNan ∧ Fp.less (V b l k) (V a l k) = false) then F.flush z (C a l k)
          else F.flush z (C b l k))
      ∧ gives (.fmax w d a b) (fun l k => if (V a l k).isNan ∧ (V b l k).isNan then F.nanCode
          else if (V b l k).isNan ∨ (¬ (V a l k).isNan ∧ Fp.less (V a l k) (V b l k) = false) then F.flush z (C a l k)
          else F.flush z (C b l k)))
    ∧ (s.badUse [s.useGuard, s.useV a.toNat, s.useV b.toNat, s.useV d.toNat] = none →
      gives (.fma w d a b) (fun l k => round (Fp.add m (Fp.mul (V a l k) (V b l k)) (V d l k))))
    ∧ (s.badUse [s.useGuard, s.useV a.toNat] = none →
      gives (.funNeg w d a) (fun l k => C a l k ^^^ 2 ^ (F.width - 1))
      ∧ gives (.funAbs w d a) (fun l k => C a l k % 2 ^ (F.width - 1))
      ∧ gives (.funSqrt w d a) (fun l k => round (Fp.sqrt (V a l k)))
      ∧ gives (.funRint w d a) (fun l k => match V a l k with
          | .fin neg x e => round (.fin neg (roundInt m neg x e) 0)
          | v => round v))

/-- R88 to R91, R94, R120: cvt completes; converting between two integer types, each element is the source element wrapped, or
clamped where sat is set; to an integer type from a float type, a NaN gives 0 and any other value is rounded and then clamped;
to a float type, the source's value, flushed as an input where it is a float, is rounded to the target, which sat saturates,
and flushed; a target element without a source element is 0. Nothing else changes. R121, R122: a special function completes; of
binary32 elements, without flush, the zeros, the infinities and the NaNs give the values of R122's table: per function those of
+0, −0, +infinity, −infinity and any NaN; sinpi and cospi of integers and of integers and a half, exp2 from 128 up, from −150
down and of the integers between, log2 of the powers of 2, and the NaN of log2 and rsqrt below 0. Nothing else changes. -/
def Obligations.ConversionsAndFunctions : Prop :=
  (∀ (s : State) (w : Bool) (d a c : BitVec 8), s.badUse [s.useGuard, s.useV a.toNat] = none →
    let t0 := s.strand.etype
    let n := (intType t0).1
    let u := (intType c.toNat).1
    let E := fun l k => elemOf n k (Lanes.get32 (s.vec a.toNat) l)
    ∃ t f, exec (.cvt w d a c) s = .next t ∧ VecResult s t w d.toNat s.guard f
      ∧ ∀ l k, l < 64 → k < 32 / u →
        (32 / n ≤ k → elemOf u k (f l) = 0)
        ∧ (k < 32 / n → isFloatType c.toNat = false → isFloatType t0 = false →
          elemOf u k (f l) = fitInt u (intType c.toNat).2 s.strand.sat (intVal n (intType t0).2 (E l k)))
        ∧ (k < 32 / n → isFloatType c.toNat = false → isFloatType t0 = true →
          elemOf u k (f l) = match (floatType t0).input s.strand.flush (E l k) with
            | .nan => 0
            | .inf neg => wrapInt u (if neg then intMin u (intType c.toNat).2 else intMax u (intType c.toNat).2)
            | .fin neg x e => clampInt u (intType c.toNat).2
                (if neg then -(roundInt s.strand.rmode neg x e : Int) else roundInt s.strand.rmode neg x e))
        ∧ (k < 32 / n → isFloatType c.toNat = true →
          let v := if isFloatType t0 then (floatType t0).input s.strand.flush (E l k)
            else .fin (decide (intVal n (intType t0).2 (E l k) < 0)) (intVal n (intType t0).2 (E l k)).natAbs 0
          elemOf u k (f l) = (floatType c.toNat).flush s.strand.flush ((floatType c.toNat).round s.strand.rmode s.strand.sat v)))
  ∧ (∀ (s : State) (w : Bool) (d a : BitVec 8), s.badUse [s.useGuard, s.useV a.toNat] = none →
    let X := fun l => Lanes.get32 (s.vec a.toNat) l
    let isHalves := fun (m : Nat) (x : Int) (h : Nat) => m * 2 ^ (x + 1).toNat = h * 2 ^ (-(x + 1)).toNat
    let is := fun (m : Nat) (x : Int) (n : Nat) => m * 2 ^ x.toNat = n * 2 ^ (-x).toNat
    let atLeast := fun (m : Nat) (x : Int) (n : Nat) => n * 2 ^ (-x).toNat ≤ m * 2 ^ x.toNat
    let sinpi := fun (neg : Bool) (m : Nat) (x : Int) (y : W32) => ∀ h, isHalves m x h →
      (h % 2 = 0 → y = if neg then 0x80000000#32 else 0x00000000#32)
      ∧ (h % 2 = 1 → y = if neg = decide (h % 4 = 3) then 0x3F800000#32 else 0xBF800000#32)
    let cospi := fun (_ : Bool) (m : Nat) (x : Int) (y : W32) => ∀ h, isHalves m x h →
      (h % 4 = 0 → y = 0x3F800000#32) ∧ (h % 4 = 2 → y = 0xBF800000#32) ∧ (h % 2 = 1 → y = 0x00000000#32)
    let exp2 := fun (neg : Bool) (m : Nat) (x : Int) (y : W32) =>
      (neg = false → atLeast m x 128 → y = 0x7F800000#32) ∧ (neg = true → atLeast m x 150 → y = 0x00000000#32)
      ∧ ∀ n, is m x n → (neg = false → n ≤ 127 → y = BitVec.ofNat 32 ((127 + n) * 2 ^ 23))
        ∧ (neg = true → n ≤ 126 → y = BitVec.ofNat 32 ((127 - n) * 2 ^ 23))
        ∧ (neg = true → 127 ≤ n → n ≤ 149 → y = BitVec.ofNat 32 (2 ^ (149 - n)))
    let log2 := fun (neg : Bool) (m : Nat) (x : Int) (y : W32) => (neg = true → y = 0x7FC00000#32)
      ∧ ∀ p : Nat, neg = false → m = 2 ^ p → (p + x = 0 → y = 0x00000000#32)
        ∧ (p + x ≠ 0 → ∃ m' x', Fmt.b32.val y.toNat = .fin (decide (p + x < 0)) m' x' ∧ is m' x' (p + x).natAbs)
    let rsqrt := fun (neg : Bool) (_ : Nat) (_ : Int) (y : W32) => neg = true → y = 0x7FC00000#32
    let any := fun (_ : Bool) (_ : Nat) (_ : Int) (_ : W32) => True
    ∀ e ∈ ([(.sfuSinpi w d a, 0x00000000, 0x80000000, 0x7FC00000, 0x7FC00000, sinpi),
        (.sfuCospi w d a, 0x3F800000, 0x3F800000, 0x7FC00000, 0x7FC00000, cospi),
        (.sfuExp2 w d a, 0x3F800000, 0x3F800000, 0x7F800000, 0x00000000, exp2),
        (.sfuLog2 w d a, 0xFF800000, 0xFF800000, 0x7F800000, 0x7FC00000, log2),
        (.sfuRcp w d a, 0x7F800000, 0xFF800000, 0x00000000, 0x80000000, any),
        (.sfuRsqrt w d a, 0x7F800000, 0xFF800000, 0x00000000, 0x7FC00000, rsqrt)]
        : List (Instr × W32 × W32 × W32 × W32 × (Bool → Nat → Int → W32 → Prop))),
      ∃ t f, exec e.1 s = .next t ∧ VecResult s t w d.toNat s.guard f
        ∧ (s.strand.etype = 2 → s.strand.flush = false → ∀ l,
            (X l = 0x00000000#32 → f l = e.2.1) ∧ (X l = 0x80000000#32 → f l = e.2.2.1)
            ∧ (X l = 0x7F800000#32 → f l = e.2.2.2.1) ∧ (X l = 0xFF800000#32 → f l = e.2.2.2.2.1)
            ∧ (∀ neg m x, Fmt.b32.val (X l).toNat = .fin neg m x → m ≠ 0 → e.2.2.2.2.2 neg m x (f l))
            ∧ (Fmt.b32.val (X l).toNat = .nan → f l = 0x7FC00000#32)))

/-- Lane `l` is the first that `g` makes active. -/
def FirstLane (g : W64) (l : Nat) : Prop := l < 64 ∧ maskBit g l = true ∧ ∀ j, j < l → maskBit g j = false
/-- Lane `l'` is the next active lane after the active lane `l`. -/
def NextLane (g : W64) (l l' : Nat) : Prop :=
  l < l' ∧ l' < 64 ∧ maskBit g l = true ∧ maskBit g l' = true ∧ ∀ j, l < j → j < l' → maskBit g j = false

/-- R123: a scan completes: in each element position there is a running value that starts at the first active lane's element as
read and takes one step of the operation at each later active lane; an inclusive scan writes it to each active lane, an
exclusive scan writes the value before the step, and the identity to the first active lane. Nothing else changes. R124: a
reduction completes: bits 31:0 of the scalar hold, in each element position, the running value of R123 at the last active lane,
or the identity where no lane is active; bits 63:32 copy bit 31 for i32 and are 0 for every other type. Nothing else changes. -/
def Obligations.ScansAndReductions : Prop :=
  (∀ (s : State) (w : Bool) (d a : BitVec 8), s.badUse [s.useGuard, s.useV a.toNat] = none →
    let t0 := s.strand.etype
    let g := s.guard
    ∀ e ∈ ([(.scanAdd w d a, .add, false), (.scanMin w d a, .min, false), (.scanMax w d a, .max, false),
        (.scanAnd w d a, .and, false), (.scanOr w d a, .or, false), (.scanXor w d a, .xor, false),
        (.scanAddx w d a, .add, true), (.scanMinx w d a, .min, true), (.scanMaxx w d a, .max, true),
        (.scanAndx w d a, .and, true), (.scanOrx w d a, .or, true), (.scanXorx w d a, .xor, true)]
        : List (Instr × ScanOp × Bool)),
      let o := e.2.1
      let n := o.width t0
      ∃ t f, exec e.1 s = .next t ∧ VecResult s t w d.toNat g f ∧ ∀ k, k < 32 / n →
        let x := fun l => o.input t0 s.strand.flush (elemOf n k (Lanes.get32 (s.vec a.toNat) l))
        ∃ acc : Nat → Nat,
          (∀ l, FirstLane g l → acc l = x l)
          ∧ (∀ l l', NextLane g l l' →
              acc l' = o.step t0 s.strand.rmode s.strand.sat s.strand.flush (acc l) (x l'))
          ∧ (∀ l, l < 64 → maskBit g l = true → e.2.2 = false → elemOf n k (f l) = acc l % 2 ^ n)
          ∧ (∀ l, FirstLane g l → e.2.2 = true → elemOf n k (f l) = o.identity t0 % 2 ^ n)
          ∧ (∀ l l', NextLane g l l' → e.2.2 = true → elemOf n k (f l') = acc l % 2 ^ n))
  ∧ (∀ (s : State) (w : Bool) (d a : BitVec 8), s.badUse [s.useGuard, s.useV a.toNat] = none →
    let t0 := s.strand.etype
    let g := s.guard
    ∀ e ∈ ([(.vredAdd w d a, .add), (.vredMin w d a, .min), (.vredMax w d a, .max), (.vredAnd w d a, .and),
        (.vredOr w d a, .or), (.vredXor w d a, .xor)] : List (Instr × ScanOp)),
      let o := e.2
      let n := o.width t0
      ∃ t, ∃ r : W32, exec e.1 s = .next t
        ∧ ScalarResult s t w d.toNat (if t0 = 0 then r.signExtend 64 else r.setWidth 64)
        ∧ ∀ k, k < 32 / n →
          let x := fun l => o.input t0 s.strand.flush (elemOf n k (Lanes.get32 (s.vec a.toNat) l))
          (g = 0#64 → elemOf n k r = o.identity t0 % 2 ^ n)
          ∧ ∃ acc : Nat → Nat,
            (∀ l, FirstLane g l → acc l = x l)
            ∧ (∀ l l', NextLane g l l' →
                acc l' = o.step t0 s.strand.rmode s.strand.sat s.strand.flush (acc l) (x l'))
            ∧ (∀ l, l < 64 → maskBit g l = true → (∀ j, l < j → j < 64 → maskBit g j = false) →
                elemOf n k r = acc l % 2 ^ n))

/-- R30, R33: a scalar register read at issue gives the newest value where no result for it is outstanding, and otherwise that
value or one of the whole values that an outstanding result replaced; s0 reads 0. R30, R33, R98: a vector register, an address
vector and a predicate read at issue give in each lane the newest element, or one of those that an outstanding result replaced;
p0 reads all ones. -/
def Obligations.ReadsAtIssue : Prop :=
  (∀ (s : State) (r : Nat),
    s.readS 0 = 0#64
    ∧ ((∀ q v m, OutReg.s q v m ∈ s.strand.outs → q ≠ r) → s.readS r = s.strand.sreg r)
    ∧ (s.readS r = s.strand.sreg r ∨ ∃ m, OutReg.s r (s.readS r) m ∈ s.strand.outs))
  ∧ (∀ (s : State) (r l : Nat), l < 64 →
    s.readP 0 = BitVec.allOnes 64
    ∧ (Lanes.get32 (s.readV r) l = Lanes.get32 (s.curWave.vreg r) l
      ∨ ∃ old m, OutReg.v r old m ∈ s.strand.outs ∧ Lanes.get32 (s.readV r) l = Lanes.get32 old l)
    ∧ (Lanes.get64 (s.readX r) l = Lanes.get64 (s.curWave.xreg r) l
      ∨ ∃ old m, OutReg.x r old m ∈ s.strand.outs ∧ Lanes.get64 (s.readX r) l = Lanes.get64 old l)
    ∧ (maskBit (s.readP r) l = maskBit (s.strand.preg r) l
      ∨ ∃ old m, OutReg.p r old m ∈ s.strand.outs ∧ maskBit (s.readP r) l = maskBit old l))

/-- R105: a conditional branch completes: to the branch's own address plus 4 times the sign-extended offset where the condition
holds of the two registers read at issue, and to the next word where it does not; nothing else changes. R106, R107: jmp, call
and jr complete: the target is the instruction's own address plus 4 times the sign-extended offset, or the register read at
issue; the link, the address of the next word, is there at once; a link to s0 is discarded. R42: LOOP completes: with n the
count less 1 modulo 2^64, n is in the count register at once (discarded for s0), the window base of a compute strand with a
window falls by the step modulo its size, and the branch is taken unless n is 0. The rest is as the frame says, the window of
the strand apart. R41: the rotating window: with size n from 1 to 128, register v128 + j for j below n names 128 + ((j + base)
mod n), so that the names of the window are a permutation of its registers, and every other register names itself. R36, R355,
R367: MODE replaces the mode word by the immediate, which clears its error mark; sys.nop issues without a result; sys.yield
leaves an access or compute strand standing yielded exactly while a pre-emption of its unit is requested, which a debugger's
stop (why 2) is not. Nothing else changes. -/
def Obligations.ControlFlow : Prop :=
  (∀ (s : State) (w : Bool) (a b : BitVec 6) (f : BitVec 12), s.badUse [.s a.toNat, .s b.toNat] = none →
    let A := s.readS a.toNat
    let B := s.readS b.toNat
    ∀ e ∈ ([(.beq w a b f, decide (A = B)), (.bne w a b f, decide (A ≠ B)), (.blt w a b f, decide (A.toInt < B.toInt)),
        (.bge w a b f, decide (B.toInt ≤ A.toInt)), (.bltu w a b f, decide (A.toNat < B.toNat)),
        (.bgeu w a b f, decide (B.toNat ≤ A.toNat))] : List (Instr × Bool)),
      ∃ t, exec e.1 s = .next t
        ∧ GoesTo s t w (s.strand.pc + (if e.2 then 4#64 * f.signExtend 64 else 4#64)))
  ∧ (∀ (s : State) (w : Bool) (f : BitVec 24) (d a : BitVec 8),
    (∃ t, exec (.jmp w f) s = .next t ∧ GoesTo s t w (s.strand.pc + 4#64 * f.signExtend 64))
    ∧ (∃ t, exec (.call w f) s = .next t
        ∧ GoesToWith s t w (s.strand.pc + 4#64 * f.signExtend 64) 63 (s.strand.pc + 4#64))
    ∧ (s.badUse [.s a.toNat] = none → ∃ t, exec (.jr w d a) s = .next t
        ∧ GoesToWith s t w (s.readS a.toNat) d.toNat (s.strand.pc + 4#64)))
  ∧ (∀ (s : State) (w : Bool) (a k : BitVec 6) (f : BitVec 12), s.badUse [.s a.toNat] = none →
    let n := s.readS a.toNat - 1#64
    let size := s.strand.vwinSize.toNat
    let base := if s.cur.kind = .compute ∧ size ≠ 0 then
        BitVec.ofNat 8 ((s.strand.vwinBase.toNat + size - k.toNat % size) % size) else s.strand.vwinBase
    ∃ t, exec (.loop w a k f) s = .next t ∧ t.strand.vwinBase = base
      ∧ GoesToWith s (t.updStrand fun x => { x with vwinBase := s.strand.vwinBase }) w
          (s.strand.pc + (if n ≠ 0#64 then 4#64 * f.signExtend 64 else 4#64)) a.toNat n)
  ∧ (∀ (t : Strand) (v : Nat), v < 256 →
    (t.vwinSize = 0#8 → t.phys v = v)
    ∧ (∀ j, j < t.vwinSize.toNat → t.phys (128 + j) = 128 + (j + t.vwinBase.toNat) % t.vwinSize.toNat)
    ∧ (v < 128 ∨ 128 + t.vwinSize.toNat ≤ v → t.phys v = v)
    ∧ (∀ i j, i < t.vwinSize.toNat → j < t.vwinSize.toNat → t.phys (128 + i) = t.phys (128 + j) → i = j))
  ∧ (∀ (s : State) (w : Bool) (i : BitVec 16),
    (∃ t, exec (.mode w i) s = .next t ∧ t.strand.mode = i ∧ t.strand.ctlBad = (s.strand.clearCtl 0x020).ctlBad
      ∧ GoesTo s (t.updStrand fun x => { x with mode := s.strand.mode, ctlBad := s.strand.ctlBad }) w (s.strand.pc + 4#64))
    ∧ (∃ t, exec (.sysNop w) s = .next t ∧ GoesTo s t w (s.strand.pc + 4#64))
    ∧ (∃ t, exec (.sysYield w) s = .next t
      ∧ (s.cur.kind ≠ .seq → t.strand.yielded = ((s.unit s.curUnit).preReq && (s.unit s.curUnit).why != 2)) ∧ (s.cur.kind = .seq → t.strand.yielded = false)
      ∧ GoesTo s (t.updStrand fun x => { x with yielded := s.strand.yielded }) w (s.strand.pc + 4#64)))

/-- R108: an address-vector instruction completes: each active lane of the destination holds the table's value modulo 2^64,
each other lane its old one, and nothing else changes. R109: xcmp completes: each active lane's bit of the predicate is the
condition on the two addresses, each other bit is 0, and nothing else changes; a result for p0 is discarded. Each has the word
that R108 and R109 give it. -/
def Obligations.AddressVectors : Prop :=
  (∀ (s : State) (w : Bool) (d a b : BitVec 8),
    let X := fun r l => Lanes.get64 (s.readX r) l
    let A := s.readS a.toNat
    let B := s.readS b.toNat
    (s.badUse [s.useGuard, s.useX a.toNat, s.useX b.toNat] = none →
      ∃ t, exec (.xadd w d a b) s = .next t ∧ AddrResult s t w d.toNat s.guard fun l => X a.toNat l + X b.toNat l)
    ∧ (s.badUse [s.useGuard, s.useX a.toNat, .s b.toNat] = none →
      ∀ e ∈ ([(.xaddsc w d a b, fun l => X a.toNat l + B), (.xmulsc w d a b, fun l => X a.toNat l * B),
          (.xshl w d a b, fun l => X a.toNat l <<< (B.toNat % 64))] : List (Instr × (Nat → W64))),
        ∃ t, exec e.1 s = .next t ∧ AddrResult s t w d.toNat s.guard e.2)
    ∧ (s.badUse [s.useGuard, .s a.toNat, .s b.toNat] = none →
      ∃ t, exec (.xiota w d a b) s = .next t ∧ AddrResult s t w d.toNat s.guard fun l => A + BitVec.ofNat 64 l * B))
  ∧ (∀ (s : State) (w : Bool) (p : BitVec 4) (a b : BitVec 8), s.badUse [s.useGuard, s.useX a.toNat, s.useX b.toNat] = none →
    let A := fun l => Lanes.get64 (s.readX a.toNat) l
    let B := fun l => Lanes.get64 (s.readX b.toNat) l
    ∀ e ∈ ([(.xcmpEq w p a b, fun l => decide (A l = B l)), (.xcmpNe w p a b, fun l => decide (A l ≠ B l)),
        (.xcmpLt w p a b, fun l => decide ((A l).toInt < (B l).toInt)), (.xcmpGe w p a b, fun l => decide ((B l).toInt ≤ (A l).toInt)),
        (.xcmpLtu w p a b, fun l => decide ((A l).toNat < (B l).toNat)),
        (.xcmpGeu w p a b, fun l => decide ((B l).toNat ≤ (A l).toNat))] : List (Instr × (Nat → Bool))),
      ∃ t m, exec e.1 s = .next t ∧ PredResult s t w p.toNat m ∧ ∀ l, l < 64 → maskBit m l = (maskBit s.guard l && e.2 l))
  ∧ (∀ (w : Bool) (p : BitVec 4) (d a b : BitVec 8),
    (∀ e ∈ ([(.xadd w d a b, 36), (.xaddsc w d a b, 37), (.xmulsc w d a b, 38), (.xshl w d a b, 39), (.xiota w d a b, 40)] : List (Instr × BitVec 7)), HasWord e.1 (threeReg w e.2 d a b))
    ∧ ∀ e ∈ ([(.xcmpEq w p a b, 0), (.xcmpNe w p a b, 1), (.xcmpLt w p a b, 2), (.xcmpGe w p a b, 3), (.xcmpLtu w p a b, 4), (.xcmpGeu w p a b, 5)] : List (Instr × BitVec 4)), HasWord e.1 (compareWord w 0x29 e.2 p a b))

/-- R110, R111, R113: the bitwise vector instructions, vsel and the two loads of a constant complete with the table's value on
all 32 bits; vsel writes every lane, from a where the guard is 1 and from b where it is 0. R99, R112: a vun instruction
completes: in each element of each active lane clz, ffs and popc count bits, with the element width for an element of 0; neg
and abs act on the sign bit of a float type and by R78 on an integer type; not and mov act on 32 bits. Each has the word that
R110 to R113 give it. -/
def Obligations.VectorBits : Prop :=
  (∀ (s : State) (w : Bool) (d a b : BitVec 8) (i : BitVec 16),
    let V := fun (r : BitVec 8) l => Lanes.get32 (s.vec r.toNat) l
    (s.badUse [s.useGuard, s.useV a.toNat, s.useV b.toNat] = none →
      ∀ e ∈ ([(.vand w d a b, fun l => V a l &&& V b l), (.vor w d a b, fun l => V a l ||| V b l),
          (.vxor w d a b, fun l => V a l ^^^ V b l)] : List (Instr × (Nat → W32))),
        ∃ t, exec e.1 s = .next t ∧ VecResult s t w d.toNat s.guard e.2)
    ∧ (s.badUse [s.useGuard, s.useV a.toNat, s.useVM b.toNat (~~~s.guard)] = none →
      ∃ t, exec (.vsel w d a b) s = .next t
        ∧ VecResult s t w d.toNat (BitVec.allOnes 64) fun l => if maskBit s.guard l then V a l else V b l)
    ∧ (s.badUse [s.useGuard] = none →
      ∃ t, exec (.vmovi w d i) s = .next t ∧ VecResult s t w d.toNat s.guard fun _ => i.signExtend 32)
    ∧ (s.badUse [s.useGuard, s.useV d.toNat] = none →
      ∃ t, exec (.vmovhi w d i) s = .next t
        ∧ VecResult s t w d.toNat s.guard fun l => (i.setWidth 32 <<< 16) ||| ((V d l).setWidth 16).setWidth 32))
  ∧ (∀ (s : State) (w : Bool) (d a : BitVec 8), s.badUse [s.useGuard, s.useV a.toNat] = none →
    let t0 := s.strand.etype
    let n := (intType t0).1
    let sg := (intType t0).2
    let fit := fitInt n sg s.strand.sat
    let E := fun l k => elemOf n k (Lanes.get32 (s.vec a.toNat) l)
    (∀ e ∈ ([(.vunClz w d a, fun x => ((List.range n).find? fun i => x.testBit (n - 1 - i)).getD n),
        (.vunFfs w d a, fun x => ((List.range n).find? fun i => x.testBit i).getD n),
        (.vunPopc w d a, fun x => ((List.range n).filter fun i => x.testBit i).length),
        (.vunNeg w d a, fun x => if isFloatType t0 then x ^^^ 2 ^ (n - 1) else fit (-intVal n sg x)),
        (.vunAbs w d a, fun x => if isFloatType t0 then x % 2 ^ (n - 1) else fit (intVal n sg x).natAbs)]
        : List (Instr × (Nat → Nat))),
      ∃ t f, exec e.1 s = .next t ∧ VecResult s t w d.toNat s.guard f
        ∧ ∀ l k, l < 64 → k < 32 / n → elemOf n k (f l) = e.2 (E l k))
    ∧ (∃ t, exec (.vunNot w d a) s = .next t ∧ VecResult s t w d.toNat s.guard fun l => ~~~Lanes.get32 (s.vec a.toNat) l)
    ∧ (∃ t, exec (.vunMov w d a) s = .next t ∧ VecResult s t w d.toNat s.guard fun l => Lanes.get32 (s.vec a.toNat) l))
  ∧ (∀ (w : Bool) (d a b : BitVec 8) (i : BitVec 16),
    (∀ e ∈ ([(.vand w d a b, 0x36), (.vor w d a b, 0x37), (.vxor w d a b, 0x38), (.vsel w d a b, 0x3D)] : List (Instr × BitVec 7)),
      HasWord e.1 (threeReg w e.2 d a b))
    ∧ HasWord (.vmovi w d i) (regImm w 0x49 d i) ∧ HasWord (.vmovhi w d i) (regImm w 0x4A d i)
    ∧ ∀ e ∈ ([(.vunClz w d a, 0), (.vunFfs w d a, 1), (.vunPopc w d a, 2), (.vunNeg w d a, 3), (.vunAbs w d a, 4), (.vunNot w d a, 5), (.vunMov w d a, 6)] : List (Instr × BitVec 8)), HasWord e.1 (threeReg w 0x3E d a e.2))

/-- R125 to R128: the lane movements complete. vperm and vxshuf read v[a] at the lane that v[b], or the lane number xor s[b],
names modulo 64; vbcast forms s[a] + l × s[b] modulo 2^32; vgetr reads in each active lane the register that its index names,
mapped by the window. Nothing else changes. The uses that must carry no mark are the lanes and registers that an active lane
reads. R41, R128: vsetr completes: each active lane writes its lane of v[b] into the register that its lane of v[a] names,
mapped by the window as it stands at issue; every other lane and register, and everything else, is unchanged. Each has the word
that its rule gives it. -/
def Obligations.LaneMoves : Prop :=
  (∀ (s : State) (w : Bool) (d a b : BitVec 8),
    let V := fun (r : BitVec 8) l => Lanes.get32 (s.vec r.toNat) l
    let p := fun l => (V b l).toNat % 64
    let x := fun l => l ^^^ (s.readS b.toNat).toNat % 64
    let reg := fun l => (b.toNat + (V a l).toNat % 256) % 256
    (s.badUse [s.useGuard, s.useVM a.toNat (sourceLanes s.guard p), s.useV b.toNat] = none →
      ∃ t, exec (.vperm w d a b) s = .next t ∧ VecResult s t w d.toNat s.guard fun l => V a (p l))
    ∧ (s.badUse [s.useGuard, s.useVM a.toNat (sourceLanes s.guard x), .s b.toNat] = none →
      ∃ t, exec (.vxshuf w d a b) s = .next t ∧ VecResult s t w d.toNat s.guard fun l => V a (x l))
    ∧ (s.badUse [s.useGuard, .s a.toNat, .s b.toNat] = none →
      ∃ t, exec (.vbcast w d a b) s = .next t ∧ VecResult s t w d.toNat s.guard fun l =>
        BitVec.ofNat 32 ((s.readS a.toNat).toNat + l * (s.readS b.toNat).toNat))
    ∧ (s.badUse ([s.useGuard, s.useV a.toNat] ++ s.tableUses b (s.vec a.toNat)) = none →
      ∃ t, exec (.vgetr w d a b) s = .next t ∧ VecResult s t w d.toNat s.guard fun l => Lanes.get32 (s.vec (reg l)) l))
  ∧ (∀ (s : State) (w : Bool) (d a b : BitVec 8), s.badUse [s.useGuard, s.useV a.toNat, s.useV b.toNat] = none →
    let reg := fun l => s.strand.phys ((d.toNat + (Lanes.get32 (s.vec a.toNat) l).toNat % 256) % 256)
    ∃ t outs, exec (.vsetr w d a b) s = .next t ∧ Outside s t ∧ Issues s t w (s.strand.pc + 4#64) outs
      ∧ KeepsS s t ∧ KeepsP s t ∧ KeepsX s t ∧ Replies s t 0
      ∧ ∀ r l, l < 64 → Lanes.get32 (t.curWave.vreg r) l
            = (if maskBit s.guard l = true ∧ reg l = r then Lanes.get32 (s.vec b.toNat) l else Lanes.get32 (s.curWave.vreg r) l)
          ∧ maskBit (SMap.get 0#64 t.curWave.vPoison r) l
            = (maskBit (SMap.get 0#64 s.curWave.vPoison r) l && !(maskBit s.guard l && reg l == r)))
  ∧ (∀ (w : Bool) (d a b : BitVec 8), ∀ e ∈ ([(.vperm w d a b, 0x52), (.vxshuf w d a b, 0x53), (.vbcast w d a b, 0x54),
    (.vgetr w d a b, 0x56), (.vsetr w d a b, 0x57)] : List (Instr × BitVec 7)), HasWord e.1 (threeReg w e.2 d a b))

/-- R114: vcmp completes: an active lane's bit of the predicate says that the condition holds for every element of the lane,
each other bit is 0. Integer types compare by their signedness; float types compare as values after flush, and with a NaN only
ne and unord hold. Nothing else changes. R115, R116: plog completes with the table's value on all 64 bits, whatever the guard
(a result for p0 is discarded); pred completes with the table's count, test, lane number or mask of m, the predicate and the
guard. Nothing else changes. Each has the word that R114 to R116 give it, and the unassigned words are none. -/
def Obligations.ComparesAndPredicates : Prop :=
  (∀ (s : State) (w : Bool) (p : BitVec 4) (a b : BitVec 8), s.badUse [s.useGuard, s.useV a.toNat, s.useV b.toNat] = none →
    let t0 := s.strand.etype
    let n := (intType t0).1
    let E := fun (r : BitVec 8) l k => elemOf n k (Lanes.get32 (s.vec r.toNat) l)
    let I := fun r l k => intVal n (intType t0).2 (E r l k)
    let F := fun r l k => (floatType t0).input s.strand.flush (E r l k)
    ∀ e ∈ ([(.vcmpEq w p a b, fun o => o == .eq, false), (.vcmpNe w p a b, fun o => o != .eq, true),
        (.vcmpLt w p a b, fun o => o == .lt, false), (.vcmpGe w p a b, fun o => o != .lt, false),
        (.vcmpLe w p a b, fun o => o != .gt, false), (.vcmpGt w p a b, fun o => o == .gt, false),
        (.vcmpOrd w p a b, fun _ => true, false), (.vcmpUnord w p a b, fun _ => false, true)]
        : List (Instr × (Ordering → Bool) × Bool)),
      ∃ t m, exec e.1 s = .next t ∧ PredResult s t w p.toNat m
        ∧ ∀ l, l < 64 → (maskBit m l = true ↔ maskBit s.guard l = true ∧ ∀ k, k < 32 / n →
            if isFloatType t0 then
              (if (F a l k).isNan || (F b l k).isNan then e.2.2 else e.2.1 (Fp.cmp (F a l k) (F b l k))) = true
            else e.2.1 (compare (I a l k) (I b l k)) = true))
  ∧ (∀ (s : State) (w : Bool) (d a b : BitVec 4) (e f : BitVec 8),
    let A := s.readP a.toNat
    let B := s.readP b.toNat
    let m := s.readP f.toNat &&& s.guard
    (s.badUse [.p a.toNat, .p b.toNat] = none →
      ∀ i ∈ ([(.plogAnd w d a b, A &&& B), (.plogOr w d a b, A ||| B), (.plogXor w d a b, A ^^^ B),
          (.plogAndn w d a b, A &&& ~~~B)] : List (Instr × W64)), ∃ t, exec i.1 s = .next t ∧ PredResult s t w d.toNat i.2)
    ∧ (s.badUse [.p a.toNat] = none →
      ∀ i ∈ ([(.plogNot w d a, ~~~A), (.plogMov w d a, A)] : List (Instr × W64)),
        ∃ t, exec i.1 s = .next t ∧ PredResult s t w d.toNat i.2)
    ∧ (s.badUse [s.useGuard, .p f.toNat] = none →
      ∀ i ∈ ([(.predPopc w e f, BitVec.ofNat 64 ((List.range 64).filter fun i => maskBit m i).length),
          (.predAny w e f, if m = 0#64 then 0#64 else 1#64), (.predAll w e f, if m = s.guard then 1#64 else 0#64),
          (.predFirst w e f, BitVec.ofNat 64 (((List.range 64).find? fun i => maskBit m i).getD 64)),
          (.predMask w e f, m)] : List (Instr × W64)), ∃ t, exec i.1 s = .next t ∧ ScalarResult s t w e.toNat i.2))
  ∧ (∀ (w : Bool) (p x y c : BitVec 4) (d a b : BitVec 8),
    (∀ e ∈ ([(.vcmpEq w p a b, 0), (.vcmpNe w p a b, 1), (.vcmpLt w p a b, 2), (.vcmpGe w p a b, 3), (.vcmpLe w p a b, 4), (.vcmpGt w p a b, 5), (.vcmpOrd w p a b, 6), (.vcmpUnord w p a b, 7)] : List (Instr × BitVec 4)), HasWord e.1 (compareWord w 0x3F e.2 p a b))
    ∧ (7 < c.toNat → decodeWord (compareWord w 0x3F c p a b) = none)
    ∧ (∀ e ∈ ([(.plogAnd w p x y, 0), (.plogOr w p x y, 1), (.plogXor w p x y, 2), (.plogAndn w p x y, 3)] : List (Instr × BitVec 4)), HasWord e.1 (compareWord w 0x58 e.2 p (x.setWidth 8) (y.setWidth 8)))
    ∧ (∀ e ∈ ([(.plogNot w p x, 4), (.plogMov w p x, 5)] : List (Instr × BitVec 4)),
      HasWord e.1 (compareWord w 0x58 e.2 p (x.setWidth 8) 0))
    ∧ (5 < c.toNat ∨ 15 < a.toNat ∨ 15 < b.toNat ∨ (c = 4 ∨ c = 5) ∧ b ≠ 0 → decodeWord (compareWord w 0x58 c p a b) = none)
    ∧ ∀ e ∈ ([(.predPopc w d a, 0), (.predAny w d a, 1), (.predAll w d a, 2), (.predFirst w d a, 3), (.predMask w d a, 4)] : List (Instr × BitVec 8)), HasWord e.1 (threeReg w 0x59 d a e.2))

/-! ## The matrix sequencer (R131 to R156) -/

/-- The lowest slot whose command queue holds a word (R135). -/
def FirstWord (q : Seq) (k : Nat) : Prop :=
  k < 32 ∧ SMap.get [] q.cmdQ k ≠ [] ∧ ∀ j, j < k → SMap.get [] q.cmdQ j = []

/-- R135, R136: the mailbox. A read of seq.mbox pops a word of the client's command queue, and without a client it takes the lowest
slot that holds one as its client; with no word to pop the strand stands. A write of seq.post stands while a matrix instruction is
in flight or the client's completion queue is full, is discarded without a client, and is pushed otherwise. A write of seq.client
stores 32 to 254 as no client. seq.client carries no error mark where it is read, and none once it is written. Nothing else changes. -/
def Obligations.Mailbox : Prop :=
  ∀ (s : State) (w : Bool) (o : CsrOp) (r : BitVec 6),
    let c := s.curCluster
    let q := (s.cluster c).seq
    let good := s.strand.ctlBad.contains 0x1C2 = false
    (∀ k e rest, good → (if q.client = 0xFF#8 then FirstWord q k else q.client.toNat = k) → SMap.get [] q.cmdQ k = e :: rest →
      e.parityBad = false → ∃ t, exec (.seqMbox w r) s = .next t
        ∧ ScalarResult (s.updSeq c fun x => { x with cmdQ := SMap.put k rest x.cmdQ, client := BitVec.ofNat 8 k }) t w r.toNat e.val)
    ∧ (good → (if q.client = 0xFF#8 then ∀ k, k < 32 → SMap.get [] q.cmdQ k = [] else SMap.get [] q.cmdQ q.client.toNat = []) →
      ∃ t, exec (.seqMbox w r) s = .next t ∧ Stands s t)
    ∧ (s.badUse [.s r.toNat] = none →
      (good → q.flight ≠ [] → ∃ t, exec (.seqPost w r) s = .next t ∧ Stands s t)
      ∧ (good → q.flight = [] → s.clientSlot c = none → ∃ t, exec (.seqPost w r) s = .next t ∧ GoesTo s t w (s.strand.pc + 4#64))
      ∧ (∀ k, good → q.flight = [] → s.clientSlot c = some k →
        let done := SMap.get [] q.doneQ (k % 32)
        (8 ≤ done.length → ∃ t, exec (.seqPost w r) s = .next t ∧ Stands s t)
        ∧ (done.length < 8 → ∃ t e, exec (.seqPost w r) s = .next t ∧ e.val = s.readS r.toNat ∧ e.parityBad = false
          ∧ GoesTo (s.updSeq c fun x => { x with doneQ := SMap.put (k % 32) (done ++ [e]) x.doneQ }) t w (s.strand.pc + 4#64)))
      ∧ (let x := s.readS r.toNat
         let v := match o with
           | .write => x
           | .set => q.client.setWidth 64 ||| x
           | .clear => q.client.setWidth 64 &&& ~~~x
         let n := v.toNat % 256
         (o = .write ∨ good) → ∃ t, exec (.seqClient w o r) s = .next t
           ∧ GoesTo ((s.updSeq c fun x => { x with client := if 31 < n then 0xFF#8 else BitVec.ofNat 8 n }).updStrand
               fun y => y.clearCtl 0x1C2) t w (s.strand.pc + 4#64)))

/-- A finite value and the rational number that it stands for (R80). -/
def HasRat (v : Fp) (q : Rat) : Prop :=
  ∃ neg m e, v = .fin neg m e ∧ q = mkRat ((if neg then -1 else 1) * (m * 2 ^ e.toNat : Nat)) (2 ^ (-e).toNat)

/-- `x` is the binary32 code of a nonzero rational number rounded once to nearest even (R82, R96). -/
def RoundsTo (q : Rat) (x : W32) : Prop := ∃ v, HasRat v q ∧ x = BitVec.ofNat 32 (Fmt.b32.round 0 false v)

/-- R133, R138, R146 to R152: a matrix instruction issues with its records and format descriptors copied: where no issue check
fails and its unit's queue has room it goes into it and the sequencer goes on; where the queue holds 8 it stands; where a check
fails its trap is taken with the word as trap.info (with no information and place 0 for the creel range), nothing issued. mzero
checks that its last tile exists. mfmt loads a valid descriptor into a format register, and takes the format-limit trap for
another. Nothing else changes. R96, R142 to R144, R146 to R150, R153, R156: a tile step of an instruction in flight on a
cluster whose sequencer runs. Where an earlier one must go first, or whose saved record has failed its check, nothing happens.
A step of mzero sets its tile to zero, one of mmul, mfill or msacc sets the elements that the rules compute, one of mdrain
writes the bytes of its tile's rows and changes no accumulator; every other accumulator element, creel and memory byte, cluster
and register is unchanged, and the instruction goes on to its next block or tile or leaves. Element (m, n) after a block of
mmul is its old value plus the exact sum of the block's products of A row 64i + m and B row 64j + n, rounded once, and a NaN
where an operand is one; after msacc it is its old value plus the exact triple product, rounded once; after mfill it is the
row's element, copied or rounded; mdrain raw writes its bytes. A step that reads poison stops the sequencer instead; that one
which meets it while the handler of an earlier poison runs only stops is the model's choice (log entry 59). -/
def Obligations.MatrixUnit : Prop :=
  (∀ (s : State) (w : Bool) (d a b : BitVec 8),
    let c := s.curCluster
    let q := (s.cluster c).seq
    let pair := fun (r : BitVec 8) => (s.readS r.toNat, s.readS (r.toNat + 1))
    let uses := fun (r : BitVec 8) => [Use.s r.toNat, Use.s (r.toNat + 1)]
    let fmt := fun (r : BitVec 8) => SMap.get 0xC3FFE000#32 q.f ((s.readS r.toNat).extractLsb' 59 3).toNat
    let word := fun i => (encode i).getD 0#32
    let base := { MatOp.none with addr := s.strand.pc, d := d.toNat }
    (∀ e ∈ ([(.mmul w d a b, uses a ++ uses b, 0, { base with op := 0, recA := pair a, recB := pair b, fmtA := fmt a, fmtB := fmt b }),
        (.mzero w d a, [], 1, { base with op := 1, a := a.toNat }),
        (.mfill w d a b, uses a, 1, { base with op := 2, code := b.toNat, recA := pair a, fmtA := fmt a }),
        (.mdrain w d a b, uses a, 1, { base with op := 3, code := b.toNat, recA := pair a, fmtA := fmt a }),
        (.msacc w d a b, uses b, 2, { base with op := 4, a := a.toNat, recA := pair b })] : List (Instr × List Use × Nat × MatOp)),
      let o := { e.2.2.2 with word := word e.1 }
      let busy := (q.flight.filter fun x => x.unit == e.2.2.1).length
      s.badUse e.2.1 = none →
        (s.matCheck o = none → busy < 8 → ∃ t, exec e.1 s = .next t
          ∧ GoesTo (s.updSeq c fun q => { q with flight := q.flight ++ [o] }) t w (s.strand.pc + 4#64))
        ∧ (s.matCheck o = none → 8 ≤ busy → ∃ t, exec e.1 s = .next t ∧ Stands s t)
        ∧ (∀ k, s.matCheck o = some k → k ≠ 8 → s.canEnter → ∃ t, exec e.1 s = .next t
          ∧ Entered s t (BitVec.ofNat 8 k) ((word e.1).setWidth 64) s.strand.pc)
        ∧ (s.matCheck o = some 8 → s.canEnter → ∃ t, exec e.1 s = .next t ∧ Faulted s t 8#8 0#64 0#64 0))
    ∧ (q.tiles ≤ a.toNat → s.canEnter → ∃ t, exec (.mzero w d a) s = .next t
      ∧ Entered s t 0x12#8 ((word (.mzero w d a)).setWidth 64) s.strand.pc)
    ∧ (s.badUse [.s a.toNat] = none →
      let x : W32 := (s.readS a.toNat).setWidth 32
      (fmtWordOk x = true → ∃ t, exec (.mfmt w d a) s = .next t
        ∧ GoesTo (s.updSeq c fun q => { q with f := SMap.put d.toNat x q.f }) t w (s.strand.pc + 4#64))
      ∧ (fmtWordOk x = false → s.canEnter → ∃ t, exec (.mfmt w d a) s = .next t
        ∧ Entered s t 0x14#8 ((word (.mfmt w d a)).setWidth 64) s.strand.pc)))
  ∧ (∀ (s : State) (c i : Nat) (o : MatOp), (s.cluster c).seq.flight[i]? = some o → s.seqRuns c = true →
    let q := (s.cluster c).seq
    let held := fun k => SMap.get 0#32 q.acc k
    let new := fun (l : List (Nat × W32)) (k : Nat) => ((l.reverse.find? fun e => e.1 == k).map Prod.snd).getD (held k)
    let waits := o.bad || (q.flight.take i).any fun x => x.mustWait o
    (waits = true → exec (.tileStep c i) s = .next s)
    ∧ (waits = false → o.blocks ≠ 0 → s.stepPoison c o = none → ∃ t, exec (.tileStep c i) s = .next t
      ∧ (t.cluster c).seq.flight = (match o.advance with
          | some x => q.flight.set i x
          | none => q.flight.eraseIdx i)
      ∧ (∀ k, SMap.get 0#32 (t.cluster c).seq.acc k =
          if o.op = 0 then new (s.mmulBlock c o) k
          else if o.op = 1 then (if k / 4096 = o.d + o.tile then 0#32 else held k)
          else if o.op = 2 then new (s.fillTile c o) k
          else if o.op = 3 then held k
          else new (s.scaleTile c o) k)
      ∧ (let rA := o.shapeA
         let rB := o.shapeB
         let FA := fmtOf o.fmtA
         let FB := fmtOf o.fmtB
         let now := fun (k : Nat) => SMap.get 0#32 (t.cluster c).seq.acc k
         let val := fun (x : W32) => Fmt.b32.val x.toNat
         ∀ m n, m < 64 → n < 64 →
         let at' := fun (tile : Nat) => 4096 * tile + 64 * m + n
         let key := at' (o.d + o.tile)
         (o.op = 0 → m < rA.rows - 64 * (o.tile / rB.chunks) → n < rB.rows - 64 * (o.tile % rB.chunks) →
           let lo := o.block * (768 / FA.slot)
           let hi := min (rA.inner * 8 / FA.slot) ((o.block + 1) * (768 / FA.slot))
           let x := fun e => FA.val (s.rowElem c rA (64 * (o.tile / rB.chunks) + m) FA.slot e)
           let y := fun e => FB.val (s.rowElem c rB (64 * (o.tile % rB.chunks) + n) FB.slot e)
           let sum := fun (p : Nat → Rat) => ((List.range (hi - lo)).map fun i => p (lo + i)).sum
           (∀ (p : Nat → Rat) (old : Rat), lo < hi → (∀ e, lo ≤ e → e < hi → ∃ a b, HasRat (x e) a ∧ HasRat (y e) b ∧ p e = a * b) →
             HasRat (val (held key)) old → old + sum p ≠ 0 → RoundsTo (old + sum p) (now key))
           ∧ ((∃ e, lo ≤ e ∧ e < hi ∧ (x e = .nan ∨ y e = .nan)) → now key = 0x7FC00000#32))
         ∧ (o.op = 4 → ∀ old a rs cs : Rat, HasRat (val (held (at' o.d))) old → HasRat (val (held (at' o.a))) a →
             HasRat (s.scale c o.recA.1.toNat m) rs → HasRat (s.scale c o.recA.2.toNat n) cs → old + a * rs * cs ≠ 0 → o.tile = 0 →
             RoundsTo (old + a * rs * cs) (now (at' o.d)))
         ∧ (let slot := if o.code = 8 then 32 else FA.slot
           m < rA.rows - 64 * o.tile → rA.inner * 8 / slot ≤ 64 → n < rA.inner * 8 / slot →
           let e := s.rowElem c rA (64 * o.tile + m) slot n
           (o.op = 2 → now key = BitVec.ofNat 32 (if o.code = 8 then e else Fmt.b32.round 0 false (FA.val e)))
           ∧ (o.op = 3 → o.code = 8 → ∀ b, b < 4 →
             (∀ i k, i < 64 → i < rA.rows - 64 * o.tile → k < rA.inner → rA.offset (64 * o.tile + i) k = rA.offset (64 * o.tile + m) (4 * n + b) → i = m ∧ k = 4 * n + b) →
             t.byteNow (locOfCreel c (rA.offset (64 * o.tile + m) (4 * n + b))) = BitVec.ofNat 8 ((held key).toNat / 256 ^ b))))
      ∧ (∀ loc, t.byteNow loc =
          if o.op = 3 then (((s.drainTile c o).reverse.find? fun e => e.1 == loc).map Prod.snd).getD (s.byteNow loc)
          else s.byteNow loc)
      ∧ (∀ k, k ≠ c → t.cluster k = s.cluster k)
      ∧ (∀ k, (t.wave k).v = (s.wave k).v ∧ (t.wave k).x = (s.wave k).x ∧ (t.wave k).acc.s = (s.wave k).acc.s
          ∧ (t.wave k).cmp.s = (s.wave k).cmp.s ∧ (t.wave k).acc.pc = (s.wave k).acc.pc ∧ (t.wave k).cmp.pc = (s.wave k).cmp.pc))
    ∧ (∀ f, waits = false → o.blocks ≠ 0 → s.stepPoison c o = some f →
      let stop := { s.updSeq c fun q => { q with stoppedOn := true } with cur := ⟨32 * c, .seq⟩ }
      exec (.tileStep c i) s
        = .next (if q.strand.poisonMet then stop else stop.trapAddr 0x0A (f * 65536 + (o.d + o.tile) * 256 + (if o.op = 0 then o.block else 0) * 2 ^ 32) o.addr 0)))

/-! ## Queues (R12 to R15, R129, R136, R137, R197, R198) -/

/-- R12, R129, R197: hq0 and hq1. A push by one strand of the wave appends its scalar to the queue that the other pops, and
stands while the queue holds 8; a pop takes the head into a scalar register, and stands while the queue is empty; a head that
fails parity is consumed and takes the parity trap. Nothing else changes. R12, R129, R189, R197: the vector queues. cq.vpop
moves the head of a load queue, once its load has filled it, into the active lanes that the entry holds, with their marks;
aq.xpop and aq.xpops move the head of a store queue, zero-extended or sign-extended, into an address vector in the same way;
cq.vpush appends the active lanes of a vector register with their marks, and the guard as the lanes in use, to a store queue.
Each stands where there is nothing to pop, or 8 entries before a push. Nothing else changes. -/
def Obligations.StrandQueues : Prop :=
  (∀ (s : State) (w : Bool) (d : BitVec 8),
    (∀ e ∈ ([(.cqHpop w d, s.curWave.hq0, fun r x => { x with hq0 := r }), (.aqHpop w d, s.curWave.hq1, fun r x => { x with hq1 := r })]
        : List (Instr × List QEntry × (List QEntry → Wave → Wave))),
      (e.2.1 = [] → ∃ t, exec e.1 s = .next t ∧ Stands s t)
      ∧ ∀ h rest, e.2.1 = h :: rest →
        (h.parityBad = false → ∃ t, exec e.1 s = .next t ∧ ScalarResult (s.updWave s.cur.wave (e.2.2 rest)) t w d.toNat h.val)
        ∧ (h.parityBad = true → s.canEnter → ∃ t x, exec e.1 s = .next t
          ∧ Entered (s.updWave s.cur.wave (e.2.2 rest)) t 0x0B#8 x s.strand.pc))
    ∧ (s.badUse [.s d.toNat] = none →
      ∀ e ∈ ([(.cqHpush w d, s.curWave.hq1, fun r x => { x with hq1 := r }), (.aqHpush w d, s.curWave.hq0, fun r x => { x with hq0 := r })]
          : List (Instr × List QEntry × (List QEntry → Wave → Wave))),
        (8 ≤ e.2.1.length → ∃ t, exec e.1 s = .next t ∧ Stands s t)
        ∧ (e.2.1.length < 8 → ∃ t h, exec e.1 s = .next t ∧ h.val = s.readS d.toNat ∧ h.parityBad = false
          ∧ GoesTo (s.updWave s.cur.wave (e.2.2 (e.2.1 ++ [h]))) t w (s.strand.pc + 4#64))))
  ∧ (∀ (s : State) (w : Bool) (d a : BitVec 8), s.badUse [s.useGuard] = none →
    let lq := fun (k : Nat) => SMap.get [] s.curWave.lq k
    let wq := fun (k : Nat) => SMap.get [] s.curWave.wq k
    let L := fun (l : List VEntry) => s.updWave s.cur.wave fun x => { x with lq := SMap.put a.toNat l x.lq }
    let W := fun (k : Nat) (l : List VEntry) => s.updWave s.cur.wave fun x => { x with wq := SMap.put k l x.wq }
    (∀ e rest, lq a.toNat = e :: rest → e.missing = 0 → e.parityBad = 0#64 → ∃ t, exec (.cqVpop w d a) s = .next t
      ∧ VecMarked (L rest) t w d.toNat (s.guard &&& e.valid) (Lanes.get32 e.data) e.poison)
    ∧ ((lq a.toNat = [] ∨ ∃ e rest, lq a.toNat = e :: rest ∧ e.missing ≠ 0) → ∃ t, exec (.cqVpop w d a) s = .next t ∧ Stands s t)
    ∧ (∀ e rest, wq a.toNat = e :: rest → e.parityBad = 0#64 →
      ∀ i ∈ ([(.aqXpop w d a, fun x => x.setWidth 64), (.aqXpops w d a, fun x => x.signExtend 64)] : List (Instr × (W32 → W64))),
        ∃ t, exec i.1 s = .next t
          ∧ AddrMarked (W a.toNat rest) t w d.toNat (s.guard &&& e.valid) (fun l => i.2 (Lanes.get32 e.data l)) e.poison)
    ∧ (wq a.toNat = [] → ∀ i ∈ ([.aqXpop w d a, .aqXpops w d a] : List Instr), ∃ t, exec i s = .next t ∧ Stands s t)
    ∧ ((wq d.toNat).length < 8 → ∃ t e, exec (.cqVpush w d a) s = .next t ∧ e.valid = s.guard ∧ e.parityBad = 0#64
      ∧ (∀ l, l < 64 → maskBit s.guard l = true → Lanes.get32 e.data l = Lanes.get32 (s.vec a.toNat) l
          ∧ maskBit e.poison l = maskBit (s.readVM (s.strand.phys a.toNat)).2 l)
      ∧ GoesTo (W d.toNat (wq d.toNat ++ [e])) t w (s.strand.pc + 4#64))
    ∧ (8 ≤ (wq d.toNat).length → ∃ t, exec (.cqVpush w d a) s = .next t ∧ Stands s t))

/-- R136, R137, R197, R198, R227: the engine queues. aq.eqw pushes a word into the command queue of an engine, the mailbox being that of the
cluster's sequencer when the wave's unit owns it (another wave's word is discarded), and stands while the queue holds 8, while an
earlier store of the strand is in flight that the engine must see, or where a scout task must wait; three words make a copy command and
five a gather (State.formCmd), and a first word with an unassigned cmd is one alone. aq.eqr pops a completion into a scalar register,
the command's writes counting as the strand's own, and stands while there is none, or while an access is in flight that a release of the
strand covers which those writes are to carry (R230; log entry 64's reading); another wave than the owner's reads all ones from the
mailbox. Nothing else changes. -/
def Obligations.EngineQueues : Prop :=
  ∀ (s : State) (w : Bool) (d a : BitVec 8),
    let x := s.readS a.toNat
    let k := d.toNat
    let c := s.curCluster
    let q := (s.cluster c).seq
    let cmds := SMap.get [] s.curWave.eqCmd k
    let stores := (k < 2 ∨ k = 3) ∧ s.storesOut = true
    let P := s.updWave s.cur.wave fun y => { y with eqCmd := SMap.put k (cmds ++ [⟨x, false, 0⟩]) y.eqCmd }
    let mail := SMap.get [] q.cmdQ (s.cur.wave % 32)
    (∀ u w0 rest,
      (bitsOf w0.toNat 63 56 = 1 → (s.formCmd u 0 (w0 :: rest)).isSome = decide ((w0 :: rest).length = 3)
        ∧ (s.formCmd u 1 (w0 :: rest)).isSome = decide ((w0 :: rest).length = 5))
      ∧ (bitsOf w0.toNat 63 56 ≠ 1 → (s.formCmd u k (w0 :: rest)).isSome = true))
    ∧ (s.badUse [.s a.toNat] = none →
      (k ≠ 6 → cmds.length < 8 → s.pushWaits k x = false → ¬ stores → ∃ t, exec (.aqEqw w d a) s = .next t
        ∧ GoesTo (if k < 2 then P.pushed P.curWave.who k else P) t w (s.strand.pc + 4#64))
      ∧ (k ≠ 6 → 8 ≤ cmds.length ∨ s.pushWaits k x = true ∨ stores → ∃ t, exec (.aqEqw w d a) s = .next t ∧ Stands s t)
      ∧ (k = 6 → q.owner ≠ s.curUnit → ∃ t, exec (.aqEqw w d a) s = .next t ∧ GoesTo s t w (s.strand.pc + 4#64))
      ∧ (k = 6 → q.owner = s.curUnit → mail.length < 8 → s.storesOut = false → ∃ t e, exec (.aqEqw w d a) s = .next t
        ∧ e.val = x ∧ e.parityBad = false
        ∧ GoesTo (s.updSeq c fun y => { y with cmdQ := SMap.put (s.cur.wave % 32) (mail ++ [e]) y.cmdQ }) t w (s.strand.pc + 4#64))
      ∧ (k = 6 → q.owner = s.curUnit → 8 ≤ mail.length ∨ s.storesOut = true → ∃ t, exec (.aqEqw w d a) s = .next t ∧ Stands s t))
    ∧ (let n := a.toNat
       let done := if n = 6 then SMap.get [] q.doneQ (s.cur.wave % 32) else SMap.get [] s.curWave.eqDone n
       (n = 6 → q.owner ≠ s.curUnit → ∃ t, exec (.aqEqr w d a) s = .next t ∧ ScalarResult s t w d.toNat (BitVec.allOnes 64))
       ∧ (n ≠ 6 ∨ q.owner = s.curUnit → done = [] → ∃ t, exec (.aqEqr w d a) s = .next t ∧ Stands s t)
       ∧ (∀ e rest, n ≠ 6 → done = e :: rest → e.parityBad = false →
         let R := s.updWave s.cur.wave fun y => { y with eqDone := SMap.put n rest y.eqDone }
         (e.tag ≠ 0 → s.relsOut = true → ∃ t, exec (.aqEqr w d a) s = .next t ∧ Stands s t)
         ∧ (e.tag = 0 ∨ s.relsOut = false → ∃ t, exec (.aqEqr w d a) s = .next t
           ∧ ScalarResult (if e.tag = 0 then R else R.adopt R.curWave.who [2 ^ 40 + e.tag, 2 ^ 44 + e.tag] fun _ => true) t w d.toNat e.val))
       ∧ (∀ e rest, n = 6 → q.owner = s.curUnit → done = e :: rest → e.parityBad = false →
         let R := s.updSeq c fun y => { y with doneQ := SMap.put (s.cur.wave % 32) rest y.doneQ }
         let seen := s.hist.filter fun r => r.who == 2 ^ 41 + c && decide (r.time ≤ e.tag)
         ∃ t, exec (.aqEqr w d a) s = .next t
           ∧ ScalarResult (R.noteVis s.curUnit s.curWave.pos s.strand.seqNo (ownWrites seen (2 ^ 41 + c))) t w d.toNat e.val))

/-! ## Memory instructions (R185 to R193, R224, R229, R278, R362) -/

/-- The lanes that an instruction of the guard's active lanes asks for: lane l at the base plus its address vector element, modulo
2^64 (R187). -/
def gatherLanes (s : State) (g : W64) (b x size : Nat) (data : Nat → W64) : List LaneReq :=
  (maskLanes g).map fun l => ⟨l, (s.readS b + Lanes.get64 (s.readX x) l).toNat, size, data l, 0#64⟩

/-- What becomes of a global store of a scout task whose lanes are `as` (R164, R165): it is sent into the unit's overlay where every lane's
page is shadowed and the overlay has room, and stands otherwise; one that has met a full overlay stands until the verdict. -/
def ScoutStore (s : State) (i : Instr) (as : List LaneAcc) (sent : Prop) : Prop :=
  let u := s.unit s.curUnit
  let page := as.all fun l => s.shadowed u.part u.space l.va
  (page = false ∨ s.strand.wait = .overlay → ∃ t, exec i s = .next t ∧ Stands s t)
  ∧ (page = true → s.strand.wait ≠ .overlay → s.overlayFull as = true → exec i s = .next (s.blockWith .overlay))
  ∧ (page = true → s.strand.wait ≠ .overlay → s.overlayFull as = false → sent)

/-- R187, R189: ld and cld complete: with room in the load queue and every active lane through the probe, an entry is reserved
in the queue, with the guard as its lanes and as many accesses to await as are sent, and an access is sent for each line, or
creel granule, that the active lanes touch; an acquire form names the objects of its lanes, or the creel, and needs that no
store error is pending (R362). With 8 entries in the queue it stands. The strand does not wait at a creel behind others (R166).
R164, R165, R187, R190, R229: st and cst complete: the head of the store queue is popped, and for the lanes that are active and
held by the entry an access is sent for each line or creel granule, with the low bytes of the entry's lane; a release form
first performs a release of the objects of its lanes, or of the creel, which the accesses carry. With no entry it stands. In a
scout task a store to another member's creel stands, and a global one goes into the overlay or stands. -/
def Obligations.VectorAccesses : Prop :=
  (∀ (s : State) (w : Bool) (q b : BitVec 6) (x : BitVec 5) (z r : BitVec 2) (k : BitVec 3), s.cur.kind = .access →
    r ≠ 2#2 → r ≠ 3#2 → (r ≠ 0#2 → s.strand.storeErr = none) → s.badUse [s.useGuard, .s b.toNat, s.useX x.toNat] = none →
    let lq := SMap.get [] s.curWave.lq q.toNat
    ∀ i ∈ ([(.ld w q b x z r k, false), (.cld w q b x z r k, true)] : List (Instr × Bool)),
      (8 ≤ lq.length → ∃ t, exec i.1 s = .next t ∧ Stands s t)
      ∧ (∀ as, lq.length < 8 → s.afterOthers = false → s.probeLanes i.2 .read (gatherLanes s s.guard b.toNat x.toNat (2 ^ z.toNat) fun _ => 0#64) = .ok as →
        ∃ t e, exec i.1 s = .next t ∧ e.valid = s.guard ∧ e.tag = s.strand.seqNo ∧ e.missing = t.nextAccess - s.nextAccess
          ∧ e.poison = 0#64
          ∧ Sends (s.updWave s.cur.wave fun y => { y with lq := SMap.put q.toNat (lq ++ [e]) y.lq }) t w
              { s.access i.2 .load (.lq q.toNat s.strand.seqNo) k.toNat with
                acqs := if r = 1#2 then (if i.2 then [.creel] else (as.map LaneAcc.obj).eraseDups) else [] } [] as))
  ∧ (∀ (s : State) (w : Bool) (q b : BitVec 6) (x : BitVec 5) (z r : BitVec 2) (k : BitVec 3), s.cur.kind = .access →
    (r ≠ 0#2 → s.strand.storeErr = none) → s.afterOthers = false →
    let n := q.toNat - 8
    let wq := SMap.get [] s.curWave.wq n
    let P := s.updWave s.cur.wave fun y => { y with wq := SMap.put n wq.tail y.wq }
    ∀ i ∈ ([(.st w q b x z r k, false), (.cst w q b x z r k, true)] : List (Instr × Bool)),
      (wq = [] → ∃ t, exec i.1 s = .next t ∧ Stands s t)
      ∧ (∀ e rest as, wq = e :: rest → e.parityBad = 0#64 → e.poison &&& (s.guard &&& e.valid) = 0#64 →
        s.badUse [s.useGuard, .s b.toNat, .x x.toNat (s.guard &&& e.valid)] = none →
        s.probeLanes i.2 .write (gatherLanes s (s.guard &&& e.valid) b.toNat x.toNat (2 ^ z.toNat)
          fun l => (Lanes.get32 e.data l).setWidth 64) = .ok as →
        let objs := if i.2 then [Obj.creel] else (as.map LaneAcc.obj).eraseDups
        let R := if r = 0#2 then ([], P) else P.releaseAll objs k.toNat
        let sent := fun (inOverlay : Bool) =>
          ∃ t, exec i.1 s = .next t ∧ Sends R.2 t w { P.access i.2 .store .none k.toNat with overlay := inOverlay } R.1 as
        let far := as.any fun l => bitsOf l.va 25 22 != 0
        (s.isScout = false ∨ (i.2 = true ∧ far = false) → sent false)
        ∧ (s.isScout = true → i.2 = true → far = true → ∃ t, exec i.1 s = .next t ∧ Stands s t)
        ∧ (s.isScout = true → i.2 = false → ScoutStore s i.1 as (sent true))))

/-- R164, R165, R187, R191, R224, R229, R278: lds, sts, stc and the atomics complete: one access is sent for the address in the
base register, a store with the data register and stc on the courier class, for which it takes a token of the core's bucket; a
load and an atomic return to the scalar register, for which older replies are no longer due; an atomic sends its operand, and acas
the expected value of its destination register. A release form first performs the release of the address's object. In a scout task a store
goes into the overlay or stands, and an atomic stands. -/
def Obligations.ScalarAccesses : Prop :=
  ∀ (s : State) (w : Bool) (q b : BitVec 6) (x : BitVec 5) (z r : BitVec 2) (y : BitVec 1) (k : BitVec 3), s.cur.kind = .access →
    s.strand.storeErr = none → s.afterOthers = false →
    let va := (s.readS b.toNat).toNat
    let obj := fun (as : List LaneAcc) => (as.map LaneAcc.obj).eraseDups
    (∀ as, s.badUse [.s b.toNat] = none → s.scalarOps < 8 → s.probeLanes false .read [⟨0, va, 2 ^ z.toNat, 0#64, 0#64⟩] = .ok as →
      ∃ t, exec (.lds w q b z r k) s = .next t ∧ Sends (s.dropReplies q.toNat) t w
        { s.access false .load (.s q.toNat) k.toNat with acqs := if r = 1#2 then obj as else [] } [] as)
    ∧ (∀ as, s.badUse [.s b.toNat, .s q.toNat] = none →
      s.probeLanes false .write [⟨0, va, 2 ^ z.toNat, s.readS q.toNat, 0#64⟩] = .ok as →
      let rel := fun (P : State) => if r = 0#2 then ([], P) else P.releaseAll (obj as) k.toNat
      let core := s.cur.wave / 8
      let tokens := SMap.get 8 s.courier core
      let C := ({ s with courier := SMap.put core (tokens - 1) s.courier } : State).bump (s.unit s.curUnit).part (dieOfCluster s.curCluster) 9 1
      let sts := fun (inOverlay : Bool) => ∃ t, exec (.sts w q b z r k) s = .next t
        ∧ Sends (rel s).2 t w { s.access false .store .none k.toNat with overlay := inOverlay } (rel s).1 as
      let stc := fun (inOverlay : Bool) => (tokens ≠ 0 → ∃ t, exec (.stc w q b z r k) s = .next t
          ∧ Sends (rel C).2 t w { C.access false .store .none k.toNat with overlay := inOverlay, courier := true } (rel C).1 as)
        ∧ (tokens = 0 → ∃ t, exec (.stc w q b z r k) s = .next t ∧ Stands s t)
      (s.isScout = false → sts false ∧ stc false)
      ∧ (s.isScout = true → ScoutStore s (.sts w q b z r k) as (sts true) ∧ ScoutStore s (.stc w q b z r k) as (stc true)))
    ∧ (∀ e ∈ ([(.aadd w q b x y r k, 0), (.aswap w q b x y r k, 1), (.acas w q b x y r k, 2), (.amin w q b x y r k, 3),
          (.amax w q b x y r k, 4), (.aor w q b x y r k, 5), (.aand w q b x y r k, 6)] : List (Instr × Nat)),
      s.badUse (if e.2 = 2 then [.s b.toNat, .s x.toNat, .s q.toNat] else [.s b.toNat, .s x.toNat]) = none →
      (s.isScout = true → ∃ t, exec e.1 s = .next t ∧ Stands s t)
      ∧ ∀ as, s.isScout = false → s.scalarOps < 8 →
        s.probeLanes false .atomic [⟨0, va, 4 * 2 ^ y.toNat, s.readS x.toNat, s.readS q.toNat⟩] = .ok as →
        let R := if r.getLsbD 1 then s.releaseAll (obj as) k.toNat else ([], s)
        ∃ t, exec e.1 s = .next t ∧ Sends (R.2.dropReplies q.toNat) t w
          { R.2.access false (.atomic e.2) (.s q.toNat) k.toNat with acqs := if r.getLsbD 0 then obj as else [] } R.1 as)

/-- R364: an instruction with a poisoned operand takes the poisoned-data trap before it acts: where no result is outstanding
and a handler may be entered, the strand is in its handler with cause 0x0A, and trap.pc is the instruction's address. Said of
add, whose first operand is poisoned. R187, R352: a load, plain or acquire, whose lanes do not all pass the probe takes the
fault of the lowest lane that fails, whether or not lower lanes would have to wait, nothing being sent: the cause is that of
the failed test, trap.info the die of an offline home and otherwise 0, with the lane's address and number. -/
def Obligations.OperandAndProbeTraps : Prop :=
  (∀ (s : State) (w : Bool) (d a b : BitVec 8), (s.readSM a.toNat).2 = true → s.canEnter →
      ∃ t, exec (.add w d a b) s = .next t ∧ Outside s t ∧ t.strand.s = s.strand.s
        ∧ t.strand.pc = s.strand.csr.handler ∧ t.strand.csr.trapPc = s.strand.pc ∧ t.strand.csr.cause = 0x0A#8
        ∧ t.strand.csr.info = BitVec.ofNat 64 (a.toNat * 256) ∧ t.strand.csr.inHandler = true)
  ∧ (∀ (s : State) (w : Bool) (q b : BitVec 6) (x : BitVec 5) (z o : BitVec 2) (k : BitVec 3) (pre post : List LaneReq) (r : LaneReq)
    (f : PFault), s.canEnter → o = 0#2 ∨ o = 1#2 ∧ s.strand.storeErr = none → s.badUse [s.useGuard, .s b.toNat, s.useX x.toNat] = none →
    ∀ i ∈ ([(.ld w q b x z o k, false), (.cld w q b x z o k, true)] : List (Instr × Bool)),
      (SMap.get [] s.curWave.lq q.toNat).length < 8 →
      gatherLanes s s.guard b.toNat x.toNat (2 ^ z.toNat) (fun _ => 0#64) = pre ++ r :: post →
      (∀ y, y ∈ pre → (∃ a, s.probeLane i.2 .read y = .ok a) ∨ ∃ g, s.probeLane i.2 .read y = .error g ∧ g.isWait = true) → s.probeLane i.2 .read r = .error f →
      f ∈ [.translation, .alignment, .protection, .creelRange, .weaveMember, .dieOffline 0, .dieOffline 1] →
      ∃ t, exec i.1 s = .next t
        ∧ Faulted s t (match f with
            | .translation => 0x05#8
            | .alignment => 0x06#8
            | .protection => 0x07#8
            | .creelRange => 0x08#8
            | .weaveMember => 0x09#8
            | _ => 0x0D#8) (match f with
            | .dieOffline d => BitVec.ofNat 64 d
            | _ => 0#64) (BitVec.ofNat 64 r.va) r.lane)

/-! ## Acceptance (R190, R191, R210, R211, R215, R223, R224, R362, R365) -/

/-- Nothing keeps an access in flight from being accepted: it is in order, its tag is current and its storage can be reached. -/
def ReadyFor (s : State) (a : Access) : Prop :=
  s.acceptable a = true ∧ s.stale a = false ∧ ∀ l, l ∈ a.lanes → (s.unreachable a.part l.loc || a.hostRefuses l.loc) = false

/-- R165, R189 to R191, R215: a home accepts a store: its lanes' bytes become the newest of their places, the higher lane's
standing, and no other byte changes; a scout task's store goes into its unit's overlay, by virtual address, and changes no byte
of memory; a load of one lane into a scalar register of a resident wave returns the newest bytes, zero-extended, where no write
that the strand might still not see is on record. The access leaves the flight, and an access that is not there changes
nothing. R223, R224: an atomic is performed at its home on a word or double word that is not poisoned: its destination register
gets the old value, zero-extended, and the bytes become the operation's result: the sum, the operand, the operand where the old
value is the expected one, the signed minimum and maximum, or, and. No other byte changes. In plain PCIe host memory the last
four may read older bytes, which stores of the host have replaced (R274), so that they are left out there. -/
def Obligations.AcceptedAccesses : Prop :=
  (∀ (s : State) (id : Nat),
    (SMap.find s.flight id = none → exec (.accessAccept id) s = .next s)
    ∧ ∀ a, SMap.find s.flight id = some a → ReadyFor s a →
      (a.kind = .store → a.overlay = false → ∃ t, exec (.accessAccept id) s = .next t ∧ SMap.find t.flight id = none
        ∧ ∀ loc, t.byteNow loc = if isPeer loc then s.byteNow loc
            else (((laneBytes a.lanes).reverse.find? fun e => e.1 == loc).map Prod.snd).getD (s.byteNow loc))
      ∧ (a.kind = .store → a.overlay = true → ∃ t, exec (.accessAccept id) s = .next t ∧ SMap.find t.flight id = none
        ∧ (∀ loc, t.byteNow loc = s.byteNow loc)
        ∧ ∀ va, (SMap.find (t.unit a.unit).overlay va).map OverlayByte.val = (((a.lanes.flatMap fun l => (List.range l.size).map fun i =>
            (l.va + i, (leBytes l.size l.data.toNat).getD i 0#8)).reverse.find? fun e => e.1 == va).map Prod.snd).orElse
              fun _ => (SMap.find (s.unit a.unit).overlay va).map OverlayByte.val)
      ∧ (∀ l d, a.kind = .load → a.lanes = [l] → a.dest = .s d → d ≠ 0 → (s.unit a.unit).life = .resident →
        (∀ r, r ∈ s.hist → ∀ i, i < l.size → r.hits (l.loc + i) = false) →
        (a.creel = true ∨ ∀ i, i < l.size → s.overlayByte a.unit a.space (l.va + i) = none) →
        ∃ t, exec (.accessAccept id) s = .next t ∧ SMap.find t.flight id = none
          ∧ (t.waveOf a.unit a.idx).acc.sreg d = BitVec.ofNat 64 (s.word l.loc l.size)
          ∧ (∀ r, r ≠ d → (t.waveOf a.unit a.idx).acc.sreg r = (s.waveOf a.unit a.idx).acc.sreg r)
          ∧ ∀ loc, t.byteNow loc = s.byteNow loc))
  ∧ (∀ (s : State) (id d op : Nat) (a : Access) (l : LaneAcc), SMap.find s.flight id = some a → ReadyFor s a → a.kind = .atomic op →
    a.lanes = [l] → a.dest = .s d → d ≠ 0 → (s.unit a.unit).life = .resident → l.size = 4 ∨ l.size = 8 →
    (∀ i, i < l.size → s.poisonedAt (l.loc + i) = false ∧ isPeer (l.loc + i) = false) →
    (op < 3 ∨ ∀ i, i < l.size → uncached (l.loc + i) = false) →
    let m := 2 ^ (8 * l.size)
    let old := s.word l.loc l.size
    let v := l.data.toNat % m
    let int := fun (n : Nat) => if n < m / 2 then (n : Int) else (n : Int) - m
    ∀ e ∈ ([(0, (old + v) % m), (1, v), (2, if old = l.expect.toNat % m then v else old), (3, if int v < int old then v else old),
        (4, if int old < int v then v else old), (5, old ||| v), (6, old &&& v)] : List (Nat × Nat)), op = e.1 →
      ∃ t, exec (.atomicPerform id) s = .next t ∧ SMap.find t.flight id = none
        ∧ (t.waveOf a.unit a.idx).acc.sreg d = BitVec.ofNat 64 old
        ∧ ∀ loc, t.byteNow loc = if l.loc ≤ loc ∧ loc < l.loc + l.size then (leBytes l.size e.2).getD (loc - l.loc) 0#8
            else s.byteNow loc)

/-- R210, R211, R362, R364, R278: the turns of an access that is not accepted. An access whose page changed after it was translated is
rejected where it would be accepted, and one whose storage cannot be reached is to be answered by an error; a replay translates each
lane again under the space's current generation, and answers by an error those that the probe now refuses; the error reply of a store leaves a pending store error with its address, and that
of a load of one lane marks its scalar register poisoned. A core's courier bucket regains a token, up to 8. -/
def Obligations.TurnedAway : Prop :=
  ∀ (s : State) (id core : Nat),
    exec (.courierToken core) s = .next { s with courier := SMap.put core (min 8 (SMap.get 8 s.courier core + 1)) s.courier }
    ∧ ∀ a, SMap.find s.flight id = some a →
      (∀ op, (a.kind = .atomic op → exec (.accessAccept id) s = .next s) ∧ (a.kind = .load ∨ a.kind = .store →
        exec (.atomicPerform id) s = .next s))
      ∧ (s.acceptable a = true → s.stale a = true → a.kind = .load ∨ a.kind = .store →
        ∃ t, exec (.accessAccept id) s = .next t ∧ SMap.find t.flight id = some { a with rejected := true }
          ∧ ∀ loc, t.byteNow loc = s.byteNow loc)
      ∧ (s.acceptable a = true → s.stale a = false → a.kind = .load ∨ a.kind = .store →
        (a.lanes.any fun l => s.unreachable a.part l.loc || a.hostRefuses l.loc) = true →
        exec (.accessAccept id) s = .next { s with flight := SMap.put id { a with errored := true } s.flight })
      ∧ (∀ good bad, a.rejected = true → id < s.nextAccess → s.retranslate a a.lanes = (good, bad, none) →
        ∃ t, exec (.replay id) s = .next t ∧ (∀ loc, t.byteNow loc = s.byteNow loc)
          ∧ (∀ x, x ∈ good → ∃ n c, SMap.find t.flight n = some c ∧ x ∈ c.lanes ∧ c.gen = (s.space a.space).gen
            ∧ c.rejected = false ∧ c.errored = a.errored)
          ∧ ∀ x, x ∈ bad → ∃ n c, SMap.find t.flight n = some c ∧ x ∈ c.lanes ∧ c.errored = true)
      ∧ (a.errored = true → s.inOrder a = true → (s.unit a.unit).life = .resident →
        (∀ l ls, a.kind = .store → a.lanes = l :: ls → ∃ t, exec (.errorReply id) s = .next t ∧ SMap.find t.flight id = none
          ∧ (t.waveOf a.unit a.idx).acc.storeErr = some (BitVec.ofNat 64 l.va)
          ∧ (t.waveOf a.unit a.idx).acc.csr.faultAddr = BitVec.ofNat 64 l.va)
        ∧ (∀ l d, a.kind = .load → a.lanes = [l] → a.dest = .s d → d ≠ 0 → d < 64 →
          ∃ t, exec (.errorReply id) s = .next t ∧ SMap.find t.flight id = none
            ∧ maskBit (t.waveOf a.unit a.idx).acc.sPoison d = true))

/-- R193: the full/empty instructions, on words of the unit's own creel: once the strand's accesses have happened and each word is in the
state it requires, with no earlier such instruction waiting, cldf appends an entry with the words and makes them empty, and cste
pops its entry, writes the words and makes them full, each in one step, at once or when FULL_EMPTY_PERFORM finds it so; until then
the strand stands. One of a scout task that names another member's creel waits for the verdict (R164). -/
def Obligations.FullEmptyWords : Prop :=
  ∀ (s : State) (w : Bool) (q b : BitVec 6) (x : BitVec 5) (g : W64) (data : Nat → W64), s.cur.kind = .access → s.isScout = false →
    s.strand.wait = .none → s.quiet = true →
    let word := fun (l : LaneAcc) => (l.loc - creelLoc) / 4
    let rs := gatherLanes s g b.toNat x.toNat 4 data
    let f := fun load => FeWait.mk s.feOrder load q.toNat w (rs.map fun r => (r.lane, r.va, r.data))
    let waits := fun (load : Bool) => { s with feOrder := max s.feOrder (s.feOrder + 1) }.blockWith (.fullEmpty (f load))
    let now := fun (load : Bool) (as : List LaneAcc) => (s.feReady load as && !s.feEarlier s.feOrder) = true
    (∀ as, s.badUse [s.useGuard, .s b.toNat, s.useX x.toNat] = none → g = s.guard → (∀ l, data l = 0#64) →
      (SMap.get [] s.curWave.lq q.toNat).length < 8 → s.probeLanes true .read rs = .ok as →
      (¬ now true as → exec (.cldf w q b x) s = .next (waits true))
      ∧ (now true as → ∃ t e, exec (.cldf w q b x) s = .next t ∧ t.strand.pc = s.strand.pc + 4#64 ∧ t.strand.blocked = false
        ∧ SMap.get [] t.curWave.lq q.toNat = SMap.get [] s.curWave.lq q.toNat ++ [e] ∧ e.missing = 0 ∧ e.valid = g
        ∧ (∀ l, l ∈ as → Lanes.get32 e.data l.lane
            = BitVec.ofNat 32 (leNat ((List.range 4).map fun i => s.byteAt s.now (l.loc + i))))
        ∧ (∀ k, SMap.get false t.full k = (SMap.get false s.full k && !as.any fun l => word l == k))
        ∧ (∀ loc, t.byteNow loc = s.byteNow loc)))
    ∧ (∀ e rest as, SMap.get [] s.curWave.wq (q.toNat - 8) = e :: rest → e.parityBad = 0#64 →
      g = (s.guard &&& e.valid) → e.poison &&& g = 0#64 → data = (fun l => (Lanes.get32 e.data l).setWidth 64) →
      s.badUse [s.useGuard, .s b.toNat, .x x.toNat g] = none → s.probeLanes true .write rs = .ok as →
      (¬ now false as → exec (.cste w q b x) s = .next (waits false))
      ∧ (now false as → ∃ t, exec (.cste w q b x) s = .next t ∧ t.strand.pc = s.strand.pc + 4#64 ∧ t.strand.blocked = false
        ∧ SMap.get [] t.curWave.wq (q.toNat - 8) = rest
        ∧ (∀ k, SMap.get false t.full k = (SMap.get false s.full k || as.any fun l => word l == k))
        ∧ ∀ loc, t.byteNow loc = (((laneBytes as).reverse.find? fun e => e.1 == loc).map Prod.snd).getD (s.byteNow loc)))
    ∧ (∀ who k h as, s.slotBy who = some k → (s.wave k).acc.wait = .fullEmpty h →
      let v : State := { s with cur := ⟨k, .access⟩ }
      v.probeLanes true (if h.load then .read else .write) (h.lanes.map fun l => ⟨l.1, l.2.1, 4, l.2.2, 0#64⟩) = .ok as →
      exec (.fullEmptyPerform who) s = .next (if !v.feScouts h && v.feReady h.load as && !v.feEarlier h.order then (v.fePerform h as).countIssue else s))

/-! ## Steps, decoding, reset and memory (R4, R8, R12, R27, R31, R34, R37 to R39, R190, R208, R346) -/

/-- R12, R27, R31, R34, R39: a step runs the decoded instruction. Where the strand that has the next turn may run, no trap of it waits, and
it is not parked, or its results have returned, and its sequencer has no failed record to report, the word fetched for it that passes the checks of its kind acts as its instruction, is
counted as issued and ends a debugger's step, and time passes; a word that fails a check takes the illegal-instruction trap with the
word; a strand that may not run does nothing, but that it is no longer parked once its results have returned. The word fetched is the
four bytes at its place where no older write may still be read. R349, R350: a place on a die that cannot be reached is reported as an
access that the device refuses, at the pc, and a poisoned word is used by no instruction but takes the poisoned-data trap (whose
trap.info is log entry 51's choice).
An event of the turn list acts as its instruction, and an instruction word in it does nothing. -/
def Obligations.StepRunsDecoded : Prop :=
  (∀ (s : State) (turn : Turn) (ts : List Turn) (n : Nat) (kind : StrandKind), s.turns = turn :: ts →
    turn = .strand n kind ∨ (kind = .seq ∧ ∃ c, n = 32 * c ∧ turn = .sequencer c) →
    let u : State := { s with turns := ts, cur := ⟨n, kind⟩ }
    let v := if u.strand.parked then u.updStrand fun t => { t with parked := false } else u
    let after := fun (o : Out) => step s
      = Out.map State.tick (Out.map v.issued o)
    (u.mayRun = false → step s = .next (if u.strand.parked && u.drained then v else u).tick)
    ∧ (u.mayRun = true → u.strand.pendTrap = none → u.badRecord = none → u.strand.parked = false ∨ u.drained = true → ∀ w, v.fetch = .ok w →
      (∀ i, decodeCheck kind w = .ok i → after (exec i v))
      ∧ (decodeCheck kind w = .error .unassigned → after (.next (v.trapHere 1 (w.setWidth 64))))
      ∧ (decodeCheck kind w = .error .wrongStrand → after (.next (v.trapHere 2 (w.setWidth 64))))))
  ∧ (∀ (s : State) (l : Leaf) (pa : Nat), s.hist = [] →
    s.probeGlobal s.curUnit (s.unit s.curUnit).part (s.unit s.curUnit).space s.strand.pc.toNat 4 .fetch = .ok (l, pa) →
    (s.unreachable (s.unit s.curUnit).part pa = true → s.runWord = .next (s.trapAddr 0x04 0 s.strand.pc 0))
    ∧ (s.unreachable (s.unit s.curUnit).part pa = false → ∀ n < 4, s.poisonedAt (pa + n) = true → s.runWord = .next s.trapBlock)
    ∧ (s.unreachable (s.unit s.curUnit).part pa = false → (∀ n < 4, s.poisonedAt (pa + n) = false) →
      s.fetch = .ok (BitVec.ofNat 32 (s.word pa 4))))
  ∧ ∀ (s : State) (i : Instr) (ts : List Turn), s.turns = .event i :: ts →
    step s = Out.map State.tick (if encode i = none then exec i { s with turns := ts } else .next { s with turns := ts })

/-- R27, R37, R38: decoding and encoding agree. The word of a well-formed instruction stands for it, with every operand at every value
that the encoding admits, and a word that stands for an instruction is that instruction's word, so that no two words stand for
one. -/
def Obligations.DecodeEncode : Prop :=
  (∀ (i : Instr) (w : BitVec 32), i.wellFormed = true → encode i = some w → decodeWord w = some i)
  ∧ ∀ (i : Instr) (w : BitVec 32), decodeWord w = some i → encode i = some w

/-- R27, R37, R38: some words, written from the encodings of the specification, and the instructions for which they stand. R39,
R186: the checks of a word, in their order: an opcode that is assigned to no strand, one that is assigned to other kinds only,
a vector load into a store's queue or a vector store from a load's (R13: a wrong strand; which of the checks meets it is log
entry 5's reading), an unassigned sub-op, and field values out of their limits, among them a queue that the op does not take. -/
def Obligations.Decoding : Prop :=
  (decodeWord 0x00030102#32 = some (.add false 3#8 1#8 2#8)
  ∧ decodeWord 0x92040012#32 = some (.orhi true 4#8 0x12#16)
  ∧ decodeWord 0x16040900#32 = some (.sunClz false 4#8 9#8)
  ∧ decodeWord 0x20000064#32 = some (.call false 100#24)
  ∧ decodeWord 0x22001200#32 = some (.mode false 0x1200#16)
  ∧ decodeWord 0x28020405#32 = some (.xiota false 2#8 4#8 5#8)
  ∧ decodeWord 0x3E040901#32 = some (.vunFfs false 4#8 9#8)
  ∧ decodeWord 0x51070302#32 = some (.vredMax false 7#8 3#8)
  ∧ decodeWord 0x59040200#32 = some (.predPopc false 4#8 2#8))
  ∧ (∀ (k : StrandKind) (w : BitVec 32),
    (opAssigned (opOf w) = false → decodeCheck k w = .error .unassigned)
    ∧ (opAssigned (opOf w) = true → opAllowed (opOf w) k = false → decodeCheck k w = .error .wrongStrand)
    ∧ (opAssigned (opOf w) = true → opAllowed (opOf w) k = true →
      (opOf w ∈ [0x60, 0x65, 0x67] → 8 ≤ (w.toNat / 2 ^ 18) % 64 → (w.toNat / 2 ^ 18) % 64 ≤ 11 → decodeCheck k w = .error .wrongStrand)
      ∧ (opOf w ∈ [0x61, 0x66, 0x68] → (w.toNat / 2 ^ 18) % 64 < 8 → decodeCheck k w = .error .wrongStrand))
    ∧ (opAssigned (opOf w) = true → opAllowed (opOf w) k = true → queueDirectionBad w = false →
      (decodeWord w = none → decodeCheck k w = .error .unassigned)
      ∧ ∀ i, decodeWord w = some i → decodeCheck k w = if i.wf k then .ok i else .error .unassigned)
    ∧ ∀ i, decodeCheck k w = .ok i → decodeWord w = some i ∧ i.wf k = true ∧ i.wellFormed = true ∧ encode i = some w)

/-- R346, and the reset values of log entries 2 and 3: after reset both dies are held in reset, the monitor has not booted, no unit is
placed and no access is in flight, no partition is started, and every byte of memory and of the creels reads as 0, in canonical
form. -/
def Obligations.ResetState : Prop :=
  let s := State.reset
  (∀ d, (s.die d).state = .reset ∧ (s.die d).placing = false) ∧ s.mgmt.booted = false ∧ s.waves = [] ∧ s.flight = []
    ∧ (∀ u, (s.unit u).life = .gone) ∧ (∀ p, (s.part p).started = false)
    ∧ (∀ loc, isPeer loc = false → s.byteNow loc = 0#8) ∧ s.memOk = true

/-- The memories keep their canonical form, in which equal memories are equal data: a step from any state in which both have it, to
another state, keeps it. -/
def Obligations.StepKeepsMemoryForm : Prop := ∀ s t : State, s.memOk = true → step s = .next t → t.memOk = true

/-- R4, R190, R208: writes performed at one moment. Every byte written reads as written, every other byte as before; both memories keep
their canonical form; and every armed monitor on a line that is written, of another agent, records a wake. -/
def Obligations.PerformedWrites : Prop :=
  ∀ (s : State) (who : Nat) (rels : List Rel) (es : List (Nat × Byte)) (o : Obj), (es.map Prod.fst).Nodup →
    let t := s.perform who rels es o
    (∀ e, e ∈ es → isPeer e.1 = false → t.byteNow e.1 = e.2)
    ∧ (∀ loc, loc ∉ es.map Prod.fst → t.byteNow loc = s.byteNow loc)
    ∧ (s.memOk = true → t.memOk = true)
    ∧ ∀ k w m e, SMap.find s.waves k = some w → w.who ≠ who → w.acc.monitor = some m → e ∈ es → isCreel e.1 = false →
      m.line = e.1 / 128 → (t.wave k).acc.monitor = some { m with wake := if m.wake = 0 then 1 else min m.wake 1 }

/-! ## Ordering, barriers and publishing (R159, R161, R203, R204, R206, R217 to R222, R227, R230, R231) -/

/-- Wave `k` of a state stands at the gang barrier. -/
def AtBarrier (s : State) (k : Nat) : Prop := ∃ o w, (s.wave k).acc.wait = .gbar o w

/-- R217 to R222, R230, R362: the sync instructions complete with no store error pending. sync.acq, once the strand's earlier
reads have returned, acquires its object over them; sync.rel makes a release that later writes carry; sync.fence, once the
strand's accesses have happened, releases and acquires every object, sees what the fences before it cover, and takes its place
after them. Until then each stands. With a store error pending each takes the store-failure trap first, which clears it. R231:
the gang barrier. A strand that arrives, its accesses having happened where the barrier orders memory, stands there; when every
wave of the resident unit whose access strand has not ended stands there, all of them go on at their next words with one more
barrier instance passed; otherwise nothing changes. (R391: the instruction that the turn of the last to arrive finishes is
counted with that turn, so that the two ways on differ in the partition's counters alone.) -/
def Obligations.Synchronisation : Prop :=
  (∀ (s : State) (w : Bool) (k : BitVec 1) (c : BitVec 3) (j : BitVec 12),
    let obj := if k = 1#1 then Obj.creel else Obj.page (s.unit s.curUnit).space j.toNat
    let me := s.placeOf s.curWave
    let n := s.strand.seqNo
    let mine := fun (a : Access) => a.unit = s.curUnit ∧ a.idx = s.curWave.pos
    let next := s.strand.pc + 4#64
    (s.strand.storeErr = none →
      ((∀ e, e ∈ s.flight → mine e.2 → e.2.kind = .store) → ∃ t, exec (.syncAcq w k c j) s = .next t
        ∧ GoesTo (s.noteVis s.curUnit s.curWave.pos n (acquired obj c.toNat me (s.waveOf s.curUnit s.curWave.pos).acc.seen)) t w next)
      ∧ ((∃ e, e ∈ s.flight ∧ mine e.2 ∧ e.2.kind ≠ .store) → ∃ t, exec (.syncAcq w k c j) s = .next t ∧ Stands s t)
      ∧ (∃ t, exec (.syncRel w k c j) s = .next t ∧ GoesTo (s.updStrand fun t => t.release obj c.toNat me) t w next)
      ∧ (s.quiet = false → ∃ t, exec (.syncFence w c) s = .next t ∧ Stands s t)
      ∧ (s.quiet = true →
        let R := s.updStrand fun t => t.release .all c.toNat me
        let A := R.noteVis s.curUnit s.curWave.pos (n + 1) (acquired .all c.toNat me (R.waveOf s.curUnit s.curWave.pos).acc.seen)
        let F := A.noteFence s.curUnit s.curWave.pos (fenceView s.fences c.toNat me)
        let f : Rel := ⟨.all, c.toNat, me, n, ownWrites s.hist s.curWave.who⟩
        ∃ t fs, exec (.syncFence w c) s = .next t ∧ f ∈ fs ∧ (∀ g, g ∈ fs → g = f ∨ g ∈ s.fences)
          ∧ (∀ g, g ∈ s.fences → g.place.wave ≠ me.wave ∨ g.scope ≠ c.toNat → g ∈ fs)
          ∧ GoesTo { F with fences := fs } t w next))
    ∧ (∀ a, s.strand.storeErr = some a → s.canEnter → ∀ i ∈ ([.syncAcq w k c j, .syncRel w k c j, .syncFence w c] : List Instr),
      ∃ t, exec i s = .next t ∧ t.strand.storeErr = none
        ∧ Entered (s.updStrand fun x => { x with csr := { x.csr with faultAddr := a } }) t 0x0C#8 0#64 s.strand.pc))
  ∧ ((∀ (s : State) (w : Bool) (k : BitVec 1), s.strand.storeErr = none → (∀ o v, s.strand.wait ≠ .gbar o v) →
    (k = 0#1 → s.quiet = false → ∃ t, exec (.syncGbar w k) s = .next t ∧ Stands s t)
    ∧ (k = 1#1 ∨ s.quiet = true →
      let R := if k = 0#1 then s.updStrand fun t => t.release .all 1 (s.placeOf s.curWave) else s
      let B := R.updStrand fun t => { t with blocked := true, wait := .gbar (k == 0#1) w }
      ∃ t v, exec (.syncGbar w k) s = .next t ∧ exec (.gbarDeparture s.curUnit) B = .next v
        ∧ t.waves = v.waves ∧ t.units = v.units ∧ t.flight = v.flight ∧ t.mem = v.mem ∧ t.creel = v.creel ∧ t.hist = v.hist
        ∧ (∀ n, n ≠ (s.unit s.curUnit).part → t.part n = v.part n)))
  ∧ ∀ (s : State) (u : Nat),
    let all := (s.unit u).life = .resident ∧ ∀ k, k ∈ (s.unit u).slots → (s.wave k).acc.ended = true ∨ AtBarrier s k
    (¬ all → exec (.gbarDeparture u) s = .next s)
    ∧ (all → ∃ t, exec (.gbarDeparture u) s = .next t
      ∧ (∀ k, k ∈ (s.unit u).slots → AtBarrier s k → (t.wave k).acc.pc = (s.wave k).acc.pc + 4#64
          ∧ (t.wave k).acc.blocked = false ∧ (t.wave k).acc.wait = .none ∧ (t.wave k).gbars = (s.wave k).gbars + 1)
      ∧ (∀ k, k ∉ (s.unit u).slots ∨ ¬ AtBarrier s k → t.wave k = s.wave k)
      ∧ (∀ k, (t.wave k).cmp = (s.wave k).cmp ∧ (t.wave k).acc.s = (s.wave k).acc.s ∧ (t.wave k).v = (s.wave k).v)
      ∧ ∀ loc, t.byteNow loc = s.byteNow loc))

/-- R204, R206: copy.publish completes for a buffer whose pages pass the probe: its status word holds the change generation of
the space after the step and, in its low bits, 2 where the address is not that of a page, 1 where the pages do not agree or
have one backing, 0x80 where it is held for a scout task, and 0 where it is performed: as a release of the buffer's object at
system scope the pages rotate in one step and the streams on them get their next versions. It stands while a write to the
buffer, an access that the release covers, or a pin is outstanding, and, by log entry 22's reading, while the compare of an
earlier publish is due, the generation window is full or a die of the buffer is off line (State.rotateWaits). Which streams a
publish reaches is log entry 55's choice (State.streamsOn). A rotation makes W the new L, and V the old L, or W with two
backings. R202, R203, R227: copy.bclose closes the open batch, gives its number and opens the next one, and stands while 16
closed batches are incomplete. copy.bwait stands until every closed batch up to the operand's number is complete and gives 1
for a number not yet closed (also where one of them failed: log entry 62's reading), 2 where one of them failed and 0
otherwise; the creel writes of their commands count as the strand's own from here on, and, by log entry 64's reading, where the
batches have commands the wait stands also while an access that the strand's releases cover is outstanding (State.relsOut). -/
def Obligations.Publication : Prop :=
  ((∀ l : Leaf, l.rotate.lrole = l.wrole ∧ l.rotate.srole = l.srole
    ∧ (l.backings = 2 → l.rotate.wrole = l.lrole ∧ l.rotate.vrole = l.vrole)
    ∧ (l.backings ≠ 2 → l.rotate.vrole = l.lrole ∧ l.rotate.wrole = l.vrole) ∧ l.rotate.frame = l.frame)
  ∧ ∀ (s : State) (w : Bool) (r : BitVec 6) (n : BitVec 10) (ps : List (Nat × Leaf)) (a : Nat) (l : Leaf), s.strand.storeErr = none →
    s.badUse [.s r.toNat] = none → s.scalarOps < 8 →
    let va := (s.readS r.toNat).toNat
    let u := s.unit s.curUnit
    let bytes := l.size * (n.toNat + 1)
    let G := fun (t : State) => (t.space u.space).gen.toNat * 2 ^ 16
    s.bufferPages s.curUnit u.part u.space va (n.toNat + 1) = .ok ((a, l) :: ps) →
    let all := (a, l) :: ps
    (va % l.size ≠ 0 → ∃ t, exec (.copyPublish w r n) s = .next t ∧ ScalarResult s t w r.toNat (BitVec.ofNat 64 (G s + 2)))
    ∧ (va % l.size = 0 → uniformPages all = false →
      ∃ t, exec (.copyPublish w r n) s = .next t ∧ ScalarResult s t w r.toNat (BitVec.ofNat 64 (G s + 1)))
    ∧ (va % l.size = 0 → uniformPages all = true →
      (s.isScout = true → ∃ t, exec (.copyPublish w r n) s = .next t
        ∧ ScalarResult (s.updUnit s.curUnit fun x => { x with held := x.held ++ [⟨s.curWave.pos, u.space, va, n.toNat + 1⟩] }) t w r.toNat
            (BitVec.ofNat 64 (G s + 0x80)))
      ∧ (s.isScout = false → (s.writesOut va bytes || s.coversOut (.page u.space l.obj) || s.rotateWaits u.space va bytes all) = true →
        ∃ t, exec (.copyPublish w r n) s = .next t ∧ Stands s t)
      ∧ (s.isScout = false → (s.writesOut va bytes || s.coversOut (.page u.space l.obj) || s.rotateWaits u.space va bytes all) = false →
        let R := s.updStrand fun t => t.release (.page u.space l.obj) 5 (s.placeOf s.curWave)
        let P := (R.rotate s.curWave.who u.space R.strand.rels all).publishStreams u.space va bytes
        ∃ t, exec (.copyPublish w r n) s = .next t ∧ ScalarResult P t w r.toNat (BitVec.ofNat 64 (G P)))))
  ∧ (∀ (s : State) (w : Bool) (r : BitVec 6),
    let v := s.curWave
    let b := v.openBatch
    let left := fun (x : Batch) => x.pending ≠ 0 ∨ x.held ≠ 0
    let busy := (v.closed.filter fun x => !(x.pending == 0 && x.held == 0)).length
    s.scalarOps < 8 →
    (busy < 16 → ∃ t, exec (.copyBclose w r) s = .next t
      ∧ ScalarResult (s.updWave s.cur.wave fun y => { y with closed := y.closed ++ [b], openBatch := ⟨b.num + 1#32, 0, 0, false, []⟩ })
          t w r.toNat (b.num.setWidth 64))
    ∧ (16 ≤ busy → ∃ t, exec (.copyBclose w r) s = .next t ∧ Stands s t)
    ∧ (s.badUse [.s r.toNat] = none →
      let n := (s.readS r.toNat).setWidth 32
      let beyond := (n - b.num).toNat < 2 ^ 31
      let mine := if beyond then v.closed else v.closed.filter fun x => decide ((n - x.num).toNat < 2 ^ 31)
      let covered := s.relsOut = true ∧ ∃ x, x ∈ mine ∧ x.cmds ≠ []
      ((∃ x, x ∈ mine ∧ left x) ∨ covered → ∃ t, exec (.copyBwait w r) s = .next t ∧ Stands s t)
      ∧ ((∀ x, x ∈ mine → ¬ left x) → ¬ covered → ∃ t, exec (.copyBwait w r) s = .next t
        ∧ ScalarResult (s.adopt v.who (mine.flatMap fun x => x.cmds.map fun c => 2 ^ 40 + c) fun x => isCreel x.loc) t w r.toNat
            (if beyond then 1#64 else if mine.any fun x => x.failed then 2#64 else 0#64))))

/-! ## Engines (R179, R199 to R202, R288, R297, R320, R321) -/

/-- The wave numbered `who` of engine `e` has been answered: `n` words have left the command queue and `x` is its newest completion. -/
def Answered (s t : State) (who e n : Nat) (x : W64) : Prop :=
  t = s.updWaveBy who fun w => { w with eqCmd := SMap.put e ((SMap.get [] w.eqCmd e).drop n) w.eqCmd,
                                        eqDone := SMap.put e (SMap.get [] w.eqDone e ++ [⟨x, false, 0⟩]) w.eqDone }

/-- R179, R200, R288, R297: completions, with room in the completion queue of a resident wave. A finished copy or gather command's word
holds its status, tag and bytes done, all ones for an unassigned command; STAT answers a stream's version, standing, history, last
verdict and takers, k alone for a closed one (log entry 55); TOL sets the tolerances of an open stream from finite values that are not negative, with status 0, else 1 or 2; an
unassigned command, a reserved bit or a word that fails parity (log entry 51), and every word to the collective and exchange engines, is answered by all ones. -/
def Obligations.EngineAnswers : Prop :=
  ∀ (s : State) (who slot : Nat), s.slotBy who = some slot →
    let v := s.waveBy who
    let room := fun e => (SMap.get [] v.eqDone e).length < 8
    let c := (s.unit (who / 32)).cluster
    let stream := fun n => SMap.get Stream.closed (s.cluster c).streams n
    (∀ e i d, (SMap.get [] v.fin e)[i]? = some d → room e → exec (.completion who e i) s = .next (s.updWaveBy who fun w =>
      { w with fin := SMap.put e ((SMap.get [] w.fin e).eraseIdx i) w.fin,
               eqDone := SMap.put e (SMap.get [] w.eqDone e ++ [⟨if d.status = 0xFF then BitVec.allOnes 64
                 else BitVec.ofNat 64 (d.status * 2 ^ 56 + d.tag * 2 ^ 32 + d.done), false, d.num⟩]) w.eqDone }))
    ∧ (∀ q rest, SMap.get [] v.eqCmd 4 = q :: rest → room 4 →
      let x := q.val.toNat
      let n := x % 64
      let y := stream n
      let takers := (s.units.filter fun e => e.2.life != .gone && e.2.takes.any fun t => t.cluster == c && t.stream == n).length
      (q.parityBad = false → x / 2 ^ 56 = 1 → x / 64 % 2 ^ 50 = 0 → ∃ t, exec (.stat who) s = .next t ∧ Answered s t who 4 1 (BitVec.ofNat 64
        (y.k.toNat * 2 ^ 32 + if y.isOpen then 2 ^ 31 + (if y.hold then 2 ^ 30 else 0) + y.h * 2 ^ 28 + y.last * 2 ^ 24
          + min 255 takers * 2 ^ 16 else 0)))
      ∧ (q.parityBad = true ∨ x / 2 ^ 56 ≠ 1 ∨ x / 64 % 2 ^ 50 ≠ 0 → x / 2 ^ 56 ≠ 2 →
        ∃ t, exec (.stat who) s = .next t ∧ Answered s t who 4 1 (BitVec.allOnes 64))
      ∧ (∀ p more, rest = p :: more → x / 2 ^ 56 = 2 →
        let ta := p.val.toNat % 2 ^ 32
        let tr := p.val.toNat / 2 ^ 32
        let good := tolOk ta = true ∧ tolOk tr = true
        let legal := x / 64 % 2 ^ 50 = 0 ∧ q.parityBad = false ∧ p.parityBad = false
        (¬ legal → ∃ t, exec (.tol who) s = .next t ∧ Answered s t who 4 2 (BitVec.allOnes 64))
        ∧ (legal → y.isOpen = false → ∃ t, exec (.tol who) s = .next t ∧ Answered s t who 4 2 1#64)
        ∧ (legal → y.isOpen = true → ¬ good → ∃ t, exec (.tol who) s = .next t ∧ Answered s t who 4 2 2#64)
        ∧ (legal → y.isOpen = true → good → ∃ t, exec (.tol who) s = .next t
          ∧ Answered (s.updStream c n fun y => { y with tolAbs := if ta = 2 ^ 31 then 0#32 else BitVec.ofNat 32 ta,
                                                        tolRel := if tr = 2 ^ 31 then 0#32 else BitVec.ofNat 32 tr }) t who 4 2 0#64)))
    ∧ (∀ e ∈ ([(.eq2Word who, 2), (.eq5Word who, 5)] : List (Instr × Nat)), room e.2 → SMap.get [] v.eqCmd e.2 ≠ [] →
      ∃ t, exec e.1 s = .next t ∧ Answered s t who e.2 1 (BitVec.allOnes 64))

/-- R199 to R202: one step of the copy or gather engine for a wave with one command: it starts the command, whose words leave
the queue, or answers a refused one, or one with a word that fails parity, which it takes as unassigned (log entry 51); a copy
reads its next source bytes, to the end of a line; and a command whose bytes are read writes the next of them, to the end of a
line of the destination. Bytes that leave a scout task's unit are read as a send reads them, without its predictions and its
overlay, and a copy of its creel that leaves it waits for the verdict (R157; log entry 20's choice). Said of ranges that do not
overlap; no other byte changes. R320, R321: the mask generator: a command whose fields and ranges are good, for a tree of the
unit's side, writes for each query a row of bits, rounded up to 64, in which bit k says that key k is attended to: a live node
that is the query's node or an ancestor of it, or a trunk position below the trunk's length; the row of a node that is not live
is zero. The completion holds the tag and the number of those. No other byte changes. A list with a marked word is not used
(R350): the command is answered by all ones, log entry 51's choice. -/
def Obligations.EngineCommands : Prop :=
  (∀ (s : State) (who : Nat), s.waveLives who = true →
    let v := s.waveBy who
    ∀ e ∈ ([(.copy who, 0), (.gather who, 1)] : List (Instr × Nat)), ∀ c, SMap.get [] v.eng e.2 = [c] → c.batch = none ∨ c.joined = true →
      (∀ st, c.started = false → (if v.cmdBad e.2 c.words then some 0xFF else c.refusal) = some st → ∃ t, exec e.1 s = .next t ∧ SMap.get [] (t.waveBy who).eng e.2 = []
        ∧ SMap.get [] (t.waveBy who).fin e.2 = SMap.get [] v.fin e.2 ++ [⟨c.num, st, c.tag, c.done⟩])
      ∧ (c.started = false → v.cmdBad e.2 c.words = false → c.refusal = none → c.length ≠ 0 → ∃ t, exec e.1 s = .next t
        ∧ SMap.get [] (t.waveBy who).eng e.2 = [{ c with started := true }]
        ∧ SMap.get [] (t.waveBy who).eqCmd e.2 = (SMap.get [] v.eqCmd e.2).drop c.words)
      ∧ (∀ loc obj, c.started = true → c.gather = false → e.2 = 0 → c.read < c.length → c.done = c.read → c.buf = [] →
        let a := c.src + c.read
        let n := min (c.length - c.read) (128 - a % 128)
        ¬ (c.leaves = true ∧ c.sk = 1 ∧ 0 < (s.unit (who / 32)).depthScout) → s.reach (who / 32) c.num c.sk a n c.readWant = .ok loc obj → (∀ i, i < n → s.poisonedAt (loc + i) = false) →
        ∃ t, exec e.1 s = .next t ∧ SMap.get [] (t.waveBy who).eng 0
            = [{ c with read := c.read + n, buf := s.engBytes (who / 32) (c.sk == 1 || c.leaves) a loc n c.view 2 }]
          ∧ ∀ x, t.byteNow x = s.byteNow x)
      ∧ (c.started = true → c.gather = false → e.2 = 0 → c.read < c.length → c.done = c.read → c.buf = [] → c.leaves = true → c.sk = 1 →
        0 < (s.unit (who / 32)).depthScout → ∃ t, exec e.1 s = .next t ∧ SMap.get [] (t.waveBy who).eng 0 = [c] ∧ ∀ x, t.byteNow x = s.byteNow x)
      ∧ (∀ loc obj, c.started = true → c.length ≤ c.read → c.done < c.length → c.selfOverlaps = false →
        let a := c.dst + c.done
        let n := min (c.length - c.done) (128 - a % 128)
        n ≤ c.buf.length → s.reach (who / 32) c.num c.dk a n (if c.gather then .write else .engine) = .ok loc obj →
        (∀ i, i < n → isPeer (loc + i) = false) →
        ∃ t, exec e.1 s = .next t ∧ ∀ x, t.byteNow x = if loc ≤ x ∧ x < loc + n then c.buf.getD (x - loc) 0#8 else s.byteNow x))
  ∧ (∀ (s : State) (who slot : Nat) (e0 e1 e2 e3 : QEntry) (more : List QEntry), s.slotBy who = some slot →
    let v := s.waveBy who
    let w0 := e0.val
    let w1 := e1.val
    let w2 := e2.val
    let w3 := e3.val
    let u := s.unit (who / 32)
    let nq := bitsOf w0.toNat 53 48 + 1
    let nk := bitsOf w0.toNat 12 0
    let row := 8 * ((nk + 63) / 64)
    let tree := s.tree u.part (bitsOf w0.toNat 47 32)
    let word := fun (base i : Nat) => leNat ((List.range 4).map fun j => s.byteNow (locOfCreel u.cluster (base + 4 * i + j)))
    let query := fun i => word w1.toNat i
    let key := fun i => word w2.toNat i
    SMap.get [] v.eqCmd 3 = e0 :: e1 :: e2 :: e3 :: more → v.cmdBad 3 4 = false → (SMap.get [] v.eqDone 3).length < 8 → bitsOf w0.toNat 63 56 = 1 →
    bitsOf w0.toNat 55 54 = 0 → bitsOf w0.toNat 15 13 = 0 → 0 < nk → nk ≤ 4096 →
    (∀ a n, (a, n) ∈ [(w1.toNat, 4 * nq), (w2.toNat, 4 * nk), (w3.toNat, nq * row)] → a < 2 ^ 22 ∧ s.creelOutside (who / 32) a n = false) →
    let marked := ∃ i, (i < 4 * nq ∧ s.poisonedAt (locOfCreel u.cluster (w1.toNat + i)) = true)
      ∨ (i < 4 * nk ∧ s.poisonedAt (locOfCreel u.cluster (w2.toNat + i)) = true)
    (marked → ∃ t, exec (.mask who) s = .next t ∧ Answered s t who 3 4 (BitVec.allOnes 64))
    ∧ (¬ marked → (∀ i, i < nq → bitsOf (query i) 31 12 = 0) → (∀ i, i < nk → (key i).testBit 31 = false ∨ bitsOf (key i) 30 12 = 0) →
    SMap.has (s.part u.part).trees (bitsOf w0.toNat 47 32) = true → tree.decode = (s.cluster u.cluster).decode →
    let base := locOfCreel u.cluster w3.toNat
    let dead := ((List.range nq).filter fun i => !tree.live (query i)).length
    ∃ t, exec (.mask who) s = .next t
      ∧ (∃ e, SMap.get [] (t.waveBy who).eqDone 3 = SMap.get [] v.eqDone 3 ++ [e]
          ∧ e.val = BitVec.ofNat 64 (bitsOf w0.toNat 31 16 * 2 ^ 32 + dead))
      ∧ SMap.get [] (t.waveBy who).eqCmd 3 = more
      ∧ (∀ i k, i < nq → k < 8 * row → (t.byteNow (base + i * row + k / 8)).getLsbD (k % 8)
          = (decide (k < nk) && tree.live (query i) && (if (key k).testBit 31 then
              tree.live (key k % 4096) && (tree.ancestors (query i)).contains (key k % 4096)
            else decide (key k % 2 ^ 31 < tree.trunk))))
      ∧ ∀ x, x < base ∨ base + nq * row ≤ x → t.byteNow x = s.byteNow x))

/-! ## Tasks (R194 to R196, R207, R208, R256 to R259, R263, R266, R267, R269, R278, R382) -/

/-- An instruction has issued with scalar register `d` as its only result, marked poisoned (R362, R364). -/
def ScalarLost (s t : State) (sw : Bool) (d : Nat) : Prop :=
  ∃ u, ScalarResult s u sw d 0#64
    ∧ t = if d = 0 then u else u.updStrand fun x => { x with sPoison := x.sPoison ||| BitVec.twoPow 64 d }

/-- What comes of an instruction, in state `s`, that stops on a block of bytes that it has had read: it takes the poisoned-data trap for marked bytes (R350; what trap.info
holds is log entry 51's choice), an error reply poisons its result (R362), and a spilled page is asked for and waited for (R324). -/
def BlockStops (o : Out) (s : State) (sw : Bool) (d : Nat) (got : Except PFault (List Byte)) : Prop :=
  (got = .error .poisoned → o = .next s.trapBlock) ∧ (got = .error .refused → ∃ t, o = .next t ∧ ScalarLost s t sw d)
    ∧ ∀ a, got = .error (.spilled a) →
      ∃ t, o = .next t ∧ Stands (s.wantPage (s.unit s.curUnit).part (s.unit s.curUnit).space a) t

/-- R207, R208, R278: monitors. task.marm, once its probe has passed and it has a courier token, arms the monitor on the address's line
with no wake and gives 0; where the line cannot be reached, through no fibre or on a die that is not live, it arms nothing and its result
is marked poisoned (R349, R362). task.mwait gives 0 without a monitor, 1 for a recorded write, 2 after its time-out, or another recorded
cause, disarming the monitor (which of two causes that were recorded at different times it gives is log entry 48's reading: 1 before 2
before another); otherwise the strand sleeps. A recorded wake, or a time-out that has passed, wakes it; nothing else
does. -/
def Obligations.MonitorInstructions : Prop :=
  ∀ (s : State) (w : Bool) (r : BitVec 6), s.strand.storeErr = none → s.badUse [.s r.toNat] = none → s.scalarOps < 8 →
    let x := s.readS r.toNat
    let core := s.cur.wave / 8
    let tokens := SMap.get 8 s.courier core
    let C := ({ s with courier := SMap.put core (tokens - 1) s.courier } : State).bump (s.unit s.curUnit).part (dieOfCluster s.curCluster) 9 1
    let off := s.updStrand fun t => { t with monitor := none }
    let gives := fun (v : W64) => ∃ t, exec (.taskMwait w r) s = .next t ∧ ScalarResult off t w r.toNat v
    (∀ a, s.isScout = false → s.afterOthers = false → s.probeLanes false .read [⟨0, x.toNat, 1, 0#64, 0#64⟩] = .ok [a] →
      let reached := s.unreachable (s.unit s.curUnit).part a.loc = false
      (reached → tokens ≠ 0 → ∃ t, exec (.taskMarm w r) s = .next t
        ∧ ScalarResult (C.updStrand fun t => { t with monitor := some ⟨a.loc / 128, 0⟩ }) t w r.toNat 0#64)
      ∧ (¬ reached → ∃ t, exec (.taskMarm w r) s = .next t ∧ ScalarLost s t w r.toNat))
    ∧ (s.strand.monitor = none → gives 0#64)
    ∧ (∀ m, s.strand.monitor = some m →
      let late := ∃ since n, s.strand.wait = .mwait since n ∧ n ≠ 0 ∧ since + n ≤ s.cycle
      (m.wake = 1 → gives 1#64)
      ∧ (m.wake ≠ 1 → late → gives 2#64)
      ∧ (m.wake ≠ 1 → m.wake ≠ 0 → ¬ late → gives (BitVec.ofNat 64 m.wake))
      ∧ (m.wake = 0 → (∀ a b, s.strand.wait ≠ .mwait a b) →
        exec (.taskMwait w r) s = .next (s.updStrand fun t => { t with blocked := true, wait := .mwait s.cycle (x.toNat % 2 ^ 32) }))
      ∧ (∀ a b, m.wake = 0 → ¬ late → s.strand.wait = .mwait a b → ∃ t, exec (.taskMwait w r) s = .next t ∧ Stands s t))
    ∧ (∀ who k a b, s.slotBy who = some k → (s.wave k).acc.wait = .mwait a b →
      let awake := s.updWave k fun v => { v with acc := { v.acc with blocked := false } }
      exec (.mwaitTimeout who) s = .next (if b ≠ 0 ∧ a + b ≤ s.cycle then awake else s)
      ∧ ∀ m, (s.wave k).acc.monitor = some m → exec (.monitorWake who) s = .next (if m.wake ≠ 0 then awake else s))

/-- R265 to R267, R382: timelines of the unit's partition. task.tlwait gives the timeline's value, acquiring over its updates, where it
polls or the value meets the operand, and is blocked otherwise until TIMELINE_RELEASE finds that it does; task.tlsig gives the old
value and sets the timeline to the operand, or adds it, unless that would move it backward or past 64 bits, no other timeline
changing. A broken timeline gives its value with status.brk set, and is not changed. -/
def Obligations.TimelineInstructions : Prop :=
  ∀ (s : State) (w : Bool) (r : BitVec 6) (i : BitVec 10), s.strand.storeErr = none → s.badUse [.s r.toNat] = none → s.scalarOps < 8 →
    let p := (s.unit s.curUnit).part
    let n := i.toNat % 512
    let line := (s.part p).timeline n
    let h := s.readS r.toNat
    let flag := i.getLsbD 9
    let brk := s.updStrand fun t => { t with csr := { t.csr with brk := true } }
    ((∀ v b rs, s.strand.wait ≠ .released v b rs) →
      (line.broken = false → flag = true ∨ h.toNat ≤ line.value.toNat → ∃ t, exec (.taskTlwait w r i) s = .next t
        ∧ ScalarResult (s.syncWith line.rels) t w r.toNat line.value)
      ∧ (line.broken = true → ∃ t, exec (.taskTlwait w r i) s = .next t ∧ ScalarResult brk t w r.toNat line.value)
      ∧ (line.broken = false → flag = false → line.value.toNat < h.toNat →
        exec (.taskTlwait w r i) s = .next (s.updStrand fun t => { t with blocked := true, wait := .timeline n h })))
    ∧ (∀ v b rs, s.strand.wait = .released v b rs → ∃ t, exec (.taskTlwait w r i) s = .next t
      ∧ ScalarResult (if b then brk else s.syncWith rs) t w r.toNat v)
    ∧ (∀ who k m lim, s.slotBy who = some k → (s.wave k).acc.wait = .timeline m lim →
      let l := (s.part (s.unit (s.wave k).unit).part).timeline m
      exec (.timelineRelease who) s = .next (if l.broken = true ∨ lim.toNat ≤ l.value.toNat then
        s.updWave k fun v => { v with acc := { v.acc with blocked := false, wait := .released l.value l.broken l.rels } } else s))
    ∧ (s.isScout = false → s.quiet = true →
      (line.broken = true → ∃ t, exec (.taskTlsig w r i) s = .next t ∧ ScalarResult brk t w r.toNat line.value)
      ∧ (line.broken = false →
        let new := if flag then line.value.toNat + h.toNat else h.toNat
        ∃ P t, exec (.taskTlsig w r i) s = .next t ∧ ScalarResult P t w r.toNat line.value ∧ { P with parts := s.parts } = s
          ∧ ((P.part p).timeline n).value = (if line.value.toNat ≤ new ∧ new < 2 ^ 64 then BitVec.ofNat 64 new else line.value)
          ∧ ∀ q m, q ≠ p ∨ m ≠ n → (P.part q).timeline m = (s.part q).timeline m))

/-- The strand has acquired the creel's object at weave scope over what weave `n` has released (R195). -/
def WeaveSeen (s : State) (n : Nat) : State :=
  let A := s.acquire s.curUnit s.curWave.pos s.strand.seqNo 2 (s.placeOf s.curWave) [.creel]
  A.noteVis s.curUnit s.curWave.pos s.strand.seqNo (acquired .creel 2 (s.placeOf s.curWave) (s.weave n).rels)

/-- R194 to R196: weaves. task.wjoin gives the status that its conditions give, with the slot and the weave's count of the cluster where it
is in a weave already and, by log entry 21's reading, the slot asked for and no count where it is not, status 4 before 1 (R195 gives
neither): 2 where the slot of the weave with its key on the die is taken, and 3 where there is no such weave and the die has 32. With none
of them in the way it places the unit in the slot of the weave with its key and gives the number of members; with wait it returns so, as
an acquire at weave scope, at once where the weave has the awaited number, and otherwise blocks joined until it has; task.wleave takes the unit of the cluster out of its weave, once the cluster's accesses to other members have happened, and gives 1
where the cluster is in none. -/
def Obligations.WeaveInstructions : Prop :=
  (∀ (s : State) (w : Bool) (r : BitVec 6) (k : BitVec 1) (slot : BitVec 4) (count held n : Nat), s.strand.wait = .wjoin count held →
    s.weaveOfUnit s.curUnit = n + 1 →
    let y := s.weave n
    (y.members.length < count → exec (.taskWjoin w r k slot) s
      = .next (s.updStrand fun t => { t with blocked := true, wait := .wjoin count held }))
    ∧ (count ≤ y.members.length → ∃ t, exec (.taskWjoin w r k slot) s = .next t
      ∧ ScalarResult (WeaveSeen s n) t w r.toNat (BitVec.ofNat 64 (y.members.length * 2 ^ 16 + held * 2 ^ 8))))
  ∧ ∀ (s : State) (w : Bool) (r : BitVec 6) (k : BitVec 1) (slot : BitVec 4), s.strand.storeErr = none → s.badUse [.s r.toNat] = none → s.scalarOps < 8 →
    s.isScout = false → (∀ c t, s.strand.wait ≠ .wjoin c t) →
    let x := s.readS r.toNat
    let word := fun (count at_ st : Nat) => BitVec.ofNat 64 (count * 2 ^ 16 + at_ * 2 ^ 8 + st)
    let own := match s.memberOf s.curUnit s.curCluster with
      | none => (0, slot.toNat)
      | some (v, n) => (v.members.length, n)
    let J := s.join (bitsOf x.toNat 47 0) slot.toNat
    let want := bitsOf x.toNat 51 48 + 1
    (bitsOf x.toNat 63 52 ≠ 0 → s.joinStatus x slot.toNat = 4)
    ∧ (bitsOf x.toNat 63 52 = 0 → s.weaveOfCluster s.curCluster ≠ 0 → s.joinStatus x slot.toNat = 1)
    ∧ (bitsOf x.toNat 63 52 = 0 → s.weaveOfCluster s.curCluster = 0 → s.weaveOfUnit s.curUnit = 0 →
      let die := dieOfCluster s.curCluster
      let named := s.weaves.find? fun e => e.2.part == (s.unit s.curUnit).part && e.2.die == die && e.2.key == bitsOf x.toNat 47 0
      (∀ e, named = some e →
        s.joinStatus x slot.toNat = if (SMap.find (s.weave e.1).members slot.toNat).isSome then 2 else 0)
      ∧ (named = none →
        s.joinStatus x slot.toNat = if 32 ≤ (s.weaves.filter fun e => e.2.die == die).length then 3 else 0))
    ∧ (s.joinStatus x slot.toNat ≠ 0 → ∃ t, exec (.taskWjoin w r k slot) s = .next t
      ∧ ScalarResult s t w r.toNat (word own.1 own.2 (s.joinStatus x slot.toNat)))
    ∧ (s.joinStatus x slot.toNat = 0 → s.quiet = true →
      (∃ n, SMap.find (J.weave n).members slot.toNat = some s.curUnit ∧ (J.weave n).key = bitsOf x.toNat 47 0)
      ∧ ∀ n, J.weaveOfUnit s.curUnit = n + 1 →
        (k = 0#1 → ∃ t, exec (.taskWjoin w r k slot) s = .next t ∧ ScalarResult J t w r.toNat (word (J.weave n).members.length slot.toNat 0))
        ∧ (k = 1#1 → (J.weave n).members.length < want → exec (.taskWjoin w r k slot) s
          = .next (J.updStrand fun t => { t with blocked := true, wait := .wjoin want slot.toNat }))
        ∧ (k = 1#1 → want ≤ (J.weave n).members.length → ∃ t, exec (.taskWjoin w r k slot) s = .next t
          ∧ ScalarResult (WeaveSeen J n) t w r.toNat (word (J.weave n).members.length slot.toNat 0)))
    ∧ (s.weaveOfCluster s.curCluster = 0 → ∃ t, exec (.taskWleave w r) s = .next t ∧ ScalarResult s t w r.toNat 1#64)
    ∧ (∀ n m, s.weaveOfCluster s.curCluster = n + 1 → s.quiet = true → s.memberAccessOut s.curCluster = false →
      (s.weave n).members.find? (fun m => (s.unit m.2).life == .resident && (s.unit m.2).cluster == s.curCluster) = some m →
      let L := (s.updStrand fun t => t.release .creel 2 (s.placeOf s.curWave)).leaveWeave m.2
      (∃ t, exec (.taskWleave w r) s = .next t ∧ ScalarResult L t w r.toNat 0#64)
      ∧ ∀ e v, e ∈ L.weaves → v ∈ e.2.members → v.2 ≠ m.2)

/-- R256 to R259, R263, R269: spawning, the dependence decrement and cancel. task.spawn makes a launch under the next identifier, with a
reserved place unless a cancel of the spawning unit has been accepted, and gives the identifier, or the status that its conditions give;
its descriptor's marked bytes trap and an error reply poisons its result. task.ddec gives the count that it found, leaves a count of 0,
lowers another by 1, and with the last one enqueues the node of a graph that has neither completed nor been cancelled, which makes the
launch that its block names (R261, R262); by log entry 24's reading a counter that cannot be reached poisons its result. task.cancel gives 1 for a target that is not known, 2 for one that has completed, and
otherwise accepts the cancel and gives 0, or with wait stands until it has been carried out. -/
def Obligations.SpawnAndCancel : Prop :=
  ∀ (s : State) (w : Bool) (r : BitVec 6) (k : BitVec 1) (level : BitVec 2), s.strand.storeErr = none → s.badUse [.s r.toNat] = none → s.scalarOps < 8 →
    s.isScout = false →
    let va := (s.readS r.toNat).toNat
    let u := s.unit s.curUnit
    let p := s.part u.part
    let gives := fun (i : Instr) (P : State) (v : W64) => ∃ t, exec i s = .next t ∧ ScalarResult P t w r.toNat v
    let T := s.touchVa u.part u.space va 128
    let q := T.part u.part
    let D := s.touchVa u.part u.space (va + 8) 4
    let key := s.graphOfUnit s.curUnit
    (∀ a, s.storesOut = false → s.afterOthers = false → s.probeLanes false .read [⟨0, va, 1, 0#64, 0#64⟩] = .ok [a] →
      (va % 128 ≠ 0 → gives (.taskSpawn w r k) s 3#64)
      ∧ (va % 128 = 0 → BlockStops (exec (.taskSpawn w r k) s) s w r.toNat (s.readVa s.curUnit u.part u.space va 128))
      ∧ ∀ b, va % 128 = 0 → s.readVa s.curUnit u.part u.space va 128 = .ok b →
        BlockStops (exec (.taskSpawn w r k) s) T w r.toNat (T.readVa 0 u.part u.space (fieldOf b 0 8) 128)
        ∧ ∀ kb, T.readVa 0 u.part u.space (fieldOf b 0 8) 128 = .ok kb →
        (kernelOf kb = none → gives (.taskSpawn w r k) T 3#64)
        ∧ ∀ kd, kernelOf kb = some kd →
        (spawnOk b = false → gives (.taskSpawn w r k) T 3#64)
        ∧ (spawnOk b = true → kd.sprout = false → gives (.taskSpawn w r k) T 4#64)
        ∧ (spawnOk b = true → kd.sprout = true → 4 ≤ u.depth → gives (.taskSpawn w r k) T 2#64)
        ∧ (spawnOk b = true → kd.sprout = true → u.depth < 4 →
          (T.spawnSpot kd = none → k = 0#1 → gives (.taskSpawn w r k) T 1#64)
          ∧ (T.spawnSpot kd = none → k = 1#1 → ∃ t, exec (.taskSpawn w r k) s = .next t ∧ Stands T t)
          ∧ (∀ spot, T.spawnSpot kd = some spot → gives (.taskSpawn w r k)
            (T.setPart u.part { q with nextLaunch := if q.nextLaunch = 0xFFFFFFFF then 1 else q.nextLaunch + 1,
                                       launches := SMap.put q.nextLaunch (T.spawnLaunch va b spot) q.launches })
            (BitVec.ofNat 64 (q.nextLaunch * 2 ^ 32)))))
    ∧ (va % 64 ≠ 0 → gives (.taskDdec w r) s (BitVec.allOnes 64))
    ∧ (∀ a g pa, va % 64 = 0 → s.quiet = true → s.afterOthers = false → s.probeLanes false .atomic [⟨0, va + 8, 4, 0#64, 0#64⟩] = .ok [a] →
      s.unreachable u.part a.loc = false → SMap.find (D.part u.part).graphs key = some g →
      D.vaLocs 0 u.part g.space (va + 8) 4 .atomic = .ok [pa, pa + 1, pa + 2, pa + 3] →
      (∀ i, i < 4 → D.poisonedAt (pa + i) = false ∧ isPeer (pa + i) = false) →
      let old := D.word pa 4
      let lowered := fun (P : State) => P.word pa 4 = old - 1 ∧ ∀ x, x < pa ∨ pa + 4 ≤ x → P.byteNow x = s.byteNow x
      (old = 0 → gives (.taskDdec w r) D 0#64)
      ∧ (2 ≤ old → ∃ P, gives (.taskDdec w r) P (BitVec.ofNat 64 old) ∧ lowered P ∧ P.parts = D.parts)
      ∧ (old = 1 → g.done = true ∨ g.cancelled = true → ∃ P, gives (.taskDdec w r) P 1#64 ∧ lowered P ∧ P.parts = D.parts)
      ∧ (old = 1 → g.done = false → g.cancelled = false → ∃ P, gives (.taskDdec w r) P 1#64
        ∧ ∀ b l, P.readVa 0 u.part g.space va 64 = .ok b → fieldOf b 0 8 ≠ 0 →
          P.launchOf u.part g.space (fieldOf b 0 8) ((P.part u.part).queue g.queue).affinity = some l →
          lowered P ∧ SMap.find (P.part u.part).graphs key = some { g with openNodes := g.openNodes + 1 }
            ∧ ∃ view, SMap.find (P.part u.part).launches p.nextLaunch = some
              { l with queue := g.queue, gid := g.gid, graph := key, node := va, seqNo := p.launches.length, view := view }))
    ∧ (∀ a, va % 64 = 0 → s.quiet = true → s.afterOthers = false → s.probeLanes false .atomic [⟨0, va + 8, 4, 0#64, 0#64⟩] = .ok [a] →
      s.unreachable u.part a.loc = true → ∃ t, exec (.taskDdec w r) s = .next t ∧ ScalarLost s t w r.toNat)
    ∧ ((∀ n, s.strand.wait ≠ .cancel n) →
      (p.target level.toNat (s.readS r.toNat) = .unknown → gives (.taskCancel w r k level) s 1#64)
      ∧ (p.target level.toNat (s.readS r.toNat) = .past → gives (.taskCancel w r k level) s 2#64)
      ∧ ∀ ls gs, p.target level.toNat (s.readS r.toNat) = .hit ls gs →
        let B := s.acceptCancel u.part ls gs
        let A := if level.toNat < 2 then B else B.markCancel u.part level.toNat (s.readS r.toNat)
        let own := (p.reached ls gs).contains u.launch
        A.cancels = s.cancels ++ [⟨s.nextCmd, u.part, ls, gs, [], s.cycle, 40000⟩]
        ∧ (k = 0#1 ∨ own = true → gives (.taskCancel w r k level) A 0#64)
        ∧ (k = 1#1 → own = false → exec (.taskCancel w r k level) s
          = .next (A.updStrand fun t => { t with blocked := true, wait := .cancel s.nextCmd })))
    ∧ (∀ n, s.strand.wait = .cancel n →
      ((∀ c, c ∈ s.cancels → c.num ≠ n) → gives (.taskCancel w r k level) s 0#64)
      ∧ ((∃ c, c ∈ s.cancels ∧ c.num = n) → ∃ t, exec (.taskCancel w r k level) s = .next t ∧ Stands s t))

/-! ## Scouting (R157 to R178) -/

/-- R158, R162, R163, R174 to R177: the stream instructions. scout.open gives 4 for a descriptor that is not aligned or breaks its limits, 1
where the stream is open, 2 where a page has not four backings, 3 where the base is held, and otherwise opens the stream with the
descriptor's fields; scout.close gives 5 where it is not open and closes it otherwise. scout.take gives the stream's version, the
task's depth and a status: 5 not open, 6 no room for a ninth take, 3 a version that is neither real nor next, 0 the real version,
with L mapped, which acquires the buffer's object once the strand's earlier reads have returned, 2 a held output and 1 a prediction,
with S mapped, each recorded with the unit, and 4 where it may not wait for the next version; otherwise it blocks for that version,
and once it is published returns the take that the publish has given it. A take that the unit holds gives its word again, one of status 0
as an acquire again (R217; that the word is the one it returned when it was made is log entry 20's reading). What the other takes on a
closed stream come to, that they end, is log entry 55's choice. scout.open reads its descriptor once the strand's own stores have been
performed; its marked bytes trap and an error reply poisons its result. scout.verdict gives depth, re-run and scouting, and with wait stands while the unit scouts. -/
def Obligations.StreamInstructions : Prop :=
  ∀ (s : State) (w : Bool) (r n : BitVec 6) (noscout nowait k : BitVec 1), s.badUse [.s r.toNat] = none → s.scalarOps < 8 →
    let x := s.readS r.toNat
    let va := x.toNat
    let u := s.unit s.curUnit
    let c := s.curCluster
    let y := s.stream c n.toNat
    let gives := fun (i : Instr) (P : State) (v : W64) => ∃ t, exec i s = .next t ∧ ScalarResult P t w r.toNat v
    (s.isScout = false →
      (va % 64 ≠ 0 → gives (.scoutOpen w r n) s 4#64)
      ∧ (∀ a, va % 64 = 0 → s.afterOthers = false → s.probeLanes false .read [⟨0, va, 64, 0#64, 0#64⟩] = .ok a →
        (s.storesOut = true → ∃ t, exec (.scoutOpen w r n) s = .next t ∧ Stands s t)
        ∧ (s.storesOut = false → BlockStops (exec (.scoutOpen w r n) s) s w r.toNat (s.readVa s.curUnit u.part u.space va 64)))
      ∧ (∀ a b, va % 64 = 0 → s.afterOthers = false → s.probeLanes false .read [⟨0, va, 64, 0#64, 0#64⟩] = .ok a →
        s.storesOut = false → s.readVa s.curUnit u.part u.space va 64 = .ok b →
        let T := s.touchVa u.part u.space va 64
        let base := fieldOf b 0 8
        let len := fieldOf b 8 4
        let opened :=
          { Stream.closed with isOpen := true, part := u.part, space := u.space, base := base, length := len,
                               hold := fieldOf b 0xC 1 == 1, tolAbs := tolOf (fieldOf b 0x10 4),
                               tolRel := tolOf (fieldOf b 0x14 4), h := 1 }
        (y.isOpen = true → gives (.scoutOpen w r n) T 1#64)
        ∧ (y.isOpen = false → streamOk b = false → gives (.scoutOpen w r n) T 4#64)
        ∧ (y.isOpen = false → streamOk b = true → T.fourBackings u.part u.space base len = false → gives (.scoutOpen w r n) T 2#64)
        ∧ (y.isOpen = false → streamOk b = true → T.fourBackings u.part u.space base len = true →
          (s.baseHeld u.space base = true → gives (.scoutOpen w r n) T 3#64)
          ∧ (s.baseHeld u.space base = false → ∃ P, gives (.scoutOpen w r n) P 0#64 ∧ { P with clusters := s.clusters } = T
            ∧ P.stream c n.toNat = opened)))
      ∧ (y.isOpen = false → gives (.scoutClose w r n) s 5#64)
      ∧ (y.isOpen = true → ∃ P, gives (.scoutClose w r n) P 0#64 ∧ P.stream c n.toNat = Stream.closed
        ∧ ∀ e t, e ∈ P.units → t ∈ e.2.takes → ¬ (t.cluster = c ∧ t.stream = n.toNat)))
    ∧ (s.isScout = true → ∃ t, exec (.scoutOpen w r n) s = .next t ∧ Stands s t)
    ∧ (let v : BitVec 32 := x.setWidth 32
       let take := Instr.scoutTake w r noscout nowait n
       let c := s.takeCluster n.toNat
       let y := s.stream c n.toNat
       let word := fun (depth st : Nat) => BitVec.ofNat 64 (y.k.toNat * 2 ^ 32 + depth * 2 ^ 8 + st)
       let held := u.takes.find? fun t => t.cluster == c && t.stream == n.toNat
       let scouting := noscout = 0#1 ∧ u.rerun = false
       let took := fun (P : State) (t : Take) (st : Nat) (role : Leaf → Nat) => (P.unit s.curUnit).takes = u.takes ++ [t]
         ∧ t.cluster = c ∧ t.stream = n.toNat ∧ t.version = v ∧ t.status = st ∧ t.base = y.base ∧ t.length = y.length
         ∧ t.backings = s.roleBackings y role ∧ t.word = word (P.unit s.curUnit).depthScout st
       let blocked := ∃ b d, s.strand.wait = .take c b d
       let acquires := fun (P : State) (t : Take) =>
         let o := P.streamObj y
         let me := P.placeOf P.curWave
         let seq := P.strand.seqNo
         (P.acquire P.curUnit P.curWave.pos seq 5 me [o]).noteVis P.curUnit P.curWave.pos seq
           (acquired o 5 me (P.versionRels y (t.backingAt y.base)))
       (y.isOpen = false → gives take s (word u.depthScout 5))
       ∧ (∀ t, y.isOpen = true → held = some t →
         (t.status ≠ 0 → gives take s t.word)
         ∧ (t.status = 0 → s.readsOut = false → gives take (acquires s t) t.word)
         ∧ (t.status = 0 → s.readsOut = true → ∃ v, exec take s = .next v ∧ Stands s v))
       ∧ (y.isOpen = true → held = none → blocked → ∃ v, exec take s = .next v ∧ Stands s v)
       ∧ (y.isOpen = true → held = none → ¬ blocked → 8 ≤ u.takes.length → gives take s (word u.depthScout 6))
       ∧ (y.isOpen = true → held = none → ¬ blocked → u.takes.length < 8 →
         (v = y.k → s.readsOut = true → ∃ t, exec take s = .next t ∧ Stands s t)
         ∧ (v = y.k → s.readsOut = false → ∃ P t, took P t 0 Leaf.lrole ∧ gives take (acquires P t) (word u.depthScout 0))
         ∧ (v ≠ y.k → v ≠ y.k + 1#32 → gives take s (word u.depthScout 3))
         ∧ (v = y.k + 1#32 →
           (∀ p, scouting → s.holderOf y = some p → ∃ P t, gives take P (word (max u.depthScout ((s.unit p).depthScout + 1)) 2)
             ∧ took P t 2 Leaf.wrole)
           ∧ (scouting → s.holderOf y = none → s.scoutPinned c n.toNat v = false → y.formed = true →
             ∃ P t, gives take P (word (max u.depthScout 1) 1) ∧ took P t 1 Leaf.srole)
           ∧ (¬ scouting ∨ (s.holderOf y = none ∧ s.scoutPinned c n.toNat v = true) →
             (nowait = 1#1 → gives take s (word u.depthScout 4))
             ∧ (nowait = 0#1 → exec take s
               = .next (s.updStrand fun t => { t with blocked := true, wait := .take c n.toNat v }))))))
    ∧ (k = 0#1 ∨ s.isScout = false → gives (.scoutVerdict w r k) s
      (BitVec.ofNat 64 (u.depthScout * 2 ^ 16 + (if u.rerun then 2 ^ 8 else 0) + (if 0 < u.depthScout then 1 else 0))))
    ∧ (k = 1#1 → s.isScout = true → ∃ t, exec (.scoutVerdict w r k) s = .next t ∧ Stands s t)

/-- R159, R167 to R172: the verdict, commit and squash. The compare that is due on an open stream notes pass where every element passes
and fail otherwise, for the stream and for each take of the version as a prediction, and otherwise nothing happens. A scout task
commits where its verdicts are in and good, its stores to its overlay have been accepted and no held publish must wait: it scouts no
longer and its overlay is empty. One with a failed prediction is squashed: it is to be placed again as a re-run without its overlay,
takes or held publishes. Neither happens otherwise. The clause on COMMIT's wait is the model's choice, log entry 20's reading, and not
R170's: it waits until the stores into the overlay that are in flight have been accepted, and while a held publish must wait
(State.heldWaits), one whose address does not translate among them. -/
def Obligations.ScoutResolution : Prop :=
  ∀ (s : State) (c n u : Nat),
    let y := s.stream c n
    let x := s.unit u
    let v := if s.comparePasses y then 1 else 2
    let waits := (s.flight.any fun e => e.2.unit == u && e.2.overlay) || x.held.any (s.heldWaits u)
    (y.isOpen = false ∨ y.due = false → exec (.toleranceCompare c n) s = .next s)
    ∧ (y.isOpen = true → y.due = true → ∃ t, exec (.toleranceCompare c n) s = .next t
      ∧ t.stream c n = { y with due := false, last := v } ∧ (∀ loc, t.byteNow loc = s.byteNow loc)
      ∧ ∀ k z, SMap.find s.units k = some z → (SMap.find t.units k).map (fun z => z.takes.map Take.verdict)
        = some (z.takes.map fun a => if a.cluster = c ∧ a.stream = n ∧ a.version = y.k ∧ a.status = 1 ∧ a.verdict = 0 then v
            else a.verdict))
    ∧ (x.life ≠ .gone → 0 < x.depthScout → (∀ a, a ∈ x.takes → a.status = 0 ∨ a.verdict = 1) →
      (waits = true → exec (.commit u) s = .next s)
      ∧ (waits = false → ∃ t, exec (.commit u) s = .next t ∧ (t.unit u).depthScout = 0 ∧ (t.unit u).overlay = []
        ∧ (t.unit u).life = x.life))
    ∧ (x.depthScout = 0 ∨ (∃ a, a ∈ x.takes ∧ a.status ≠ 0 ∧ a.verdict ≠ 1) → exec (.commit u) s = .next s)
    ∧ (x.life ≠ .gone → 0 < x.depthScout → (∃ a, a ∈ x.takes ∧ a.status = 1 ∧ a.verdict = 2) → ∃ t, exec (.squash u) s = .next t
      ∧ (t.unit u).life = .waiting ∧ (t.unit u).rerun = true ∧ (t.unit u).overlay = [] ∧ (t.unit u).takes = []
      ∧ (t.unit u).held = [] ∧ (t.unit u).depthScout = 0 ∧ ∀ loc, t.byteNow loc = s.byteNow loc)
    ∧ ((∀ a, a ∈ x.takes → a.status ≠ 1 ∨ a.verdict ≠ 2) → exec (.squash u) s = .next s)

/-! ## Token trees (R303 to R329) -/

/-- A tree instruction acts at once: its operand is good, its unit is no scout task, its strand's accesses have happened, nothing waits for an
allotment before it, and none of its translation changes must wait: no translated access is outstanding whose tag one of them could
pass (R210), and no die is off line (R309, R310, R384). -/
def TreeReady (s : State) (r : BitVec 6) : Prop :=
  s.badUse [.s r.toNat] = none ∧ s.scalarOps < 8 ∧ s.isScout = false ∧ s.quiet = true ∧ s.afterOthers = false
    ∧ (∀ e, e ∈ s.flight → e.2.creel = true) ∧ (∀ a, s.genBusy a = false) ∧ ∀ d, d < 2 → s.offline d = false

/-- Of a tree nothing has changed but what synchronises, and no byte of memory. -/
def SameTree (s t : State) (part tn : Nat) : Prop :=
  { t.tree part tn with rels := (s.tree part tn).rels } = s.tree part tn ∧ ∀ l, t.byteNow l = s.byteNow l

/-- Two trees differ at most in what synchronises and in the reference bits of their pages (R323). -/
def UpToBits (x y : Tree) : Prop :=
  let bare := fun (t : Tree) => t.pages.map fun g => (g.1, { g.2 with refBit := false })
  { x with rels := y.rels, pages := y.pages } = y ∧ bare x = bare y

/-- The instruction has issued at the next word with `v` in scalar register `r`. -/
def Returns (s t : State) (r : BitVec 6) (v : W64) : Prop :=
  t.strand.pc = s.strand.pc + 4#64 ∧ t.strand.blocked = false ∧ (r ≠ 0#6 → t.strand.sreg r.toNat = v)
    ∧ ∀ k, k ≠ r.toNat → t.strand.sreg k = s.strand.sreg k

/-- R304, R306, R309 to R311, R314, R315, R317, R318: prune, commit, handover and destroy of a tree and node. Each gives 2 for a reserved bit, 1
where there is no such tree, 7 for the other side's, 5 for a node that is not live and changes nothing then. prune removes the node with its
descendants and gives their number; commit, once the token area that it writes is resident (R324), makes the trunk end at the node, with the node's path as trunk pages, and
leaves only its descendants; handover sets the tree's die and side, and where the die changes gives the number of its resident pages, each
of which takes the next free frames of that die's pool and keeps its contents, or 4 where there is no room for one, and then changes
nothing (said of the contents for a tree with one resident page of one frame, whose entry lies in neither frame); destroy gives 6 while tokens are held for delivery and otherwise frees the tree. -/
def Obligations.TreeRemovals : Prop :=
  ∀ (s : State) (w : Bool) (r : BitVec 6), TreeReady s r →
    let x := (s.readS r.toNat).toNat
    let part := (s.unit s.curUnit).part
    let tn := x % 65536
    let q := bitsOf x 27 16
    let y := s.tree part tn
    let has := SMap.has (s.part part).trees tn = true
    let side := y.decode = (s.cluster s.curCluster).decode
    let node := x < 2 ^ 28
    let word := fun (st h hi : Nat) => BitVec.ofNat 64 (st + h % 65536 * 65536 + hi % 2 ^ 32 * 2 ^ 32)
    let fails := fun (i : Instr) (st : Nat) => ∃ P t, exec i s = .next t ∧ ScalarResult P t w r.toNat (BitVec.ofNat 64 st)
      ∧ (st ≤ 2 → P = s) ∧ SameTree s P part tn
    (∀ i ∈ ([.treePrune w r, .treeCommit w r] : List Instr),
      let fails := fails i
      (¬ node → fails 2) ∧ (node → ¬ has → fails 1) ∧ (node → has → ¬ side → fails 7)
      ∧ (node → has → side → y.live q = false → fails 5))
    ∧ (node → has → side → y.live q = true →
      (∃ t freed, exec (.treePrune w r) s = .next t ∧ Returns s t r (word 0 (y.descendants q).length freed)
        ∧ ∀ n, (t.tree part tn).live n = (y.live n && !(y.descendants q).contains n))
      ∧ (s.spilledIn s.curUnit part y.space (y.tokarea + 4 * y.trunk) (4 * (y.ancestors q).length) .write = none →
        ∃ t, exec (.treeCommit w r) s = .next t
        ∧ Returns s t r (word 0 ((y.nodes.map Prod.fst).filter fun n => !(y.ancestors q).contains n && !(y.descendants q).contains n).length
            ((y.node q).pos + 1))
        ∧ (t.tree part tn).trunk = (y.node q).pos + 1 ∧ (t.tree part tn).trunkPages = y.pathList q
        ∧ ∀ n, (t.tree part tn).live n = (y.live n && (y.descendants q).contains n && !(y.ancestors q).contains n)))
    ∧ (let die := bitsOf x 16 16
       (2 ^ 18 ≤ x → fails (.treeHandover w r) 2) ∧ (x < 2 ^ 18 → (¬ has → fails (.treeHandover w r) 1) ∧ (has → ¬ side → fails (.treeHandover w r) 7))
       ∧ (x < 2 ^ 18 → has → side → y.die = die → ∃ t, exec (.treeHandover w r) s = .next t ∧ Returns s t r 0#64
         ∧ (t.tree part tn).die = die ∧ (t.tree part tn).decode = x.testBit 17 ∧ (t.tree part tn).nodes = y.nodes)
       ∧ (x < 2 ^ 18 → has → side → y.die ≠ die → (y.pages.map Prod.fst).Nodup →
         let ks := (y.pages.filter fun g => g.2.resident).map Prod.fst
         let free := (s.pool part die).free
         let n := y.pageFrames
         (ks ≠ [] → (((s.treeBegin part tn).makeRoom part die n).pool part die).free.length < n → fails (.treeHandover w r) 4)
         ∧ (ks.length * n ≤ free.length → ∃ t, exec (.treeHandover w r) s = .next t ∧ Returns s t r (word 0 ks.length 0)
           ∧ (t.tree part tn).die = die ∧ (t.tree part tn).decode = x.testBit 17 ∧ (t.tree part tn).nodes = y.nodes
           ∧ (t.tree part tn).trunkPages = y.trunkPages
           ∧ (∀ i k, ks[i]? = some k → ((t.tree part tn).page k).resident = true
             ∧ ((t.tree part tn).page k).frames = (free.drop (i * n)).take n)
           ∧ (∀ k old new rest, ks = [k] → n = 1 → (y.page k).frames = [old] → free = new :: rest → old ≠ new → s.memOk = true →
             (∀ f, f = old ∨ f = new → 65536 * f + 65536 ≤ creelLoc ∧ ∀ i, i < 65536 → isPeer (65536 * f + i) = false) →
             let B := s.treeBegin part tn
             let M := B.moveRange (65536 * old) (65536 * new) 65536 (B.vaObj part y.space (y.pageVa k))
             (∀ a, M.leafSlot part y.space (y.pageVa k) = some a → a / 65536 ≠ new ∧ (a + 7) / 65536 ≠ new) →
             ∀ i, i < 65536 → t.byteNow (65536 * new + i) = s.byteNow (65536 * old + i)))))
    ∧ (65536 ≤ x → fails (.treeDestroy w r) 2)
    ∧ (x < 65536 → (¬ has → fails (.treeDestroy w r) 1) ∧ (has → ¬ side → fails (.treeDestroy w r) 7))
    ∧ (x < 65536 → has → side → (y.held ≠ [] → fails (.treeDestroy w r) 6)
      ∧ (y.held = [] → ∃ t, exec (.treeDestroy w r) s = .next t ∧ Returns s t r (word 0 0 y.pages.length)
        ∧ SMap.has (t.part part).trees x = false))

/-- R305 to R308, R311 to R313, R316, R396: create, fork, append and ahead. create gives 2 for a descriptor that is misaligned or breaks its
limits, 7 for the other side and 3 where no tree is to be had, and otherwise, once the ring's tail that it writes is resident (R324), the tree's
number, the tree having the descriptor's fields, and its trunk the lowest page indexes, each page full but the last, with the next free
frames of the tree's die; it gives 4 where the KV range has too few pages for the trunk. fork and append give the status that stops them, or
place the block's nodes, in the block's order under the lowest free numbers, with the block's tokens: fork's all under the parent at the
next position, and append's each under the one before at the position after its; and each on a page at the slot of its position; where a
page is needed and none is to be had the status is 4 and no node is placed. On success the block's nodes and slots fields take the new
nodes and their slots' addresses, with 0xFFFF and 0 past them, and on every failing status 0xFFFF and 0 throughout (said where the two
fields lie at different places of this device). A block's marked bytes trap and an error reply poisons the result. ahead, once what it writes is resident, gives the status that stops it, or the number of pages on the queried
paths that are not resident, and pins and tags as asked; with wait it stands until there are none. -/
def Obligations.TreeGrowth : Prop :=
  ∀ (s : State) (w : Bool) (r : BitVec 6) (g t k : BitVec 1), TreeReady s r →
    let va := (s.readS r.toNat).toNat
    let u := s.unit s.curUnit
    let T := s.touchVa u.part u.space va 128
    let C := s.touchVa u.part u.space va 64
    let p := C.part u.part
    let word := fun (st b h : Nat) => BitVec.ofNat 64 (st + b % 256 * 256 + h % 65536 * 65536)
    let gives := fun (P : State) (i : Instr) (v : W64) => ∃ t, exec i s = .next t ∧ ScalarResult P t w r.toNat v
    let probe := fun want => ∃ a, s.probeLanes false want [⟨0, va, 1, 0#64, 0#64⟩] = .ok a
    (probe .read → (va % 64 ≠ 0 → gives s (.treeCreate w r) 2#64)
      ∧ (va % 64 = 0 → BlockStops (exec (.treeCreate w r) s) s w r.toNat (s.readVa s.curUnit u.part u.space va 64))
      ∧ ∀ b, va % 64 = 0 → s.readVa s.curUnit u.part u.space va 64 = .ok b →
        let y := treeOf u.part u.space b
        (treeDescOk b = false ∨ p.kvRangeOk y = false → gives C (.treeCreate w r) 2#64)
        ∧ (treeDescOk b = true → p.kvRangeOk y = true →
          let side := y.decode = (s.cluster s.curCluster).decode
          (¬ side → gives C (.treeCreate w r) 7#64)
          ∧ (side → 65536 ≤ p.trees.length ∨ p.asn.maxTrees ≤ p.trees.length → gives C (.treeCreate w r) 3#64)
          ∧ (side → p.trees.length < 65536 → p.trees.length < p.asn.maxTrees →
            y.ring = 0 ∨ C.spilledIn s.curUnit u.part u.space (y.ring + 0x40) 8 .write = none →
            let pages := (y.trunk + y.pslots - 1) / y.pslots
            let free := (C.pool u.part y.die).free
            (y.kvpages < pages → gives C (.treeCreate w r) 4#64)
            ∧ (pages ≤ y.kvpages → pages * y.pageFrames ≤ free.length → ∃ z, exec (.treeCreate w r) s = .next z
              ∧ Returns s z r (word 0 0 p.freeTree)
              ∧ { z.tree u.part p.freeTree with rels := [], pages := [] } = { y with trunkPages := List.range pages }
              ∧ (∀ k, SMap.has (z.tree u.part p.freeTree).pages k = decide (k < pages))
              ∧ ∀ k, k < pages → (z.tree u.part p.freeTree).page k = ⟨min (y.trunk - k * y.pslots) y.pslots, 1, true, true,
                  (free.drop (k * y.pageFrames)).take y.pageFrames, false⟩))))
    ∧ (probe .write → ∀ i ∈ ([(.treeFork w r, false), (.treeAppend w r, true)] : List (Instr × Bool)),
      (va % 128 ≠ 0 → gives s i.1 2#64)
      ∧ (va % 128 = 0 → BlockStops (exec i.1 s) s w r.toNat (s.readVa s.curUnit u.part u.space va 128))
      ∧ ∀ b, va % 128 = 0 → s.readVa s.curUnit u.part u.space va 128 = .ok b →
        let tn := fieldOf b 0 2
        let parent := fieldOf b 2 2
        let y := T.tree u.part tn
        let n := fieldOf b 4 1
        let tok := fun j => BitVec.ofNat 32 (fieldOf b (8 + 4 * j) 4)
        let B := T.treeBegin u.part tn
        let wrote := fun (A z : State) (l : List (Nat × Nat)) =>
          let nodes := (List.range 8).flatMap fun j => leBytes 2 ((l[j]?.map Prod.fst).getD 0xFFFF)
          let slots := (List.range 8).flatMap fun j => leBytes 8 ((l[j]?.map Prod.snd).getD 0)
          ∀ ns vs : List Nat, A.memOk = true → A.vaLocs s.curUnit u.part u.space (va + 0x28) 16 .write = .ok ns →
            (A.treeWrite u.space (va + 0x28) [] nodes).vaLocs s.curUnit u.part u.space (va + 0x40) 64 .write = .ok vs →
            (ns ++ vs).Nodup → (∀ x, x ∈ ns ++ vs → isPeer x = false) →
            (∀ (j x : Nat), ns[j]? = some x → nodes[j]? = some (z.byteNow x)) ∧ ∀ (j x : Nat), vs[j]? = some x → slots[j]? = some (z.byteNow x)
        (∀ st, T.growBar i.2 b = some st → ∃ z, exec i.1 s = .next z ∧ Returns s z r (BitVec.ofNat 64 st)
          ∧ UpToBits (z.tree u.part tn) y ∧ wrote T z [])
        ∧ (T.growBar i.2 b = none → B.placeAll u.part tn i.2 parent ((List.range n).map tok) = none →
          ∃ z, exec i.1 s = .next z ∧ Returns s z r 4#64 ∧ UpToBits (z.tree u.part tn) y ∧ wrote T z [])
        ∧ ∀ l splits P, T.growBar i.2 b = none →
          B.placeAll u.part tn i.2 parent ((List.range n).map tok) = some (l, splits, P) →
          ∃ z, exec i.1 s = .next z ∧ Returns s z r (word 0 splits 0)
            ∧ wrote (P.bump u.part (P.tree u.part tn).die 0x0B splits) z l
            ∧ l.map Prod.fst = ((List.range 4096).filter fun k => !y.live k).take n
            ∧ (∀ k, y.live k = true → SMap.find (z.tree u.part tn).nodes k = SMap.find y.nodes k)
            ∧ ∀ j node at_, l[j]? = some (node, at_) →
              let pos := y.nextPos parent + if i.2 then j else 0
              ∃ page up, SMap.find (z.tree u.part tn).nodes node = some ⟨up, pos, tok j, page, pos % y.pslots⟩
                ∧ at_ = y.pageVa page + pos % y.pslots * y.slotBytes
                ∧ (i.2 = false ∨ j = 0 → up = parent) ∧ ∀ m e, i.2 = true → j = m + 1 → l[m]? = some e → up = e.1)
    ∧ (s.strand.storeErr = none → (∀ a b, s.strand.wait ≠ .ahead a b) → probe .read → (va % 128 ≠ 0 → gives s (.treeAhead w r g t k) 2#64)
      ∧ (va % 128 = 0 → BlockStops (exec (.treeAhead w r g t k) s) s w r.toNat (s.readVa s.curUnit u.part u.space va 128))
      ∧ ∀ b, va % 128 = 0 → s.readVa s.curUnit u.part u.space va 128 = .ok b →
        (∀ e, e ∈ T.aheadRanges b → T.spilledIn s.curUnit u.part u.space e.1 e.2 .write = none) →
        let tn := fieldOf b 0 2
        let qs := aheadQueries b
        let y := T.tree u.part tn
        let ks := (qs.flatMap y.pathList).eraseDups
        let A := T.ahead b (t == 1#1) (g == 1#1)
        let out := (A.tree u.part tn).absent ks
        (∀ st, T.aheadBar b (t == 1#1) (g == 1#1) = some st → ∃ P z, exec (.treeAhead w r g t k) s = .next z
            ∧ ScalarResult P z w r.toNat (BitVec.ofNat 64 st) ∧ (st ≤ 2 → P = T) ∧ SameTree T P u.part tn)
        ∧ (T.aheadBar b (t == 1#1) (g == 1#1) = none →
          (k = 0#1 ∨ out = [] → ∃ z, exec (.treeAhead w r g t k) s = .next z ∧ ScalarResult A z w r.toNat (word 0 0 out.length))
          ∧ (k = 1#1 → out ≠ [] → ∃ z, exec (.treeAhead w r g t k) s = .next z ∧ z.strand.blocked = true
            ∧ z.strand.wait = .ahead tn ks)
          ∧ (g = 1#1 → ∀ q n, q ∈ qs → n ∈ y.pathList q → (tn, n) ∈ (A.unit s.curUnit).pins)
          ∧ (t = 1#1 → ∀ q, q ∈ qs → q ≠ 0xFFFF → (tn, q) ∈ (A.unit s.curUnit).tags)))

/-- R323, R324, R326 to R329, R382: the token-ready barrier, delivery and the page engine. A post raises the block's phase by 1 and its target
by need, and gives the new phase, a block that cannot be reached or is marked poisoning its result; a wait gives got once it has met the
target it read, a marked got poisoning its result, and stands otherwise until TOKRDY_RELEASE finds so, with status.brk where the core that the block named has failed, and with
a poisoned result as well where the block cannot be read again (log entry 63's reading). A ring with room takes the first held tokens, as many as fit, and
its tail rises by their number; that where its entries cannot be written no token leaves is log entry 33's reading (State.ringOpen). The spill clock runs only below the low
watermark, and takes no page of a die that is off line; a spilled page that an access waits for, or the next one that ahead asked for,
becomes resident in the first free frames of its die. -/
def Obligations.TokensAndPages : Prop :=
  ∀ (s : State) (w : Bool) (r : BitVec 6), s.badUse [.s r.toNat] = none → s.scalarOps < 8 → s.isScout = false → s.afterOthers = false →
    let va := (s.readS r.toNat).toNat
    let u := s.unit s.curUnit
    let good := fun (pa : Nat) => s.unreachable u.part pa = false ∧ (∀ i, i < 0x1E → s.poisonedAt (pa + i) = false)
      ∧ ∀ i, i < 0x20 → isPeer (pa + i) = false
    let lost := fun (pa : Nat) => s.unreachable u.part pa = true ∨ ∃ i, i < 0x1E ∧ s.poisonedAt (pa + i) = true
    let T := s.touchVa u.part u.space va 32
    (∀ a, va % 64 = 0 → s.quiet = true → s.probeLanes false .atomic [⟨0, va, 1, 0#64, 0#64⟩] = .ok [a] → good a.loc →
      let phase := (s.word a.loc 8 + 1) % 2 ^ 64
      ∃ P t, exec (.treeTokrdy w r 0#1) s = .next t ∧ ScalarResult P t w r.toNat (BitVec.ofNat 64 phase)
        ∧ P.word a.loc 8 = phase ∧ P.word (a.loc + 8) 8 = (s.word (a.loc + 8) 8 + s.word (a.loc + 0x18) 4) % 2 ^ 64
        ∧ ∀ x, x < a.loc ∨ a.loc + 16 ≤ x → P.byteNow x = s.byteNow x)
    ∧ (∀ a, va % 64 = 0 → s.quiet = true → s.probeLanes false .atomic [⟨0, va, 1, 0#64, 0#64⟩] = .ok [a] → lost a.loc →
      ∃ t, exec (.treeTokrdy w r 0#1) s = .next t ∧ ScalarLost s t w r.toNat)
    ∧ (∀ a, va % 64 = 0 → s.strand.storeErr = none → (∀ x y z v, s.strand.wait ≠ .tokrdy x y z v) →
      s.probeLanes false .read [⟨0, va, 1, 0#64, 0#64⟩] = .ok [a] → lost a.loc →
      ∃ t, exec (.treeTokrdy w r 1#1) s = .next t ∧ ScalarLost s t w r.toNat)
    ∧ (∀ a, va % 64 = 0 → s.strand.storeErr = none → (∀ x y z v, s.strand.wait ≠ .tokrdy x y z v) →
      s.probeLanes false .read [⟨0, va, 1, 0#64, 0#64⟩] = .ok [a] → good a.loc → T.blockAt s.curUnit va = some a.loc →
      let target := s.word (a.loc + 8) 8
      let got := s.word (a.loc + 0x10) 8
      (target ≤ got → ∃ P t, exec (.treeTokrdy w r 1#1) s = .next t ∧ ScalarResult P t w r.toNat (BitVec.ofNat 64 got)
        ∧ ∀ x, P.byteNow x = s.byteNow x)
      ∧ (got < target → exec (.treeTokrdy w r 1#1) s
        = .next (T.updStrand fun t => { t with blocked := true, wait := .tokrdy va target (s.word (a.loc + 0x1C) 2 / 16 % 2) false })))
    ∧ (∀ block target die broken, s.strand.wait = .tokrdy block target die broken → s.blockAt s.curUnit block = none →
      let waits := fun (P : State) => exec (.treeTokrdy w r 1#1) s
        = .next (P.updStrand fun t => { t with blocked := true, wait := .tokrdy block target die broken })
      let fetch := s.spilledIn s.curUnit u.part u.space block 64 .read
      (s.tokLost s.curUnit block = true ∨ (fetch = none ∧ broken = true) → ∃ t, exec (.treeTokrdy w r 1#1) s = .next t
        ∧ ScalarLost (s.updStrand fun t => { t with csr := { t.csr with brk := true } }) t w r.toNat)
      ∧ (s.tokLost s.curUnit block = false → (∀ x, fetch = some x → waits (s.wantPage u.part u.space x))
        ∧ (fetch = none → broken = false → waits s)))
    ∧ (∀ block target die broken pa, s.strand.wait = .tokrdy block target die broken → s.blockAt s.curUnit block = some pa →
      let got := s.word (pa + 0x10) 8
      let B := if broken then s.updStrand fun t => { t with csr := { t.csr with brk := true } } else s
      let marked := ∃ i, i < 8 ∧ s.poisonedAt (pa + 0x10 + i) = true
      (marked → ∃ t, exec (.treeTokrdy w r 1#1) s = .next t ∧ ScalarLost B t w r.toNat)
      ∧ (¬ marked → broken = true → ∃ t, exec (.treeTokrdy w r 1#1) s = .next t ∧ ScalarResult B t w r.toNat (BitVec.ofNat 64 got))
      ∧ (¬ marked → broken = false → target ≤ got → ∃ P t, exec (.treeTokrdy w r 1#1) s = .next t ∧ ScalarResult P t w r.toNat (BitVec.ofNat 64 got)
        ∧ ∀ x, P.byteNow x = s.byteNow x)
      ∧ (¬ marked → broken = false → got < target →
        exec (.treeTokrdy w r 1#1) s = .next (s.updStrand fun t => { t with blocked := true, wait := .tokrdy block target die false })))
    ∧ (∀ who k block target die broken, s.slotBy who = some k → (s.wave k).acc.wait = .tokrdy block target die broken →
      let v := (s.wave k).unit
      let marked := ∃ pa i, s.blockAt v block = some pa ∧ i < 8 ∧ s.poisonedAt (pa + 0x10 + i) = true
      let met := ∃ got, s.blockGot v block = some got ∧ target ≤ got
      let goes := broken = true ∨ s.tokLost v block = true ∨ marked ∨ met
      (¬ goes → exec (.tokrdyRelease who) s = .next s) ∧ (goes → exec (.tokrdyRelease who) s = .next (
        s.updWave k fun v => { v with acc := { v.acc with blocked := false } })))
    ∧ (∀ part tree b,
      let y := s.tree part tree
      let used := (y.tail + 2 ^ 64 - leNat b) % 2 ^ 64
      let out := (y.held.take (y.rentries - used)).length
      (y.ring = 0 ∨ y.held = [] → exec (.ringHeadAdvance part tree) s = .next s)
      ∧ (y.ring ≠ 0 → y.held ≠ [] → used < y.rentries → s.readVa 0 part y.space y.ring 8 = .ok b →
        let R := s.touchVa part y.space y.ring 8
        (∀ f, R.ringOpen 0 part y out = .error f → ∃ t, exec (.ringHeadAdvance part tree) s = .next t
          ∧ (t.tree part tree).held = y.held ∧ (t.tree part tree).tail = y.tail)
        ∧ ∀ ls, R.ringOpen 0 part y out = .ok ls → ∃ t, exec (.ringHeadAdvance part tree) s = .next t
          ∧ UpToBits (t.tree part tree) { y with held := y.held.drop out, tail := (y.tail + out) % 2 ^ 64 }))
    ∧ (∀ part die,
      let q := s.pool part die
      (q.low ≤ q.free.length → exec (.spill part die) s = .next s)
      ∧ (q.free.length < q.low → (∀ d, d < 2 → s.offline d = false) → exec (.spill part die) s = .next (s.makeRoom part die q.high))
      ∧ (s.touchesOffline (s.makeRoom part die q.high) part = true → exec (.spill part die) s = .next s))
    ∧ (∀ part tree page,
      let y := s.tree part tree
      let q := s.pool part y.die
      ((y.page page).fetching = false → y.nextAsked ≠ some page → exec (.pageFetch part tree page) s = .next s)
      ∧ (SMap.has (s.part part).trees tree = true → SMap.has y.pages page = true → (y.page page).fetching = true ∨ y.nextAsked = some page →
        (y.page page).resident = false → y.pageFrames ≤ q.free.length → s.genBusy y.space = false →
        (∀ d, d < 2 → s.offline d = false) → ∃ t, exec (.pageFetch part tree page) s = .next t ∧ ((t.tree part tree).page page).resident = true
          ∧ ((t.tree part tree).page page).frames = q.free.take y.pageFrames
          ∧ ((t.tree part tree).page page).fetching = false ∧ page ∉ (t.tree part tree).asked))

/-! ## The host link, counters, sends, collectives and exchanges (R273 to R298, R395) -/

/-- An instruction that an access strand sends at once: no store error is pending, its operand is good, a ninth result is not due, its unit is no
scout task, and nothing waits for an allotment before it. -/
def TaskReady (s : State) (r : BitVec 6) : Prop :=
  s.strand.storeErr = none ∧ s.badUse [.s r.toNat] = none ∧ s.scalarOps < 8 ∧ s.isScout = false ∧ s.afterOthers = false

/-- Counter `c` of a partition holds `v` and fires the partition's armed sends whose threshold `v` meets, which acquire one view; no other
counter and no other send has changed. -/
def Counted (s t : State) (part c : Nat) (v : W64) : Prop :=
  ((t.part part).counter c).value = v ∧ (∀ q d, q ≠ part ∨ d ≠ c → ((t.part q).counter d).value = ((s.part q).counter d).value)
    ∧ ∃ view, ∀ k, SMap.find t.triggers k = (SMap.find s.triggers k).map fun y =>
      if y.fired = false ∧ y.part = part ∧ y.tcnt = c ∧ y.thresh.toNat ≤ v.toNat then { y with fired := true, view := view } else y

/-- The bytes from a location on are those given, and no other byte has changed. -/
def Stored (s t : State) (loc : Nat) (bs : List Byte) : Prop :=
  ∀ x, t.byteNow x = if loc ≤ x ∧ x < loc + bs.length then bs.getD (x - loc) 0#8 else s.byteNow x

/-- R273, R275, R279, R280, R375: the host link and the receive counters. A host write within its function's grant stores its
bytes and one outside does nothing, unless it is a debugger's in a mapped image, where a read then gives what was written in a
field that a debugger may change and what it gave before elsewhere, or in a debug block, whose launch, position and strand it
sets and whose cmd it sets last, a value other than 1 to 4 being malformed, or the host's to its own memory; a host read
returns the bytes, a mapped image's or a debug block's for a debugger, or none outside the grant. (That function 0 is the
debugger and the host itself, and where images and blocks are, is the choice of log entries 13 and 27; that a host read returns
the newest bytes is log entry 38's. Reserved bits of a block's strand byte read 0.) rcnt gives the counter's old value and
leaves it, adds the operand or sets it; an arriving send stores its bytes and with its last piece adds 1 to its counter, and
where the home of its bytes is not live it stops. That it writes at the physical address it carries, within the grant, that a
counter of 256 or more stands for none, and how the pieces of a send are numbered, is the model's choice, log entry 37's. R281,
R282, R283: triggered sends. tsend gives 2 for a descriptor that is misaligned or breaks its limits, 3 without a free place,
and otherwise arms the send that the descriptor describes, with 1 where its counter meets the threshold already. A fired send
moves at most a line at a time, to this device or, over a fibre in reach, to another; the last piece frees its place and adds 1
to the counters it names; a source or a destination that faults ends it with no counter changed, and one that must wait is
tried again. Log entry 37's choices are that a send to this device writes in the trigger's own space, and Config.farFault,
whether another device's destination faults. -/
def Obligations.CountersAndSends : Prop :=
  ((∀ (s : State) (fn a n : Nat) (bs : List Byte),
    (bs ≠ [] → s.hostReaches fn a bs.length = true → paKind a ≠ .flash → ∃ t, exec (.hostPostedWrite fn a bs) s = .next t
      ∧ Stored s t a bs)
    ∧ (s.hostReaches fn a bs.length = false →
      fn ≠ 0 ∨ (s.imageIn a bs.length = none ∧ s.debugIn a bs.length = none ∧ hostOwn a bs.length = false) →
      exec (.hostPostedWrite fn a bs) s = .next s)
    ∧ (bs ≠ [] → s.hostReaches 0 a bs.length = false → s.imageIn a bs.length = none →
      (∀ q o, s.debugIn a bs.length = some (q, o) → ∃ t, exec (.hostPostedWrite 0 a bs) s = .next t ∧ { t with debug := s.debug } = s
        ∧ (∀ j, (8 ≤ j ∧ j < 12) ∨ (16 ≤ j ∧ j < 22) ∨ j = 24 → (t.dbg q).bytes.getD j 0#8 =
          if o ≤ j ∧ j < o + bs.length then bs.getD (j - o) 0#8 &&& (if j = 24 then 0x37#8 else 0xFF#8) else (s.dbg q).bytes.getD j 0#8)
        ∧ (8 ≤ o → (t.dbg q).cmd = (s.dbg q).cmd ∧ (t.dbg q).status = (s.dbg q).status)
        ∧ (o = 0 → bs.length = 8 →
          if 1 ≤ leNat bs ∧ leNat bs ≤ 4 then (t.dbg q).cmd = leNat bs else (t.dbg q).cmd = 0 ∧ (t.dbg q).status = 3))
      ∧ (s.debugIn a bs.length = none → hostOwn a bs.length = true → ∃ t, exec (.hostPostedWrite 0 a bs) s = .next t ∧ Stored s t a bs))
    ∧ (∀ u g o, s.hostReaches 0 a bs.length = false → s.imageIn a bs.length = some (u, g, o) → ∃ t, exec (.hostPostedWrite 0 a bs) s = .next t
      ∧ { t with units := s.units } = s ∧ ∀ j, j < bs.length →
        let k := (s.unit u).imageMask g (o + j)
        t.imageRead u g (o + j) = (bs.getD j 0#8 &&& k) ||| (s.imageRead u g (o + j) &&& ~~~k))
    ∧ ∃ t, exec (.hostRead fn a n) s = .next t ∧ { t with hostReads := s.hostReads, hostCover := s.hostCover } = s
      ∧ t.hostReads = (a, if n ≠ 0 ∧ s.hostReaches fn a n = true then (List.range n).map fun i => s.byteNow (a + i)
        else match (if fn = 0 then s.imageIn a n else none), (if fn = 0 then s.debugIn a n else none) with
          | some (u, g, o), _ => (List.range n).map fun i => s.imageRead u g (o + i)
          | none, some (q, o) => ((s.dbg q).bytes.drop o).take n
          | none, none => if fn = 0 ∧ 0 < n ∧ hostOwn a n = true then (List.range n).map fun i => s.byteNow (a + i) else []) :: s.hostReads)
  ∧ (∀ (s : State) (w : Bool) (r : BitVec 6) (o : BitVec 2) (c : BitVec 8), TaskReady s r → s.quiet = true → o ≠ 3#2 →
    let part := (s.unit s.curUnit).part
    let old := ((s.part part).counter c.toNat).value
    let new := if o = 0#2 then old else if o = 1#2 then old + s.readS r.toNat else s.readS r.toNat
    ∃ P t, exec (.xchRcnt w r o c) s = .next t ∧ ScalarResult P t w r.toNat old ∧ (∀ x, P.byteNow x = s.byteNow x)
      ∧ (o = 0#2 → P.parts = s.parts ∧ P.triggers = s.triggers) ∧ (o ≠ 0#2 → Counted s P part c.toNat new))
  ∧ ∀ (s : State) (part c send a d : Nat) (bs : List Byte), bs ≠ [] → c < 512 →
    let arrives := exec (.receiveCounterArrival part (512 * send + c) a bs) s
    ((s.part part).started = false ∨ (s.part part).asn.grants a bs.length = false → arrives = .next s)
    ∧ (paKind a = .hbm d → s.offline d = true → arrives = .next s) ∧ (paKind a = .host → s.offline 0 = true → arrives = .next s)
    ∧ ((s.part part).started = true → (s.part part).asn.grants a bs.length = true → paKind a = .hbm d → s.offline d = false →
      a + bs.length ≤ 0x8000000000 → ∃ t, arrives = .next t ∧ Stored s t a bs
        ∧ (c < 256 → Counted s t part c (((s.part part).counter c).value + 1#64))
        ∧ (256 ≤ c → t.triggers = s.triggers ∧ ∀ q d, ((t.part q).counter d).value = ((s.part q).counter d).value)))
  ∧ ((∀ (s : State) (w : Bool) (r : BitVec 6) (a : List LaneAcc), TaskReady s r → s.storesOut = false →
    let va := (s.readS r.toNat).toNat
    let u := s.unit s.curUnit
    let T := s.touchVa u.part u.space va 64
    let p := T.part u.part
    let gives := fun (P : State) (v : W64) => ∃ t, exec (.xchTsend w r) s = .next t ∧ ScalarResult P t w r.toNat v
    s.probeLanes false .read [⟨0, va, 1, 0#64, 0#64⟩] = .ok a → (va % 64 ≠ 0 → gives s 2#64)
      ∧ (va % 64 = 0 → BlockStops (exec (.xchTsend w r) s) s w r.toNat (s.readVa s.curUnit u.part u.space va 64))
      ∧ ∀ b, va % 64 = 0 → s.readVa s.curUnit u.part u.space va 64 = .ok b → (triggerOk p b = false → gives T 2#64)
        ∧ (triggerOk p b = true → T.freeTrigger u.part = none → gives T 3#64)
        ∧ ∀ k, triggerOk p b = true → T.freeTrigger u.part = some k → ∃ y : Trigger,
          gives { T with triggers := SMap.put k y s.triggers, nextCmd := s.nextCmd + 1 } (if y.fired then 1#64 else 0#64)
          ∧ y.src = fieldOf b 0 8 ∧ y.group = fieldOf b 8 2 ∧ y.rank = fieldOf b 0xA 2 ∧ y.length = fieldOf b 0xC 4
          ∧ y.dst = fieldOf b 0x10 8 ∧ y.tcnt = fieldOf b 0x18 1 ∧ y.thresh = BitVec.ofNat 64 (fieldOf b 0x20 8)
          ∧ y.rcnt = (if (fieldOf b 0x1A 1).testBit 0 then some (fieldOf b 0x19 1) else none)
          ∧ y.lcnt = (if (fieldOf b 0x1A 1).testBit 1 then some (fieldOf b 0x1B 1) else none)
          ∧ y.fired = decide (y.thresh.toNat ≤ (p.counter y.tcnt).value.toNat) ∧ y.done = 0 ∧ y.part = u.part ∧ y.space = u.space)
  ∧ ∀ (s : State) (slot : Nat) (y : Trigger), SMap.find s.triggers slot = some y →
    let src := y.src + y.done
    let dst := y.dst + y.done
    let n := min (y.length - y.done) (min (128 - src % 128) (128 - dst % 128))
    let dev := (s.part y.part).deviceOf y.group y.rank
    let own := dev = Config.deviceNumber
    let ends := ∃ t, exec (.triggerFire slot) s = .next t ∧ SMap.has t.triggers slot = false
      ∧ ∀ q c, ((t.part q).counter c).value = ((s.part q).counter c).value
    let last := y.done + n = y.length
    (y.fired = false → exec (.triggerFire slot) s = .next s)
    ∧ (∀ a, y.fired = true → s.engRange y.unit y.part y.space src n .send = .faults a → ends)
    ∧ (∀ S, y.fired = true → s.engRange y.unit y.part y.space src n .send = .waits S → exec (.triggerFire slot) s = .next S)
    ∧ ∀ locs S, y.fired = true → s.engRange y.unit y.part y.space src n .send = .reaches locs S →
      (∀ l, l ∈ locs → S.poisonedAt l = false) →
      let bs := (locs.take n).map S.byteNow
      let far := { S with sentChunks := ⟨y.rank, y.group, .send dst (if last then y.rcnt else none), bs⟩ :: S.sentChunks }
      let put := S.engWrite (2 ^ 40 + y.num) y.unit y.part y.space dst bs
      let out := (s.part y.part).reaches dev = true ∧ Config.farFault s.fresh slot = false
      (∀ a, own → put = .faults a → ends) ∧ (∀ M, own → put = .waits M → exec (.triggerFire slot) s = .next M) ∧ (¬ own → ¬ out → ends)
      ∧ ∀ M, (own ∧ put = .wrote M) ∨ (¬ own ∧ out ∧ M = far) →
        (¬ last → exec (.triggerFire slot) s = .next { M with triggers := SMap.put slot { y with done := y.done + n } M.triggers })
        ∧ (last → ∃ t, exec (.triggerFire slot) s = .next t ∧ SMap.has t.triggers slot = false
          ∧ (∀ x, t.byteNow x = M.byteNow x) ∧ t.sentChunks = M.sentChunks
          ∧ ∀ q c, ((t.part q).counter c).value = ((s.part q).counter c).value
            + (if q = y.part ∧ y.lcnt = some c then 1#64 else 0#64) + (if q = y.part ∧ own ∧ y.rcnt = some c then 1#64 else 0#64)))

/-- R289, R383: what an arriving chunk does: the collective that it belongs to takes it, or it waits in the waystation where there is
room, or it is refused and kept for its retry; where its place in the waystation is on a die that is off line nothing is kept of it (that
this answers to an error reply is log entry 35's reading). -/
def Arrives (s t : State) (part : Nat) (e : WayEntry) : Prop :=
  let p := s.part part
  let mine := s.colls.find? fun c => c.2.part == part && c.2.group == e.group && c.2.seq == e.seq
  (∀ c, mine = some c → t = { s with colls := SMap.put c.1 (c.2.take s.fresh e.chunk e.rank e.bytes) s.colls })
  ∧ (mine = none →
    let off := (p.wayPlace e).any fun f => (homeDie (2097152 * f)).any s.offline
    (p.asn.wayBytes < wayBytes (p.way ++ [e]) → t = s.setPart part { p with retries := p.retries ++ [(s.cycle, e)] })
    ∧ (wayBytes (p.way ++ [e]) ≤ p.asn.wayBytes → (off = true → t = s)
      ∧ (off = false → t = s.setPart part { p with way := p.way ++ [e] })))

/-- R285 to R289: collectives. coll gives 2 for a block that breaks its rules or a group without this device, 1 where its group and
sequence number are in use, and otherwise posts the collective, which takes its chunks out of the waystation. Chunks arrive, and
come again 2,000 cycles after a refusal. The engine reads and sends the next chunk of the source, or writes the next result, or,
with both done, ends and counts, and posts its completion once its wave is in place and the queue has room; a source that faults or is
marked poisoned and a destination that faults end it with 3, 5 and 4, and a member that it still needs and that no fibre reaches with 6
(R288, R378). That a group of which this device is no member gives 2 is log entry 35's reading: R298 has no status for it. -/
def Obligations.Collectives : Prop :=
  (∀ (s : State) (w : Bool) (r : BitVec 6) (a : List LaneAcc), TaskReady s r → s.storesOut = false →
    let va := (s.readS r.toNat).toNat
    let u := s.unit s.curUnit
    let T := s.touchVa u.part u.space va 128
    let p := T.part u.part
    let gives := fun (P : State) (v : W64) => ∃ t, exec (.xchColl w r) s = .next t ∧ ScalarResult P t w r.toNat v
    s.probeLanes false .read [⟨0, va, 1, 0#64, 0#64⟩] = .ok a → (va % 128 ≠ 0 → gives s 2#64)
      ∧ (va % 128 = 0 → BlockStops (exec (.xchColl w r) s) s w r.toNat (s.readVa s.curUnit u.part u.space va 128))
      ∧ ∀ b, va % 128 = 0 → s.readVa s.curUnit u.part u.space va 128 = .ok b →
        let gn := fieldOf b 4 2
        let seq := fieldOf b 8 4
        (SMap.find p.groups gn = none → gives T 2#64)
        ∧ ∀ g, SMap.find p.groups gn = some g →
          let n := g.members.length
          let posted := ∃ e ∈ s.colls, e.2.part = u.part ∧ e.2.group = gn ∧ e.2.seq = seq
          (n ≤ g.mine ∨ collOk b n g.reduce = false → gives T 2#64)
          ∧ (g.mine < n → collOk b n g.reduce = true → posted → gives T 1#64)
          ∧ (g.mine < n → collOk b n g.reduce = true → ¬ posted → ∃ P c, gives P 0#64 ∧ P.nextCmd = s.nextCmd + 1
            ∧ SMap.find P.colls s.nextCmd = some c ∧ c.block = b ∧ c.group = gn ∧ c.seq = seq ∧ c.rank = g.mine ∧ c.ranks = n
            ∧ c.written = [] ∧ c.ended = none ∧ (P.part u.part).way = p.way.filter (fun e => !(e.group == gn && e.seq == seq))
            ∧ ∀ e, e ∈ p.way → e.group = gn → e.seq = seq → e.chunk < c.count → (c.held e.chunk e.rank).isSome = true))
  ∧ (∀ (s : State) (part group seq chunk rank : Nat) (bs : List Byte) (g : CollGroup), SMap.find (s.part part).groups group = some g →
    (s.part part).started = true → rank < g.members.length → g.members.getD rank 128 ≠ Config.deviceNumber →
    ∃ t, exec (.chunkArrival part group seq chunk rank bs) s = .next t ∧ Arrives s t part ⟨group, seq, chunk, rank, bs⟩)
  ∧ (∀ (s : State) (part i since : Nat) (e : WayEntry), (s.part part).retries[i]? = some (since, e) →
    (s.cycle < since + 2000 → exec (.chunkRetry part i) s = .next s)
    ∧ (since + 2000 ≤ s.cycle → ∃ t, exec (.chunkRetry part i) s = .next t
      ∧ Arrives (s.updPart part fun p => { p with retries := p.retries.eraseIdx i }) t part e))
  ∧ ∀ (s : State) (k : Nat) (c : Coll), SMap.find s.colls k = some c →
    let counts := fun (t : State) => ∀ q d, ((t.part q).counter d).value = ((s.part q).counter d).value
      + if fieldOf c.block 0xD 1 = 1 ∧ q = c.part ∧ d = fieldOf c.block 0xC 1 then 1#64 else 0#64
    let posts := fun (t : State) (st : Nat) => SMap.has t.colls k = false
      ∧ ∃ e, SMap.get [] (t.waveBy c.wave).eqDone 2 = SMap.get [] (s.waveBy c.wave).eqDone 2 ++ [e]
        ∧ e.val = BitVec.ofNat 64 (st * 2 ^ 56 + c.group % 256 * 2 ^ 32 + c.seq)
    let room := (s.slotBy c.wave).isSome = true ∧ (s.waveBy c.wave).doneRoom 2 = true
    let cut := c.waitsFor.any fun d => (s.part c.part).cutOff c.group d
    let stops := fun (st : Nat) => (s.unit c.unit).life ≠ .gone → room → ∃ t, exec (.collectiveCompletion k 0) s = .next t ∧ posts t st
      ∧ ∀ q d, ((t.part q).counter d).value = ((s.part q).counter d).value
    (c.ended = none → cut = true → stops 6)
    ∧ (∀ q, c.ended = none → cut = false → c.nextRead = some q →
      let read := s.engRange c.unit c.part c.space (fieldOf c.block 0x10 8 + q * c.chunk) (c.len q) .send
      (∀ S, read = .waits S → exec (.collectiveCompletion k 0) s = .next S)
      ∧ (∀ a, read = .faults a → stops 3)
      ∧ (∀ ls S, read = .reaches ls S → ls.any S.poisonedAt = true → stops 5)
      ∧ ∀ ls S, read = .reaches ls S → ls.any S.poisonedAt = false →
        let bs := ls.map S.byteNow
        exec (.collectiveCompletion k 0) s = .next
          { S with sentChunks := (c.targets.map fun d => ⟨d, c.group, .chunk c.seq q, bs⟩) ++ S.sentChunks,
                   colls := SMap.put k (c.take S.fresh q c.rank bs) S.colls })
    ∧ (∀ o a, c.ended = none → c.nextRead = none → c.nextWrite = some o →
      s.engWrite (2 ^ 40 + k) c.unit c.part c.space (c.output o).1 (c.output o).2 = .faults a → stops 4)
    ∧ (∀ o S, c.ended = none → c.nextRead = none → c.nextWrite = some o →
      s.engWrite (2 ^ 40 + k) c.unit c.part c.space (c.output o).1 (c.output o).2 = .wrote S →
      exec (.collectiveCompletion k 0) s = .next { S with colls := SMap.put k { c with written := c.written ++ [o] } S.colls })
    ∧ (c.ended = none → c.finished = true → c.nextRead = none → c.nextWrite = none → (s.unit c.unit).life ≠ .gone →
      ∃ t, exec (.collectiveCompletion k 0) s = .next t ∧ counts t ∧ (room → posts t 0)
        ∧ (¬ room → SMap.find t.colls k = some { c with ended := some 0 }))
    ∧ ∀ st, c.ended = some st → (s.unit c.unit).life ≠ .gone → room → ∃ t, exec (.collectiveCompletion k 0) s = .next t ∧ posts t st

/-- R290, R298, R349, R395: posting an exchange and reading its calendar. dpost gives 2 for a malformed descriptor or a group that is not held,
3 where this device is no live member, 1 while an exchange of the group is open, and otherwise opens the exchange with the post that
the descriptor and its demands make; it stands while a page of either is fetched (what comes of demands that cannot be read otherwise is
not said here: log entry 36's choice). dcal gives 4, 2 or 3 for a malformed descriptor, an
exchange that is not there or a refused one, 1 for a calendar not yet written, for which it waits where asked, and then the number of
convoys; that it still does so once they have run and the exchange is closed is log entry 36's reading. Marked bytes of a descriptor or
of the demands trap, and an error reply poisons the result. -/
def Obligations.ExchangePosts : Prop :=
  ∀ (s : State) (w : Bool) (r : BitVec 6) (k : BitVec 1) (a : List LaneAcc), TaskReady s r →
    let va := (s.readS r.toNat).toNat
    let u := s.unit s.curUnit
    let p := s.part u.part
    let T := s.touchVa u.part u.space va 128
    let gives := fun (i : Instr) (P : State) (v : W64) => ∃ t, exec i s = .next t ∧ ScalarResult P t w r.toNat v
    let post := exec (.xchDpost w r) s
    let read := s.readVa s.curUnit u.part u.space va 128
    s.probeLanes false .read [⟨0, va, 1, 0#64, 0#64⟩] = .ok a →
      (s.storesOut = false → (va % 128 ≠ 0 → gives (.xchDpost w r) s 2#64)
        ∧ (va % 128 = 0 → BlockStops post s w r.toNat read)
        ∧ ∀ b, va % 128 = 0 → read = .ok b →
          let gn := fieldOf b 0 2
          let bad := exDescOk b = false ∨ SMap.has p.groups gn = false
          let g := p.group gn
          let n := g.members.length
          let live := g.mine < n ∧ g.live.getD g.mine false = true
          let demands := T.readVa s.curUnit u.part u.space (fieldOf b 0x18 8) (8 * n)
          (bad → gives (.xchDpost w r) s 2#64)
          ∧ (¬ bad → BlockStops post T w r.toNat demands
            ∧ ∀ dem, demands = .ok dem →
              let D := T.touchVa u.part u.space (fieldOf b 0x18 8) (8 * n)
              (¬ live → gives (.xchDpost w r) D 3#64)
              ∧ (live → p.openEx gn ≠ none → gives (.xchDpost w r) D 1#64)
              ∧ (live → p.openEx gn = none → ∃ P x, gives (.xchDpost w r) P 0#64 ∧ (P.part u.part).openEx gn = some x ∧ x.desc = b
                ∧ x.xseq = fieldOf b 4 4 ∧ x.rank = g.mine ∧ x.written = false ∧ x.going = false ∧ x.lost = []
                ∧ x.post.rowbytes = fieldOf b 8 4 ∧ x.post.caprows = fieldOf b 0xC 4 ∧ x.post.spillrows = fieldOf b 0x10 4
                ∧ x.post.spill = (fieldOf b 2 2).testBit 0 ∧ x.post.epoch = g.epoch.toNat
                ∧ x.post.demand = (List.range n).map fun i => fieldOf dem (8 * i) 8)))
      ∧ (s.quiet = true → (va % 128 ≠ 0 → gives (.xchDcal w r k) s 4#64)
        ∧ (va % 128 = 0 → BlockStops (exec (.xchDcal w r k) s) s w r.toNat read)
        ∧ ∀ b, va % 128 = 0 → read = .ok b →
          let bad := exDescOk b = false ∨ SMap.has p.groups (fieldOf b 0 2) = false
          (bad → gives (.xchDcal w r k) s 4#64)
          ∧ (¬ bad → (SMap.find p.exchanges (fieldOf b 0 2) = none → gives (.xchDcal w r k) T 2#64)
          ∧ ∀ x, SMap.find p.exchanges (fieldOf b 0 2) = some x →
            (x.xseq ≠ fieldOf b 4 4 → gives (.xchDcal w r k) T 2#64)
            ∧ (x.xseq = fieldOf b 4 4 → (x.refused = true → gives (.xchDcal w r k) T 3#64)
              ∧ (x.refused = false → x.closed = true → x.written = false → gives (.xchDcal w r k) T 2#64)
              ∧ (x.refused = false → x.closed = false → x.written = false → (k = 0#1 → gives (.xchDcal w r k) T 1#64)
                ∧ (k = 1#1 → ∃ t, exec (.xchDcal w r k) s = .next t ∧ Stands T t))
              ∧ (x.refused = false → x.written = true →
                ∃ P, gives (.xchDcal w r k) P (BitVec.ofNat 64 (convoyCount x.arb.plan * 2 ^ 32)) ∧ ∀ l, P.byteNow l = s.byteNow l))))

/-- R291, R292: the arbiter's plan. In source order each demand on a destination is granted what its rows still hold, then what its spill
rows hold, and the rest is denied; in a convoy no member sends twice, receives twice or sends to itself. R291 to R293, R296, R395: its
events. A post of the group's epoch joins the exchange, one of an older epoch is discarded, one of a newer turns the group to the next
arbiter; 55,000 cycles after the first post the members that have not posted are no longer live; with every live member's post the
plan is made, or refused where rows differ in size, and this member's calendar is written, once its pages can be reached; heartbeats, go,
and 55,000 cycles of silence. R296 says only that a higher epoch discards the calendar and the groups post again: that the arbiter is one
agent of this device is log entry 14's choice, and that epochs are ordered modulo 256 by half a window, that a post of an older one is
discarded and that one of a newer marks the arbiter as no longer live are log entry 36's reading. -/
def Obligations.ExchangeArbiter : Prop :=
  (∀ (rb d : Nat) (dest : ExPost) (demands : List Nat), 0 < rb → ∀ i, i < demands.length → ∃ g, (grantsTo rb d dest demands)[i]? = some g
    ∧ g.src = i ∧ g.dst = d
    ∧ (let before := fun (f : Grant → Nat) => ((grantsTo rb d dest demands).take i).foldl (fun n e => n + rowsOf rb (f e)) 0
      g.granted = min (demands.getD i 0) (rb * (dest.caprows - before Grant.granted))
      ∧ g.spilled = min (demands.getD i 0 - g.granted) (rb * ((if dest.spill then dest.spillrows else 0) - before Grant.spilled))
      ∧ g.denied = demands.getD i 0 - g.granted - g.spilled))
  ∧ (∀ (n k : Nat) (left : SMap Nat), ((convoyOf n k left).map Prod.fst).Nodup ∧ ((convoyOf n k left).map Prod.snd).Nodup
    ∧ ∀ e, e ∈ convoyOf n k left → e.1 ≠ e.2 ∧ SMap.get 0 left (e.1 * n + e.2) ≠ 0)
  ∧ ∀ (s : State) (part group : Nat),
    let p := s.part part
    let g := p.group group
    let n := g.members.length
    let arb := fun (t : State) => SMap.find (t.part part).arbs group
    let turned := fun (t : State) (e : BitVec 8) => ((t.part part).group group).epoch = e
      ∧ ∀ r, g.arbiter = some r → ((t.part part).group group).live.getD r false = false
    (∀ rank q q', rank < n → g.live.getD rank false = true → (rank ≠ g.mine → q' = q) →
      (rank = g.mine → ∃ x, p.openEx group = some x ∧ q' = x.post) →
      let d := (BitVec.ofNat 8 q'.epoch - g.epoch).toNat
      let put := fun (y : Arb) => exec (.post part group rank q) s = .next (s.updPart part fun p => { p with arbs := SMap.put group y p.arbs })
      (d = 0 → arb s = none → put ⟨q'.xseq, [(rank, q')], s.cycle, s.cycle, false, false, [], []⟩)
      ∧ (∀ y, d = 0 → arb s = some y → y.decided = false → y.xseq = q'.xseq → (∀ e, e ∈ y.posts → e.1 ≠ rank) →
        put { y with posts := y.posts ++ [(rank, q')] })
      ∧ (128 ≤ d → exec (.post part group rank q) s = .next s)
      ∧ (0 < d → d < 128 → ∃ t, exec (.post part group rank q) s = .next t ∧ turned t (BitVec.ofNat 8 q'.epoch)))
    ∧ (∀ y, arb s = some y → y.decided = false →
      (s.cycle < y.firstPost + 55000 → exec (.postTimeout part group) s = .next s)
      ∧ (y.firstPost + 55000 ≤ s.cycle → ∃ t, exec (.postTimeout part group) s = .next t ∧ ∀ r, r < n →
        ((t.part part).group group).live.getD r false = (g.live.getD r false && y.posts.any fun e => e.1 == r))
      ∧ (s.cycle < y.beat + 11000 → exec (.heartbeat part group) s = .next s)
      ∧ (y.beat + 11000 ≤ s.cycle → ∃ t, exec (.heartbeat part group) s = .next t ∧ arb t = some { y with beat := s.cycle }
        ∧ ∀ x, p.openEx group = some x → (t.part part).openEx group = some { x with heard := s.cycle })
      ∧ (g.missing y ≠ [] → exec (.grant part group) s = .next s)
      ∧ (g.missing y = [] → (∀ x, p.openEx group = some x → s.calendarWaits part x = none) → ∃ t z, exec (.grant part group) s = .next t ∧ arb t = some z ∧ z.decided = true ∧ z.posts = y.posts
        ∧ (z.refused = true ↔ ∃ e f, e ∈ y.posts ∧ f ∈ y.posts ∧ g.live.getD e.1 false = true ∧ g.live.getD f.1 false = true
          ∧ e.2.rowbytes ≠ f.2.rowbytes)
        ∧ ∀ x, p.openEx group = some x → x.xseq = y.xseq → g.live.getD x.rank false = true →
          ∃ c, SMap.find (t.part part).exchanges group = some c ∧ c.written = true ∧ c.refused = z.refused ∧ c.arb = z))
    ∧ ∀ x, p.openEx group = some x →
      (∀ e, (x.written = false ∨ x.going = true ∨ g.epoch ≠ BitVec.ofNat 8 e → exec (.go part group e) s = .next s)
        ∧ (x.written = true → x.going = false → g.epoch = BitVec.ofNat 8 e → ∃ t, exec (.go part group e) s = .next t
          ∧ t.courierSent = (2, group) :: s.courierSent
          ∧ SMap.find (t.part part).exchanges group = some { x with going := !x.refused, closed := x.refused, heard := s.cycle }))
      ∧ (x.going = true ∨ s.cycle < x.heard + 55000 → exec (.arbiterSilence part group) s = .next s)
      ∧ (x.going = false → x.heard + 55000 ≤ s.cycle → SMap.has p.groups group = true → ∃ t,
        exec (.arbiterSilence part group) s = .next t ∧ turned t (g.epoch + 1#8) ∧ t.courierSent = (0, group) :: s.courierSent
        ∧ ∃ c, SMap.find (t.part part).exchanges group = some c ∧ c.written = false ∧ c.post.epoch = (g.epoch + 1#8).toNat
          ∧ c.heard = s.cycle)

/-- R294, R295, R297, R302, R378: the convoys of a member that go has reached. It moves the bytes for its own rank, then sends the quanta of
its convoys in order, each once; a quantum that arrives is stored at its source's rows, once, and counted; a member that is reported
lost, or that no fibre reaches, is sent and expected no more; with every convoy passed it completes, with 6 where a lost member's quantum
has not moved and else with the status of its first fault, the idle quanta sent, the group and the sequence number, and is closed. That
a faulting source's quantum travels without a byte and counts as idle, and that a quantum which cannot be stored is counted, is log entry
36's reading, and that status 6 names a lost rank, as the event's argument gives it, is the model's too. -/
def Obligations.ExchangeSteps : Prop :=
  ∀ (s : State) (part group : Nat) (x : Exchange), (s.part part).openEx group = some x → x.going = true →
    let y := x.arb
    let lost := s.exLost part group x
    let todo := (convoysFor y.plan x.rank).filter fun k => !x.passed lost y.plan k
    let ex := fun (t : State) => SMap.find (t.part part).exchanges group
    let run := exec (.exchangeCompletion part group 0) s
    let own := y.grantOf x.rank x.rank
    (∀ m, lost m = true ↔ m ∈ x.lost ∨ (s.part part).cutOff group m = true)
    ∧ (∀ k, x.passed lost y.plan k = true ↔ ∀ c, c ∈ y.plan → c.num = k → (c.src = x.rank → k ∈ x.sent ∨ lost c.dst = true)
      ∧ (c.dst = x.rank → k ∈ x.recv ∨ lost c.src = true))
    ∧ (∀ S z T v, x.localDone = false → s.exMove part y x 0 own.granted false = .ok (S, z) →
      S.exMove part y z own.granted own.spilled true = .ok (T, v) →
      ∃ t, run = .next t ∧ ex t = some { v with localDone := true } ∧ ∀ l, t.byteNow l = T.byteNow l)
    ∧ (∀ k ks c, x.localDone = true → todo = k :: ks →
      y.plan.find? (fun c => c.num == k && c.src == x.rank && !lost c.dst) = some c → k ∉ x.sent →
      let read := s.exBytes part x c.dst ((if c.spill then (y.grantOf c.src c.dst).granted else 0) + c.off) c.bytes
      (∀ bs S, read = .bytes bs S → bs ≠ [] →
        run = .next ({ S with sentChunks := ⟨c.dst, group, .quantum x.xseq c.num, bs⟩ :: S.sentChunks }.updPart part fun p =>
          { p with exchanges := SMap.put group { x with sent := c.num :: x.sent } p.exchanges }))
      ∧ (∀ S, read = .waits S → run = .next S)
      ∧ (∀ S, read = .bytes [] S → ∃ t, run = .next t ∧ t.sentChunks = ⟨c.dst, group, .quantum x.xseq c.num, []⟩ :: S.sentChunks
        ∧ ex t = some { x with sent := c.num :: x.sent, idleOut := x.idleOut + 1 })
      ∧ ∀ f va, read = .stops f va → ∃ t, run = .next t
        ∧ t.sentChunks = ⟨c.dst, group, .quantum x.xseq c.num, []⟩ :: s.sentChunks
        ∧ ex t = some { x.failed f with sent := c.num :: x.sent, idleOut := x.idleOut + 1 })
    ∧ (∀ slot, x.localDone = true → todo = [] → (s.unit x.unit).life ≠ .gone → s.slotBy x.wave = some slot →
      (s.waveBy x.wave).doneRoom 5 = true → s.calendarWaits part x = none →
      let missed := ∃ c, c ∈ y.plan ∧ ((c.src = x.rank ∧ c.num ∉ x.sent ∧ lost c.dst = true) ∨ (c.dst = x.rank ∧ c.num ∉ x.recv ∧ lost c.src = true))
      ∃ t c e st, run = .next t ∧ ex t = some c ∧ c.closed = true ∧ (missed → st = 6) ∧ (¬ missed → st = x.fault)
        ∧ SMap.get [] (t.waveBy x.wave).eqDone 5 = SMap.get [] (s.waveBy x.wave).eqDone 5 ++ [e]
        ∧ e.val = BitVec.ofNat 64 (st * 2 ^ 56 + x.idleOut % 65536 * 2 ^ 40 + group % 256 * 2 ^ 32 + x.xseq))
    ∧ (∀ m, m ≠ x.rank → exec (.exchangeCompletion part group (256 * m + 6)) s
      = .next (s.updPart part fun p => { p with exchanges := SMap.put group { x with lost := m :: x.lost } p.exchanges }))
    ∧ ∀ k c bs, y.plan.find? (fun c => c.num == k && c.dst == x.rank) = some c →
      let arrives := exec (.quantumArrival part group k bs) s
      let put := s.engWrite (2 ^ 40 + x.num) x.unit part x.space (y.rowBase x c.src c.spill + c.off) bs
      let counts := fun (t : State) => ∀ q d, ((t.part q).counter d).value = ((s.part q).counter d).value
        + if fieldOf x.desc 0x15 1 = 1 ∧ q = part ∧ d = fieldOf x.desc 0x14 1 then 1#64 else 0#64
      (k ∈ x.recv → arrives = .next s)
      ∧ (k ∉ x.recv → bs.length ≤ c.bytes → bs ≠ [] →
        (∀ S, put = .wrote S → ∃ t z, arrives = .next t ∧ (∀ l, t.byteNow l = S.byteNow l) ∧ ex t = some z
          ∧ z.recv = k :: x.recv ∧ counts t ∧ (let i := 2 * c.src + if c.spill then 1 else 0
            SMap.get 0 z.inBytes i = SMap.get 0 x.inBytes i + bs.length))
        ∧ (∀ S, put = .waits S → arrives = .next S)
        ∧ (∀ va, put = .faults va → ∃ t z, arrives = .next t ∧ ex t = some z ∧ z.recv = k :: x.recv ∧ z.fault = (x.failed 4).fault ∧ counts t))
      ∧ (k ∉ x.recv → bs = [] → ∃ t z, arrives = .next t ∧ ex t = some z ∧ z.recv = k :: x.recv ∧ counts t)

/-! ## Queues, placement and completion (R244 to R268, R344, R382, R394) -/

/-- R244 to R247, R260, R261, R324, R382: queue packets. A malformed packet stops its queue with status 1. A graph packet starts the graph
of its header, whose source nodes are enqueued in list order, an empty one and one whose launch parameter block is malformed completing at
once and each other one with the next launch; a timeline wait packet passes once the timeline has its value, a timeline signal packet sets the timeline unless that
moves it backward, each once the queue's earlier graphs have completed (a graph packet with the overlap flag at once), and a
phase-end packet, once the phases closed before have completed, closes the phase, and the job where it says so; a graph of a phase or job
that a cancel has reached completes at once and is not placed (R269; that it is so of graphs whose packets come later is log entry 54's
reading); a packet that is taken moves the head by 1. A broken timeline stops the
queue with status 2. A block in spill that the packet needs is fetched first, and nothing else happens (that a graph's packet waits for its
header, its sink, its list and its record is log entry 24's reading). After 65,536 cycles in which a queue that has a unit to place placed none its age rises by 1, to 7 at most (that the
unit to place is looked for only at the interval's end is log entry 25's reading). -/
def Obligations.QueuePackets : Prop :=
  ∀ (s : State) (part q : Nat),
    let p := s.part part
    let x := p.queue q
    let queue := fun (t : State) => (t.part part).queue q
    (∀ b, s.headPacket part q = some b →
      let C := s.consume part q b
      let alone := p.graphsDone q = true
      let kind := fieldOf b 0 1
      let addr := fieldOf b 8 8
      let value := fieldOf b 0x10 8
      let line := p.timeline addr
      let taken := fun (t : State) => (queue t).head = (x.head + 1) % 2 ^ 64 ∧ (queue t).job = fieldOf b 4 4
      (packetOk b = false → ∀ i ∈ ([.graphPacket part q, .timelineWaitPacket part q, .timelineSignalPacket part q,
          .phaseEndPacket part q] : List Instr),
        ∃ t, exec i s = .next t ∧ (queue t).status = 1 ∧ (queue t).errorIrq = x.errorIrq + if x.irqCore.isSome then 1 else 0)
      ∧ (packetOk b = true → kind = 1 → ¬ alone → (fieldOf b 1 1).testBit 0 = false → exec (.graphPacket part q) s = .next s)
      ∧ (∀ a, packetOk b = true → kind = 1 → alone ∨ (fieldOf b 1 1).testBit 0 = true → s.graphSpill part x.space addr = some a →
        exec (.graphPacket part q) s = .next (s.wantPage part x.space a))
      ∧ (packetOk b = true → kind = 1 → alone ∨ (fieldOf b 1 1).testBit 0 = true → s.graphSpill part x.space addr = none → ∃ t g, exec (.graphPacket part q) s = .next t
        ∧ taken t ∧ SMap.find (t.part part).graphs p.graphNo = some g ∧ g.header = addr ∧ g.queue = q ∧ g.phase = x.phase
        ∧ ∀ (hb : List Byte) (ns : List Nat) (nb : Nat → List Byte), C.readVa 0 part x.space addr 32 = .ok hb → C.headerNodes part x.space hb = some ns →
          p.liveGraph (fieldOf hb 0xC 4) = none → p.nextLaunch + ns.length < 2 ^ 32 →
          (∀ n, n ∈ ns → C.nodeSpill part x.space n = none ∧ C.readVa 0 part x.space n 64 = .ok (nb n)) →
          let lpb := fun n => fieldOf (nb n) 0 8
          let good := fun n => (C.launchOf part x.space (lpb n) x.affinity).isSome
          let cancelled := x.phase ∈ x.cancelledPhases ∨ fieldOf b 4 4 ∈ x.cancelledJobs
          (cancelled → g.done = true ∧ g.openNodes = 0 ∧ (t.part part).launches = p.launches)
          ∧ (¬ cancelled → g.gid = fieldOf hb 0xC 4 ∧ g.openNodes = ns.length ∧ g.waiting = []
            ∧ g.complete = (ns.filter fun n => lpb n == 0 || !good n).map (fun n => (n, 0, x.view))
            ∧ g.malformed = ns.any (fun n => lpb n != 0 && !good n)
            ∧ ∀ i n l, ns[i]? = some n → lpb n ≠ 0 → C.launchOf part x.space (lpb n) x.affinity = some l →
              let id := p.nextLaunch + ((ns.take i).filter fun n => lpb n != 0).length
              ∃ m, SMap.find (t.part part).launches id = some m ∧ m.node = n ∧ m.graph = p.graphNo ∧ m.kdesc = l.kdesc
                ∧ m.counts = l.counts ∧ m.args = l.args ∧ m.next = 0 ∧ m.view = x.view))
      ∧ (packetOk b = true → kind = 2 → (¬ alone → exec (.timelineWaitPacket part q) s = .next s)
        ∧ (alone → line.broken = true → ∃ t, exec (.timelineWaitPacket part q) s = .next t ∧ (queue t).status = 2)
        ∧ (alone → line.broken = false → line.value.toNat < value → exec (.timelineWaitPacket part q) s = .next s)
        ∧ (alone → line.broken = false → value ≤ line.value.toNat → ∃ t, exec (.timelineWaitPacket part q) s = .next t ∧ taken t
          ∧ (queue t).view = View.join x.view (acquired .all 5 hostPlace line.rels)))
      ∧ (packetOk b = true → kind = 3 → (¬ alone → exec (.timelineSignalPacket part q) s = .next s)
        ∧ (alone → line.broken = true → ∃ t, exec (.timelineSignalPacket part q) s = .next t ∧ (queue t).status = 2)
        ∧ (alone → line.broken = false → ∃ t, exec (.timelineSignalPacket part q) s = .next t ∧ taken t
          ∧ ((t.part part).timeline addr).value = if line.value.toNat ≤ value then BitVec.ofNat 64 value else line.value))
      ∧ (packetOk b = true → kind = 4 → x.doneTo x.phase = false → exec (.phaseEndPacket part q) s = .next s)
      ∧ (packetOk b = true → kind = 4 → x.doneTo x.phase = true → ∃ t, exec (.phaseEndPacket part q) s = .next t ∧ taken t ∧ (queue t).phase = x.phase + 1
        ∧ (queue t).closedPhases = x.closedPhases ++ [x.phase] ∧ ((fieldOf b 1 1).testBit 1 = true →
          SMap.find (queue t).jobEnds x.phase = some (fieldOf b 4 4)
          ∧ (SMap.get 0 x.phaseGraphs x.phase = 0 → fieldOf b 4 4 ∈ (queue t).jobsDone))))
    ∧ (∀ i ∈ ([.graphPacket part q, .timelineWaitPacket part q, .timelineSignalPacket part q, .phaseEndPacket part q] : List Instr),
      (∀ a, s.ringSpill part q = some a → exec i s = .next (s.wantPage part x.space a))
      ∧ (s.headPacket part q = none → s.ringSpill part q = none → exec i s = .next s))
    ∧ (x.set = true → (s.cycle < x.ageFrom + 65536 → exec (.ageInterval part q) s = .next s)
      ∧ (x.ageFrom + 65536 ≤ s.cycle → ∃ t, exec (.ageInterval part q) s = .next t ∧ (queue t).ageFrom = x.ageFrom + 65536
        ∧ (queue t).age = if s.nextUnitOf part q = none then x.age else min 7 (x.age + 1)))

/-- A unit of a launch's next position has been placed at slots and a creel offset of a cluster for a kernel: its waves stand at the
kernel's entries with every register 0, its creel bytes are 0, its sequencer has started, and the launch's next position and its count
of units have risen by 1. -/
def Placed (s t : State) (part launch cluster : Nat) (slots : List Nat) (off : Nat) (k : Kernel) (reserved : Bool) : Prop :=
  let l := SMap.get Launch.empty (s.part part).launches launch
  let m := SMap.get Launch.empty (t.part part).launches launch
  let x := t.unit s.nextUnit
  t.nextUnit = s.nextUnit + 1 ∧ x.life = .resident ∧ x.part = part ∧ x.launch = launch ∧ x.pos = l.next ∧ x.cluster = cluster
    ∧ x.slots = slots.map (fun i => 32 * cluster + i) ∧ x.creelOff = off ∧ x.creelBytes = k.creel ∧ x.reserved = reserved
    ∧ m.next = l.next + 1 ∧ m.live = l.live + 1
    ∧ (∀ i, i < slots.length → let w := t.wave (32 * cluster + slots.getD i 0)
      w.unit = s.nextUnit ∧ w.pos = i ∧ w.acc.pc = BitVec.ofNat 64 k.aentry ∧ w.cmp.pc = BitVec.ofNat 64 k.centry
        ∧ w.acc.mode = 0#16 ∧ w.cmp.mode = 0#16 ∧ w.acc.ended = false ∧ w.cmp.ended = false
        ∧ ∀ r, r ≠ 0 → w.acc.sreg r = 0#64 ∧ w.cmp.sreg r = 0#64 ∧ w.acc.preg r = 0#64 ∧ w.vreg r = Lanes.zero32 ∧ w.xreg r = Lanes.zero64)
    ∧ (∀ j, j < k.creel → t.byteNow (locOfCreel cluster (off + j)) = 0#8)
    ∧ (k.hasSeq = true → (t.cluster cluster).seq.owner = s.nextUnit ∧ (t.cluster cluster).seq.tiles = k.tiles)

/-- R247, R253 to R255, R257: placement and retirement. A gang goes whole to a place that fits it, in its queue's turn, on a die that its
launch and queue allow, and nowhere else; a sprout goes to a free place in the same way, or to its launch's reserved place, on a die that
its launch and queue allow, while it can be given no other (log entry 46's reading of when that is: no place is free to it in its queue's
turn); while units stand at a queue's head, squashed or saved, no new unit of it is placed (R171, R377); a queue that has placed starts its age again. A unit whose strands, accesses, engine commands and matrix instructions
have finished retires: its waves and its sequencer are free, and its launch counts one unit less. -/
def Obligations.PlacementAndRetirement : Prop :=
  (∀ (s : State) (part q launch cluster : Nat) (slots : List Nat) (off : Nat) (k : Kernel),
    let l := SMap.get Launch.empty (s.part part).launches launch
    s.nextUnitOf part q = some (.fresh launch) → s.kernelAt part l.space l.kdesc = some k → l.spawn = false →
    let fits := s.dieAllows part (s.launchMask part l) cluster = true ∧ s.gangFits k cluster slots off = true
      ∧ s.served part q cluster = true
    (¬ fits → exec (.gangPlacement part q cluster slots off) s = .next s)
    ∧ (fits → ∃ t, exec (.gangPlacement part q cluster slots off) s = .next t ∧ Placed s t part launch cluster slots off k false
      ∧ ((t.part part).queue q).age = 0 ∧ (t.part part).lastQueue = q))
  ∧ (∀ (s : State) (part q cluster : Nat) (slots : List Nat) (off : Nat), s.headUnits part q ≠ [] →
    (∀ launch, NextUnit.fresh launch ∉ s.nextUnits part q ∧ s.nextGang part q cluster ≠ some (.fresh launch))
    ∧ ((∀ n, n ∈ s.headUnits part q → ∃ u, n = .back u) → exec (.gangPlacement part q cluster slots off) s = .next s))
  ∧ (∀ (s : State) (part launch cluster slot off : Nat) (k : Kernel),
    let l := SMap.get Launch.empty (s.part part).launches launch
    let need := { k with waves := 1, groups := 1 }
    let free := fun c => s.sproutHasPlace part l (.fresh launch) need c = true
    let placed := fun (t : State) (reserved : Bool) => exec (.sproutPlacement part launch cluster slot off) s = .next t
      ∧ Placed s t part launch cluster [slot] off k reserved
      ∧ ((t.part part).queue l.queue).age = 0 ∧ (t.part part).lastQueue = l.queue
    s.nextSprout part launch cluster = some (.fresh launch) → s.kernelAt part l.space l.kdesc = some k → l.spawn = true →
    (s.dieAllows part (s.launchMask part l) cluster = false → exec (.sproutPlacement part launch cluster slot off) s = .next s)
    ∧ (l.resv = some ⟨cluster, slot, off, k.creel, k.tiles⟩ → s.dieAllows part (s.launchMask part l) cluster = true →
      (l.resvBusy = true ∨ (∃ c, c < Config.clusters ∧ free c) → exec (.sproutPlacement part launch cluster slot off) s = .next s)
      ∧ (l.resvBusy = false → (∀ c, c < Config.clusters → ¬ free c) → ∃ t, placed t true
        ∧ (SMap.get Launch.empty (t.part part).launches launch).resvBusy = true))
    ∧ (l.resv ≠ some ⟨cluster, slot, off, k.creel, k.tiles⟩ → s.gangFits need cluster [slot] off = true → free cluster →
      ∃ t, placed t false))
  ∧ ∀ (s : State) (u : Nat),
    let x := s.unit u
    let live := fun (t : State) => (SMap.get Launch.empty (t.part x.part).launches x.launch).live
    (s.mayRetire u = false → exec (.retirement u) s = .next s)
    ∧ (s.mayRetire u = true → ∃ t, exec (.retirement u) s = .next t ∧ (t.unit u).life = .gone ∧ live t = live s - 1
      ∧ (∀ k, (t.wave k).unit ≠ u ∨ t.wave k = Wave.idle) ∧ (∀ l, t.byteNow l = s.byteNow l)
      ∧ (x.hasSeq = true → (s.cluster x.cluster).seq.owner = u → (t.cluster x.cluster).seq = Seq.idle))

/-- R258, R259, R261, R262, R264, R268: completion. A launch whose units have all been placed and have retired is done: a spawn signals
its timeline, another completes its node, and a graph that has lost one to a cancel will say so; each successor of a completed node is decremented in turn, one that reaches 0 is enqueued,
one that is 0 already is malformed, and after the last the node counts no longer; a graph whose sink and open nodes have completed is
done, its record written and its queue's interrupt raised. A node or a graph of which a block stands in spill waits for its page, which is
fetched, and goes on then (R324; log entry 24's reading). -/
def Obligations.Completion : Prop :=
  ∀ (s : State) (part : Nat),
    let p := s.part part
    (∀ launch l, SMap.find p.launches launch = some l →
      let ready := l.done = false ∧ l.live = 0 ∧ l.waiting = false
        ∧ ∀ c, c ∈ s.cancels → c.part ≠ part ∨ launch ∉ c.launches
      (¬ ready → exec (.launchCompletion part launch) s = .next s)
      ∧ (ready → ∃ t m, exec (.launchCompletion part launch) s = .next t ∧ SMap.find (t.part part).launches launch = some m
        ∧ m.done = true ∧ m.resv = none ∧ (t.part part).doneLaunches = (launch :: p.doneLaunches).take 1024
        ∧ (∀ n v, l.spawn = true → l.tl = some (n, v) → l.cancelled = false → (p.timeline n).broken = false →
          ((t.part part).timeline n).value = if (p.timeline n).value.toNat ≤ v.toNat then v else (p.timeline n).value)
        ∧ ∀ g, SMap.find p.graphs l.graph = some g → ∃ h, SMap.find (t.part part).graphs l.graph = some h
          ∧ h.lost = (g.lost || l.cancelled) ∧ (l.spawn = false → h.complete = g.complete ++ [(l.node, 0, l.cover)])))
    ∧ ∀ gid key g, p.liveGraph gid = some (key, g) → SMap.find p.graphs key = some g →
      let graph := fun (t : State) => SMap.find (t.part part).graphs key
      (∀ node i v b, g.complete.find? (fun e => e.1 == node) = some (node, i, v) → s.readVa 0 part g.space node 64 = .ok b →
        let n := fieldOf b 0xC 2
        n ≤ 64 →
        (n ≤ i → ∃ t h, exec (.nodeCompletion part gid node) s = .next t ∧ graph t = some h ∧ h.openNodes = g.openNodes - 1
          ∧ h.complete = g.complete.filter (fun e => e.1 != node) ∧ h.sinkDone = (g.sinkDone || node == g.sink)
          ∧ ∀ l, t.byteNow l = s.byteNow l)
        ∧ ∀ a locs, i < n → s.readVa 0 part g.space (fieldOf b 0x10 8 + 8 * i) 8 = .ok a →
          s.vaLocs 0 part g.space (leNat a + 8) 4 .atomic = .ok locs → (∀ l, l ∈ locs → s.poisonedAt l = false) → g.cancelled = false →
          let old := leNat (locs.map s.byteNow)
          ∃ t h, exec (.nodeCompletion part gid node) s = .next t ∧ graph t = some h
            ∧ (∀ e, e ∈ g.complete → e.1 = node → (node, i + 1, e.2.2) ∈ h.complete)
            ∧ (old = 0 → h.malformed = true ∧ ∀ l, t.byteNow l = s.byteNow l)
            ∧ (old ≠ 0 → (∀ l, t.byteNow l = (s.perform 0 [] (locs.zip (leBytes 4 (old - 1)))).byteNow l)
              ∧ h.openNodes = g.openNodes + if old = 1 then 1 else 0))
      ∧ (∀ node view, (∀ e, e ∈ g.complete → e.1 ≠ node) → g.waiting.find? (fun e => e.1 == node) = some (node, view) →
        g.cancelled = false → (∀ a, s.nodeSpill part g.space node = some a →
          exec (.nodeCompletion part gid node) s = .next (s.wantPage part g.space a))
        ∧ (s.nodeSpill part g.space node = none → ∃ t h, exec (.nodeCompletion part gid node) s = .next t ∧ graph t = some h
          ∧ h.waiting = g.waiting.filter (fun e => e.1 != node) ∧ h.openNodes = g.openNodes - 1 + 1
          ∧ ∀ nb l, s.readVa 0 part g.space node 64 = .ok nb → fieldOf nb 0 8 ≠ 0 →
            s.launchOf part g.space (fieldOf nb 0 8) (p.queue g.queue).affinity = some l →
            ∃ m, SMap.find (t.part part).launches p.nextLaunch = some m ∧ m.node = node ∧ m.graph = key ∧ m.kdesc = l.kdesc
              ∧ m.counts = l.counts ∧ m.args = l.args ∧ m.next = 0 ∧ m.view = view))
      ∧ (let left := ∃ e, e ∈ p.launches ∧ e.2.graph = key ∧ e.2.done = false ∧ (e.2.spawn = false ∨ g.cancelled = true)
        let ready := g.openNodes = 0 ∧ (g.sinkDone = true ∨ g.cancelled = true) ∧ ¬ left
        let x := p.queue g.queue
        let status := if g.malformed then 2 else if g.cancelled || g.lost then 1 else 0
        (¬ ready → exec (.graphCompletion part gid) s = .next s)
        ∧ (∀ a, ready → s.recordSpill part g.space g.sink = some a →
          exec (.graphCompletion part gid) s = .next (s.wantPage part g.space a))
        ∧ (ready → s.recordSpill part g.space g.sink = none → ∃ t h, exec (.graphCompletion part gid) s = .next t ∧ graph t = some h ∧ h.done = true
          ∧ (t.part part).doneGraphs = (g.gid :: p.doneGraphs).take 1024
          ∧ ((t.part part).queue g.queue).graphIrq = x.graphIrq + (if x.irqCore.isSome then 1 else 0)
          ∧ SMap.get 0 ((t.part part).queue g.queue).phaseGraphs g.phase = SMap.get 0 x.phaseGraphs g.phase - 1
          ∧ ∀ nb ls, g.sink % 64 = 0 → s.readVa 0 part g.space g.sink 64 = .ok nb →
            let at' := fieldOf nb 0x18 8
            let record := leBytes 4 g.gid ++ leBytes 4 status ++ leBytes 8 (s.cycle - p.startCycle) ++ leBytes 16 0
            at' % 32 = 0 → s.vaLocs 0 part g.space at' 32 .write = .ok ls →
            ∀ l, t.byteNow l = (s.perform 0 [] (ls.zip record)).byteNow l))

/-! ## Pre-emption, images, the debugger and migration (R184, R248, R366 to R370, R375 to R377) -/

/-- R248, R366 to R370: pre-emption. A resident unit is asked to leave where a unit two steps of priority above it fits nowhere and its place
is one of those that would free enough room (State.pressed), and no lower unit's is; its status.pre, deadline and armed monitors say so. The request may be withdrawn, and at the deadline every strand not
at rest is made to stand. A unit at rest whose accesses have happened, or may leave, is saved: its waves, its sequencer and its creel
bytes are in its image and its places are free, a reserved one for the next sprout. It is restored whole in its queue's turn where it fits,
or on its launch's reserved place, once its replies have come, its allotment at the offset it had, its strands where they were, its
mailbox at the slots that its waves have now, and no instruction of its sequencer stopped any longer (R154, R156). The restore on a
reserved place, its wait for the replies and the moved mailbox are log entry 27's reading; when a unit presses and whose places help is log entry 26's. -/
def Obligations.Preemption : Prop :=
  ∀ (s : State) (u : Nat),
    let x := s.unit u
    let wave := fun (t : State) k => t.wave k
    (let e := s.unitPriority u
     let lower := ∃ v, v ∈ s.units ∧ v.2.life = .resident ∧ v.2.preReq = false ∧ v.2.part = x.part ∧ s.unitPriority v.1 < e
       ∧ s.pressed v.1 = true
     let asked := x.life = .resident ∧ x.preReq = false ∧ s.pressed u = true ∧ ¬ lower
     (¬ asked → exec (.preemptionRequest u) s = .next s)
     ∧ (asked → ∃ t, exec (.preemptionRequest u) s = .next t ∧ (t.unit u).preReq = true ∧ (t.unit u).why = 0
       ∧ (t.unit u).deadline = s.cycle + (s.part x.part).asn.deadline
       ∧ ∀ k m, SMap.find s.waves k = some m → m.unit = u → ∀ n, m.acc.monitor = some n →
         (wave t k).acc.monitor = some { n with wake := if n.wake = 0 then 3 else min n.wake 3 }))
    ∧ (x.life = .resident → x.preReq = true → s.unitAtRest u = false →
      (x.why = 0 → ∃ t, exec (.preemptionWithdraw u) s = .next t ∧ (t.unit u).preReq = false
        ∧ ∀ k, k ∈ x.slots → (wave t k).acc.yielded = false ∧ (wave t k).cmp.yielded = false)
      ∧ (s.cycle < x.deadline → exec (.deadline u) s = .next s)
      ∧ (x.deadline ≤ s.cycle → ∃ t, exec (.deadline u) s = .next t ∧ t.unitAtRest u = true
        ∧ (t.unit u).why = if x.why = 0 then 1 else x.why))
    ∧ (let ready := x.life = .resident ∧ x.preReq = true ∧ s.unitAtRest u = true ∧ s.saveReady u = true
      (¬ ready → exec (.save u) s = .next s)
      ∧ (ready → ∃ t, exec (.save u) s = .next t ∧ (t.unit u).life = (if x.why = 2 then .stopped else .saved)
        ∧ (t.unit u).image = x.slots.map (fun k => { s.wave k with acc := (s.wave k).acc.saved, cmp := (s.wave k).cmp.saved })
        ∧ (t.unit u).imageSeq = (if x.hasSeq then
            some { (s.cluster x.cluster).seq with strand := (s.cluster x.cluster).seq.strand.saved } else none)
        ∧ (t.unit u).reserved = false ∧ (x.reserved = true → (t.launchOfUnit u).resvBusy = false)
        ∧ (∀ j, j < x.creelBytes → Mem.read (t.unit u).imageCreel j = s.byteNow (locOfCreel x.cluster (x.creelOff + j)))
        ∧ (∀ k, (wave t k).unit ≠ u ∨ wave t k = Wave.idle) ∧ (x.why = 2 → (t.dbg x.part).mapped = true)))
    ∧ ∀ (c : Nat) (slots : List Nat), x.life = .saved → s.dieAllows x.part (s.launchMask x.part (s.launchOfUnit u)) c = true →
      s.weaveAllows u c = true → s.replyOut u = false →
      let free := s.gangFits x.shape c slots x.creelOff = true ∧ s.served x.part x.queue c = true
      (¬ free → s.resvFits u c slots = false → exec (.restore u c slots) s = .next s)
      ∧ (free ∨ s.resvFits u c slots = true → Mem.wf x.imageCreel = true → x.replies = [] → x.stepping = none →
        x.image.length = slots.length → ∃ t, exec (.restore u c slots) s = .next t ∧ (t.unit u).life = .resident ∧ (t.unit u).cluster = c
        ∧ (t.unit u).slots = slots.map (fun i => 32 * c + i) ∧ (t.unit u).preReq = false
        ∧ (¬ free → (t.unit u).reserved = true) ∧ ((t.part x.part).queue x.queue).age = 0
        ∧ (∀ i, i < slots.length → let w := x.image.getD i Wave.idle
          wave t (32 * c + slots.getD i 0) = { w with acc := { w.acc with yielded := false, stopped := false },
                                                      cmp := { w.cmp with yielded := false, stopped := false } })
        ∧ (∀ j, j < x.creelBytes → t.byteNow (locOfCreel c (x.creelOff + j)) = Mem.read x.imageCreel j)
        ∧ ∀ q, x.imageSeq = some q → (t.cluster c).seq
          = { q.moved x.slots slots with strand := { q.strand with yielded := false, stopped := false }, stoppedOn := false })

/-- R375 to R377: the debugger. Each command gives 1 for a unit that is not there; stop makes the unit's strands stand, and once none of its
accesses is in flight saves it and maps its image; resume, step and release give 2 for a unit that is not stopped, and otherwise let it
be restored with what the debugger has written in its image, with one strand of it to issue once, or unmap the image; step gives 3 for a strand that is none. A command that stands in the partition's block acts on the unit and the
strand that the block names. (That it is the event's argument otherwise is log entry 27's reading.) R184: migration. A page of
one backing, of no tree, for which the counts of a home slice ask moves to a frame of the pool on the other die, its old frame joining the pool, as a translation
change; the counts are halved every 1,048,576 cycles. The numbers that name a strand for step are log entry 28's reading, and
the counts of one slice, the pages of no tree and the old frame's return to the pool are log entry 44's. -/
def Obligations.DebuggerAndMigration : Prop :=
  (∀ (s : State) (part launch pos strand : Nat),
    let d := s.dbg part
    (d.cmd = 1 → exec (.stop part launch pos) s = exec (.stop part d.launch d.pos) s)
    ∧ (d.cmd = 2 → exec (.resume part launch pos) s = exec (.resume part d.launch d.pos) s)
    ∧ (d.cmd = 3 → exec (.step part launch pos strand) s = exec (.step part d.launch d.pos d.strand) s)
    ∧ (d.cmd = 4 → exec (.release part launch pos) s = exec (.release part d.launch d.pos) s))
  ∧ (∀ (s : State) (part launch pos strand : Nat),
    (1 ≤ (s.dbg part).cmd → (s.dbg part).cmd ≤ 4 → (s.dbg part).launch = launch ∧ (s.dbg part).pos = pos) →
    ((s.dbg part).cmd = 3 → (s.dbg part).strand = strand) →
    let report := fun (i : Instr) (st : Nat) => ∃ t, exec i s = .next t ∧ t = { s with debug := t.debug } ∧ (t.dbg part).cmd = 0
      ∧ (t.dbg part).launch = launch ∧ (t.dbg part).pos = pos ∧ (t.dbg part).status = st
    let good := strand < 64 ∧ strand.testBit 3 = false
    (¬ good → report (.step part launch pos strand) 3)
    ∧ (s.debugUnit part launch pos = none → report (.stop part launch pos) 1 ∧ report (.resume part launch pos) 1
      ∧ report (.release part launch pos) 1 ∧ (good → report (.step part launch pos strand) 1))
    ∧ ∀ u, s.debugUnit part launch pos = some u →
      let x := s.unit u
      (x.life ≠ .stopped → report (.resume part launch pos) 2 ∧ report (.release part launch pos) 2
        ∧ (good → report (.step part launch pos strand) 2))
      ∧ (x.life = .stopped → (∃ t, exec (.resume part launch pos) s = .next t ∧ (t.unit u).life = .saved ∧ (t.unit u).stepping = none
          ∧ (t.dbg part).mapped = false ∧ (t.dbg part).status = 0 ∧ (t.dbg part).cmd = 0)
        ∧ (∀ t i r v, exec (.resume part launch pos) s = .next t → i < x.image.length → i < x.groupWaves → 1 ≤ r → r < 64 →
          (∀ j, j < 8 → SMap.find x.edits (0x800 + i * waveRecordBytes + 0x200 + 8 * r + j) = some ((leBytes 8 v).getD j 0#8)) →
          ((t.unit u).image.getD i Wave.idle).acc.sreg r = BitVec.ofNat 64 v)
        ∧ (x.edits = [] → ∀ t, exec (.resume part launch pos) s = .next t → (t.unit u).image = x.image ∧ (t.unit u).imageSeq = x.imageSeq)
        ∧ (∃ t, exec (.release part launch pos) s = .next t ∧ t = { s with debug := t.debug, units := t.units }
          ∧ t.unit u = { x with mappedAt := none } ∧ (∀ k, k ≠ u → t.unit k = s.unit k) ∧ (t.dbg part).mapped = false
          ∧ (t.dbg part).cmd = 0 ∧ (t.dbg part).launch = launch ∧ (t.dbg part).pos = pos ∧ (t.dbg part).status = 0)
        ∧ (good → ∃ t, exec (.step part launch pos strand) s = .next t ∧ (t.unit u).life = .saved
          ∧ (t.unit u).stepping = some (if strand.testBit 5 then 64 else strand % 8 + if strand.testBit 4 then 32 else 0) ∧ (t.dbg part).mapped = false ∧ (t.dbg part).status = 0)
        ∧ ∃ t, exec (.stop part launch pos) s = .next t ∧ (t.dbg part).mapped = true ∧ (t.dbg part).status = 0
          ∧ (t.unit u).mappedAt = some (t.dbg part).image)
      ∧ (x.life = .resident ∨ x.life = .saved → (∃ e, e ∈ s.flight ∧ e.2.unit = u) → ∃ t, exec (.stop part launch pos) s = .next t
        ∧ (t.dbg part).cmd = 1 ∧ (x.life = .resident → t.unitAtRest u = true))
      ∧ (x.life = .resident ∨ x.life = .saved → (∀ e, e ∈ s.flight → e.2.unit ≠ u) → ∃ t, exec (.stop part launch pos) s = .next t
        ∧ (t.unit u).life = .stopped ∧ (t.dbg part).mapped = true ∧ (t.dbg part).cmd = 0 ∧ (t.dbg part).status = 0))
  ∧ (∀ (s : State) (space va frame : Nat) (l : Leaf) (d e : Nat),
    let part := (s.space space).part
    s.walk part space va = .ok l → paKind l.frame = .hbm d → paKind (65536 * frame) = .hbm e →
    let moves := l.big = false ∧ l.backings = 1 ∧ l.nomig = false ∧ d ≠ e ∧ frame ∈ (s.part part).migPool
      ∧ (∃ k, k < 32 ∧ 192 ≤ (s.atomicCounts l.frame d k).2 ∧ 4 * (s.atomicCounts l.frame d k).1 ≤ (s.atomicCounts l.frame d k).2)
      ∧ (s.part part).inKv space va = false ∧ s.genBusy space = false ∧ s.offline d = false ∧ s.offline e = false ∧ s.links.training = false
    (¬ moves → exec (.migration space va frame) s = .next s)
    ∧ (moves → ∃ t, exec (.migration space va frame) s = .next t ∧ (t.space space).gen = (s.space space).gen + 1#16
      ∧ (t.part part).migPool = (s.part part).migPool.filter (fun f => f != frame) ++ [l.frame / 65536]
      ∧ (∀ k, k < 32 → t.atomicCounts l.frame d k = (0, 0))
      ∧ (∀ j, j < 65536 → 65536 * frame + j < l.entry ∨ l.entry + 8 ≤ 65536 * frame + j →
        t.byteNow (65536 * frame + j) = s.byteNow (l.frame + j))
      ∧ ((∀ i, i < 8 → isPeer (l.entry + i) = false) → t.word l.entry 8 = Leaf.word { l with frame := 65536 * frame })))
  ∧ ∀ (s : State) (key : Nat), (s.cycle < s.halvedAt + 1048576 → exec .counterHalving s = .next s)
    ∧ (s.halvedAt + 1048576 ≤ s.cycle → ∃ t, exec .counterHalving s = .next t ∧ t.halvedAt = s.halvedAt + 1048576
      ∧ SMap.get (0, 0) t.atomCounts key = ((SMap.get (0, 0) s.atomCounts key).1 / 2, (SMap.get (0, 0) s.atomCounts key).2 / 2))

/-! ## Errors, links, fatal errors, warm reset and power (R363, R378 to R384, R389) -/

/-- R363, R378: soft errors and links. An uncorrectable error marks what it hits: a scalar register or predicate that has storage, a
lane of a vector or address register, a lane of a queue entry, a command word, a mailbox word, a control register or the mode word, a
creel word, an accumulator entry or a granule, for which the log of the partition that owns it gets an entry of kind 3 where there is room
(R359, R360) and its error interrupt rises; of a translation entry it does nothing. A corrected error is counted. A
flit is retried, after 16 consecutive failed retries the link retrains, a retraining ends it, and a third failed one is fatal; FEC retries are counted and a fibre that fails leaves its partition's set. -/
def Obligations.ErrorsAndLinks : Prop :=
  ∀ (s : State) (w r l : Nat),
    let hit := fun (loc : ErrLoc) (P : State → Prop) => ∃ t, exec (.uncorrectableError loc) s = .next t ∧ P t
    let marked := fun (m : SMap W64) (k : Nat) => SMap.get 0#64 m k ||| BitVec.twoPow 64 (l % 64)
    (r = 0 ∨ 63 < r → ∀ st, exec (.uncorrectableError (.scalar w st r)) s = .next s)
    ∧ (r = 0 ∨ 15 < r → ∀ st, exec (.uncorrectableError (.pred w st r)) s = .next s)
    ∧ (s.slotBy w ≠ none →
      (1 ≤ r → r ≤ 63 → (hit (.scalar w 0 r) fun t => (t.waveBy w).acc.sPoison = (s.waveBy w).acc.sPoison ||| BitVec.twoPow 64 r)
        ∧ hit (.scalar w 1 r) fun t => (t.waveBy w).cmp.sPoison = (s.waveBy w).cmp.sPoison ||| BitVec.twoPow 64 r)
      ∧ (1 ≤ r → r ≤ 15 → (hit (.pred w 0 r) fun t => (t.waveBy w).acc.pPoison = (s.waveBy w).acc.pPoison ||| BitVec.twoPow 64 r)
        ∧ hit (.pred w 1 r) fun t => (t.waveBy w).cmp.pPoison = (s.waveBy w).cmp.pPoison ||| BitVec.twoPow 64 r)
      ∧ (r < 256 → hit (.vector w r l) fun t => SMap.get 0#64 (t.waveBy w).vPoison r = marked (s.waveBy w).vPoison r)
      ∧ (r < 32 → hit (.address w r l) fun t => SMap.get 0#64 (t.waveBy w).xPoison r = marked (s.waveBy w).xPoison r)
      ∧ (∀ i e, r < 8 → (SMap.get [] (s.waveBy w).lq r)[i]? = some e → hit (.queue w r i l) fun t =>
        (SMap.get [] (t.waveBy w).lq r)[i]? = some { e with parityBad := e.parityBad ||| BitVec.twoPow 64 (l % 64) })
      ∧ (∀ n, (hit (.ctl w 0 n) fun t => n ∈ (t.waveBy w).acc.ctlBad) ∧ hit (.ctl w 1 n) fun t => n ∈ (t.waveBy w).cmp.ctlBad)
      ∧ (∀ i e, (SMap.get [] (s.waveBy w).eqCmd r)[i]? = some e → hit (.queue w (32 + r) i l) fun t =>
        (SMap.get [] (t.waveBy w).eqCmd r)[i]? = some { e with parityBad := true }))
    ∧ (∀ n, hit (.ctl w 2 n) fun t => n ∈ (t.cluster w).seq.strand.ctlBad)
    ∧ (∀ i e, (SMap.get [] (s.cluster w).seq.cmdQ r)[i]? = some e → hit (.mailbox w r i false) fun t =>
      (SMap.get [] (t.cluster w).seq.cmdQ r)[i]? = some { e with parityBad := true })
    ∧ (∀ i e, (SMap.get [] (s.cluster w).seq.doneQ r)[i]? = some e → hit (.mailbox w r i true) fun t =>
      (SMap.get [] (t.cluster w).seq.doneQ r)[i]? = some { e with parityBad := true })
    ∧ (hit (.scalar w 2 r) fun t => 1 ≤ r → r ≤ 63 →
      (t.cluster w).seq.strand.sPoison = (s.cluster w).seq.strand.sPoison ||| BitVec.twoPow 64 r)
    ∧ (w < Config.clusters → r < 1048576 → hit (.creel w r) fun t => SMap.get false t.creelPoison (1048576 * w + r) = true)
    ∧ (hit (.acc w r) fun t => SMap.get false (t.cluster w).seq.accPoison r = true)
    ∧ (∀ d, homeDie w = some d → hit (.granule w) fun t =>
      let g := 32 * (w / 32)
      (s.frameOwner g = none → SMap.get false t.gPoison (w / 32) = true)
      ∧ ∀ p, s.frameOwner g = some p →
        let x := s.part p
        (t.part p).errorIrq = x.errorIrq + 1
        ∧ (x.asn.logRing = none → SMap.get false t.gPoison (w / 32) = true)
        ∧ ∀ ring n, x.asn.logRing = some (ring, n) →
          let slot := ring + 128 + 64 * (x.logTail % n)
          ((∀ i, i < 64 → (slot + i) / 32 ≠ w / 32) → SMap.get false t.gPoison (w / 32) = true)
          ∧ (s.logWritable x ring n = true → x.logLost = 0 → x.logTail - s.word ring 8 < n → (∀ i, i < 64 → isPeer (slot + i) = false) →
            (∀ i, i < 8 → isPeer (ring + 0x40 + i) = false) →
            t.word slot 1 = 3 ∧ t.word (slot + 7) 1 = d % 256 ∧ t.word (slot + 0x18) 8 = g % 2 ^ 64
              ∧ t.word (ring + 0x40) 8 = (x.logTail + 1) % 2 ^ 64 ∧ (t.part p).logTail = x.logTail + 1))
    ∧ exec (.uncorrectableError (.translation w)) s = .next s
    ∧ (∀ loc, ∃ t, exec (.correctedError loc) s = .next t ∧ t.corrected = s.corrected + 1 ∧ ∀ x, t.byteNow x = s.byteNow x)
    ∧ (let k := s.links
      let links := fun (i : Instr) (m : Links) => exec i s = .next { s with links := m }
      links .flitRetry (if k.training = true ∨ 16 ≤ k.retries then k
        else { k with retries := if s.flitArrives then 0 else k.retries + 1 })
      ∧ links .retrain (if k.training = true ∨ k.retries < 16 then k else { k with training := true })
      ∧ (k.training = false → ∀ ok, links (.linkRetrained ok) k)
      ∧ (k.training = true → links (.linkRetrained true) { k with training := false, retries := 0, failedTrainings := 0 }
        ∧ (k.failedTrainings < 2 → links (.linkRetrained false) { k with failedTrainings := k.failedTrainings + 1 })
        ∧ (2 ≤ k.failedTrainings → s.mgmt.monitorDie ≤ 1 → (s.die (otherDie s.mgmt.monitorDie)).state ∈ [.live, .reset] →
          ∃ t, exec (.linkRetrained false) s = .next t ∧ (t.die (otherDie s.mgmt.monitorDie)).state = .fatal ∧ t.links.training = false)))
    ∧ (let mine := ∃ f, f ∈ (s.part w).asn.fibres ∧ f.1 = r
      (¬ mine → exec (.fecRetry w r) s = .next s ∧ exec (.fibreRemoval w r) s = .next s)
      ∧ (mine → (∃ t, exec (.fecRetry w r) s = .next t ∧ SMap.get 0 t.links.fecRetries r = SMap.get 0 s.links.fecRetries r + 1)
        ∧ ∃ t, exec (.fibreRemoval w r) s = .next t ∧ r ∈ (t.part w).fibresOut))

/-- R379 to R384, R389: a die in operation or in reset that suffers a fatal error, or passes its thermal trip, is fatal, places nothing and has
its cores halted, and one that is off or fatal already cannot be (which dies can suffer one is log entry 43's choice); the monitor goes on from the other die with its standby copy, and where it cannot, the device stops; accesses in flight to it fail, its timelines break, and of the units that are still resident a tlwait that blocks on such a timeline is
released with the timeline's value and status.brk, and a tokrdy wait on one of the die's cores as broken. A
warm reset goes through its steps in order, each once what it waits for has happened: the die stops placing and its units are asked to
leave; its cores are halted; it goes on once nothing is in flight to it, its memory unchanged where no fatal error began the reset; its monitors wake; its creels and sequencers are cleared; and
it runs again. Power caps delay issue only. -/
def Obligations.FatalAndReset : Prop :=
  ∀ (s : State) (d : Nat),
    let x := s.die d
    let o := s.die (otherDie d)
    let gets := fun (i : Instr) (y : Die) => ∃ t, exec i s = .next t ∧ t.die d = y
    (∀ i ∈ ([.fatalError d, .thermalTrip d, .uncorrectableError (.logic d)] : List Instr),
      (1 < d ∨ x.state = .off ∨ x.state = .fatal → exec i s = .next s)
      ∧ (d ≤ 1 → x.state ∈ [.live, .reset] → s.mgmt.monitorDie = d → s.offline (otherDie d) = true → exec i s = .fault .deviceStopped)
      ∧ (d ≤ 1 → x.state ∈ [.live, .reset] → s.mgmt.monitorDie ≠ d ∨ s.offline (otherDie d) = false → ∃ t, exec i s = .next t
        ∧ t.die d = { x with state := .fatal, step := 3, fatalStart := true, placing := false, coresHalted := true }
        ∧ t.mgmt.monitorDie = (if s.mgmt.monitorDie = d then otherDie d else s.mgmt.monitorDie)
        ∧ (s.mgmt.monitorDie = d → t.mgmt.callsCut = true ∧ t.mgmt.records = s.mgmt.standby.records ∧ t.mgmt.bootImage = s.mgmt.standby.image)
        ∧ (∀ u v g, SMap.find s.units u = some v → v.life = .resident → dieOfCluster v.cluster = d →
          SMap.find (t.part v.part).graphs (s.graphOfUnit u) = some g → g.cancelled = true ∨ g.done = true)
        ∧ (∀ p P n l, SMap.find s.parts p = some P → SMap.find P.timelines n = some l → d ∈ l.dies →
          ((t.part p).timeline n).broken = true)
        ∧ (∀ k w, SMap.find s.waves k = some w → (t.unit w.unit).life = .resident →
          (∀ b g, w.acc.wait = .tokrdy b g d false → (t.wave k).acc.wait = .tokrdy b g d true)
          ∧ ∀ P n l v, SMap.find s.parts (s.unit w.unit).part = some P → SMap.find P.timelines n = some l → d ∈ l.dies →
            l.broken = false → w.acc.wait = .timeline n v → (t.wave k).acc.wait = .released l.value true [] ∧ (t.wave k).acc.blocked = false)
        ∧ ∀ n a, SMap.find t.flight n = some a → a.creel = false → (∃ l, l ∈ a.lanes ∧ homeDie l.loc = some d) → a.errored = true))
    ∧ (let may := d < 2 ∧ x.state = .live ∧ x.step = 0 ∧ o.state = .live ∧ o.step = 0
      (x.step = 0 → (¬ may → exec (.warmReset d) s = .next s) ∧ (may → ∃ t, exec (.warmReset d) s = .next t
        ∧ t.die d = { x with step := 1, placing := false } ∧ ∀ u, u ∈ s.unitsOn d → (t.unit u).preReq = true ∧ (t.unit u).why = 3))
      ∧ (x.step = 1 → (s.unitsOn d ≠ [] → exec (.warmReset d) s = .next s)
        ∧ (s.unitsOn d = [] → gets (.warmReset d) { x with step := 2, coresHalted := true }))
      ∧ (x.step = 2 → gets (.warmReset d) { x with step := 3 })
      ∧ (x.step = 3 → (s.flightTo d = true → exec (.warmReset d) s = .next s)
        ∧ (s.flightTo d = false → ∃ t, exec (.warmReset d) s = .next t ∧ t.die d = { x with step := 4 }
          ∧ (x.fatalStart = false → ∀ l, t.byteNow l = s.byteNow l)))
      ∧ (x.step = 4 → ∃ t, exec (.warmReset d) s = .next t ∧ t.die d = { x with step := 5 }
        ∧ ∀ k w m, SMap.find s.waves k = some w → w.acc.monitor = some m → homeDie (128 * m.line) = some d →
          (t.wave k).acc.monitor = some { m with wake := 1 })
      ∧ (x.step = 5 → ∃ t, exec (.warmReset d) s = .next t ∧ t.die d = { x with step := 6, state := .reset }
        ∧ ∀ c j, dieOfCluster c = d → j < Config.creelBytes → t.byteNow (locOfCreel c j) = 0#8 ∧ (t.cluster c).seq = Seq.idle)
      ∧ (x.step = 6 → gets (.warmReset d) { x with step := 7 })
      ∧ (x.step = 7 → (x.state ≠ .reset → exec (.warmReset d) s = .next s) ∧ (x.state = .reset → gets (.warmReset d) Die.running)))
    ∧ (x.state = .live → exec (.powerCap d) s = .next (s.setDie d { x with capped := true })
      ∧ exec (.powerBelowCap d) s = .next (s.setDie d { x with capped := false }))
    ∧ (x.state ≠ .live → exec (.powerCap d) s = .next s ∧ exec (.powerBelowCap d) s = .next s)

/-! ## Boot, partitions, monitor calls, management and event counters (R333 to R348, R389 to R392) -/

/-- R334, R335, R345 to R347: boot and partitions. The ROM boots image A, or image B where A is not accepted, and lets the dies that are held in reset run, or
fails for good; the image's digest is kept. A partition that is not running starts from an image that one of its record's owners has
signed, with its record's clusters and spaces and every timeline 0, where its record can be carried out (State.recordFree: nothing that only it may
hold is another's); another image is refused. That an image's first 64 bytes are read from memory at its address, that test of a
start, and that a teardown with a frame on an off-line die is not done are the model's (log entry 42). Torn down, with nothing of it in flight and its dies on line, the frames that it held last and its creels are 0, its clusters
belong to no partition, and nothing of it is left. -/
def Obligations.BootAndPartitions : Prop :=
  (∀ (s : State),
    let d := s.phys flashBase 0x28
    let ok := fieldOf d 0 4 = 0x31444248 ∧ 1 ≤ fieldOf d 4 4 ∧ fieldOf d 4 4 ≤ 4
    let a := ok ∧ s.bootImageOk (fieldOf d 8 8) (fieldOf d 0x10 8) = true
    let b := ok ∧ fieldOf d 0x18 8 ≠ 0 ∧ s.bootImageOk (fieldOf d 0x18 8) (fieldOf d 0x20 8) = true
    let file := fun (off size : Nat) => s.phys (flashBase + off) size
    let boots := fun (n : Nat) (f : List Byte) => ∃ t, exec .boot s = .next t ∧ t.mgmt.booted = true ∧ t.mgmt.bootImage = n
      ∧ t.mgmt.bootDigest = imageDigest f ∧ t.mgmt.standby.image = n
      ∧ (∀ e, e < 2 → t.die e = if (s.die e).state = .reset then Die.running else s.die e) ∧ t.parts = s.parts
    (s.mgmt.booted = true ∨ s.mgmt.bootFailed = true → exec .boot s = .next s)
    ∧ (s.mgmt.booted = false → s.mgmt.bootFailed = false → (a → boots 1 (file (fieldOf d 8 8) (fieldOf d 0x10 8)))
      ∧ (¬ a → b → boots 2 (file (fieldOf d 0x18 8) (fieldOf d 0x20 8)))
      ∧ (¬ a → ¬ b → exec .boot s = .next { s with mgmt := { s.mgmt with bootFailed := true } })))
  ∧ ∀ (s : State) (part image : Nat),
    let r := SMap.get Record.empty s.mgmt.records part
    let f := s.phys image (fieldOf (s.phys image 64) 0x30 8)
    let may := s.mgmt.booted = true ∧ part ≤ 31 ∧ (s.part part).started = false ∧ SMap.has s.mgmt.records part = true
      ∧ s.recordFree part r = true
    let p := s.part part
    (¬ may → exec (.partitionStart part image) s = .next s)
    ∧ (may → signedBy r.owners f = false → exec (.partitionStart part image) s
      = .next { s with mgmt := { s.mgmt with refusedImages := s.mgmt.refusedImages + 1 } })
    ∧ (may → signedBy r.owners f = true → ∃ t, exec (.partitionStart part image) s = .next t ∧ (t.part part).started = true
      ∧ (t.part part).asn = r ∧ (t.part part).digest = imageDigest f ∧ part ∈ t.mgmt.standby.started ∧ (t.part part).startCycle = s.cycle ∧ (∀ n, ((t.part part).timeline n).value = 0#64)
      ∧ (∀ c, ((t.part part).counter c).value = 0#64) ∧ (∀ c, c ∈ r.clusters → (t.cluster c.1).part = part)
      ∧ ∀ a, a ∈ r.spaces → (t.space a.1).part = part)
    ∧ (p.started = false → exec (.partitionTeardown part) s = .next s)
    ∧ (let idle := (∀ e, e ∈ s.flight → e.2.part ≠ part) ∧ ∀ e, e ∈ s.triggers → e.2.part = part → e.2.fired = false
      (p.started = true → ¬ idle ∨ s.scrubFails part ≠ none → ∃ t, exec (.partitionTeardown part) s = .next t ∧ (t.part part).started = true)
      ∧ (p.started = true → idle → s.scrubFails part = none → ∃ t, exec (.partitionTeardown part) s = .next t
      ∧ (t.part part).started = false ∧ (t.part part).trees = [] ∧ (t.part part).queues = []
      ∧ (∀ f j d, f ∈ s.lastHeld part → j < 2097152 → paKind (2097152 * f + j) = .hbm d → t.byteNow (2097152 * f + j) = 0#8)
      ∧ (∀ c j, c ∈ p.asn.clusters → j < Config.creelBytes → t.byteNow (locOfCreel c.1 j) = 0#8 ∧ t.cluster c.1 = Cluster.idle)
      ∧ ∀ a, a ∈ p.asn.spaces → (t.space a.1).part ≠ part ∨ part = 32))

/-- R296, R341, R343, R344, R348, R382: monitor calls of a running partition; for another each returns 1 and does nothing, and one that a fatal error
of the monitor's die has cut short returns 3 and does nothing (which these are is free, log entry 43). That the addresses of a queue's
descriptor, a nonce and a report are physical and must lie in the partition's grant is log entry 39. A commit of
entries raises the space's generation and returns it, or 1, 2 or 3 for a space of another's, a bad range or a change that must wait; a queue
is loaded from its descriptor and runs, where its descriptor, space and core are the partition's and well formed, or is stopped; a timeline is set, to any value, and whole again; a device is live again in a
group; a report for a nonce is written. -/
def Obligations.MonitorCalls : Prop :=
  ∀ (s : State) (part a b c : Nat) (x : W64),
    let p := s.part part
    let on := s.mgmt.booted = true ∧ p.started = true
    let fails := fun (i : Instr) (st : Nat) => exec i s = .next { s with mgmt := { s.mgmt with callError := st, callValue := 0#64 } }
    let works := fun (i : Instr) (v : W64) (P : State → Prop) => ∃ t, exec i s = .next t ∧ t.mgmt.callError = 0 ∧ t.mgmt.callValue = v ∧ P t
    let cut := s.mgmt.callsCut = true ∧ Config.pick s.fresh 3100000 % 2 = 1
    (¬ on ∨ cut → ∀ i ∈ ([.spaceCommit part a b c, .queueSet part a b, .queueStop part a, .timelineSet part a x, .arbReadmit part a b,
      .attest part a b] : List Instr), fails i (if on then 3 else 1))
    ∧ (on → ¬ cut →
      (let y := s.space a
       let range := b % 65536 = 0 ∧ c ≠ 0 ∧ c ≤ 2 ^ 24 ∧ b + 65536 * c ≤ 2 ^ 56
       let busy := s.genBusy a = true ∨ s.commitWaits part a b c = true
       (y.part ≠ part → fails (.spaceCommit part a b c) 1)
       ∧ (y.part = part → ¬ range → fails (.spaceCommit part a b c) 2)
       ∧ (y.part = part → range → busy → fails (.spaceCommit part a b c) 3)
       ∧ (y.part = part → range → ¬ busy → works (.spaceCommit part a b c) ((y.gen + 1#16).setWidth 64) fun t =>
         (t.space a).gen = y.gen + 1#16
         ∧ ∀ i, i < c → SMap.get (0, 0) (t.space a).changed (b / 65536 + i) = ((y.gen + 1#16).toNat, s.now)))
      ∧ (let d := s.phys b 64
         let aff := fieldOf d 0xD 1
         let there := a ≤ 255 ∧ b % 64 = 0 ∧ p.asn.grants b 64 = true
         let held := (s.space (fieldOf d 0xE 2)).part = part ∧ queueCoreOk p.asn d = true
         (255 < a → fails (.queueSet part a b) 1)
         ∧ (a ≤ 255 → b % 64 ≠ 0 → fails (.queueSet part a b) 2)
         ∧ (a ≤ 255 → b % 64 = 0 → p.asn.grants b 64 = false → fails (.queueSet part a b) 1)
         ∧ (there → queueDescOk d = false → fails (.queueSet part a b) 2)
         ∧ (there → queueDescOk d = true → ¬ held → fails (.queueSet part a b) 1)
         ∧ (there → queueDescOk d = true → held → works (.queueSet part a b) 0#64 fun t =>
           let q := (t.part part).queue a
           q.set = true ∧ q.desc = b ∧ q.space = fieldOf d 0xE 2 ∧ q.ring = fieldOf d 0 8 ∧ q.entries = fieldOf d 8 4
             ∧ q.base = fieldOf d 0xC 1 ∧ q.affinity = aff ∧ q.head = fieldOf d 0x10 8 ∧ q.age = 0
             ∧ ((∃ n, n < 2 ∧ aff.testBit n = true ∧ n ∈ p.asn.dies ∧ (s.die n).state = .live ∧ (s.die n).placing = true) → q.status = 0)
             ∧ ((∀ n, n < 2 → aff.testBit n = true → n ∈ p.asn.dies → (s.die n).state ≠ .live) → q.status = 2)))
      ∧ ((p.queue a).set = false → fails (.queueStop part a) 1)
      ∧ ((p.queue a).set = true → works (.queueStop part a) 0#64 fun t => ((t.part part).queue a).status = 3)
      ∧ (511 < a → fails (.timelineSet part a x) 2)
      ∧ (a ≤ 511 → works (.timelineSet part a x) (p.timeline a).value fun t =>
        ((t.part part).timeline a).value = x ∧ ((t.part part).timeline a).broken = false)
      ∧ (let g := p.group a
         (SMap.has p.groups a = false → fails (.arbReadmit part a b) 1)
         ∧ (SMap.has p.groups a = true → b ∉ g.members → fails (.arbReadmit part a b) 2)
         ∧ (SMap.has p.groups a = true → b ∈ g.members → g.live.length = g.members.length → works (.arbReadmit part a b) 0#64 fun t =>
           ((t.part part).group a).live.getD (g.members.idxOf b) false = true))
      ∧ (let up := (s.die 0).state = .live ∧ s.offline 0 = false
         let granted := p.asn.grants a 64 = true ∧ p.asn.grants b 4915 = true
         (¬ up → fails (.attest part a b) 3) ∧ (up → ¬ granted → fails (.attest part a b) 1)
         ∧ (up → granted → (∀ i, i < 4915 → isPeer (b + i) = false) → works (.attest part a b) 4915#64 fun t =>
           t.word b 4 = 1 ∧ t.word (b + 4) 4 = part % 2 ^ 32 ∧ ∀ i, i < 64 → t.byteNow (b + 8 + i) = s.byteNow (a + i)
             ∧ t.byteNow (b + 72 + i) = s.mgmt.bootDigest.getD i 0#8 ∧ t.byteNow (b + 136 + i) = p.digest.getD i 0#8)))

/-- R380, R383, R389 to R392: the management mailbox and the event counters. A command is written, with its argument, where none is in
progress, is carried out where it is the one in progress, which clears the command word, and is discarded where another is, whose
argument is the new one from then on: setcap's and dieoff's turn is that of the number which the argument word holds then, diereset's that
of its bits 0 and 8, and bootstat and telemetry go by no argument. That a command takes these two turns, on the argument as it stands, and that dieoff of the monitor's die stops the device where
the other is off line, are log entry 40; that the words of a frozen page are written as those of another is log entry 41. setcap
takes 600 to 2,400 watts; diereset begins the reset of a die that may be reset, or says how the die stands; dieoff turns off a die that
holds nothing, whose memory is lost, unless the device stops with it; bootstat names the image; telemetry is renewed every 1,100,000
cycles. A write of a select word sets it, but for its reserved bits, and its counter to 0; a value word is set, and of a freeze word
bit 0. -/
def Obligations.ManagementAndCounters : Prop :=
  ∀ (s : State) (part d i watts : Nat) (x : W64),
    let m := s.mgmt
    let e := d % 2
    let k := d % 2 ^ 64
    let held := s.dieHeld k = true ∨ 1 < k
    let last := m.monitorDie = k ∧ s.offline (otherDie k) = true
    let cap := watts % 2 ^ 64
    let way := match (s.die e).state with
      | .live => if (s.die e).step = 0 then 0#64 else 1#64
      | .reset => 1#64
      | _ => 2#64
    let page := fun (t : State) => SMap.find (t.part part).counterPages d
    let answer := fun (c : Instr) (r : W64) => exec c s = .next { s with mgmt := { m with result := r, command := 0#64 } }
    let turns := fun (c : Instr) (n arg : W64) (form acts : Prop) =>
      (m.command = 0#64 → exec c s = .next { s with mgmt := { m with argument := arg, command := n } })
      ∧ (m.command ≠ 0#64 → m.command ≠ n ∨ ¬ form → exec c s = .next { s with mgmt := { m with argument := arg } })
      ∧ (m.command = n → form → acts)
    let asks := fun (b : Bool) => m.argument.getLsbD 0 = decide (e = 1) ∧ m.argument.getLsbD 8 = b
    turns (.setcap watts) 2#64 (BitVec.ofNat 64 watts) (m.argument = BitVec.ofNat 64 watts)
      ((600 ≤ cap → cap ≤ 2400 →
          exec (.setcap watts) s = .next { s with mgmt := { m with cap := cap, result := 0#64, command := 0#64 } })
        ∧ (cap < 600 ∨ 2400 < cap → answer (.setcap watts) 1#64))
    ∧ turns .bootstat 5#64 0#64 True (answer .bootstat (BitVec.ofNat 64 m.bootImage))
    ∧ turns .telemetry 1#64 0#64 True ((m.telemetry ≠ [] → ∃ r, answer .telemetry r)
      ∧ (m.telemetry = [] → ∃ t, exec .telemetry s = .next t ∧ t.mgmt.command = 0#64 ∧ t.mgmt.telemetry.length = 256))
    ∧ turns (.dieresetQuery d) 3#64 (BitVec.ofNat 64 e) (asks false) ((s.die e).state ≠ .off → answer (.dieresetQuery d) way)
    ∧ turns (.dieresetBegin d) 3#64 (BitVec.ofNat 64 (e + 0x100)) (asks true)
      ((s.mayReset e = false → (s.die e).state ≠ .off → answer (.dieresetBegin d) way)
        ∧ (s.mayReset e = true → ∃ t, exec (.dieresetBegin d) s = .next t ∧ t.mgmt.result = 0#64 ∧ t.mgmt.command = 0#64
          ∧ t.die e = { s.die e with step := 1, placing := false }))
    ∧ turns (.dieoff d) 4#64 (BitVec.ofNat 64 d) (m.argument = BitVec.ofNat 64 d)
      ((held → answer (.dieoff d) 1#64)
        ∧ (¬ held → last → exec (.dieoff d) s = .fault .deviceStopped)
        ∧ (¬ held → ¬ last → ∃ t, exec (.dieoff d) s = .next t ∧ t.mgmt.result = 0#64 ∧ t.mgmt.command = 0#64
          ∧ (t.die k).state = .off ∧ ∀ l, paKind l = .hbm k → t.byteNow l = Mem.read [] l))
    ∧ (s.cycle < m.telemetryCycle + 1100000 → m.telemetry ≠ [] → exec .telemetryRefresh s = .next s)
    ∧ (m.telemetryCycle + 1100000 ≤ s.cycle → ∃ t, exec .telemetryRefresh s = .next t ∧ t.mgmt.telemetry.length = 256
      ∧ t.mgmt.telemetryCycle = s.cycle)
    ∧ (15 < i ∨ page s = none → exec (.select part d i x) s = .next s ∧ exec (.value part d i x) s = .next s)
    ∧ (page s = none → exec (.freeze part d x) s = .next s)
    ∧ ∀ c, page s = some c →
      (i ≤ 15 → (∃ t, exec (.select part d i x) s = .next t
          ∧ page t = some { c with sel := SMap.put i (x &&& 0x80000000000000FF#64) c.sel, val := SMap.put i 0#64 c.val })
        ∧ ∃ t, exec (.value part d i x) s = .next t ∧ page t = some { c with val := SMap.put i x c.val })
      ∧ ∃ t, exec (.freeze part d x) s = .next t ∧ page t = some { c with freeze := x &&& 1#64 }

/-! ## What events leave unchanged -/

/-- The registers of a wave: of each of its strands the pc, the scalar registers, the predicates and the mode word; and the vector and
address registers. -/
def registersOf (w : Wave) : List W64 × List (BitVec 16) × List (SMap W64) × SMap Vec × SMap XVec :=
  ([w.acc.pc, w.cmp.pc], [w.acc.mode, w.cmp.mode], [w.acc.s, w.cmp.s, w.acc.p, w.cmp.p], w.v, w.x)

/-- What events leave unchanged. A wave that stands in a slot after an event that brings no wave a value or a place (an access's value or
error, a full/empty instruction, a departure from a barrier, a placement, a restore and an uncorrectable error are those that do) stood
there before with the same registers, and events that are no stores to memory, no log entries and no writes of a descriptor, a calendar
or a record leave every byte of memory and of the creels as it is. That the start of a partition is one of these is the model's: R347 does
not say who places an image's sections (log entry 42). -/
def Obligations.EventFrames : Prop :=
  ∀ (s t : State) (a b c d e : Nat) (x : W64) (ok : Bool) (bs : List Byte) (post : ExPost) (loc : ErrLoc),
    let quiet : List Instr := [.completion a b c, .stat a, .tol a, .eq2Word a, .eq5Word a, .monitorWake a, .mwaitTimeout a, .courierToken a,
      .counterHalving, .replay a, .squash a, .ageInterval a b, .retirement a, .launchCompletion a b, .timelineRelease a, .tokrdyRelease a,
      .preemptionRequest a, .preemptionWithdraw a, .deadline a, .save a, .hostRead a b c, .chunkArrival a b c d e bs, .chunkRetry a b,
      .post a b c post, .postTimeout a b, .heartbeat a b, .go a b c, .arbiterSilence a b, .correctedError loc, .flitRetry, .retrain,
      .fecRetry a b, .fibreRemoval a b, .powerCap a, .powerBelowCap a, .spaceCommit a b c d, .timelineSet a b x, .arbReadmit a b c,
      .telemetry, .telemetryRefresh, .setcap a, .dieresetQuery a, .bootstat, .stop a b c, .resume a b c, .step a b c d, .release a b c,
      .select a b c x, .value a b c x, .freeze a b x, .partitionStart a b]
    let writing : List Instr := [.copy a, .gather a, .mask a, .collectiveCompletion a b, .exchangeCompletion a b c, .migration a b c,
      .toleranceCompare a b, .commit a, .graphPacket a b, .timelineWaitPacket a b, .timelineSignalPacket a b, .phaseEndPacket a b,
      .nodeCompletion a b c, .graphCompletion a b, .hostPostedWrite a b bs, .triggerFire a, .receiveCounterArrival a b c bs, .grant a b,
      .quantumArrival a b c bs, .ringHeadAdvance a b, .spill a b, .pageFetch a b c, .fatalError a, .warmReset a, .thermalTrip a, .boot,
      .queueSet a b c, .queueStop a b, .attest a b c, .dieresetBegin a, .dieoff a, .tileStep a b, .linkRetrained ok, .partitionTeardown a]
    (∀ i, i ∈ quiet ++ writing → exec i s = .next t → ∀ n w, (n, w) ∈ t.waves →
      registersOf w = registersOf Wave.idle ∨ ∃ v, (n, v) ∈ s.waves ∧ registersOf w = registersOf v)
    ∧ ∀ i, i ∈ quiet ++ [.gbarDeparture a] → exec i s = .next t → ∀ l, t.byteNow l = s.byteNow l
end

