-- ==== Sys2Proof/Laws/Store.lean ====
section
/-! SUPPORT. Laws of the sparse tables and of the canonical byte memories: a read after a write, and that every memory operation
keeps the canonical form. -/

namespace Sys2Proof.Machine

/-! ## Tables -/

theorem SMap.get_del {α : Type} (d : α) (m : SMap α) (k j : Nat) :
    SMap.get d (SMap.del m k) j = if j = k then d else SMap.get d m j := by
  induction m with
  | nil => simp [SMap.del, SMap.get]
  | cons e m ih =>
    obtain ⟨i, v⟩ := e
    by_cases hik : i = k
    · by_cases hjk : j = k
      · simp only [SMap.del, if_pos hik, ih, if_pos hjk]
      · simp only [SMap.del, if_pos hik, ih, SMap.get, if_neg (show ¬ i = j from fun h => hjk (h.symm.trans hik))]
    · by_cases hij : i = j
      · simp only [SMap.del, if_neg hik, SMap.get, if_pos hij, if_neg (show ¬ j = k from fun h => hik (hij.trans h))]
      · simp only [SMap.del, if_neg hik, SMap.get, if_neg hij, ih]

theorem SMap.get_insert {α : Type} (d : α) (m : SMap α) (k j : Nat) (v : α) (h : j ≠ k) :
    SMap.get d (SMap.insert k v m) j = SMap.get d m j := by
  induction m with
  | nil => simp [SMap.insert, SMap.get, Ne.symm h]
  | cons e m ih =>
    obtain ⟨i, w⟩ := e
    by_cases hki : k < i
    · simp only [SMap.insert, if_pos hki, SMap.get, if_neg (Ne.symm h)]
    · simp only [SMap.insert, if_neg hki, SMap.get, ih]

theorem SMap.get_insert_self {α : Type} (d : α) (m : SMap α) (k : Nat) (v : α) (h : SMap.has m k = false) :
    SMap.get d (SMap.insert k v m) k = v := by
  induction m with
  | nil => simp [SMap.insert, SMap.get]
  | cons e m ih =>
    obtain ⟨i, w⟩ := e
    by_cases hik : i = k
    · simp [SMap.has, hik] at h
    · have h' : SMap.has m k = false := by simpa [SMap.has, hik] using h
      by_cases hki : k < i <;> simp [SMap.insert, SMap.get, hki, hik, ih h']

theorem SMap.has_del {α : Type} (m : SMap α) (k : Nat) : SMap.has (SMap.del m k) k = false := by
  induction m with
  | nil => rfl
  | cons e m ih =>
    obtain ⟨i, v⟩ := e
    by_cases hik : i = k <;> simp [SMap.del, SMap.has, hik, ih]

/-- A read of the key that was put gives the value. -/
@[simp] theorem SMap.get_put_self {α : Type} (d : α) (m : SMap α) (k : Nat) (v : α) : SMap.get d (SMap.put k v m) k = v :=
  SMap.get_insert_self d _ k v (SMap.has_del m k)

/-- A put leaves every other key alone. -/
theorem SMap.get_put_other {α : Type} (d : α) (m : SMap α) (k j : Nat) (v : α) (h : j ≠ k) :
    SMap.get d (SMap.put k v m) j = SMap.get d m j := by
  rw [SMap.put, SMap.get_insert _ _ _ _ _ h, SMap.get_del, if_neg h]

theorem SMap.get_put {α : Type} (d : α) (m : SMap α) (k j : Nat) (v : α) :
    SMap.get d (SMap.put k v m) j = if j = k then v else SMap.get d m j := by
  by_cases h : j = k
  · subst h; simp
  · simp [SMap.get_put_other _ _ _ _ _ h, h]

theorem SMap.del_of_not_has {α : Type} (m : SMap α) (k : Nat) (h : SMap.has m k = false) : SMap.del m k = m := by
  induction m with
  | nil => rfl
  | cons e m ih =>
    obtain ⟨i, v⟩ := e
    by_cases hik : i = k
    · simp [SMap.has, hik] at h
    · rw [SMap.del, if_neg hik, ih (by simpa [SMap.has, hik] using h)]

theorem SMap.del_insert {α : Type} (m : SMap α) (k : Nat) (v : α) (h : SMap.has m k = false) :
    SMap.del (SMap.insert k v m) k = m := by
  induction m with
  | nil => simp [SMap.insert, SMap.del]
  | cons e m ih =>
    obtain ⟨i, w⟩ := e
    by_cases hik : i = k
    · simp [SMap.has, hik] at h
    · have h' : SMap.has m k = false := by simpa [SMap.has, hik] using h
      by_cases hki : k < i
      · simp only [SMap.insert, if_pos hki, SMap.del, if_true, if_neg hik, SMap.del_of_not_has m k h']
      · simp only [SMap.insert, if_neg hki, SMap.del, if_neg hik, ih h']

/-- The second of two puts at one key stands. -/
@[simp] theorem SMap.put_put {α : Type} (m : SMap α) (k : Nat) (v w : α) : SMap.put k w (SMap.put k v m) = SMap.put k w m := by
  rw [SMap.put, SMap.put, SMap.del_insert _ _ _ (SMap.has_del m k), SMap.put]

@[simp] theorem SMap.get_nil {α : Type} (d : α) (k : Nat) : SMap.get d ([] : SMap α) k = d := rfl

theorem SMap.find_del {α : Type} (m : SMap α) (k j : Nat) :
    SMap.find (SMap.del m k) j = if j = k then none else SMap.find m j := by
  induction m with
  | nil => simp [SMap.del, SMap.find]
  | cons e m ih =>
    obtain ⟨i, v⟩ := e
    by_cases hik : i = k
    · by_cases hjk : j = k
      · simp only [SMap.del, if_pos hik, ih, if_pos hjk]
      · simp only [SMap.del, if_pos hik, ih, SMap.find, if_neg (show ¬ i = j from fun h => hjk (h.symm.trans hik))]
    · by_cases hij : i = j
      · simp only [SMap.del, if_neg hik, SMap.find, if_pos hij, if_neg (show ¬ j = k from fun h => hik (hij.trans h))]
      · simp only [SMap.del, if_neg hik, SMap.find, if_neg hij, ih]

theorem SMap.find_insert {α : Type} (m : SMap α) (k j : Nat) (v : α) (h : j ≠ k) :
    SMap.find (SMap.insert k v m) j = SMap.find m j := by
  induction m with
  | nil => simp [SMap.insert, SMap.find, Ne.symm h]
  | cons e m ih =>
    obtain ⟨i, w⟩ := e
    by_cases hki : k < i
    · simp only [SMap.insert, if_pos hki, SMap.find, if_neg (Ne.symm h)]
    · simp only [SMap.insert, if_neg hki, SMap.find, ih]

theorem SMap.find_insert_self {α : Type} (m : SMap α) (k : Nat) (v : α) (h : SMap.has m k = false) :
    SMap.find (SMap.insert k v m) k = some v := by
  induction m with
  | nil => simp [SMap.insert, SMap.find]
  | cons e m ih =>
    obtain ⟨i, w⟩ := e
    by_cases hik : i = k
    · simp [SMap.has, hik] at h
    · have h' : SMap.has m k = false := by simpa [SMap.has, hik] using h
      by_cases hki : k < i <;> simp [SMap.insert, SMap.find, hki, hik, ih h']

/-- What a table lists after a put. -/
theorem SMap.find_put {α : Type} (m : SMap α) (k j : Nat) (v : α) :
    SMap.find (SMap.put k v m) j = if j = k then some v else SMap.find m j := by
  by_cases h : j = k
  · subst h; simp [SMap.put, SMap.find_insert_self _ _ _ (SMap.has_del m j)]
  · simp [SMap.put, SMap.find_insert _ _ _ _ h, SMap.find_del, h]

/-- What a table whose values are mapped lists. -/
theorem SMap.find_mapVals {α : Type} (f : Nat → α → α) (m : SMap α) (k : Nat) :
    SMap.find (SMap.mapVals f m) k = (SMap.find m k).map (f k) := by
  induction m with
  | nil => rfl
  | cons e m ih =>
    obtain ⟨i, v⟩ := e
    by_cases h : i = k
    · subst h; simp [SMap.mapVals, SMap.find]
    · simpa [SMap.mapVals, SMap.find, h] using ih

theorem SMap.get_eq_find {α : Type} (d : α) (m : SMap α) (k : Nat) : SMap.get d m k = (SMap.find m k).getD d := by
  induction m with
  | nil => rfl
  | cons e m ih =>
    obtain ⟨i, v⟩ := e
    by_cases h : i = k <;> simp [SMap.get, SMap.find, h, ih]

/-! ## Byte memories -/

/-- A read of the byte just written gives it. -/
@[simp] theorem Mem.read_write_self (m : List (Nat × Byte)) (a : Nat) (b : Byte) : Mem.read (Mem.write m a b) a = b := by
  unfold Mem.read Mem.write
  split
  · rw [SMap.get_del, if_pos rfl]; exact Eq.symm ‹_›
  · exact SMap.get_put_self _ _ _ _

/-- A write leaves every other byte alone. -/
theorem Mem.read_write_other (m : List (Nat × Byte)) (a c : Nat) (b : Byte) (h : c ≠ a) :
    Mem.read (Mem.write m a b) c = Mem.read m c := by
  unfold Mem.read Mem.write
  split
  · rw [SMap.get_del, if_neg h]
  · exact SMap.get_put_other _ _ _ _ _ h

theorem Mem.read_write (m : List (Nat × Byte)) (a c : Nat) (b : Byte) :
    Mem.read (Mem.write m a b) c = if c = a then b else Mem.read m c := by
  by_cases h : c = a
  · subst h; simp
  · simp [Mem.read_write_other _ _ _ _ h, h]

theorem Mem.read_writes (bs : List Byte) (m : List (Nat × Byte)) (a c : Nat) :
    Mem.read (Mem.writes m a bs) c = if a ≤ c ∧ c < a + bs.length then bs.getD (c - a) 0#8 else Mem.read m c := by
  induction bs generalizing m a with
  | nil => rw [Mem.writes, if_neg]; simp only [List.length_nil]; omega
  | cons b bs ih =>
    rw [Mem.writes, ih, Mem.read_write]
    by_cases h1 : c = a
    · subst h1
      rw [if_neg (by omega), if_pos rfl, if_pos (by simp only [List.length_cons]; omega), Nat.sub_self]; rfl
    · by_cases h2 : a + 1 ≤ c ∧ c < a + 1 + bs.length
      · have h3 : a ≤ c ∧ c < a + (b :: bs).length := by simp only [List.length_cons]; omega
        have h4 : c - a = (c - (a + 1)) + 1 := by omega
        simp only [if_pos h2, if_pos h3, h4, List.getD_cons_succ]
      · have h3 : ¬ (a ≤ c ∧ c < a + (b :: bs).length) := by simp only [List.length_cons]; omega
        simp only [if_neg h2, if_neg h3, if_neg h1]

/-- The canonical form in the library's terms: keys strictly rising, and no value that an unlisted address reads as. -/
theorem Mem.sorted_iff (m : List (Nat × Byte)) : Mem.sorted m = true ↔ m.Pairwise fun x y => x.1 < y.1 := by
  induction m with
  | nil => simp [Mem.sorted]
  | cons e m ih =>
    cases m with
    | nil => simp [Mem.sorted]
    | cons f m =>
      simp only [Mem.sorted, Bool.and_eq_true, decide_eq_true_eq, ih, List.pairwise_cons, List.mem_cons, forall_eq_or_imp]
      constructor
      · rintro ⟨h, hf, hm⟩
        exact ⟨⟨h, fun x hx => Nat.lt_trans h (hf x hx)⟩, hf, hm⟩
      · rintro ⟨⟨h, _⟩, hf, hm⟩
        exact ⟨h, hf, hm⟩

theorem Mem.wf_iff (m : List (Nat × Byte)) :
    Mem.wf m = true ↔ (m.Pairwise fun x y => x.1 < y.1) ∧ ∀ e ∈ m, e.2 ≠ Mem.unlisted := by
  simp [Mem.wf, Mem.sorted_iff, List.all_eq_true]

theorem SMap.mem_del {α : Type} (m : SMap α) (k : Nat) (e : Nat × α) : e ∈ SMap.del m k ↔ e ∈ m ∧ e.1 ≠ k := by
  induction m with
  | nil => simp [SMap.del]
  | cons f m ih =>
    obtain ⟨i, v⟩ := f
    by_cases h : i = k <;> simp only [SMap.del, h, if_true, if_false, List.mem_cons, ih]
    · constructor
      · exact fun ⟨h1, h2⟩ => ⟨.inr h1, h2⟩
      · rintro ⟨rfl | h1, h2⟩
        · exact absurd rfl h2
        · exact ⟨h1, h2⟩
    · constructor
      · rintro (rfl | ⟨h1, h2⟩)
        · exact ⟨.inl rfl, h⟩
        · exact ⟨.inr h1, h2⟩
      · rintro ⟨rfl | h1, h2⟩
        · exact .inl rfl
        · exact .inr ⟨h1, h2⟩

theorem SMap.mem_insert {α : Type} (m : SMap α) (k : Nat) (v : α) (e : Nat × α) :
    e ∈ SMap.insert k v m ↔ e = (k, v) ∨ e ∈ m := by
  induction m with
  | nil => simp [SMap.insert]
  | cons f m ih =>
    obtain ⟨i, w⟩ := f
    by_cases h : k < i <;> simp only [SMap.insert, h, if_true, if_false, List.mem_cons, ih]
    constructor
    · rintro (h1 | h1 | h1)
      · exact .inr (.inl h1)
      · exact .inl h1
      · exact .inr (.inr h1)
    · rintro (h1 | h1 | h1)
      · exact .inr (.inl h1)
      · exact .inl h1
      · exact .inr (.inr h1)

theorem SMap.sorted_del {α : Type} (m : SMap α) (k : Nat) (h : m.Pairwise fun x y => x.1 < y.1) :
    (SMap.del m k).Pairwise fun x y => x.1 < y.1 := by
  induction m with
  | nil => simp [SMap.del]
  | cons f m ih =>
    obtain ⟨i, w⟩ := f
    obtain ⟨h1, h2⟩ := List.pairwise_cons.1 h
    by_cases hik : i = k
    · simpa [SMap.del, hik] using ih h2
    · simp only [SMap.del, hik, if_false]
      exact List.pairwise_cons.2 ⟨fun x hx => h1 x ((SMap.mem_del m k x).1 hx).1, ih h2⟩

theorem SMap.sorted_insert {α : Type} (m : SMap α) (k : Nat) (v : α) (h : m.Pairwise fun x y => x.1 < y.1)
    (hk : ∀ e ∈ m, e.1 ≠ k) : (SMap.insert k v m).Pairwise fun x y => x.1 < y.1 := by
  induction m with
  | nil => simp [SMap.insert]
  | cons f m ih =>
    obtain ⟨i, w⟩ := f
    obtain ⟨h1, h2⟩ := List.pairwise_cons.1 h
    by_cases hki : k < i
    · simp only [SMap.insert, hki, if_true]
      refine List.pairwise_cons.2 ⟨fun x hx => ?_, h⟩
      rcases List.mem_cons.1 hx with rfl | hx
      · exact hki
      · exact Nat.lt_trans hki (h1 x hx)
    · simp only [SMap.insert, hki, if_false]
      have hne : i ≠ k := hk (i, w) List.mem_cons_self
      refine List.pairwise_cons.2 ⟨fun x hx => ?_, ih h2 fun e he => hk e (List.mem_cons_of_mem _ he)⟩
      rcases (SMap.mem_insert m k v x).1 hx with rfl | hx
      · show i < k
        omega
      · exact h1 x hx

/-- A put keeps the keys strictly rising. -/
theorem SMap.sorted_put {α : Type} (m : SMap α) (k : Nat) (v : α) (h : m.Pairwise fun x y => x.1 < y.1) :
    (SMap.put k v m).Pairwise fun x y => x.1 < y.1 :=
  SMap.sorted_insert _ _ _ (SMap.sorted_del m k h) fun e he => ((SMap.mem_del m k e).1 he).2

/-- Writing one byte keeps the canonical form. -/
theorem Mem.wf_write (m : List (Nat × Byte)) (a : Nat) (b : Byte) (h : Mem.wf m = true) : Mem.wf (Mem.write m a b) = true := by
  obtain ⟨hs, hv⟩ := (Mem.wf_iff m).1 h
  refine (Mem.wf_iff _).2 ?_
  unfold Mem.write
  split
  · exact ⟨SMap.sorted_del m a hs, fun e he => hv e ((SMap.mem_del m a e).1 he).1⟩
  · refine ⟨SMap.sorted_put m a b hs, fun e he => ?_⟩
    rcases (SMap.mem_insert _ a b e).1 he with rfl | he
    · assumption
    · exact hv e ((SMap.mem_del m a e).1 he).1

/-- Writing consecutive bytes keeps the canonical form. -/
theorem Mem.wf_writes (bs : List Byte) (m : List (Nat × Byte)) (a : Nat) (h : Mem.wf m = true) :
    Mem.wf (Mem.writes m a bs) = true := by
  induction bs generalizing m a with
  | nil => exact h
  | cons b bs ih => exact ih _ _ (Mem.wf_write m a b h)

/-- Dropping entries keeps the canonical form. -/
theorem Mem.wf_filter (m : List (Nat × Byte)) (p : Nat × Byte → Bool) (h : Mem.wf m = true) : Mem.wf (m.filter p) = true := by
  obtain ⟨hs, hv⟩ := (Mem.wf_iff m).1 h
  exact (Mem.wf_iff _).2 ⟨hs.filter p, fun e he => hv e ((List.mem_filter.1 he).1)⟩

/-- Replacing a range keeps the canonical form. -/
theorem Mem.wf_splice (m : List (Nat × Byte)) (a n : Nat) (f : Nat → Byte) (h : Mem.wf m = true) :
    Mem.wf (Mem.splice m a n f) = true := by
  obtain ⟨hs, hv⟩ := (Mem.wf_iff m).1 h
  refine (Mem.wf_iff _).2 ?_
  have hmid : (((List.range n).map fun i => (a + i, f i)).filter fun e => decide (e.2 ≠ Mem.unlisted)).Pairwise
      fun x y => x.1 < y.1 := by
    refine List.Pairwise.filter _ ?_
    rw [List.pairwise_map]
    exact List.pairwise_lt_range.imp fun h => by simpa using h
  unfold Mem.splice
  refine ⟨?_, fun e he => ?_⟩
  · rw [List.pairwise_append, List.pairwise_append]
    refine ⟨⟨hs.filter _, hmid, ?_⟩, hs.filter _, ?_⟩
    · intro x hx y hy
      simp only [List.mem_filter, List.mem_map, List.mem_range, decide_eq_true_eq] at hx hy
      obtain ⟨⟨i, hi, rfl⟩, _⟩ := hy
      show x.1 < a + i
      omega
    · intro x hx y hy
      simp only [List.mem_append, List.mem_filter, List.mem_map, List.mem_range, decide_eq_true_eq] at hx hy
      rcases hx with hx | ⟨⟨i, hi, rfl⟩, _⟩
      · omega
      · show a + i < y.1
        omega
  · simp only [List.mem_append, List.mem_filter, decide_eq_true_eq] at he
    rcases he with (he | he) | he
    · exact hv e he.1
    · exact he.2
    · exact hv e he.1

/-- A byte memory with nothing listed is canonical. -/
theorem Mem.wf_nil : Mem.wf [] = true := rfl

/-! ## Bytes and numbers -/

@[simp] theorem leBytes_length (n x : Nat) : (leBytes n x).length = n := by
  induction n generalizing x with
  | zero => rfl
  | succ n ih => simp [leBytes, ih]

/-- The bytes of a number give the number back. -/
theorem leNat_leBytes (n x : Nat) : leNat (leBytes n x) = x % 256 ^ n := by
  induction n generalizing x with
  | zero => simp [leBytes, leNat, Nat.mod_one]
  | succ n ih =>
    have h : 256 ^ (n + 1) = 256 * 256 ^ n := Nat.pow_succ'
    simp only [leBytes, leNat, ih, BitVec.toNat_ofNat, h]
    rw [Nat.mod_mul]

theorem Lanes.ofFn_length {α : Type} (f : Nat → α) : (Lanes.ofFn f).length = 64 := by simp [Lanes.ofFn]

/-- Lane `l` of the lanes of a function. -/
theorem Lanes.get32_ofFn (f : Nat → W32) (l : Nat) (h : l < 64) : Lanes.get32 (Lanes.ofFn f) l = f l := by
  simp [Lanes.get32, Lanes.ofFn, h]

/-- Lane `l` of the lanes of an address function. -/
theorem Lanes.get64_ofFn (f : Nat → W64) (l : Nat) (h : l < 64) : Lanes.get64 (Lanes.ofFn f) l = f l := by
  simp [Lanes.get64, Lanes.ofFn, h]

theorem maskSum_lt (f : Nat → Bool) (n : Nat) :
    (List.range n).foldl (fun acc i => if f i then acc + 2 ^ i else acc) 0 < 2 ^ n := by
  induction n with
  | zero => simp
  | succ n ih =>
    rw [List.range_succ, List.foldl_append]
    simp only [List.foldl_cons, List.foldl_nil, Nat.pow_succ]
    split <;> omega

theorem maskSum_testBit (f : Nat → Bool) (n i : Nat) :
    ((List.range n).foldl (fun acc i => if f i then acc + 2 ^ i else acc) 0).testBit i = (decide (i < n) && f i) := by
  induction n with
  | zero => simp
  | succ n ih =>
    rw [List.range_succ, List.foldl_append]
    simp only [List.foldl_cons, List.foldl_nil]
    have hlt := maskSum_lt f n
    by_cases hn : f n = true
    · simp only [hn, if_true]
      rw [Nat.add_comm]
      by_cases hi : i = n
      · subst hi
        rw [Nat.testBit_two_pow_add_eq, Nat.testBit_lt_two_pow hlt]; simp [hn]
      · by_cases hin : i < n
        · rw [Nat.testBit_two_pow_add_gt hin, ih]
          have : i < n + 1 := by omega
          simp [hin, this]
        · have hle : 2 ^ n + (List.range n).foldl (fun acc i => if f i then acc + 2 ^ i else acc) 0 < 2 ^ i :=
            calc _ < 2 ^ n + 2 ^ n := by omega
              _ = 2 ^ (n + 1) := by rw [Nat.pow_succ]; omega
              _ ≤ 2 ^ i := Nat.pow_le_pow_right (by omega) (by omega)
          rw [Nat.testBit_lt_two_pow hle]
          have : ¬ i < n + 1 := by omega
          simp [this]
    · simp only [hn, Bool.false_eq_true, if_false, ih]
      by_cases hi : i = n
      · subst hi; simp [hn]
      · by_cases hin : i < n
        · have : i < n + 1 := by omega
          simp [hin, this]
        · have : ¬ i < n + 1 := by omega
          simp [hin, this]

/-- Bit `i` of a mask built from a function. -/
@[simp] theorem maskBit_maskOf (f : Nat → Bool) (i : Nat) (h : i < 64) : maskBit (maskOf f) i = f i := by
  simp only [maskBit, maskOf, BitVec.getLsbD_ofNat, h, decide_true, Bool.true_and]
  rw [maskSum_testBit]; simp [h]

end Sys2Proof.Machine
end

