-- ==== Sys2Proof/Laws/State.lean ====
section
/-! SUPPORT. Laws of the state's updates: what each named update leaves in each field, and what it makes of the wave, cluster, unit
and strand it names. -/

namespace Sys2Proof.Machine

/-! ### `setWave` -/

@[simp] theorem State.setWave_cycle (s : State) (k : Nat) (w : Wave) : (s.setWave k w).cycle = s.cycle := rfl
@[simp] theorem State.setWave_mem (s : State) (k : Nat) (w : Wave) : (s.setWave k w).mem = s.mem := rfl
@[simp] theorem State.setWave_gPoison (s : State) (k : Nat) (w : Wave) : (s.setWave k w).gPoison = s.gPoison := rfl
@[simp] theorem State.setWave_creel (s : State) (k : Nat) (w : Wave) : (s.setWave k w).creel = s.creel := rfl
@[simp] theorem State.setWave_full (s : State) (k : Nat) (w : Wave) : (s.setWave k w).full = s.full := rfl
@[simp] theorem State.setWave_creelPoison (s : State) (k : Nat) (w : Wave) : (s.setWave k w).creelPoison = s.creelPoison := rfl
@[simp] theorem State.setWave_hist (s : State) (k : Nat) (w : Wave) : (s.setWave k w).hist = s.hist := rfl
@[simp] theorem State.setWave_fences (s : State) (k : Nat) (w : Wave) : (s.setWave k w).fences = s.fences := rfl
@[simp] theorem State.setWave_now (s : State) (k : Nat) (w : Wave) : (s.setWave k w).now = s.now := rfl
@[simp] theorem State.setWave_clusters (s : State) (k : Nat) (w : Wave) : (s.setWave k w).clusters = s.clusters := rfl
@[simp] theorem State.setWave_units (s : State) (k : Nat) (w : Wave) : (s.setWave k w).units = s.units := rfl
@[simp] theorem State.setWave_nextUnit (s : State) (k : Nat) (w : Wave) : (s.setWave k w).nextUnit = s.nextUnit := rfl
@[simp] theorem State.setWave_flight (s : State) (k : Nat) (w : Wave) : (s.setWave k w).flight = s.flight := rfl
@[simp] theorem State.setWave_nextAccess (s : State) (k : Nat) (w : Wave) : (s.setWave k w).nextAccess = s.nextAccess := rfl
@[simp] theorem State.setWave_nextCmd (s : State) (k : Nat) (w : Wave) : (s.setWave k w).nextCmd = s.nextCmd := rfl
@[simp] theorem State.setWave_feOrder (s : State) (k : Nat) (w : Wave) : (s.setWave k w).feOrder = s.feOrder := rfl
@[simp] theorem State.setWave_creelQueue (s : State) (k : Nat) (w : Wave) : (s.setWave k w).creelQueue = s.creelQueue := rfl
@[simp] theorem State.setWave_spaces (s : State) (k : Nat) (w : Wave) : (s.setWave k w).spaces = s.spaces := rfl
@[simp] theorem State.setWave_parts (s : State) (k : Nat) (w : Wave) : (s.setWave k w).parts = s.parts := rfl
@[simp] theorem State.setWave_weaves (s : State) (k : Nat) (w : Wave) : (s.setWave k w).weaves = s.weaves := rfl
@[simp] theorem State.setWave_cancels (s : State) (k : Nat) (w : Wave) : (s.setWave k w).cancels = s.cancels := rfl
@[simp] theorem State.setWave_triggers (s : State) (k : Nat) (w : Wave) : (s.setWave k w).triggers = s.triggers := rfl
@[simp] theorem State.setWave_colls (s : State) (k : Nat) (w : Wave) : (s.setWave k w).colls = s.colls := rfl
@[simp] theorem State.setWave_atomCounts (s : State) (k : Nat) (w : Wave) : (s.setWave k w).atomCounts = s.atomCounts := rfl
@[simp] theorem State.setWave_halvedAt (s : State) (k : Nat) (w : Wave) : (s.setWave k w).halvedAt = s.halvedAt := rfl
@[simp] theorem State.setWave_courier (s : State) (k : Nat) (w : Wave) : (s.setWave k w).courier = s.courier := rfl
@[simp] theorem State.setWave_corrected (s : State) (k : Nat) (w : Wave) : (s.setWave k w).corrected = s.corrected := rfl
@[simp] theorem State.setWave_dies (s : State) (k : Nat) (w : Wave) : (s.setWave k w).dies = s.dies := rfl
@[simp] theorem State.setWave_links (s : State) (k : Nat) (w : Wave) : (s.setWave k w).links = s.links := rfl
@[simp] theorem State.setWave_mgmt (s : State) (k : Nat) (w : Wave) : (s.setWave k w).mgmt = s.mgmt := rfl
@[simp] theorem State.setWave_debug (s : State) (k : Nat) (w : Wave) : (s.setWave k w).debug = s.debug := rfl
@[simp] theorem State.setWave_hostReads (s : State) (k : Nat) (w : Wave) : (s.setWave k w).hostReads = s.hostReads := rfl
@[simp] theorem State.setWave_hostCover (s : State) (k : Nat) (w : Wave) : (s.setWave k w).hostCover = s.hostCover := rfl
@[simp] theorem State.setWave_sentChunks (s : State) (k : Nat) (w : Wave) : (s.setWave k w).sentChunks = s.sentChunks := rfl
@[simp] theorem State.setWave_courierSent (s : State) (k : Nat) (w : Wave) : (s.setWave k w).courierSent = s.courierSent := rfl
@[simp] theorem State.setWave_cur (s : State) (k : Nat) (w : Wave) : (s.setWave k w).cur = s.cur := rfl
@[simp] theorem State.setWave_turns (s : State) (k : Nat) (w : Wave) : (s.setWave k w).turns = s.turns := rfl
@[simp] theorem State.setWave_fresh (s : State) (k : Nat) (w : Wave) : (s.setWave k w).fresh = s.fresh := rfl

/-! ### `updWave` -/

@[simp] theorem State.updWave_cycle (s : State) (k : Nat) (f : Wave → Wave) : (s.updWave k f).cycle = s.cycle := rfl
@[simp] theorem State.updWave_mem (s : State) (k : Nat) (f : Wave → Wave) : (s.updWave k f).mem = s.mem := rfl
@[simp] theorem State.updWave_gPoison (s : State) (k : Nat) (f : Wave → Wave) : (s.updWave k f).gPoison = s.gPoison := rfl
@[simp] theorem State.updWave_creel (s : State) (k : Nat) (f : Wave → Wave) : (s.updWave k f).creel = s.creel := rfl
@[simp] theorem State.updWave_full (s : State) (k : Nat) (f : Wave → Wave) : (s.updWave k f).full = s.full := rfl
@[simp] theorem State.updWave_creelPoison (s : State) (k : Nat) (f : Wave → Wave) : (s.updWave k f).creelPoison = s.creelPoison := rfl
@[simp] theorem State.updWave_hist (s : State) (k : Nat) (f : Wave → Wave) : (s.updWave k f).hist = s.hist := rfl
@[simp] theorem State.updWave_fences (s : State) (k : Nat) (f : Wave → Wave) : (s.updWave k f).fences = s.fences := rfl
@[simp] theorem State.updWave_now (s : State) (k : Nat) (f : Wave → Wave) : (s.updWave k f).now = s.now := rfl
@[simp] theorem State.updWave_clusters (s : State) (k : Nat) (f : Wave → Wave) : (s.updWave k f).clusters = s.clusters := rfl
@[simp] theorem State.updWave_units (s : State) (k : Nat) (f : Wave → Wave) : (s.updWave k f).units = s.units := rfl
@[simp] theorem State.updWave_nextUnit (s : State) (k : Nat) (f : Wave → Wave) : (s.updWave k f).nextUnit = s.nextUnit := rfl
@[simp] theorem State.updWave_flight (s : State) (k : Nat) (f : Wave → Wave) : (s.updWave k f).flight = s.flight := rfl
@[simp] theorem State.updWave_nextAccess (s : State) (k : Nat) (f : Wave → Wave) : (s.updWave k f).nextAccess = s.nextAccess := rfl
@[simp] theorem State.updWave_nextCmd (s : State) (k : Nat) (f : Wave → Wave) : (s.updWave k f).nextCmd = s.nextCmd := rfl
@[simp] theorem State.updWave_feOrder (s : State) (k : Nat) (f : Wave → Wave) : (s.updWave k f).feOrder = s.feOrder := rfl
@[simp] theorem State.updWave_creelQueue (s : State) (k : Nat) (f : Wave → Wave) : (s.updWave k f).creelQueue = s.creelQueue := rfl
@[simp] theorem State.updWave_spaces (s : State) (k : Nat) (f : Wave → Wave) : (s.updWave k f).spaces = s.spaces := rfl
@[simp] theorem State.updWave_parts (s : State) (k : Nat) (f : Wave → Wave) : (s.updWave k f).parts = s.parts := rfl
@[simp] theorem State.updWave_weaves (s : State) (k : Nat) (f : Wave → Wave) : (s.updWave k f).weaves = s.weaves := rfl
@[simp] theorem State.updWave_cancels (s : State) (k : Nat) (f : Wave → Wave) : (s.updWave k f).cancels = s.cancels := rfl
@[simp] theorem State.updWave_triggers (s : State) (k : Nat) (f : Wave → Wave) : (s.updWave k f).triggers = s.triggers := rfl
@[simp] theorem State.updWave_colls (s : State) (k : Nat) (f : Wave → Wave) : (s.updWave k f).colls = s.colls := rfl
@[simp] theorem State.updWave_atomCounts (s : State) (k : Nat) (f : Wave → Wave) : (s.updWave k f).atomCounts = s.atomCounts := rfl
@[simp] theorem State.updWave_halvedAt (s : State) (k : Nat) (f : Wave → Wave) : (s.updWave k f).halvedAt = s.halvedAt := rfl
@[simp] theorem State.updWave_courier (s : State) (k : Nat) (f : Wave → Wave) : (s.updWave k f).courier = s.courier := rfl
@[simp] theorem State.updWave_corrected (s : State) (k : Nat) (f : Wave → Wave) : (s.updWave k f).corrected = s.corrected := rfl
@[simp] theorem State.updWave_dies (s : State) (k : Nat) (f : Wave → Wave) : (s.updWave k f).dies = s.dies := rfl
@[simp] theorem State.updWave_links (s : State) (k : Nat) (f : Wave → Wave) : (s.updWave k f).links = s.links := rfl
@[simp] theorem State.updWave_mgmt (s : State) (k : Nat) (f : Wave → Wave) : (s.updWave k f).mgmt = s.mgmt := rfl
@[simp] theorem State.updWave_debug (s : State) (k : Nat) (f : Wave → Wave) : (s.updWave k f).debug = s.debug := rfl
@[simp] theorem State.updWave_hostReads (s : State) (k : Nat) (f : Wave → Wave) : (s.updWave k f).hostReads = s.hostReads := rfl
@[simp] theorem State.updWave_hostCover (s : State) (k : Nat) (f : Wave → Wave) : (s.updWave k f).hostCover = s.hostCover := rfl
@[simp] theorem State.updWave_sentChunks (s : State) (k : Nat) (f : Wave → Wave) : (s.updWave k f).sentChunks = s.sentChunks := rfl
@[simp] theorem State.updWave_courierSent (s : State) (k : Nat) (f : Wave → Wave) : (s.updWave k f).courierSent = s.courierSent := rfl
@[simp] theorem State.updWave_cur (s : State) (k : Nat) (f : Wave → Wave) : (s.updWave k f).cur = s.cur := rfl
@[simp] theorem State.updWave_turns (s : State) (k : Nat) (f : Wave → Wave) : (s.updWave k f).turns = s.turns := rfl
@[simp] theorem State.updWave_fresh (s : State) (k : Nat) (f : Wave → Wave) : (s.updWave k f).fresh = s.fresh := rfl

/-! ### `setCluster` -/

@[simp] theorem State.setCluster_cycle (s : State) (c : Nat) (x : Cluster) : (s.setCluster c x).cycle = s.cycle := rfl
@[simp] theorem State.setCluster_mem (s : State) (c : Nat) (x : Cluster) : (s.setCluster c x).mem = s.mem := rfl
@[simp] theorem State.setCluster_gPoison (s : State) (c : Nat) (x : Cluster) : (s.setCluster c x).gPoison = s.gPoison := rfl
@[simp] theorem State.setCluster_creel (s : State) (c : Nat) (x : Cluster) : (s.setCluster c x).creel = s.creel := rfl
@[simp] theorem State.setCluster_full (s : State) (c : Nat) (x : Cluster) : (s.setCluster c x).full = s.full := rfl
@[simp] theorem State.setCluster_creelPoison (s : State) (c : Nat) (x : Cluster) : (s.setCluster c x).creelPoison = s.creelPoison := rfl
@[simp] theorem State.setCluster_hist (s : State) (c : Nat) (x : Cluster) : (s.setCluster c x).hist = s.hist := rfl
@[simp] theorem State.setCluster_fences (s : State) (c : Nat) (x : Cluster) : (s.setCluster c x).fences = s.fences := rfl
@[simp] theorem State.setCluster_now (s : State) (c : Nat) (x : Cluster) : (s.setCluster c x).now = s.now := rfl
@[simp] theorem State.setCluster_waves (s : State) (c : Nat) (x : Cluster) : (s.setCluster c x).waves = s.waves := rfl
@[simp] theorem State.setCluster_units (s : State) (c : Nat) (x : Cluster) : (s.setCluster c x).units = s.units := rfl
@[simp] theorem State.setCluster_nextUnit (s : State) (c : Nat) (x : Cluster) : (s.setCluster c x).nextUnit = s.nextUnit := rfl
@[simp] theorem State.setCluster_flight (s : State) (c : Nat) (x : Cluster) : (s.setCluster c x).flight = s.flight := rfl
@[simp] theorem State.setCluster_nextAccess (s : State) (c : Nat) (x : Cluster) : (s.setCluster c x).nextAccess = s.nextAccess := rfl
@[simp] theorem State.setCluster_nextCmd (s : State) (c : Nat) (x : Cluster) : (s.setCluster c x).nextCmd = s.nextCmd := rfl
@[simp] theorem State.setCluster_feOrder (s : State) (c : Nat) (x : Cluster) : (s.setCluster c x).feOrder = s.feOrder := rfl
@[simp] theorem State.setCluster_creelQueue (s : State) (c : Nat) (x : Cluster) : (s.setCluster c x).creelQueue = s.creelQueue := rfl
@[simp] theorem State.setCluster_spaces (s : State) (c : Nat) (x : Cluster) : (s.setCluster c x).spaces = s.spaces := rfl
@[simp] theorem State.setCluster_parts (s : State) (c : Nat) (x : Cluster) : (s.setCluster c x).parts = s.parts := rfl
@[simp] theorem State.setCluster_weaves (s : State) (c : Nat) (x : Cluster) : (s.setCluster c x).weaves = s.weaves := rfl
@[simp] theorem State.setCluster_cancels (s : State) (c : Nat) (x : Cluster) : (s.setCluster c x).cancels = s.cancels := rfl
@[simp] theorem State.setCluster_triggers (s : State) (c : Nat) (x : Cluster) : (s.setCluster c x).triggers = s.triggers := rfl
@[simp] theorem State.setCluster_colls (s : State) (c : Nat) (x : Cluster) : (s.setCluster c x).colls = s.colls := rfl
@[simp] theorem State.setCluster_atomCounts (s : State) (c : Nat) (x : Cluster) : (s.setCluster c x).atomCounts = s.atomCounts := rfl
@[simp] theorem State.setCluster_halvedAt (s : State) (c : Nat) (x : Cluster) : (s.setCluster c x).halvedAt = s.halvedAt := rfl
@[simp] theorem State.setCluster_courier (s : State) (c : Nat) (x : Cluster) : (s.setCluster c x).courier = s.courier := rfl
@[simp] theorem State.setCluster_corrected (s : State) (c : Nat) (x : Cluster) : (s.setCluster c x).corrected = s.corrected := rfl
@[simp] theorem State.setCluster_dies (s : State) (c : Nat) (x : Cluster) : (s.setCluster c x).dies = s.dies := rfl
@[simp] theorem State.setCluster_links (s : State) (c : Nat) (x : Cluster) : (s.setCluster c x).links = s.links := rfl
@[simp] theorem State.setCluster_mgmt (s : State) (c : Nat) (x : Cluster) : (s.setCluster c x).mgmt = s.mgmt := rfl
@[simp] theorem State.setCluster_debug (s : State) (c : Nat) (x : Cluster) : (s.setCluster c x).debug = s.debug := rfl
@[simp] theorem State.setCluster_hostReads (s : State) (c : Nat) (x : Cluster) : (s.setCluster c x).hostReads = s.hostReads := rfl
@[simp] theorem State.setCluster_hostCover (s : State) (c : Nat) (x : Cluster) : (s.setCluster c x).hostCover = s.hostCover := rfl
@[simp] theorem State.setCluster_sentChunks (s : State) (c : Nat) (x : Cluster) : (s.setCluster c x).sentChunks = s.sentChunks := rfl
@[simp] theorem State.setCluster_courierSent (s : State) (c : Nat) (x : Cluster) : (s.setCluster c x).courierSent = s.courierSent := rfl
@[simp] theorem State.setCluster_cur (s : State) (c : Nat) (x : Cluster) : (s.setCluster c x).cur = s.cur := rfl
@[simp] theorem State.setCluster_turns (s : State) (c : Nat) (x : Cluster) : (s.setCluster c x).turns = s.turns := rfl
@[simp] theorem State.setCluster_fresh (s : State) (c : Nat) (x : Cluster) : (s.setCluster c x).fresh = s.fresh := rfl

/-! ### `updSeq` -/

@[simp] theorem State.updSeq_cycle (s : State) (c : Nat) (f : Seq → Seq) : (s.updSeq c f).cycle = s.cycle := rfl
@[simp] theorem State.updSeq_mem (s : State) (c : Nat) (f : Seq → Seq) : (s.updSeq c f).mem = s.mem := rfl
@[simp] theorem State.updSeq_gPoison (s : State) (c : Nat) (f : Seq → Seq) : (s.updSeq c f).gPoison = s.gPoison := rfl
@[simp] theorem State.updSeq_creel (s : State) (c : Nat) (f : Seq → Seq) : (s.updSeq c f).creel = s.creel := rfl
@[simp] theorem State.updSeq_full (s : State) (c : Nat) (f : Seq → Seq) : (s.updSeq c f).full = s.full := rfl
@[simp] theorem State.updSeq_creelPoison (s : State) (c : Nat) (f : Seq → Seq) : (s.updSeq c f).creelPoison = s.creelPoison := rfl
@[simp] theorem State.updSeq_hist (s : State) (c : Nat) (f : Seq → Seq) : (s.updSeq c f).hist = s.hist := rfl
@[simp] theorem State.updSeq_fences (s : State) (c : Nat) (f : Seq → Seq) : (s.updSeq c f).fences = s.fences := rfl
@[simp] theorem State.updSeq_now (s : State) (c : Nat) (f : Seq → Seq) : (s.updSeq c f).now = s.now := rfl
@[simp] theorem State.updSeq_waves (s : State) (c : Nat) (f : Seq → Seq) : (s.updSeq c f).waves = s.waves := rfl
@[simp] theorem State.updSeq_units (s : State) (c : Nat) (f : Seq → Seq) : (s.updSeq c f).units = s.units := rfl
@[simp] theorem State.updSeq_nextUnit (s : State) (c : Nat) (f : Seq → Seq) : (s.updSeq c f).nextUnit = s.nextUnit := rfl
@[simp] theorem State.updSeq_flight (s : State) (c : Nat) (f : Seq → Seq) : (s.updSeq c f).flight = s.flight := rfl
@[simp] theorem State.updSeq_nextAccess (s : State) (c : Nat) (f : Seq → Seq) : (s.updSeq c f).nextAccess = s.nextAccess := rfl
@[simp] theorem State.updSeq_nextCmd (s : State) (c : Nat) (f : Seq → Seq) : (s.updSeq c f).nextCmd = s.nextCmd := rfl
@[simp] theorem State.updSeq_feOrder (s : State) (c : Nat) (f : Seq → Seq) : (s.updSeq c f).feOrder = s.feOrder := rfl
@[simp] theorem State.updSeq_creelQueue (s : State) (c : Nat) (f : Seq → Seq) : (s.updSeq c f).creelQueue = s.creelQueue := rfl
@[simp] theorem State.updSeq_spaces (s : State) (c : Nat) (f : Seq → Seq) : (s.updSeq c f).spaces = s.spaces := rfl
@[simp] theorem State.updSeq_parts (s : State) (c : Nat) (f : Seq → Seq) : (s.updSeq c f).parts = s.parts := rfl
@[simp] theorem State.updSeq_weaves (s : State) (c : Nat) (f : Seq → Seq) : (s.updSeq c f).weaves = s.weaves := rfl
@[simp] theorem State.updSeq_cancels (s : State) (c : Nat) (f : Seq → Seq) : (s.updSeq c f).cancels = s.cancels := rfl
@[simp] theorem State.updSeq_triggers (s : State) (c : Nat) (f : Seq → Seq) : (s.updSeq c f).triggers = s.triggers := rfl
@[simp] theorem State.updSeq_colls (s : State) (c : Nat) (f : Seq → Seq) : (s.updSeq c f).colls = s.colls := rfl
@[simp] theorem State.updSeq_atomCounts (s : State) (c : Nat) (f : Seq → Seq) : (s.updSeq c f).atomCounts = s.atomCounts := rfl
@[simp] theorem State.updSeq_halvedAt (s : State) (c : Nat) (f : Seq → Seq) : (s.updSeq c f).halvedAt = s.halvedAt := rfl
@[simp] theorem State.updSeq_courier (s : State) (c : Nat) (f : Seq → Seq) : (s.updSeq c f).courier = s.courier := rfl
@[simp] theorem State.updSeq_corrected (s : State) (c : Nat) (f : Seq → Seq) : (s.updSeq c f).corrected = s.corrected := rfl
@[simp] theorem State.updSeq_dies (s : State) (c : Nat) (f : Seq → Seq) : (s.updSeq c f).dies = s.dies := rfl
@[simp] theorem State.updSeq_links (s : State) (c : Nat) (f : Seq → Seq) : (s.updSeq c f).links = s.links := rfl
@[simp] theorem State.updSeq_mgmt (s : State) (c : Nat) (f : Seq → Seq) : (s.updSeq c f).mgmt = s.mgmt := rfl
@[simp] theorem State.updSeq_debug (s : State) (c : Nat) (f : Seq → Seq) : (s.updSeq c f).debug = s.debug := rfl
@[simp] theorem State.updSeq_hostReads (s : State) (c : Nat) (f : Seq → Seq) : (s.updSeq c f).hostReads = s.hostReads := rfl
@[simp] theorem State.updSeq_hostCover (s : State) (c : Nat) (f : Seq → Seq) : (s.updSeq c f).hostCover = s.hostCover := rfl
@[simp] theorem State.updSeq_sentChunks (s : State) (c : Nat) (f : Seq → Seq) : (s.updSeq c f).sentChunks = s.sentChunks := rfl
@[simp] theorem State.updSeq_courierSent (s : State) (c : Nat) (f : Seq → Seq) : (s.updSeq c f).courierSent = s.courierSent := rfl
@[simp] theorem State.updSeq_cur (s : State) (c : Nat) (f : Seq → Seq) : (s.updSeq c f).cur = s.cur := rfl
@[simp] theorem State.updSeq_turns (s : State) (c : Nat) (f : Seq → Seq) : (s.updSeq c f).turns = s.turns := rfl
@[simp] theorem State.updSeq_fresh (s : State) (c : Nat) (f : Seq → Seq) : (s.updSeq c f).fresh = s.fresh := rfl

/-! ### `setUnit` -/

@[simp] theorem State.setUnit_cycle (s : State) (u : Nat) (x : UnitRec) : (s.setUnit u x).cycle = s.cycle := rfl
@[simp] theorem State.setUnit_mem (s : State) (u : Nat) (x : UnitRec) : (s.setUnit u x).mem = s.mem := rfl
@[simp] theorem State.setUnit_gPoison (s : State) (u : Nat) (x : UnitRec) : (s.setUnit u x).gPoison = s.gPoison := rfl
@[simp] theorem State.setUnit_creel (s : State) (u : Nat) (x : UnitRec) : (s.setUnit u x).creel = s.creel := rfl
@[simp] theorem State.setUnit_full (s : State) (u : Nat) (x : UnitRec) : (s.setUnit u x).full = s.full := rfl
@[simp] theorem State.setUnit_creelPoison (s : State) (u : Nat) (x : UnitRec) : (s.setUnit u x).creelPoison = s.creelPoison := rfl
@[simp] theorem State.setUnit_hist (s : State) (u : Nat) (x : UnitRec) : (s.setUnit u x).hist = s.hist := rfl
@[simp] theorem State.setUnit_fences (s : State) (u : Nat) (x : UnitRec) : (s.setUnit u x).fences = s.fences := rfl
@[simp] theorem State.setUnit_now (s : State) (u : Nat) (x : UnitRec) : (s.setUnit u x).now = s.now := rfl
@[simp] theorem State.setUnit_waves (s : State) (u : Nat) (x : UnitRec) : (s.setUnit u x).waves = s.waves := rfl
@[simp] theorem State.setUnit_clusters (s : State) (u : Nat) (x : UnitRec) : (s.setUnit u x).clusters = s.clusters := rfl
@[simp] theorem State.setUnit_nextUnit (s : State) (u : Nat) (x : UnitRec) : (s.setUnit u x).nextUnit = s.nextUnit := rfl
@[simp] theorem State.setUnit_flight (s : State) (u : Nat) (x : UnitRec) : (s.setUnit u x).flight = s.flight := rfl
@[simp] theorem State.setUnit_nextAccess (s : State) (u : Nat) (x : UnitRec) : (s.setUnit u x).nextAccess = s.nextAccess := rfl
@[simp] theorem State.setUnit_nextCmd (s : State) (u : Nat) (x : UnitRec) : (s.setUnit u x).nextCmd = s.nextCmd := rfl
@[simp] theorem State.setUnit_feOrder (s : State) (u : Nat) (x : UnitRec) : (s.setUnit u x).feOrder = s.feOrder := rfl
@[simp] theorem State.setUnit_creelQueue (s : State) (u : Nat) (x : UnitRec) : (s.setUnit u x).creelQueue = s.creelQueue := rfl
@[simp] theorem State.setUnit_spaces (s : State) (u : Nat) (x : UnitRec) : (s.setUnit u x).spaces = s.spaces := rfl
@[simp] theorem State.setUnit_parts (s : State) (u : Nat) (x : UnitRec) : (s.setUnit u x).parts = s.parts := rfl
@[simp] theorem State.setUnit_weaves (s : State) (u : Nat) (x : UnitRec) : (s.setUnit u x).weaves = s.weaves := rfl
@[simp] theorem State.setUnit_cancels (s : State) (u : Nat) (x : UnitRec) : (s.setUnit u x).cancels = s.cancels := rfl
@[simp] theorem State.setUnit_triggers (s : State) (u : Nat) (x : UnitRec) : (s.setUnit u x).triggers = s.triggers := rfl
@[simp] theorem State.setUnit_colls (s : State) (u : Nat) (x : UnitRec) : (s.setUnit u x).colls = s.colls := rfl
@[simp] theorem State.setUnit_atomCounts (s : State) (u : Nat) (x : UnitRec) : (s.setUnit u x).atomCounts = s.atomCounts := rfl
@[simp] theorem State.setUnit_halvedAt (s : State) (u : Nat) (x : UnitRec) : (s.setUnit u x).halvedAt = s.halvedAt := rfl
@[simp] theorem State.setUnit_courier (s : State) (u : Nat) (x : UnitRec) : (s.setUnit u x).courier = s.courier := rfl
@[simp] theorem State.setUnit_corrected (s : State) (u : Nat) (x : UnitRec) : (s.setUnit u x).corrected = s.corrected := rfl
@[simp] theorem State.setUnit_dies (s : State) (u : Nat) (x : UnitRec) : (s.setUnit u x).dies = s.dies := rfl
@[simp] theorem State.setUnit_links (s : State) (u : Nat) (x : UnitRec) : (s.setUnit u x).links = s.links := rfl
@[simp] theorem State.setUnit_mgmt (s : State) (u : Nat) (x : UnitRec) : (s.setUnit u x).mgmt = s.mgmt := rfl
@[simp] theorem State.setUnit_debug (s : State) (u : Nat) (x : UnitRec) : (s.setUnit u x).debug = s.debug := rfl
@[simp] theorem State.setUnit_hostReads (s : State) (u : Nat) (x : UnitRec) : (s.setUnit u x).hostReads = s.hostReads := rfl
@[simp] theorem State.setUnit_hostCover (s : State) (u : Nat) (x : UnitRec) : (s.setUnit u x).hostCover = s.hostCover := rfl
@[simp] theorem State.setUnit_sentChunks (s : State) (u : Nat) (x : UnitRec) : (s.setUnit u x).sentChunks = s.sentChunks := rfl
@[simp] theorem State.setUnit_courierSent (s : State) (u : Nat) (x : UnitRec) : (s.setUnit u x).courierSent = s.courierSent := rfl
@[simp] theorem State.setUnit_cur (s : State) (u : Nat) (x : UnitRec) : (s.setUnit u x).cur = s.cur := rfl
@[simp] theorem State.setUnit_turns (s : State) (u : Nat) (x : UnitRec) : (s.setUnit u x).turns = s.turns := rfl
@[simp] theorem State.setUnit_fresh (s : State) (u : Nat) (x : UnitRec) : (s.setUnit u x).fresh = s.fresh := rfl

/-! ### `updUnit` -/

@[simp] theorem State.updUnit_cycle (s : State) (u : Nat) (f : UnitRec → UnitRec) : (s.updUnit u f).cycle = s.cycle := rfl
@[simp] theorem State.updUnit_mem (s : State) (u : Nat) (f : UnitRec → UnitRec) : (s.updUnit u f).mem = s.mem := rfl
@[simp] theorem State.updUnit_gPoison (s : State) (u : Nat) (f : UnitRec → UnitRec) : (s.updUnit u f).gPoison = s.gPoison := rfl
@[simp] theorem State.updUnit_creel (s : State) (u : Nat) (f : UnitRec → UnitRec) : (s.updUnit u f).creel = s.creel := rfl
@[simp] theorem State.updUnit_full (s : State) (u : Nat) (f : UnitRec → UnitRec) : (s.updUnit u f).full = s.full := rfl
@[simp] theorem State.updUnit_creelPoison (s : State) (u : Nat) (f : UnitRec → UnitRec) : (s.updUnit u f).creelPoison = s.creelPoison := rfl
@[simp] theorem State.updUnit_hist (s : State) (u : Nat) (f : UnitRec → UnitRec) : (s.updUnit u f).hist = s.hist := rfl
@[simp] theorem State.updUnit_fences (s : State) (u : Nat) (f : UnitRec → UnitRec) : (s.updUnit u f).fences = s.fences := rfl
@[simp] theorem State.updUnit_now (s : State) (u : Nat) (f : UnitRec → UnitRec) : (s.updUnit u f).now = s.now := rfl
@[simp] theorem State.updUnit_waves (s : State) (u : Nat) (f : UnitRec → UnitRec) : (s.updUnit u f).waves = s.waves := rfl
@[simp] theorem State.updUnit_clusters (s : State) (u : Nat) (f : UnitRec → UnitRec) : (s.updUnit u f).clusters = s.clusters := rfl
@[simp] theorem State.updUnit_nextUnit (s : State) (u : Nat) (f : UnitRec → UnitRec) : (s.updUnit u f).nextUnit = s.nextUnit := rfl
@[simp] theorem State.updUnit_flight (s : State) (u : Nat) (f : UnitRec → UnitRec) : (s.updUnit u f).flight = s.flight := rfl
@[simp] theorem State.updUnit_nextAccess (s : State) (u : Nat) (f : UnitRec → UnitRec) : (s.updUnit u f).nextAccess = s.nextAccess := rfl
@[simp] theorem State.updUnit_nextCmd (s : State) (u : Nat) (f : UnitRec → UnitRec) : (s.updUnit u f).nextCmd = s.nextCmd := rfl
@[simp] theorem State.updUnit_feOrder (s : State) (u : Nat) (f : UnitRec → UnitRec) : (s.updUnit u f).feOrder = s.feOrder := rfl
@[simp] theorem State.updUnit_creelQueue (s : State) (u : Nat) (f : UnitRec → UnitRec) : (s.updUnit u f).creelQueue = s.creelQueue := rfl
@[simp] theorem State.updUnit_spaces (s : State) (u : Nat) (f : UnitRec → UnitRec) : (s.updUnit u f).spaces = s.spaces := rfl
@[simp] theorem State.updUnit_parts (s : State) (u : Nat) (f : UnitRec → UnitRec) : (s.updUnit u f).parts = s.parts := rfl
@[simp] theorem State.updUnit_weaves (s : State) (u : Nat) (f : UnitRec → UnitRec) : (s.updUnit u f).weaves = s.weaves := rfl
@[simp] theorem State.updUnit_cancels (s : State) (u : Nat) (f : UnitRec → UnitRec) : (s.updUnit u f).cancels = s.cancels := rfl
@[simp] theorem State.updUnit_triggers (s : State) (u : Nat) (f : UnitRec → UnitRec) : (s.updUnit u f).triggers = s.triggers := rfl
@[simp] theorem State.updUnit_colls (s : State) (u : Nat) (f : UnitRec → UnitRec) : (s.updUnit u f).colls = s.colls := rfl
@[simp] theorem State.updUnit_atomCounts (s : State) (u : Nat) (f : UnitRec → UnitRec) : (s.updUnit u f).atomCounts = s.atomCounts := rfl
@[simp] theorem State.updUnit_halvedAt (s : State) (u : Nat) (f : UnitRec → UnitRec) : (s.updUnit u f).halvedAt = s.halvedAt := rfl
@[simp] theorem State.updUnit_courier (s : State) (u : Nat) (f : UnitRec → UnitRec) : (s.updUnit u f).courier = s.courier := rfl
@[simp] theorem State.updUnit_corrected (s : State) (u : Nat) (f : UnitRec → UnitRec) : (s.updUnit u f).corrected = s.corrected := rfl
@[simp] theorem State.updUnit_dies (s : State) (u : Nat) (f : UnitRec → UnitRec) : (s.updUnit u f).dies = s.dies := rfl
@[simp] theorem State.updUnit_links (s : State) (u : Nat) (f : UnitRec → UnitRec) : (s.updUnit u f).links = s.links := rfl
@[simp] theorem State.updUnit_mgmt (s : State) (u : Nat) (f : UnitRec → UnitRec) : (s.updUnit u f).mgmt = s.mgmt := rfl
@[simp] theorem State.updUnit_debug (s : State) (u : Nat) (f : UnitRec → UnitRec) : (s.updUnit u f).debug = s.debug := rfl
@[simp] theorem State.updUnit_hostReads (s : State) (u : Nat) (f : UnitRec → UnitRec) : (s.updUnit u f).hostReads = s.hostReads := rfl
@[simp] theorem State.updUnit_hostCover (s : State) (u : Nat) (f : UnitRec → UnitRec) : (s.updUnit u f).hostCover = s.hostCover := rfl
@[simp] theorem State.updUnit_sentChunks (s : State) (u : Nat) (f : UnitRec → UnitRec) : (s.updUnit u f).sentChunks = s.sentChunks := rfl
@[simp] theorem State.updUnit_courierSent (s : State) (u : Nat) (f : UnitRec → UnitRec) : (s.updUnit u f).courierSent = s.courierSent := rfl
@[simp] theorem State.updUnit_cur (s : State) (u : Nat) (f : UnitRec → UnitRec) : (s.updUnit u f).cur = s.cur := rfl
@[simp] theorem State.updUnit_turns (s : State) (u : Nat) (f : UnitRec → UnitRec) : (s.updUnit u f).turns = s.turns := rfl
@[simp] theorem State.updUnit_fresh (s : State) (u : Nat) (f : UnitRec → UnitRec) : (s.updUnit u f).fresh = s.fresh := rfl

/-! ### `setPart` -/

@[simp] theorem State.setPart_cycle (s : State) (p : Nat) (x : Partition) : (s.setPart p x).cycle = s.cycle := rfl
@[simp] theorem State.setPart_mem (s : State) (p : Nat) (x : Partition) : (s.setPart p x).mem = s.mem := rfl
@[simp] theorem State.setPart_gPoison (s : State) (p : Nat) (x : Partition) : (s.setPart p x).gPoison = s.gPoison := rfl
@[simp] theorem State.setPart_creel (s : State) (p : Nat) (x : Partition) : (s.setPart p x).creel = s.creel := rfl
@[simp] theorem State.setPart_full (s : State) (p : Nat) (x : Partition) : (s.setPart p x).full = s.full := rfl
@[simp] theorem State.setPart_creelPoison (s : State) (p : Nat) (x : Partition) : (s.setPart p x).creelPoison = s.creelPoison := rfl
@[simp] theorem State.setPart_hist (s : State) (p : Nat) (x : Partition) : (s.setPart p x).hist = s.hist := rfl
@[simp] theorem State.setPart_fences (s : State) (p : Nat) (x : Partition) : (s.setPart p x).fences = s.fences := rfl
@[simp] theorem State.setPart_now (s : State) (p : Nat) (x : Partition) : (s.setPart p x).now = s.now := rfl
@[simp] theorem State.setPart_waves (s : State) (p : Nat) (x : Partition) : (s.setPart p x).waves = s.waves := rfl
@[simp] theorem State.setPart_clusters (s : State) (p : Nat) (x : Partition) : (s.setPart p x).clusters = s.clusters := rfl
@[simp] theorem State.setPart_units (s : State) (p : Nat) (x : Partition) : (s.setPart p x).units = s.units := rfl
@[simp] theorem State.setPart_nextUnit (s : State) (p : Nat) (x : Partition) : (s.setPart p x).nextUnit = s.nextUnit := rfl
@[simp] theorem State.setPart_flight (s : State) (p : Nat) (x : Partition) : (s.setPart p x).flight = s.flight := rfl
@[simp] theorem State.setPart_nextAccess (s : State) (p : Nat) (x : Partition) : (s.setPart p x).nextAccess = s.nextAccess := rfl
@[simp] theorem State.setPart_nextCmd (s : State) (p : Nat) (x : Partition) : (s.setPart p x).nextCmd = s.nextCmd := rfl
@[simp] theorem State.setPart_feOrder (s : State) (p : Nat) (x : Partition) : (s.setPart p x).feOrder = s.feOrder := rfl
@[simp] theorem State.setPart_creelQueue (s : State) (p : Nat) (x : Partition) : (s.setPart p x).creelQueue = s.creelQueue := rfl
@[simp] theorem State.setPart_spaces (s : State) (p : Nat) (x : Partition) : (s.setPart p x).spaces = s.spaces := rfl
@[simp] theorem State.setPart_weaves (s : State) (p : Nat) (x : Partition) : (s.setPart p x).weaves = s.weaves := rfl
@[simp] theorem State.setPart_cancels (s : State) (p : Nat) (x : Partition) : (s.setPart p x).cancels = s.cancels := rfl
@[simp] theorem State.setPart_triggers (s : State) (p : Nat) (x : Partition) : (s.setPart p x).triggers = s.triggers := rfl
@[simp] theorem State.setPart_colls (s : State) (p : Nat) (x : Partition) : (s.setPart p x).colls = s.colls := rfl
@[simp] theorem State.setPart_atomCounts (s : State) (p : Nat) (x : Partition) : (s.setPart p x).atomCounts = s.atomCounts := rfl
@[simp] theorem State.setPart_halvedAt (s : State) (p : Nat) (x : Partition) : (s.setPart p x).halvedAt = s.halvedAt := rfl
@[simp] theorem State.setPart_courier (s : State) (p : Nat) (x : Partition) : (s.setPart p x).courier = s.courier := rfl
@[simp] theorem State.setPart_corrected (s : State) (p : Nat) (x : Partition) : (s.setPart p x).corrected = s.corrected := rfl
@[simp] theorem State.setPart_dies (s : State) (p : Nat) (x : Partition) : (s.setPart p x).dies = s.dies := rfl
@[simp] theorem State.setPart_links (s : State) (p : Nat) (x : Partition) : (s.setPart p x).links = s.links := rfl
@[simp] theorem State.setPart_mgmt (s : State) (p : Nat) (x : Partition) : (s.setPart p x).mgmt = s.mgmt := rfl
@[simp] theorem State.setPart_debug (s : State) (p : Nat) (x : Partition) : (s.setPart p x).debug = s.debug := rfl
@[simp] theorem State.setPart_hostReads (s : State) (p : Nat) (x : Partition) : (s.setPart p x).hostReads = s.hostReads := rfl
@[simp] theorem State.setPart_hostCover (s : State) (p : Nat) (x : Partition) : (s.setPart p x).hostCover = s.hostCover := rfl
@[simp] theorem State.setPart_sentChunks (s : State) (p : Nat) (x : Partition) : (s.setPart p x).sentChunks = s.sentChunks := rfl
@[simp] theorem State.setPart_courierSent (s : State) (p : Nat) (x : Partition) : (s.setPart p x).courierSent = s.courierSent := rfl
@[simp] theorem State.setPart_cur (s : State) (p : Nat) (x : Partition) : (s.setPart p x).cur = s.cur := rfl
@[simp] theorem State.setPart_turns (s : State) (p : Nat) (x : Partition) : (s.setPart p x).turns = s.turns := rfl
@[simp] theorem State.setPart_fresh (s : State) (p : Nat) (x : Partition) : (s.setPart p x).fresh = s.fresh := rfl

/-! ### `updPart` -/

@[simp] theorem State.updPart_cycle (s : State) (p : Nat) (f : Partition → Partition) : (s.updPart p f).cycle = s.cycle := rfl
@[simp] theorem State.updPart_mem (s : State) (p : Nat) (f : Partition → Partition) : (s.updPart p f).mem = s.mem := rfl
@[simp] theorem State.updPart_gPoison (s : State) (p : Nat) (f : Partition → Partition) : (s.updPart p f).gPoison = s.gPoison := rfl
@[simp] theorem State.updPart_creel (s : State) (p : Nat) (f : Partition → Partition) : (s.updPart p f).creel = s.creel := rfl
@[simp] theorem State.updPart_full (s : State) (p : Nat) (f : Partition → Partition) : (s.updPart p f).full = s.full := rfl
@[simp] theorem State.updPart_creelPoison (s : State) (p : Nat) (f : Partition → Partition) : (s.updPart p f).creelPoison = s.creelPoison := rfl
@[simp] theorem State.updPart_hist (s : State) (p : Nat) (f : Partition → Partition) : (s.updPart p f).hist = s.hist := rfl
@[simp] theorem State.updPart_fences (s : State) (p : Nat) (f : Partition → Partition) : (s.updPart p f).fences = s.fences := rfl
@[simp] theorem State.updPart_now (s : State) (p : Nat) (f : Partition → Partition) : (s.updPart p f).now = s.now := rfl
@[simp] theorem State.updPart_waves (s : State) (p : Nat) (f : Partition → Partition) : (s.updPart p f).waves = s.waves := rfl
@[simp] theorem State.updPart_clusters (s : State) (p : Nat) (f : Partition → Partition) : (s.updPart p f).clusters = s.clusters := rfl
@[simp] theorem State.updPart_units (s : State) (p : Nat) (f : Partition → Partition) : (s.updPart p f).units = s.units := rfl
@[simp] theorem State.updPart_nextUnit (s : State) (p : Nat) (f : Partition → Partition) : (s.updPart p f).nextUnit = s.nextUnit := rfl
@[simp] theorem State.updPart_flight (s : State) (p : Nat) (f : Partition → Partition) : (s.updPart p f).flight = s.flight := rfl
@[simp] theorem State.updPart_nextAccess (s : State) (p : Nat) (f : Partition → Partition) : (s.updPart p f).nextAccess = s.nextAccess := rfl
@[simp] theorem State.updPart_nextCmd (s : State) (p : Nat) (f : Partition → Partition) : (s.updPart p f).nextCmd = s.nextCmd := rfl
@[simp] theorem State.updPart_feOrder (s : State) (p : Nat) (f : Partition → Partition) : (s.updPart p f).feOrder = s.feOrder := rfl
@[simp] theorem State.updPart_creelQueue (s : State) (p : Nat) (f : Partition → Partition) : (s.updPart p f).creelQueue = s.creelQueue := rfl
@[simp] theorem State.updPart_spaces (s : State) (p : Nat) (f : Partition → Partition) : (s.updPart p f).spaces = s.spaces := rfl
@[simp] theorem State.updPart_weaves (s : State) (p : Nat) (f : Partition → Partition) : (s.updPart p f).weaves = s.weaves := rfl
@[simp] theorem State.updPart_cancels (s : State) (p : Nat) (f : Partition → Partition) : (s.updPart p f).cancels = s.cancels := rfl
@[simp] theorem State.updPart_triggers (s : State) (p : Nat) (f : Partition → Partition) : (s.updPart p f).triggers = s.triggers := rfl
@[simp] theorem State.updPart_colls (s : State) (p : Nat) (f : Partition → Partition) : (s.updPart p f).colls = s.colls := rfl
@[simp] theorem State.updPart_atomCounts (s : State) (p : Nat) (f : Partition → Partition) : (s.updPart p f).atomCounts = s.atomCounts := rfl
@[simp] theorem State.updPart_halvedAt (s : State) (p : Nat) (f : Partition → Partition) : (s.updPart p f).halvedAt = s.halvedAt := rfl
@[simp] theorem State.updPart_courier (s : State) (p : Nat) (f : Partition → Partition) : (s.updPart p f).courier = s.courier := rfl
@[simp] theorem State.updPart_corrected (s : State) (p : Nat) (f : Partition → Partition) : (s.updPart p f).corrected = s.corrected := rfl
@[simp] theorem State.updPart_dies (s : State) (p : Nat) (f : Partition → Partition) : (s.updPart p f).dies = s.dies := rfl
@[simp] theorem State.updPart_links (s : State) (p : Nat) (f : Partition → Partition) : (s.updPart p f).links = s.links := rfl
@[simp] theorem State.updPart_mgmt (s : State) (p : Nat) (f : Partition → Partition) : (s.updPart p f).mgmt = s.mgmt := rfl
@[simp] theorem State.updPart_debug (s : State) (p : Nat) (f : Partition → Partition) : (s.updPart p f).debug = s.debug := rfl
@[simp] theorem State.updPart_hostReads (s : State) (p : Nat) (f : Partition → Partition) : (s.updPart p f).hostReads = s.hostReads := rfl
@[simp] theorem State.updPart_hostCover (s : State) (p : Nat) (f : Partition → Partition) : (s.updPart p f).hostCover = s.hostCover := rfl
@[simp] theorem State.updPart_sentChunks (s : State) (p : Nat) (f : Partition → Partition) : (s.updPart p f).sentChunks = s.sentChunks := rfl
@[simp] theorem State.updPart_courierSent (s : State) (p : Nat) (f : Partition → Partition) : (s.updPart p f).courierSent = s.courierSent := rfl
@[simp] theorem State.updPart_cur (s : State) (p : Nat) (f : Partition → Partition) : (s.updPart p f).cur = s.cur := rfl
@[simp] theorem State.updPart_turns (s : State) (p : Nat) (f : Partition → Partition) : (s.updPart p f).turns = s.turns := rfl
@[simp] theorem State.updPart_fresh (s : State) (p : Nat) (f : Partition → Partition) : (s.updPart p f).fresh = s.fresh := rfl

/-! ### `setSpace` -/

@[simp] theorem State.setSpace_cycle (s : State) (a : Nat) (x : Space) : (s.setSpace a x).cycle = s.cycle := rfl
@[simp] theorem State.setSpace_mem (s : State) (a : Nat) (x : Space) : (s.setSpace a x).mem = s.mem := rfl
@[simp] theorem State.setSpace_gPoison (s : State) (a : Nat) (x : Space) : (s.setSpace a x).gPoison = s.gPoison := rfl
@[simp] theorem State.setSpace_creel (s : State) (a : Nat) (x : Space) : (s.setSpace a x).creel = s.creel := rfl
@[simp] theorem State.setSpace_full (s : State) (a : Nat) (x : Space) : (s.setSpace a x).full = s.full := rfl
@[simp] theorem State.setSpace_creelPoison (s : State) (a : Nat) (x : Space) : (s.setSpace a x).creelPoison = s.creelPoison := rfl
@[simp] theorem State.setSpace_hist (s : State) (a : Nat) (x : Space) : (s.setSpace a x).hist = s.hist := rfl
@[simp] theorem State.setSpace_fences (s : State) (a : Nat) (x : Space) : (s.setSpace a x).fences = s.fences := rfl
@[simp] theorem State.setSpace_now (s : State) (a : Nat) (x : Space) : (s.setSpace a x).now = s.now := rfl
@[simp] theorem State.setSpace_waves (s : State) (a : Nat) (x : Space) : (s.setSpace a x).waves = s.waves := rfl
@[simp] theorem State.setSpace_clusters (s : State) (a : Nat) (x : Space) : (s.setSpace a x).clusters = s.clusters := rfl
@[simp] theorem State.setSpace_units (s : State) (a : Nat) (x : Space) : (s.setSpace a x).units = s.units := rfl
@[simp] theorem State.setSpace_nextUnit (s : State) (a : Nat) (x : Space) : (s.setSpace a x).nextUnit = s.nextUnit := rfl
@[simp] theorem State.setSpace_flight (s : State) (a : Nat) (x : Space) : (s.setSpace a x).flight = s.flight := rfl
@[simp] theorem State.setSpace_nextAccess (s : State) (a : Nat) (x : Space) : (s.setSpace a x).nextAccess = s.nextAccess := rfl
@[simp] theorem State.setSpace_nextCmd (s : State) (a : Nat) (x : Space) : (s.setSpace a x).nextCmd = s.nextCmd := rfl
@[simp] theorem State.setSpace_feOrder (s : State) (a : Nat) (x : Space) : (s.setSpace a x).feOrder = s.feOrder := rfl
@[simp] theorem State.setSpace_creelQueue (s : State) (a : Nat) (x : Space) : (s.setSpace a x).creelQueue = s.creelQueue := rfl
@[simp] theorem State.setSpace_parts (s : State) (a : Nat) (x : Space) : (s.setSpace a x).parts = s.parts := rfl
@[simp] theorem State.setSpace_weaves (s : State) (a : Nat) (x : Space) : (s.setSpace a x).weaves = s.weaves := rfl
@[simp] theorem State.setSpace_cancels (s : State) (a : Nat) (x : Space) : (s.setSpace a x).cancels = s.cancels := rfl
@[simp] theorem State.setSpace_triggers (s : State) (a : Nat) (x : Space) : (s.setSpace a x).triggers = s.triggers := rfl
@[simp] theorem State.setSpace_colls (s : State) (a : Nat) (x : Space) : (s.setSpace a x).colls = s.colls := rfl
@[simp] theorem State.setSpace_atomCounts (s : State) (a : Nat) (x : Space) : (s.setSpace a x).atomCounts = s.atomCounts := rfl
@[simp] theorem State.setSpace_halvedAt (s : State) (a : Nat) (x : Space) : (s.setSpace a x).halvedAt = s.halvedAt := rfl
@[simp] theorem State.setSpace_courier (s : State) (a : Nat) (x : Space) : (s.setSpace a x).courier = s.courier := rfl
@[simp] theorem State.setSpace_corrected (s : State) (a : Nat) (x : Space) : (s.setSpace a x).corrected = s.corrected := rfl
@[simp] theorem State.setSpace_dies (s : State) (a : Nat) (x : Space) : (s.setSpace a x).dies = s.dies := rfl
@[simp] theorem State.setSpace_links (s : State) (a : Nat) (x : Space) : (s.setSpace a x).links = s.links := rfl
@[simp] theorem State.setSpace_mgmt (s : State) (a : Nat) (x : Space) : (s.setSpace a x).mgmt = s.mgmt := rfl
@[simp] theorem State.setSpace_debug (s : State) (a : Nat) (x : Space) : (s.setSpace a x).debug = s.debug := rfl
@[simp] theorem State.setSpace_hostReads (s : State) (a : Nat) (x : Space) : (s.setSpace a x).hostReads = s.hostReads := rfl
@[simp] theorem State.setSpace_hostCover (s : State) (a : Nat) (x : Space) : (s.setSpace a x).hostCover = s.hostCover := rfl
@[simp] theorem State.setSpace_sentChunks (s : State) (a : Nat) (x : Space) : (s.setSpace a x).sentChunks = s.sentChunks := rfl
@[simp] theorem State.setSpace_courierSent (s : State) (a : Nat) (x : Space) : (s.setSpace a x).courierSent = s.courierSent := rfl
@[simp] theorem State.setSpace_cur (s : State) (a : Nat) (x : Space) : (s.setSpace a x).cur = s.cur := rfl
@[simp] theorem State.setSpace_turns (s : State) (a : Nat) (x : Space) : (s.setSpace a x).turns = s.turns := rfl
@[simp] theorem State.setSpace_fresh (s : State) (a : Nat) (x : Space) : (s.setSpace a x).fresh = s.fresh := rfl

/-! ### `setDie` -/

@[simp] theorem State.setDie_cycle (s : State) (d : Nat) (x : Die) : (s.setDie d x).cycle = s.cycle := rfl
@[simp] theorem State.setDie_mem (s : State) (d : Nat) (x : Die) : (s.setDie d x).mem = s.mem := rfl
@[simp] theorem State.setDie_gPoison (s : State) (d : Nat) (x : Die) : (s.setDie d x).gPoison = s.gPoison := rfl
@[simp] theorem State.setDie_creel (s : State) (d : Nat) (x : Die) : (s.setDie d x).creel = s.creel := rfl
@[simp] theorem State.setDie_full (s : State) (d : Nat) (x : Die) : (s.setDie d x).full = s.full := rfl
@[simp] theorem State.setDie_creelPoison (s : State) (d : Nat) (x : Die) : (s.setDie d x).creelPoison = s.creelPoison := rfl
@[simp] theorem State.setDie_hist (s : State) (d : Nat) (x : Die) : (s.setDie d x).hist = s.hist := rfl
@[simp] theorem State.setDie_fences (s : State) (d : Nat) (x : Die) : (s.setDie d x).fences = s.fences := rfl
@[simp] theorem State.setDie_now (s : State) (d : Nat) (x : Die) : (s.setDie d x).now = s.now := rfl
@[simp] theorem State.setDie_waves (s : State) (d : Nat) (x : Die) : (s.setDie d x).waves = s.waves := rfl
@[simp] theorem State.setDie_clusters (s : State) (d : Nat) (x : Die) : (s.setDie d x).clusters = s.clusters := rfl
@[simp] theorem State.setDie_units (s : State) (d : Nat) (x : Die) : (s.setDie d x).units = s.units := rfl
@[simp] theorem State.setDie_nextUnit (s : State) (d : Nat) (x : Die) : (s.setDie d x).nextUnit = s.nextUnit := rfl
@[simp] theorem State.setDie_flight (s : State) (d : Nat) (x : Die) : (s.setDie d x).flight = s.flight := rfl
@[simp] theorem State.setDie_nextAccess (s : State) (d : Nat) (x : Die) : (s.setDie d x).nextAccess = s.nextAccess := rfl
@[simp] theorem State.setDie_nextCmd (s : State) (d : Nat) (x : Die) : (s.setDie d x).nextCmd = s.nextCmd := rfl
@[simp] theorem State.setDie_feOrder (s : State) (d : Nat) (x : Die) : (s.setDie d x).feOrder = s.feOrder := rfl
@[simp] theorem State.setDie_creelQueue (s : State) (d : Nat) (x : Die) : (s.setDie d x).creelQueue = s.creelQueue := rfl
@[simp] theorem State.setDie_spaces (s : State) (d : Nat) (x : Die) : (s.setDie d x).spaces = s.spaces := rfl
@[simp] theorem State.setDie_parts (s : State) (d : Nat) (x : Die) : (s.setDie d x).parts = s.parts := rfl
@[simp] theorem State.setDie_weaves (s : State) (d : Nat) (x : Die) : (s.setDie d x).weaves = s.weaves := rfl
@[simp] theorem State.setDie_cancels (s : State) (d : Nat) (x : Die) : (s.setDie d x).cancels = s.cancels := rfl
@[simp] theorem State.setDie_triggers (s : State) (d : Nat) (x : Die) : (s.setDie d x).triggers = s.triggers := rfl
@[simp] theorem State.setDie_colls (s : State) (d : Nat) (x : Die) : (s.setDie d x).colls = s.colls := rfl
@[simp] theorem State.setDie_atomCounts (s : State) (d : Nat) (x : Die) : (s.setDie d x).atomCounts = s.atomCounts := rfl
@[simp] theorem State.setDie_halvedAt (s : State) (d : Nat) (x : Die) : (s.setDie d x).halvedAt = s.halvedAt := rfl
@[simp] theorem State.setDie_courier (s : State) (d : Nat) (x : Die) : (s.setDie d x).courier = s.courier := rfl
@[simp] theorem State.setDie_corrected (s : State) (d : Nat) (x : Die) : (s.setDie d x).corrected = s.corrected := rfl
@[simp] theorem State.setDie_links (s : State) (d : Nat) (x : Die) : (s.setDie d x).links = s.links := rfl
@[simp] theorem State.setDie_mgmt (s : State) (d : Nat) (x : Die) : (s.setDie d x).mgmt = s.mgmt := rfl
@[simp] theorem State.setDie_debug (s : State) (d : Nat) (x : Die) : (s.setDie d x).debug = s.debug := rfl
@[simp] theorem State.setDie_hostReads (s : State) (d : Nat) (x : Die) : (s.setDie d x).hostReads = s.hostReads := rfl
@[simp] theorem State.setDie_hostCover (s : State) (d : Nat) (x : Die) : (s.setDie d x).hostCover = s.hostCover := rfl
@[simp] theorem State.setDie_sentChunks (s : State) (d : Nat) (x : Die) : (s.setDie d x).sentChunks = s.sentChunks := rfl
@[simp] theorem State.setDie_courierSent (s : State) (d : Nat) (x : Die) : (s.setDie d x).courierSent = s.courierSent := rfl
@[simp] theorem State.setDie_cur (s : State) (d : Nat) (x : Die) : (s.setDie d x).cur = s.cur := rfl
@[simp] theorem State.setDie_turns (s : State) (d : Nat) (x : Die) : (s.setDie d x).turns = s.turns := rfl
@[simp] theorem State.setDie_fresh (s : State) (d : Nat) (x : Die) : (s.setDie d x).fresh = s.fresh := rfl

/-! ### Reading what was put -/

theorem State.wave_setWave (s : State) (k j : Nat) (w : Wave) : (s.setWave k w).wave j = if j = k then w else s.wave j :=
  SMap.get_put _ _ _ _ _
@[simp] theorem State.wave_setWave_self (s : State) (k : Nat) (w : Wave) : (s.setWave k w).wave k = w := SMap.get_put_self _ _ _ _
theorem State.wave_updWave (s : State) (k j : Nat) (f : Wave → Wave) :
    (s.updWave k f).wave j = if j = k then f (s.wave k) else s.wave j := SMap.get_put _ _ _ _ _
@[simp] theorem State.wave_updWave_self (s : State) (k : Nat) (f : Wave → Wave) : (s.updWave k f).wave k = f (s.wave k) :=
  SMap.get_put_self _ _ _ _
theorem State.cluster_setCluster (s : State) (c d : Nat) (x : Cluster) :
    (s.setCluster c x).cluster d = if d = c then x else s.cluster d := SMap.get_put _ _ _ _ _
@[simp] theorem State.cluster_setCluster_self (s : State) (c : Nat) (x : Cluster) : (s.setCluster c x).cluster c = x :=
  SMap.get_put_self _ _ _ _
theorem State.cluster_updSeq (s : State) (c d : Nat) (f : Seq → Seq) :
    (s.updSeq c f).cluster d = if d = c then { s.cluster c with seq := f (s.cluster c).seq } else s.cluster d :=
  SMap.get_put _ _ _ _ _
@[simp] theorem State.cluster_updSeq_self (s : State) (c : Nat) (f : Seq → Seq) :
    (s.updSeq c f).cluster c = { s.cluster c with seq := f (s.cluster c).seq } := SMap.get_put_self _ _ _ _
theorem State.unit_setUnit (s : State) (u v : Nat) (x : UnitRec) : (s.setUnit u x).unit v = if v = u then x else s.unit v :=
  SMap.get_put _ _ _ _ _
@[simp] theorem State.unit_setUnit_self (s : State) (u : Nat) (x : UnitRec) : (s.setUnit u x).unit u = x :=
  SMap.get_put_self _ _ _ _
theorem State.unit_updUnit (s : State) (u v : Nat) (f : UnitRec → UnitRec) :
    (s.updUnit u f).unit v = if v = u then f (s.unit u) else s.unit v := SMap.get_put _ _ _ _ _
@[simp] theorem State.unit_updUnit_self (s : State) (u : Nat) (f : UnitRec → UnitRec) : (s.updUnit u f).unit u = f (s.unit u) :=
  SMap.get_put_self _ _ _ _
theorem State.part_setPart (s : State) (p q : Nat) (x : Partition) : (s.setPart p x).part q = if q = p then x else s.part q :=
  SMap.get_put _ _ _ _ _
@[simp] theorem State.part_setPart_self (s : State) (p : Nat) (x : Partition) : (s.setPart p x).part p = x :=
  SMap.get_put_self _ _ _ _
theorem State.part_updPart (s : State) (p q : Nat) (f : Partition → Partition) :
    (s.updPart p f).part q = if q = p then f (s.part p) else s.part q := SMap.get_put _ _ _ _ _
@[simp] theorem State.part_updPart_self (s : State) (p : Nat) (f : Partition → Partition) :
    (s.updPart p f).part p = f (s.part p) := SMap.get_put_self _ _ _ _
theorem State.space_setSpace (s : State) (a b : Nat) (x : Space) : (s.setSpace a x).space b = if b = a then x else s.space b :=
  SMap.get_put _ _ _ _ _
theorem State.die_setDie (s : State) (d e : Nat) (x : Die) : (s.setDie d x).die e = if e = d then x else s.die e :=
  SMap.get_put _ _ _ _ _
@[simp] theorem State.die_setDie_self (s : State) (d : Nat) (x : Die) : (s.setDie d x).die d = x := SMap.get_put_self _ _ _ _

/-! ### The strand whose turn it is -/

@[simp] theorem State.setStrand_cycle (s : State) (t : Strand) : (s.setStrand t).cycle = s.cycle := by
  unfold State.setStrand; cases s.cur.kind <;> rfl
@[simp] theorem State.setStrand_mem (s : State) (t : Strand) : (s.setStrand t).mem = s.mem := by
  unfold State.setStrand; cases s.cur.kind <;> rfl
@[simp] theorem State.setStrand_gPoison (s : State) (t : Strand) : (s.setStrand t).gPoison = s.gPoison := by
  unfold State.setStrand; cases s.cur.kind <;> rfl
@[simp] theorem State.setStrand_creel (s : State) (t : Strand) : (s.setStrand t).creel = s.creel := by
  unfold State.setStrand; cases s.cur.kind <;> rfl
@[simp] theorem State.setStrand_full (s : State) (t : Strand) : (s.setStrand t).full = s.full := by
  unfold State.setStrand; cases s.cur.kind <;> rfl
@[simp] theorem State.setStrand_creelPoison (s : State) (t : Strand) : (s.setStrand t).creelPoison = s.creelPoison := by
  unfold State.setStrand; cases s.cur.kind <;> rfl
@[simp] theorem State.setStrand_hist (s : State) (t : Strand) : (s.setStrand t).hist = s.hist := by
  unfold State.setStrand; cases s.cur.kind <;> rfl
@[simp] theorem State.setStrand_fences (s : State) (t : Strand) : (s.setStrand t).fences = s.fences := by
  unfold State.setStrand; cases s.cur.kind <;> rfl
@[simp] theorem State.setStrand_now (s : State) (t : Strand) : (s.setStrand t).now = s.now := by
  unfold State.setStrand; cases s.cur.kind <;> rfl
@[simp] theorem State.setStrand_units (s : State) (t : Strand) : (s.setStrand t).units = s.units := by
  unfold State.setStrand; cases s.cur.kind <;> rfl
@[simp] theorem State.setStrand_nextUnit (s : State) (t : Strand) : (s.setStrand t).nextUnit = s.nextUnit := by
  unfold State.setStrand; cases s.cur.kind <;> rfl
@[simp] theorem State.setStrand_flight (s : State) (t : Strand) : (s.setStrand t).flight = s.flight := by
  unfold State.setStrand; cases s.cur.kind <;> rfl
@[simp] theorem State.setStrand_nextAccess (s : State) (t : Strand) : (s.setStrand t).nextAccess = s.nextAccess := by
  unfold State.setStrand; cases s.cur.kind <;> rfl
@[simp] theorem State.setStrand_nextCmd (s : State) (t : Strand) : (s.setStrand t).nextCmd = s.nextCmd := by
  unfold State.setStrand; cases s.cur.kind <;> rfl
@[simp] theorem State.setStrand_feOrder (s : State) (t : Strand) : (s.setStrand t).feOrder = s.feOrder := by
  unfold State.setStrand; cases s.cur.kind <;> rfl
@[simp] theorem State.setStrand_creelQueue (s : State) (t : Strand) : (s.setStrand t).creelQueue = s.creelQueue := by
  unfold State.setStrand; cases s.cur.kind <;> rfl
@[simp] theorem State.setStrand_spaces (s : State) (t : Strand) : (s.setStrand t).spaces = s.spaces := by
  unfold State.setStrand; cases s.cur.kind <;> rfl
@[simp] theorem State.setStrand_parts (s : State) (t : Strand) : (s.setStrand t).parts = s.parts := by
  unfold State.setStrand; cases s.cur.kind <;> rfl
@[simp] theorem State.setStrand_weaves (s : State) (t : Strand) : (s.setStrand t).weaves = s.weaves := by
  unfold State.setStrand; cases s.cur.kind <;> rfl
@[simp] theorem State.setStrand_cancels (s : State) (t : Strand) : (s.setStrand t).cancels = s.cancels := by
  unfold State.setStrand; cases s.cur.kind <;> rfl
@[simp] theorem State.setStrand_triggers (s : State) (t : Strand) : (s.setStrand t).triggers = s.triggers := by
  unfold State.setStrand; cases s.cur.kind <;> rfl
@[simp] theorem State.setStrand_colls (s : State) (t : Strand) : (s.setStrand t).colls = s.colls := by
  unfold State.setStrand; cases s.cur.kind <;> rfl
@[simp] theorem State.setStrand_atomCounts (s : State) (t : Strand) : (s.setStrand t).atomCounts = s.atomCounts := by
  unfold State.setStrand; cases s.cur.kind <;> rfl
@[simp] theorem State.setStrand_halvedAt (s : State) (t : Strand) : (s.setStrand t).halvedAt = s.halvedAt := by
  unfold State.setStrand; cases s.cur.kind <;> rfl
@[simp] theorem State.setStrand_courier (s : State) (t : Strand) : (s.setStrand t).courier = s.courier := by
  unfold State.setStrand; cases s.cur.kind <;> rfl
@[simp] theorem State.setStrand_corrected (s : State) (t : Strand) : (s.setStrand t).corrected = s.corrected := by
  unfold State.setStrand; cases s.cur.kind <;> rfl
@[simp] theorem State.setStrand_dies (s : State) (t : Strand) : (s.setStrand t).dies = s.dies := by
  unfold State.setStrand; cases s.cur.kind <;> rfl
@[simp] theorem State.setStrand_links (s : State) (t : Strand) : (s.setStrand t).links = s.links := by
  unfold State.setStrand; cases s.cur.kind <;> rfl
@[simp] theorem State.setStrand_mgmt (s : State) (t : Strand) : (s.setStrand t).mgmt = s.mgmt := by
  unfold State.setStrand; cases s.cur.kind <;> rfl
@[simp] theorem State.setStrand_debug (s : State) (t : Strand) : (s.setStrand t).debug = s.debug := by
  unfold State.setStrand; cases s.cur.kind <;> rfl
@[simp] theorem State.setStrand_hostReads (s : State) (t : Strand) : (s.setStrand t).hostReads = s.hostReads := by
  unfold State.setStrand; cases s.cur.kind <;> rfl
@[simp] theorem State.setStrand_hostCover (s : State) (t : Strand) : (s.setStrand t).hostCover = s.hostCover := by
  unfold State.setStrand; cases s.cur.kind <;> rfl
@[simp] theorem State.setStrand_sentChunks (s : State) (t : Strand) : (s.setStrand t).sentChunks = s.sentChunks := by
  unfold State.setStrand; cases s.cur.kind <;> rfl
@[simp] theorem State.setStrand_courierSent (s : State) (t : Strand) : (s.setStrand t).courierSent = s.courierSent := by
  unfold State.setStrand; cases s.cur.kind <;> rfl
@[simp] theorem State.setStrand_cur (s : State) (t : Strand) : (s.setStrand t).cur = s.cur := by
  unfold State.setStrand; cases s.cur.kind <;> rfl
@[simp] theorem State.setStrand_turns (s : State) (t : Strand) : (s.setStrand t).turns = s.turns := by
  unfold State.setStrand; cases s.cur.kind <;> rfl
@[simp] theorem State.setStrand_fresh (s : State) (t : Strand) : (s.setStrand t).fresh = s.fresh := by
  unfold State.setStrand; cases s.cur.kind <;> rfl

@[simp] theorem State.updStrand_cycle (s : State) (f : Strand → Strand) : (s.updStrand f).cycle = s.cycle := State.setStrand_cycle _ _
@[simp] theorem State.updStrand_mem (s : State) (f : Strand → Strand) : (s.updStrand f).mem = s.mem := State.setStrand_mem _ _
@[simp] theorem State.updStrand_gPoison (s : State) (f : Strand → Strand) : (s.updStrand f).gPoison = s.gPoison := State.setStrand_gPoison _ _
@[simp] theorem State.updStrand_creel (s : State) (f : Strand → Strand) : (s.updStrand f).creel = s.creel := State.setStrand_creel _ _
@[simp] theorem State.updStrand_full (s : State) (f : Strand → Strand) : (s.updStrand f).full = s.full := State.setStrand_full _ _
@[simp] theorem State.updStrand_creelPoison (s : State) (f : Strand → Strand) : (s.updStrand f).creelPoison = s.creelPoison := State.setStrand_creelPoison _ _
@[simp] theorem State.updStrand_hist (s : State) (f : Strand → Strand) : (s.updStrand f).hist = s.hist := State.setStrand_hist _ _
@[simp] theorem State.updStrand_fences (s : State) (f : Strand → Strand) : (s.updStrand f).fences = s.fences := State.setStrand_fences _ _
@[simp] theorem State.updStrand_now (s : State) (f : Strand → Strand) : (s.updStrand f).now = s.now := State.setStrand_now _ _
@[simp] theorem State.updStrand_units (s : State) (f : Strand → Strand) : (s.updStrand f).units = s.units := State.setStrand_units _ _
@[simp] theorem State.updStrand_nextUnit (s : State) (f : Strand → Strand) : (s.updStrand f).nextUnit = s.nextUnit := State.setStrand_nextUnit _ _
@[simp] theorem State.updStrand_flight (s : State) (f : Strand → Strand) : (s.updStrand f).flight = s.flight := State.setStrand_flight _ _
@[simp] theorem State.updStrand_nextAccess (s : State) (f : Strand → Strand) : (s.updStrand f).nextAccess = s.nextAccess := State.setStrand_nextAccess _ _
@[simp] theorem State.updStrand_nextCmd (s : State) (f : Strand → Strand) : (s.updStrand f).nextCmd = s.nextCmd := State.setStrand_nextCmd _ _
@[simp] theorem State.updStrand_feOrder (s : State) (f : Strand → Strand) : (s.updStrand f).feOrder = s.feOrder := State.setStrand_feOrder _ _
@[simp] theorem State.updStrand_creelQueue (s : State) (f : Strand → Strand) : (s.updStrand f).creelQueue = s.creelQueue := State.setStrand_creelQueue _ _
@[simp] theorem State.updStrand_spaces (s : State) (f : Strand → Strand) : (s.updStrand f).spaces = s.spaces := State.setStrand_spaces _ _
@[simp] theorem State.updStrand_parts (s : State) (f : Strand → Strand) : (s.updStrand f).parts = s.parts := State.setStrand_parts _ _
@[simp] theorem State.updStrand_weaves (s : State) (f : Strand → Strand) : (s.updStrand f).weaves = s.weaves := State.setStrand_weaves _ _
@[simp] theorem State.updStrand_cancels (s : State) (f : Strand → Strand) : (s.updStrand f).cancels = s.cancels := State.setStrand_cancels _ _
@[simp] theorem State.updStrand_triggers (s : State) (f : Strand → Strand) : (s.updStrand f).triggers = s.triggers := State.setStrand_triggers _ _
@[simp] theorem State.updStrand_colls (s : State) (f : Strand → Strand) : (s.updStrand f).colls = s.colls := State.setStrand_colls _ _
@[simp] theorem State.updStrand_atomCounts (s : State) (f : Strand → Strand) : (s.updStrand f).atomCounts = s.atomCounts := State.setStrand_atomCounts _ _
@[simp] theorem State.updStrand_halvedAt (s : State) (f : Strand → Strand) : (s.updStrand f).halvedAt = s.halvedAt := State.setStrand_halvedAt _ _
@[simp] theorem State.updStrand_courier (s : State) (f : Strand → Strand) : (s.updStrand f).courier = s.courier := State.setStrand_courier _ _
@[simp] theorem State.updStrand_corrected (s : State) (f : Strand → Strand) : (s.updStrand f).corrected = s.corrected := State.setStrand_corrected _ _
@[simp] theorem State.updStrand_dies (s : State) (f : Strand → Strand) : (s.updStrand f).dies = s.dies := State.setStrand_dies _ _
@[simp] theorem State.updStrand_links (s : State) (f : Strand → Strand) : (s.updStrand f).links = s.links := State.setStrand_links _ _
@[simp] theorem State.updStrand_mgmt (s : State) (f : Strand → Strand) : (s.updStrand f).mgmt = s.mgmt := State.setStrand_mgmt _ _
@[simp] theorem State.updStrand_debug (s : State) (f : Strand → Strand) : (s.updStrand f).debug = s.debug := State.setStrand_debug _ _
@[simp] theorem State.updStrand_hostReads (s : State) (f : Strand → Strand) : (s.updStrand f).hostReads = s.hostReads := State.setStrand_hostReads _ _
@[simp] theorem State.updStrand_hostCover (s : State) (f : Strand → Strand) : (s.updStrand f).hostCover = s.hostCover := State.setStrand_hostCover _ _
@[simp] theorem State.updStrand_sentChunks (s : State) (f : Strand → Strand) : (s.updStrand f).sentChunks = s.sentChunks := State.setStrand_sentChunks _ _
@[simp] theorem State.updStrand_courierSent (s : State) (f : Strand → Strand) : (s.updStrand f).courierSent = s.courierSent := State.setStrand_courierSent _ _
@[simp] theorem State.updStrand_cur (s : State) (f : Strand → Strand) : (s.updStrand f).cur = s.cur := State.setStrand_cur _ _
@[simp] theorem State.updStrand_turns (s : State) (f : Strand → Strand) : (s.updStrand f).turns = s.turns := State.setStrand_turns _ _
@[simp] theorem State.updStrand_fresh (s : State) (f : Strand → Strand) : (s.updStrand f).fresh = s.fresh := State.setStrand_fresh _ _

/-- The wave tables after the strand whose turn it is has been put. -/
theorem State.wave_setStrand (s : State) (t : Strand) (k : Nat) :
    (s.setStrand t).wave k = if k = s.cur.wave then
        (match s.cur.kind with
          | .access => { s.wave k with acc := t }
          | .compute => { s.wave k with cmp := t }
          | .seq => s.wave k) else s.wave k := by
  unfold State.setStrand
  cases h : s.cur.kind
  · rw [State.wave_updWave]; by_cases hk : k = s.cur.wave
    · subst hk; rfl
    · simp [hk]
  · rw [State.wave_updWave]; by_cases hk : k = s.cur.wave
    · subst hk; rfl
    · simp [hk]
  · show s.wave k = _
    split <;> rfl

/-- The cluster table after the strand whose turn it is has been put. -/
theorem State.cluster_setStrand (s : State) (t : Strand) (c : Nat) :
    (s.setStrand t).cluster c = if c = s.curCluster then
        (match s.cur.kind with
          | .seq => { s.cluster c with seq := { (s.cluster c).seq with strand := t } }
          | _ => s.cluster c) else s.cluster c := by
  unfold State.setStrand
  cases h : s.cur.kind
  · show s.cluster c = _
    split <;> rfl
  · show s.cluster c = _
    split <;> rfl
  · rw [State.cluster_updSeq]; by_cases hk : c = s.curCluster
    · subst hk; rfl
    · simp [hk]

@[simp] theorem State.curCluster_setStrand (s : State) (t : Strand) : (s.setStrand t).curCluster = s.curCluster := by
  simp [State.curCluster]
@[simp] theorem State.curCluster_updStrand (s : State) (f : Strand → Strand) : (s.updStrand f).curCluster = s.curCluster := by
  simp [State.curCluster]

/-- The strand that was put is the strand whose turn it is. -/
@[simp] theorem State.strand_setStrand (s : State) (t : Strand) : (s.setStrand t).strand = t := by
  unfold State.strand
  rw [State.setStrand_cur]
  cases h : s.cur.kind
  · simp [State.curWave, State.wave_setStrand, h]
  · simp [State.curWave, State.wave_setStrand, h]
  · simp [State.cluster_setStrand, h]
@[simp] theorem State.strand_updStrand (s : State) (f : Strand → Strand) : (s.updStrand f).strand = f s.strand :=
  State.strand_setStrand s _

/-- The second of two puts of the strand stands. -/
@[simp] theorem State.setStrand_setStrand (s : State) (t u : Strand) : (s.setStrand t).setStrand u = s.setStrand u := by
  have hc : (s.setStrand t).cur = s.cur := State.setStrand_cur s t
  unfold State.setStrand at hc ⊢
  cases h : s.cur.kind <;> simp only [h] at hc ⊢ <;> simp only [hc, h]
  · simp [State.updWave, State.setWave, State.wave]
  · simp [State.updWave, State.setWave, State.wave]
  · simp [State.updSeq, State.setCluster, State.cluster, State.curCluster]
/-- Two changes of the strand are one. -/
@[simp] theorem State.updStrand_updStrand (s : State) (f g : Strand → Strand) :
    (s.updStrand f).updStrand g = s.updStrand fun t => g (f t) := by
  simp [State.updStrand]

end Sys2Proof.Machine
end

