-- ==== Sys2Proof/Laws/Frames.lean ====
section
/-! SUPPORT. One law for each shared way in which an instruction issues: what it writes and what it leaves unchanged (R10, R30 to
R32, R41, R98). -/

namespace Sys2Proof.Machine

/-! ## Poison bits -/

theorem maskBit_clear (m : W64) (d r : Nat) : maskBit (m &&& ~~~(BitVec.twoPow 64 d)) r = (maskBit m r && decide (d ≠ r)) := by
  simp only [maskBit, BitVec.getLsbD_and, BitVec.getLsbD_not, BitVec.getLsbD_twoPow]
  by_cases hr : r < 64
  · by_cases hd : d = r <;> simp [hr, hd]
  · simp [hr, BitVec.getLsbD_of_ge m r (by omega)]

/-! ## Replies that are dropped -/

theorem State.dropReplies_rest (s : State) (d : Nat) : s.dropReplies d = { s with flight := (s.dropReplies d).flight } := by
  unfold State.dropReplies; cases s.cur.kind <;> rfl

theorem State.dropReplies_find (s : State) (d n : Nat) :
    SMap.find (s.dropReplies d).flight n = (SMap.find s.flight n).map fun a =>
      if s.cur.kind = .access ∧ a.unit = s.curWave.unit ∧ a.idx = s.curWave.pos ∧ a.dest = .s d then
        { a with dest := .none } else a := by
  unfold State.dropReplies
  cases h : s.cur.kind
  · simp only [SMap.find_mapVals, true_and]
  · simp
  · simp

theorem waiting_mapVals (f : Nat → Access → Access) (p : Nat × Access → Bool) (hf : ∀ k a, p (k, f k a) = p (k, a)) (m : SMap Access) :
    ((SMap.mapVals f m).filter p).isEmpty = (m.filter p).isEmpty := by
  induction m with
  | nil => rfl
  | cons e m ih =>
    have h1 := hf e.1 e.2
    simp only [SMap.mapVals, List.map_cons, List.filter_cons] at ih ⊢
    rw [h1]
    split
    · rfl
    · exact ih

theorem State.drained_dropReplies (s : State) (d : Nat) : (s.dropReplies d).drained = s.drained := by
  have hc : (s.dropReplies d).cur = s.cur := by rw [State.dropReplies_rest]
  have hw : (s.dropReplies d).curWave = s.curWave := by rw [State.dropReplies_rest]; rfl
  unfold State.drained State.waiting
  rw [hc, hw]
  cases h : s.cur.kind
  · simp only [State.dropReplies, h]
    refine waiting_mapVals _ _ (fun k a => ?_) _
    simp only
    split <;> rfl
  · rfl
  · rfl

/-- The state apart from its flight: the strand and its wave. -/
theorem State.dropReplies_strand (s : State) (d : Nat) : (s.dropReplies d).strand = s.strand := by
  rw [State.dropReplies_rest]; rfl

/-! ## A strand that is put -/

/-- The wave whose turn it is after its strand has been put. -/
theorem State.curWave_setStrand (s : State) (t : Strand) :
    (s.setStrand t).curWave = match s.cur.kind with
      | .access => { s.curWave with acc := t }
      | .compute => { s.curWave with cmp := t }
      | .seq => s.curWave := by
  rw [State.curWave, State.setStrand_cur, State.wave_setStrand, if_pos rfl]
  cases s.cur.kind <;> rfl

theorem State.drained_setStrand (s : State) (t : Strand) : (s.setStrand t).drained = s.drained := by
  have hu : (s.setStrand t).curWave.unit = s.curWave.unit := by rw [State.curWave_setStrand]; cases s.cur.kind <;> rfl
  have hp : (s.setStrand t).curWave.pos = s.curWave.pos := by rw [State.curWave_setStrand]; cases s.cur.kind <;> rfl
  unfold State.drained State.waiting
  rw [State.setStrand_cur, State.setStrand_flight, hu, hp]

/-- Putting a strand leaves everything outside its wave and sequencer alone. -/
theorem outside_setStrand (s : State) (t : Strand) : Outside s (s.setStrand t) where
  rest := by unfold State.setStrand; cases s.cur.kind <;> rfl
  bytes := fun loc => by simp [State.byteNow]
  waves := fun k hk => by simp [State.wave_setStrand, hk]
  clusters := fun c hc => by simp [State.cluster_setStrand, hc]

theorem keepsV_setStrand (s : State) (t : Strand) : KeepsV s (s.setStrand t) := by
  unfold KeepsV; rw [State.curWave_setStrand]; cases s.cur.kind <;> exact ⟨rfl, rfl⟩

theorem keepsX_setStrand (s : State) (t : Strand) : KeepsX s (s.setStrand t) := by
  unfold KeepsX; rw [State.curWave_setStrand]; cases s.cur.kind <;> exact ⟨rfl, rfl⟩

theorem replies_setStrand (s : State) (t : Strand) : Replies s (s.setStrand t) 0 := by
  intro n; simp

/-- A strand whose registers alone differ from before, put to stand at `pc`. -/
theorem issues_setStrand (s : State) (t : Strand) (sw : Bool) (pc : W64) (outs : List OutReg)
    (h1 : t.pc = pc) (h2 : t.blocked = false) (h3 : t.outs = if sw then [] else outs)
    (h4 : t.parked = if sw then !s.drained else s.strand.parked)
    (h5 : { t with pc := s.strand.pc, blocked := s.strand.blocked, wait := s.strand.wait, outs := s.strand.outs,
                   parked := s.strand.parked, s := s.strand.s, sPoison := s.strand.sPoison, p := s.strand.p,
                   pPoison := s.strand.pPoison } = s.strand) : Issues s (s.setStrand t) sw pc outs where
  pcIs := by simpa using h1
  goesOn := by simpa using h2
  outsAre := by simpa using h3
  parks := by simpa using h4
  strand := by simpa using h5
  wave := by rw [State.curWave_setStrand]; cases s.cur.kind <;> rfl
  acc := fun h => by rw [State.curWave_setStrand]; revert h; cases s.cur.kind <;> simp
  cmp := fun h => by rw [State.curWave_setStrand]; revert h; cases s.cur.kind <;> simp
  seq := by rw [State.cluster_setStrand, if_pos rfl]; cases s.cur.kind <;> rfl
  seqStrand := fun h => by rw [State.cluster_setStrand, if_pos rfl]; revert h; cases s.cur.kind <;> simp

/-! ## Issuing -/

/-- What the strand is after it has issued at `pc`. -/
def Strand.issuedAt (t : Strand) (sw drained : Bool) (pc : W64) : Strand :=
  { t with pc := pc, blocked := false, wait := .none, outs := if sw then [] else t.outs, parked := if sw then !drained else t.parked }

theorem State.retireTo_eq (s : State) (sw : Bool) (pc : W64) :
    s.retireTo sw pc = s.setStrand (s.strand.issuedAt sw s.drained pc) := by
  unfold State.retireTo State.updStrand Strand.issuedAt
  cases sw <;> rfl

/-- Issuing without a result. -/
theorem goesTo_retireTo (s : State) (sw : Bool) (pc : W64) : GoesTo s (s.retireTo sw pc) sw pc := by
  rw [State.retireTo_eq]
  refine ⟨outside_setStrand _ _, issues_setStrand _ _ _ _ _ rfl rfl ?_ ?_ ?_, ?_, ?_, keepsV_setStrand _ _, keepsX_setStrand _ _,
    replies_setStrand _ _⟩
  · rfl
  · rfl
  · rfl
  · simp [KeepsS, Strand.issuedAt]
  · simp [KeepsP, Strand.issuedAt]

/-- The strand with scalar register `d` written. -/
theorem Strand.putS_sreg (t : Strand) (d r : Nat) (v : W64) :
    (t.putS d v).sreg r = if r = d ∧ d ≠ 0 then v else t.sreg r := by
  unfold Strand.putS Strand.sreg
  by_cases hd : d = 0
  · simp only [hd, if_true]; by_cases hr : r = 0 <;> simp [hr]
  · by_cases hr : r = 0
    · have : ¬ (r = d ∧ d ≠ 0) := by omega
      simp only [if_neg hd, if_neg this, if_pos hr]
    · simp only [if_neg hd, if_neg hr, SMap.get_put]
      by_cases h : r = d
      · subst h; simp [hd]
      · simp [h]

/-- The scalar registers after one was written by an outstanding or an immediate result. -/
theorem setsS_setStrand (s : State) (t : Strand) (d : Nat) (v : W64) (hs : t.s = (s.strand.putS d v).s)
    (hp : t.sPoison = (s.strand.putS d v).sPoison) : SetsS s (s.setStrand t) d v := by
  have hr : ∀ r, t.sreg r = (s.strand.putS d v).sreg r := fun r => by unfold Strand.sreg; rw [hs]
  have hm : ∀ r, maskBit t.sPoison r = (maskBit s.strand.sPoison r && decide (¬ (r = d ∧ d ≠ 0))) := fun r => by
    rw [hp]; unfold Strand.putS
    by_cases hd : d = 0
    · simp [hd]
    · by_cases h : r = d
      · subst h; simp [hd, maskBit_clear]
      · simp [hd, maskBit_clear, h, Ne.symm h]
  constructor
  · intro hd; rw [State.strand_setStrand, hr, Strand.putS_sreg, if_pos ⟨rfl, hd⟩]
  · intro hd _; rw [State.strand_setStrand, hm]; simp [hd]
  · simp [Strand.sreg]
  · intro r h; rw [State.strand_setStrand, hr, Strand.putS_sreg, if_neg fun e => h e.1]
  · intro r h; rw [State.strand_setStrand, hm]; simp [h]

/-- Replies dropped from a state whose strand is put do not matter to anything but the flight. -/
theorem State.setStrand_dropReplies (s : State) (t : Strand) (d : Nat) :
    (s.dropReplies d).setStrand t = { s.setStrand t with flight := (s.dropReplies d).flight } := by
  have hc : (s.dropReplies d).cur = s.cur := by rw [State.dropReplies_rest]
  unfold State.setStrand
  rw [hc]
  cases h : s.cur.kind
  · simp only; rw [State.dropReplies_rest]; rfl
  · simp only; rw [State.dropReplies_rest]; rfl
  · simp only; rw [State.dropReplies_rest]; rfl

/-- A frame holds whatever becomes of the flight. -/
theorem outside_flight {s t : State} (h : Outside s t) (f : SMap Access) : Outside s { t with flight := f } where
  rest := h.rest
  bytes := h.bytes
  waves := h.waves
  clusters := h.clusters

theorem issues_flight {s t : State} {sw : Bool} {pc : W64} {outs : List OutReg} (h : Issues s t sw pc outs) (f : SMap Access) :
    Issues s { t with flight := f } sw pc outs := ⟨h.1, h.2, h.3, h.4, h.5, h.6, h.7, h.8, h.9, h.10⟩

theorem setsS_flight {s t : State} {d : Nat} {v : W64} (h : SetsS s t d v) (f : SMap Access) : SetsS s { t with flight := f } d v :=
  ⟨h.1, h.2, h.3, h.4, h.5⟩

/-- What becomes of replies to a scalar register that is written. -/
theorem replies_drop (s : State) (t : State) (d : Nat) (hd : d ≠ 0) : Replies s { t with flight := (s.dropReplies d).flight } d := by
  intro n
  simp only [State.dropReplies_find]
  congr 1; funext a
  simp [hd]

/-- Issuing with an outstanding scalar result: the one law of `State.writeS` (R10, R30, R32). -/
theorem scalarResult_writeS (s : State) (sw : Bool) (d : Nat) (v : W64) : ScalarResult s ((s.writeS d v).retire sw) sw d v := by
  unfold ScalarResult State.retire
  by_cases hd : d = 0
  · have h := goesTo_retireTo s sw (s.strand.pc + 4#64)
    subst hd
    simp only [State.writeS, if_true]
    refine ⟨h.1, h.2.1, ?_, h.2.2.2.1, h.2.2.2.2.1, h.2.2.2.2.2.1, h.2.2.2.2.2.2⟩
    rw [State.retireTo_eq]
    exact setsS_setStrand _ _ _ _ (by simp [Strand.issuedAt, Strand.putS]) (by simp [Strand.issuedAt, Strand.putS])
  · simp only [State.writeS, if_neg hd, State.retireTo_eq, State.updStrand, State.dropReplies_strand, State.setStrand_setStrand,
      State.strand_setStrand, State.drained_setStrand, State.drained_dropReplies]
    rw [State.setStrand_dropReplies]
    refine ⟨outside_flight (outside_setStrand _ _) _, issues_flight (issues_setStrand _ _ _ _ _ ?_ rfl ?_ ?_ ?_) _,
      setsS_flight (setsS_setStrand _ _ _ _ ?_ ?_) _, ?_, keepsV_setStrand _ _, keepsX_setStrand _ _, replies_drop _ _ _ hd⟩
    · simp [Strand.issuedAt, Strand.putS, hd]
    · simp [Strand.issuedAt, State.outsS, hd]
    · simp [Strand.issuedAt, Strand.putS, hd]
    · simp [Strand.issuedAt, Strand.putS, hd]
    · rfl
    · rfl
    · show KeepsP s (s.setStrand _)
      simp [KeepsP, Strand.issuedAt, Strand.putS, hd]

/-- Issuing at `pc` with a scalar result that is there at once: the one law of `State.writeSNow` (R10, R30, R32). -/
theorem goesToWith_writeSNow (s : State) (sw : Bool) (pc : W64) (d : Nat) (v : W64) :
    GoesToWith s ((s.writeSNow d v).retireTo sw pc) sw pc d v := by
  unfold GoesToWith
  by_cases hd : d = 0
  · have h := goesTo_retireTo s sw pc
    subst hd
    simp only [State.writeSNow, if_true]
    refine ⟨h.1, h.2.1, ?_, h.2.2.2.1, h.2.2.2.2.1, h.2.2.2.2.2.1, h.2.2.2.2.2.2⟩
    rw [State.retireTo_eq]
    exact setsS_setStrand _ _ _ _ (by simp [Strand.issuedAt, Strand.putS]) (by simp [Strand.issuedAt, Strand.putS])
  · simp only [State.writeSNow, if_neg hd, State.retireTo_eq, State.updStrand, State.dropReplies_strand, State.setStrand_setStrand,
      State.strand_setStrand, State.drained_setStrand, State.drained_dropReplies]
    rw [State.setStrand_dropReplies]
    refine ⟨outside_flight (outside_setStrand _ _) _, issues_flight (issues_setStrand _ _ _ _ _ ?_ rfl ?_ ?_ ?_) _,
      setsS_flight (setsS_setStrand _ _ _ _ ?_ ?_) _, ?_, keepsV_setStrand _ _, keepsX_setStrand _ _, replies_drop _ _ _ hd⟩
    · rfl
    · rfl
    · simp [Strand.issuedAt, Strand.putS, hd]
    · simp [Strand.issuedAt, Strand.putS, hd]
    · rfl
    · rfl
    · show KeepsP s (s.setStrand _)
      simp [KeepsP, Strand.issuedAt, Strand.putS, hd]

/-- The strand with predicate `d` written. -/
def Strand.putP (t : Strand) (d : Nat) (v : W64) : Strand :=
  if d = 0 then t else { t with p := SMap.put d v t.p, pPoison := t.pPoison &&& ~~~(BitVec.twoPow 64 d) }

theorem Strand.putP_preg (t : Strand) (d r : Nat) (v : W64) :
    (t.putP d v).preg r = if r = d ∧ d ≠ 0 then v else t.preg r := by
  unfold Strand.putP Strand.preg
  by_cases hd : d = 0
  · simp only [hd, if_true]; by_cases hr : r = 0 <;> simp [hr]
  · by_cases hr : r = 0
    · have : ¬ (r = d ∧ d ≠ 0) := by omega
      simp only [if_neg hd, if_neg this, if_pos hr]
    · simp only [if_neg hd, if_neg hr, SMap.get_put]
      by_cases h : r = d
      · subst h; simp [hd]
      · simp [h]

/-- The predicates after one was written. -/
theorem setsP_setStrand (s : State) (t : Strand) (d : Nat) (v : W64) (hs : t.p = (s.strand.putP d v).p)
    (hp : t.pPoison = (s.strand.putP d v).pPoison) : SetsP s (s.setStrand t) d v := by
  have hr : ∀ r, t.preg r = (s.strand.putP d v).preg r := fun r => by unfold Strand.preg; rw [hs]
  have hm : ∀ r, maskBit t.pPoison r = (maskBit s.strand.pPoison r && decide (¬ (r = d ∧ d ≠ 0))) := fun r => by
    rw [hp]; unfold Strand.putP
    by_cases hd : d = 0
    · simp [hd]
    · by_cases h : r = d
      · subst h; simp [hd, maskBit_clear]
      · simp [hd, maskBit_clear, h, Ne.symm h]
  constructor
  · intro hd; rw [State.strand_setStrand, hr, Strand.putP_preg, if_pos ⟨rfl, hd⟩]
  · intro hd _; rw [State.strand_setStrand, hm]; simp [hd]
  · simp [Strand.preg]
  · intro r h; rw [State.strand_setStrand, hr, Strand.putP_preg, if_neg fun e => h e.1]
  · intro r h; rw [State.strand_setStrand, hm]; simp [h]

/-- Issuing with an outstanding predicate result: the one law of `State.writeP` (R10, R32). -/
theorem predResult_writeP (s : State) (sw : Bool) (d : Nat) (v : W64) : PredResult s ((s.writeP d v).retire sw) sw d v := by
  unfold PredResult State.retire
  by_cases hd : d = 0
  · have h := goesTo_retireTo s sw (s.strand.pc + 4#64)
    subst hd
    simp only [State.writeP, if_true]
    refine ⟨h.1, h.2.1, ?_, h.2.2.1, h.2.2.2.2.1, h.2.2.2.2.2.1, h.2.2.2.2.2.2⟩
    rw [State.retireTo_eq]
    exact setsP_setStrand _ _ _ _ (by simp [Strand.issuedAt, Strand.putP]) (by simp [Strand.issuedAt, Strand.putP])
  · simp only [State.writeP, if_neg hd, State.retireTo_eq, State.updStrand, State.setStrand_setStrand,
      State.strand_setStrand, State.drained_setStrand]
    refine ⟨outside_setStrand _ _, issues_setStrand _ _ _ _ _ rfl rfl ?_ rfl rfl,
      setsP_setStrand _ _ _ _ ?_ ?_, ?_, keepsV_setStrand _ _, keepsX_setStrand _ _, replies_setStrand _ _⟩
    · simp [Strand.issuedAt, State.outsP, hd]
    · simp [Strand.issuedAt, Strand.putP, hd]
    · simp [Strand.issuedAt, Strand.putP, hd]
    · simp [KeepsS, Strand.issuedAt]

/-! ## Vector registers and address vectors -/

/-- A change of the current wave that leaves its strands, its place and its queues alone. -/
structure LanesOnly (f : Wave → Wave) : Prop where
  wave : ∀ w : Wave, { f w with v := w.v, vPoison := w.vPoison, x := w.x, xPoison := w.xPoison } = w

theorem LanesOnly.acc {f : Wave → Wave} (h : LanesOnly f) (w : Wave) : (f w).acc = w.acc := by
  have := congrArg Wave.acc (h.wave w); exact this
theorem LanesOnly.cmp {f : Wave → Wave} (h : LanesOnly f) (w : Wave) : (f w).cmp = w.cmp := by
  have := congrArg Wave.cmp (h.wave w); exact this
theorem LanesOnly.unit {f : Wave → Wave} (h : LanesOnly f) (w : Wave) : (f w).unit = w.unit := by
  have := congrArg Wave.unit (h.wave w); exact this
theorem LanesOnly.pos {f : Wave → Wave} (h : LanesOnly f) (w : Wave) : (f w).pos = w.pos := by
  have := congrArg Wave.pos (h.wave w); exact this

theorem State.curWave_updWave (s : State) (f : Wave → Wave) : (s.updWave s.cur.wave f).curWave = f s.curWave := by
  simp [State.curWave]

theorem State.strand_updWave (s : State) (f : Wave → Wave) (h : LanesOnly f) : (s.updWave s.cur.wave f).strand = s.strand := by
  unfold State.strand
  rw [State.updWave_cur, State.curWave_updWave]
  cases s.cur.kind
  · exact h.acc _
  · exact h.cmp _
  · rfl

theorem State.drained_updWave (s : State) (f : Wave → Wave) (h : LanesOnly f) : (s.updWave s.cur.wave f).drained = s.drained := by
  unfold State.drained State.waiting
  rw [State.updWave_cur, State.updWave_flight, State.curWave_updWave, h.unit, h.pos]

/-- A strand issues after a change of its wave's lane registers. -/
theorem issues_updWave (s : State) (f : Wave → Wave) (h : LanesOnly f) (t : Strand) (sw : Bool) (pc : W64) (outs : List OutReg)
    (i : Issues (s.updWave s.cur.wave f) ((s.updWave s.cur.wave f).setStrand t) sw pc outs) :
    Issues s ((s.updWave s.cur.wave f).setStrand t) sw pc outs where
  pcIs := i.pcIs
  goesOn := i.goesOn
  outsAre := i.outsAre
  parks := by have := i.parks; rwa [State.drained_updWave s f h, State.strand_updWave s f h] at this
  strand := by have := i.strand; rwa [State.strand_updWave s f h] at this
  wave := by
    have h1 := i.wave
    rw [State.curWave_updWave] at h1
    have h2 := h.wave s.curWave
    generalize State.curWave _ = w at h1 ⊢
    rw [← h2, ← h1]
  acc := fun hk => by have := i.acc hk; rwa [State.curWave_updWave, h.acc] at this
  cmp := fun hk => by have := i.cmp hk; rwa [State.curWave_updWave, h.cmp] at this
  seq := i.seq
  seqStrand := i.seqStrand

theorem outside_updWave (s : State) (f : Wave → Wave) (t : Strand) : Outside s ((s.updWave s.cur.wave f).setStrand t) where
  rest := by
    have h := (outside_setStrand (s.updWave s.cur.wave f) t).rest
    have := congrArg (fun x : State => { x with waves := s.waves }) h
    exact this
  bytes := fun loc => (outside_setStrand (s.updWave s.cur.wave f) t).bytes loc
  waves := fun k hk => by
    rw [(outside_setStrand (s.updWave s.cur.wave f) t).waves k hk, State.wave_updWave, if_neg hk]
  clusters := fun c hc => (outside_setStrand (s.updWave s.cur.wave f) t).clusters c hc

/-- The wave with a vector register and its marks put. -/
def Wave.putV (q : Nat) (new : Vec) (marks : W64) (w : Wave) : Wave :=
  { w with v := SMap.put q new w.v, vPoison := SMap.put q marks w.vPoison }
/-- The wave with an address vector and its marks put. -/
def Wave.putX (q : Nat) (new : XVec) (marks : W64) (w : Wave) : Wave :=
  { w with x := SMap.put q new w.x, xPoison := SMap.put q marks w.xPoison }

/-- Issuing with an outstanding vector result: the one law of `State.writeVP` (R32, R41, R98, R365). -/
theorem vecMarked_writeVP (s : State) (sw : Bool) (d : Nat) (m bad : W64) (f : Nat → W32) :
    VecMarked s ((s.writeVP (s.strand.phys d) m bad f).retire sw) sw d m f bad := by
  unfold VecMarked State.retire State.writeVP
  generalize s.strand.phys d = q
  simp only
  obtain ⟨g, hg⟩ : ∃ g, Wave.putV q (Lanes.ofFn fun l => if maskBit m l then f l else Lanes.get32 (s.curWave.vreg q) l)
    ((SMap.get 0#64 s.curWave.vPoison q &&& ~~~m) ||| (bad &&& m)) = g := ⟨_, rfl⟩
  have hl : LanesOnly g := ⟨fun w => by rw [← hg]; rfl⟩
  show _ ∧ _
  unfold Wave.putV at hg
  rw [hg]
  simp only [State.retireTo_eq, State.updStrand, State.setStrand_setStrand, State.strand_setStrand, State.drained_setStrand,
    State.strand_updWave s g hl, State.drained_updWave s g hl]
  have hw : ∀ t : Strand, ((s.updWave s.cur.wave g).setStrand t).curWave.v = (g s.curWave).v ∧
      ((s.updWave s.cur.wave g).setStrand t).curWave.vPoison = (g s.curWave).vPoison := fun t => by
    have := keepsV_setStrand (s.updWave s.cur.wave g) t
    rwa [KeepsV, State.curWave_updWave] at this
  refine ⟨outside_updWave _ _ _, issues_updWave _ _ hl _ _ _ _ (issues_setStrand _ _ _ _ _ rfl rfl ?_ ?_ ?_), ?_, ?_, ?_, ?_, ?_⟩
  · simp [Strand.issuedAt, State.outsV]
  · rw [State.drained_updWave s g hl, State.strand_updWave s g hl]; rfl
  · rw [State.strand_updWave s g hl]; rfl
  · constructor
    · intro l h
      rw [Wave.vreg, (hw _).1, ← hg]
      simp only [SMap.get_put_self, Lanes.get32_ofFn _ _ h]
    · intro l h
      rw [(hw _).2, ← hg]
      simp only [SMap.get_put_self]
      simp only [maskBit, BitVec.getLsbD_or, BitVec.getLsbD_and, BitVec.getLsbD_not, h, decide_true, Bool.true_and]
      by_cases hm : m.getLsbD l = true <;> simp [hm]
    · intro r h
      rw [Wave.vreg, (hw _).1, ← hg]
      exact SMap.get_put_other _ _ _ _ _ h
    · intro r h
      rw [(hw _).2, ← hg]
      exact SMap.get_put_other _ _ _ _ _ h
  · simp [KeepsS, Strand.issuedAt]
  · simp [KeepsP, Strand.issuedAt]
  · have := keepsX_setStrand (s.updWave s.cur.wave g)
    simp only [KeepsX, State.curWave_updWave] at this ⊢
    rw [(this _).1, (this _).2, ← hg]
    exact ⟨rfl, rfl⟩
  · intro n; simp

/-- The same with good data. -/
theorem vecResult_writeV (s : State) (sw : Bool) (d : Nat) (m : W64) (f : Nat → W32) :
    VecResult s ((s.writeV (s.strand.phys d) m f).retire sw) sw d m f := vecMarked_writeVP s sw d m 0#64 f

/-- Issuing with an outstanding address-vector result: the one law of `State.writeXP` (R32, R98, R365). -/
theorem addrMarked_writeXP (s : State) (sw : Bool) (d : Nat) (m bad : W64) (f : Nat → W64) :
    AddrMarked s ((s.writeXP d m bad f).retire sw) sw d m f bad := by
  unfold AddrMarked State.retire State.writeXP
  simp only
  obtain ⟨g, hg⟩ : ∃ g, Wave.putX d (Lanes.ofFn fun l => if maskBit m l then f l else Lanes.get64 (s.curWave.xreg d) l)
    ((SMap.get 0#64 s.curWave.xPoison d &&& ~~~m) ||| (bad &&& m)) = g := ⟨_, rfl⟩
  have hl : LanesOnly g := ⟨fun w => by rw [← hg]; rfl⟩
  show _ ∧ _
  unfold Wave.putX at hg
  rw [hg]
  simp only [State.retireTo_eq, State.updStrand, State.setStrand_setStrand, State.strand_setStrand, State.drained_setStrand,
    State.strand_updWave s g hl, State.drained_updWave s g hl]
  have hw : ∀ t : Strand, ((s.updWave s.cur.wave g).setStrand t).curWave.x = (g s.curWave).x ∧
      ((s.updWave s.cur.wave g).setStrand t).curWave.xPoison = (g s.curWave).xPoison := fun t => by
    have := keepsX_setStrand (s.updWave s.cur.wave g) t
    rwa [KeepsX, State.curWave_updWave] at this
  refine ⟨outside_updWave _ _ _, issues_updWave _ _ hl _ _ _ _ (issues_setStrand _ _ _ _ _ rfl rfl ?_ ?_ ?_), ?_, ?_, ?_, ?_, ?_⟩
  · simp [Strand.issuedAt, State.outsX]
  · rw [State.drained_updWave s g hl, State.strand_updWave s g hl]; rfl
  · rw [State.strand_updWave s g hl]; rfl
  · constructor
    · intro l h
      rw [Wave.xreg, (hw _).1, ← hg]
      simp only [SMap.get_put_self, Lanes.get64_ofFn _ _ h]
    · intro l h
      rw [(hw _).2, ← hg]
      simp only [SMap.get_put_self]
      simp only [maskBit, BitVec.getLsbD_or, BitVec.getLsbD_and, BitVec.getLsbD_not, h, decide_true, Bool.true_and]
      by_cases hm : m.getLsbD l = true <;> simp [hm]
    · intro r h
      rw [Wave.xreg, (hw _).1, ← hg]
      exact SMap.get_put_other _ _ _ _ _ h
    · intro r h
      rw [(hw _).2, ← hg]
      exact SMap.get_put_other _ _ _ _ _ h
  · simp [KeepsS, Strand.issuedAt]
  · simp [KeepsP, Strand.issuedAt]
  · have := keepsV_setStrand (s.updWave s.cur.wave g)
    simp only [KeepsV, State.curWave_updWave] at this ⊢
    rw [(this _).1, (this _).2, ← hg]
    exact ⟨rfl, rfl⟩
  · intro n; simp

/-- The same with good data. -/
theorem addrResult_writeX (s : State) (sw : Bool) (d : Nat) (m : W64) (f : Nat → W64) :
    AddrResult s ((s.writeX d m f).retire sw) sw d m f := addrMarked_writeXP s sw d m 0#64 f

/-! ## Instructions whose operands carry no mark (R364) -/

/-- `State.using` goes on where no use is marked. -/
@[simp] theorem State.using_good (s : State) (us : List Use) (k : Out) (h : s.badUse us = none) : s.using us k = k := by
  simp [State.using, h]

/-- A scalar result completes. -/
theorem State.resultS_next (s : State) (us : List Use) (sw : Bool) (d : Nat) (v : W64) (h : s.badUse us = none) :
    ∃ t, s.using us (s.resultS sw d v) = .next t ∧ ScalarResult s t sw d v :=
  ⟨_, s.using_good us _ h, scalarResult_writeS s sw d v⟩

/-- A predicate result completes. -/
theorem State.resultP_next (s : State) (us : List Use) (sw : Bool) (d : Nat) (v : W64) (h : s.badUse us = none) :
    ∃ t, s.using us (s.resultP sw d v) = .next t ∧ PredResult s t sw d v :=
  ⟨_, s.using_good us _ h, predResult_writeP s sw d v⟩

/-- A vector result completes. -/
theorem State.resultV_next (s : State) (us : List Use) (sw : Bool) (d : Nat) (m : W64) (f : Nat → W32) (h : s.badUse us = none) :
    ∃ t, s.using us (s.resultV sw d m f) = .next t ∧ VecResult s t sw d m f :=
  ⟨_, s.using_good us _ h, vecResult_writeV s sw d m f⟩

/-- An address-vector result completes. -/
theorem State.resultX_next (s : State) (us : List Use) (sw : Bool) (d : Nat) (m : W64) (f : Nat → W64) (h : s.badUse us = none) :
    ∃ t, s.using us (s.resultX sw d m f) = .next t ∧ AddrResult s t sw d m f :=
  ⟨_, s.using_good us _ h, addrResult_writeX s sw d m f⟩

/-- A strand stands: the one law of `State.block`. -/
theorem stands_block (s : State) : Stands s s.block := by
  refine ⟨?_, ?_, ?_⟩ <;> simp [State.block, State.updStrand]

/-- A strand stands and remembers: the one law of `State.blockWith`. -/
theorem stands_blockWith (s : State) (w : Wait) : Stands s (s.blockWith w) := by
  refine ⟨?_, ?_, ?_⟩ <;> simp [State.blockWith, State.updStrand]

/-- Taking a trap where a handler may be entered: the one law of `State.trap` (R34, R356). -/
theorem entered_trap (s : State) (t : TrapRec) (i : W64) (h : s.canEnter) (hi : t.info = some i) (ha : t.addr = none)
    (hl : t.lane = none) : Entered s (s.trap t) (BitVec.ofNat 8 t.cause) i t.stop := by
  obtain ⟨h1, h2, h3⟩ := h
  unfold State.trap State.enterTrap
  rw [if_pos h1, if_pos ⟨h2, h3⟩]
  refine ⟨outside_setStrand _ _, ?_, ?_, ?_, ?_, ?_, ?_, keepsV_setStrand _ _, keepsX_setStrand _ _, ?_, ?_⟩
  · simp only [State.updStrand, State.strand_setStrand, Strand.intoHandler, Csrs.record, hi, ha, hl]
    cases s.cur.kind <;> simp
  all_goals simp [KeepsS, KeepsP, Strand.intoHandler]

/-- Taking a trap with an address and a lane. -/
theorem faulted_trap (s : State) (t : TrapRec) (i a : W64) (l : Nat) (h : s.canEnter) (hi : t.info = some i) (ha : t.addr = some a)
    (hl : t.lane = some l) (hs : t.stop = s.strand.pc) : Faulted s (s.trap t) (BitVec.ofNat 8 t.cause) i a l := by
  obtain ⟨h1, h2, h3⟩ := h
  have key : s.trap t = (s.updStrand fun x => { x with csr := { x.csr with faultAddr := a, faultLane := BitVec.ofNat 6 l } }).setStrand
      (s.strand.intoHandler s.cur.kind t) := by
    unfold State.trap State.enterTrap
    rw [if_pos h1, if_pos ⟨h2, h3⟩]
    simp [State.updStrand]
  rw [key]
  refine ⟨outside_setStrand _ _, ?_, ?_, ?_, ?_, ?_, ?_, keepsV_setStrand _ _, keepsX_setStrand _ _, ?_, ?_⟩
  · simp only [State.strand_setStrand, State.strand_updStrand, State.updStrand_cur, Strand.intoHandler, Csrs.record, hi, ha, hl, hs]
    cases s.cur.kind <;> simp
  all_goals simp [KeepsS, KeepsP, Strand.intoHandler]

end Sys2Proof.Machine
end

