-- ==== Sys2Proof/Laws/Shared.lean ====
section
/-! SUPPORT. What the shared operations of the page engine's callers, of the debug block, of the mailbox and of the monitors can do (R208,
R324, R375, R390). -/
namespace Sys2Proof.Machine

/-- Asking for a spilled page changes the partitions alone (R324). -/
theorem State.wantPage_rest (s : State) (part space va : Nat) :
    s.wantPage part space va = { s with parts := (s.wantPage part space va).parts } := by
  unfold State.wantPage
  split <;> rfl

/-- The scheduler either asks for a spilled page or goes on (R324). -/
theorem State.fetchBlock_some (s : State) (part space a : Nat) (k : State) : s.fetchBlock part space (some a) k = s.wantPage part space a := rfl
theorem State.fetchBlock_none (s : State) (part space : Nat) (k : State) : s.fetchBlock part space none k = k := rfl

/-- A debug command in the block acts on what the block names, and any other on what its event carries (R375). -/
theorem Debug.target_block (d : Debug) (launch pos : Nat) : d.target d.cmd launch pos = (d.launch, d.pos) := if_pos rfl
theorem Debug.target_event (d : Debug) (cmd launch pos : Nat) (h : d.cmd ≠ cmd) : d.target cmd launch pos = (launch, pos) := if_neg h

/-- A management command is written, carried out or discarded, and changes the mailbox alone unless it is carried out (R390). -/
theorem State.mailbox_cases (s : State) (cmd : Nat) (arg : W64) (form : W64 → Bool) (k : Out) :
    s.mailbox cmd arg form k = k ∧ s.mgmt.command = BitVec.ofNat 64 cmd ∧ form s.mgmt.argument = true
    ∨ ∃ c, s.mailbox cmd arg form k = .next { s with mgmt := { s.mgmt with argument := arg, command := c } }
      ∧ (c = s.mgmt.command ∨ s.mgmt.command = 0#64 ∧ c = BitVec.ofNat 64 cmd) := by
  unfold State.mailbox
  split
  · rename_i h; exact .inr ⟨_, rfl, .inr ⟨h, rfl⟩⟩
  · split
    · rename_i h; exact .inl ⟨rfl, h⟩
    · exact .inr ⟨s.mgmt.command, rfl, .inl rfl⟩

/-- A monitor keeps the lowest cause of those that it is woken by (R208). -/
theorem Monitor.woken_fresh (c : Nat) (m : Monitor) (h : m.wake = 0) : (m.woken c).wake = c := if_pos h
theorem Monitor.woken_line (c : Nat) (m : Monitor) : (m.woken c).line = m.line := rfl
end Sys2Proof.Machine
end

