-- ==== Sys2Proof/Tests/Slice0.lean ====
section
/-! SUPPORT. Tests. The words are the specification's own examples (their rules are named), the small results are its tables' or worked
by hand from them, and the last part shows for each statement with hypotheses states that meet them. -/

namespace Sys2Proof.Tests.Slice0

-- One theorem after another: each waits for the kernel.
set_option Elab.async false

open Sys2Proof Sys2Proof.Machine

/-! ## Words of the specification -/

/-- Chapter 5's examples of the scalar instructions, and the words of R103's three-line example. -/
theorem test_decode_scalar : decodeWord 0x00030102#32 = some (.add false 3#8 1#8 2#8)
    ∧ decodeWord 0x01020009#32 = some (.sub false 2#8 0#8 9#8) ∧ decodeWord 0x06030700#32 = some (.or false 3#8 7#8 0#8)
    ∧ decodeWord 0x91040040#32 = some (.movi true 4#8 0x40#16) ∧ decodeWord 0x92040012#32 = some (.orhi true 4#8 0x12#16)
    ∧ decodeWord 0x16040900#32 = some (.sunClz false 4#8 9#8) := by decide +kernel

/-- R105, R42, R106, R107. -/
theorem test_decode_control : decodeWord 0x18042FFC#32 = some (.beq false 1#6 2#6 0xFFC#12)
    ∧ decodeWord 0x1E141FFD#32 = some (.loop false 5#6 1#6 0xFFD#12) ∧ decodeWord 0x20000064#32 = some (.call false 100#24)
    ∧ decodeWord 0x21003F00#32 = some (.jr false 0#8 63#8) := by decide +kernel

/-- R36, R355, R136. -/
theorem test_decode_system : decodeWord 0x22001200#32 = some (.mode false 0x1200#16) ∧ decodeWord 0x23000000#32 = some (.sysNop false)
    ∧ decodeWord 0x23010042#32 = some (.sysTrap false 0x42#16) ∧ decodeWord 0x23020000#32 = some (.sysRet false)
    ∧ decodeWord 0x230309C0#32 = some (.seqMbox false 2#6) ∧ decodeWord 0x23032815#32 = some (.sysCsrr false 10#6 21#10)
    ∧ decodeWord 0x23041C50#32 = some (.sysCsrw false 7#6 0x50#10) ∧ decodeWord 0x23050C55#32 = some (.sysCsrs false 3#6 0x55#10)
    ∧ decodeWord 0x23060C41#32 = some (.statusBrk false 3#6) ∧ decodeWord 0x23070000#32 = some (.sysYield false) := by decide +kernel

/-- R108, R109. -/
theorem test_decode_address : decodeWord 0x28020405#32 = some (.xiota false 2#8 4#8 5#8)
    ∧ decodeWord 0x29420103#32 = some (.xcmpLtu false 2#4 1#8 3#8) := by decide +kernel

/-- R112 to R116, R120, R121. -/
theorem test_decode_vector : decodeWord 0x3E040901#32 = some (.vunFfs false 4#8 9#8) ∧ decodeWord 0x3E040906#32 = some (.vunMov false 4#8 9#8)
    ∧ decodeWord 0x3F230809#32 = some (.vcmpLt false 3#4 8#8 9#8)
    ∧ decodeWord 0x47030405#32 = some (.cvt false 3#8 4#8 5#8) ∧ decodeWord 0x480A0200#32 = some (.sfuSinpi false 10#8 2#8)
    ∧ decodeWord 0x4901FFFF#32 = some (.vmovi false 1#8 0xFFFF#16) ∧ decodeWord 0x4A013F80#32 = some (.vmovhi false 1#8 0x3F80#16)
    ∧ decodeWord 0x58330102#32 = some (.plogAndn false 3#4 1#4 2#4) ∧ decodeWord 0x59040200#32 = some (.predPopc false 4#8 2#8) := by
  decide +kernel

/-- R123 to R129. -/
theorem test_decode_lanes : decodeWord 0x50050600#32 = some (.scanAdd false 5#8 6#8) ∧ decodeWord 0x50050610#32 = some (.scanAddx false 5#8 6#8)
    ∧ decodeWord 0x51070302#32 = some (.vredMax false 7#8 3#8) ∧ decodeWord 0x52030405#32 = some (.vperm false 3#8 4#8 5#8)
    ∧ decodeWord 0x560A0180#32 = some (.vgetr false 10#8 1#8 128#8) ∧ decodeWord 0x55010200#32 = some (.cqVpop false 1#8 2#8)
    ∧ decodeWord 0x55010501#32 = some (.cqVpush false 1#8 5#8) ∧ decodeWord 0x55050002#32 = some (.cqHpop false 5#8)
    ∧ decodeWord 0x55000703#32 = some (.cqHpush false 7#8) := by decide +kernel

/-- The examples of chapters 8 and 9. -/
theorem test_decode_memory : decodeWord 0x600841C0#32 = some (.ld false 2#6 4#6 3#5 2#2 0#2 0#3)
    ∧ decodeWord 0x612441C0#32 = some (.st false 9#6 4#6 3#5 2#2 0#2 0#3)
    ∧ decodeWord 0xE210B04A#32 = some (.lds true 4#6 11#6 2#2 1#2 2#3) ∧ decodeWord 0x6214606C#32 = some (.lds false 5#6 6#6 3#2 1#2 4#3)
    ∧ decodeWord 0x6314B052#32 = some (.sts false 5#6 11#6 2#2 2#2 2#3) ∧ decodeWord 0x641C8054#32 = some (.stc false 7#6 8#6 2#2 2#2 4#3)
    ∧ decodeWord 0x670020C0#32 = some (.cldf false 0#6 2#6 1#5) ∧ decodeWord 0x682020C0#32 = some (.cste false 8#6 2#6 1#5)
    ∧ decodeWord 0x6910A2F4#32 = some (.aadd false 4#6 10#6 5#5 1#1 2#2 4#3)
    ∧ decodeWord 0xEB10A2CC#32 = some (.acas true 4#6 10#6 5#5 0#1 1#2 4#3) := by decide +kernel

/-- The examples of chapters 8 and 9. -/
theorem test_decode_queues_and_sync : decodeWord 0x70000404#32 = some (.aqEqw false 0#8 4#8)
    ∧ decodeWord 0x70000700#32 = some (.aqHpush false 7#8) ∧ decodeWord 0x70030102#32 = some (.aqXpop false 3#8 1#8)
    ∧ decodeWord 0x70050001#32 = some (.aqHpop false 5#8) ∧ decodeWord 0x70090005#32 = some (.aqEqr false 9#8 0#8)
    ∧ decodeWord 0x7100A000#32 = some (.syncAcq false 1#1 2#3 0#12) ∧ decodeWord 0x71014009#32 = some (.syncRel false 0#1 4#3 9#12)
    ∧ decodeWord 0x71024000#32 = some (.syncFence false 4#3) ∧ decodeWord 0x71030000#32 = some (.syncGbar false 0#1)
    ∧ decodeWord 0x72001403#32 = some (.copyPublish false 5#6 3#10) ∧ decodeWord 0x72011800#32 = some (.copyBclose false 6#6)
    ∧ decodeWord 0x72021800#32 = some (.copyBwait false 6#6) := by decide +kernel

/-- The examples of chapters 7, 8, 12, 13 and 15. -/
theorem test_decode_tasks : decodeWord 0x73003001#32 = some (.taskSpawn false 12#6 1#1) ∧ decodeWord 0x73011407#32 = some (.taskTlwait false 5#6 7#10)
    ∧ decodeWord 0x73021607#32 = some (.taskTlsig false 5#6 0x207#10) ∧ decodeWord 0x73032400#32 = some (.taskMarm false 9#6)
    ∧ decodeWord 0x73062815#32 = some (.taskWjoin false 10#6 1#1 5#4) ∧ decodeWord 0x73081801#32 = some (.taskCancel false 6#6 0#1 1#2)
    ∧ decodeWord 0x74001403#32 = some (.scoutOpen false 5#6 3#6) ∧ decodeWord 0x74011803#32 = some (.scoutTake false 6#6 0#1 0#1 3#6)
    ∧ decodeWord 0x74031C01#32 = some (.scoutVerdict false 7#6 1#1) ∧ decodeWord 0x75052407#32 = some (.treeAhead false 9#6 1#1 1#1 1#1)
    ∧ decodeWord 0x75071801#32 = some (.treeTokrdy false 6#6 1#1) ∧ decodeWord 0x76012001#32 = some (.xchDcal false 8#6 1#1)
    ∧ decodeWord 0x76042D05#32 = some (.xchRcnt false 11#6 1#2 5#8) := by decide +kernel

/-- The examples of chapter 6. -/
theorem test_decode_matrix : decodeWord 0x78000204#32 = some (.mmul false 0#8 2#8 4#8) ∧ decodeWord 0x79040700#32 = some (.mzero false 4#8 7#8)
    ∧ decodeWord 0x7C010A00#32 = some (.mfmt false 1#8 10#8) ∧ decodeWord 0x7D08000C#32 = some (.msacc false 8#8 0#8 12#8) := by
  decide +kernel

/-- R39: its own example, a vcmp in an access strand and in a compute strand. -/
theorem test_decode_check : decodeCheck .access 0x3F050102#32 = .error .wrongStrand
    ∧ decodeCheck .compute 0x3F050102#32 = .ok (.vcmpEq false 5#4 1#8 2#8) := ⟨rfl, rfl⟩

/-! ## Ill-formed terms that the checks refuse -/

/-- R29: a scalar register 64, an address vector 32, an access size or a queue out of range. -/
theorem test_refuse_registers : (Instr.add false 64#8 0#8 0#8).wellFormed = false ∧ (Instr.xadd false 0#8 32#8 0#8).wellFormed = false
    ∧ (Instr.cvt false 0#8 0#8 9#8).wellFormed = false ∧ (Instr.cqVpop false 0#8 8#8).wellFormed = false
    ∧ (Instr.cqVpush false 4#8 0#8).wellFormed = false ∧ (Instr.predAny false 0#8 16#8).wellFormed = false := by decide +kernel

/-- R36: a type of 9, a rounding mode of 5, a bit that must be zero. -/
theorem test_refuse_mode : (Instr.mode false 0x0900#16).wellFormed = false ∧ (Instr.mode false 0x00A0#16).wellFormed = false
    ∧ (Instr.mode false 0x0001#16).wellFormed = false := by decide +kernel

/-- R42, R136, R353: a rotation step in an access strand, an unassigned control register, a write of one that may only be read. -/
theorem test_refuse_control : (Instr.loop false 1#6 1#6 0#12).wf .access = false ∧ (Instr.loop false 1#6 1#6 0#12).wf .compute = true
    ∧ (Instr.sysCsrr false 1#6 0x70#10).wellFormed = false ∧ (Instr.sysCsrw false 1#6 0x1C1#10).wellFormed = false := by decide +kernel

/-- R185, R186: a queue in the wrong direction, a scope without an order, an order that a load does not have. -/
theorem test_refuse_memory : (Instr.ld false 8#6 0#6 0#5 0#2 0#2 0#3).wellFormed = false
    ∧ (Instr.st false 7#6 0#6 0#5 0#2 0#2 0#3).wellFormed = false ∧ (Instr.ld false 0#6 0#6 0#5 0#2 0#2 1#3).wellFormed = false
    ∧ (Instr.ld false 0#6 0#6 0#5 0#2 2#2 0#3).wellFormed = false := by decide +kernel

/-- R11, R151: a shape-record pair that is odd, s0, or past s62. -/
theorem test_refuse_pairs : (Instr.mmul false 0#8 3#8 4#8).wellFormed = false ∧ (Instr.mmul false 0#8 0#8 4#8).wellFormed = false
    ∧ (Instr.mmul false 0#8 2#8 64#8).wellFormed = false := by decide +kernel

/-! ## States that meet the hypotheses of the statements

Each is the machine with one loaded unit, on cluster 0, changed in a field or two. -/

/-- One resident unit, and a strand of it whose turn it is. -/
def base (k : StrandKind) : State := State.reset.loaded.withCur 0 k
/-- The same with its strand changed. -/
def onStrand (k : StrandKind) (f : Strand → Strand) : State := (base k).updStrand f
/-- The same with its wave changed. -/
def onWave (k : StrandKind) (f : Wave → Wave) : State := (base k).updWave 0 f
/-- The same with the sequencer of cluster 0 changed. -/
def onSeq (k : StrandKind) (f : Seq → Seq) : State := (base k).updSeq 0 f
/-- The same with the unit changed. -/
def onUnit (k : StrandKind) (f : UnitRec → UnitRec) : State := let s := base k; s.updUnit s.curUnit f
/-- The same with one access of the strand in flight. -/
def inFlight (k : AccKind) (d : Dest) (ls : List LaneAcc) : State :=
  let s := base .access
  { s with flight := [(0, { s.access false k d 0 with lanes := ls })], nextAccess := 1 }
/-- A handler at 0x100100. -/
def handled (t : Strand) : Strand := { t with csr := { t.csr with handler := 0x100100#64 } }

/-- Operands without marks, with a divisor of 0 and with that of the overflow; words of legal fields. -/
theorem test_meets_ScalarArithmetic : (base .access).badUse [.s 1, .s 0] = none ∧ (base .access).readS 0 = 0#64
    ∧ (let s := onStrand .compute fun t => { t with s := [(1, 0x8000000000000000#64), (63, 0xFFFFFFFFFFFFFFFF#64)] }
       s.badUse [.s 1, .s 63] = none ∧ s.readS 1 = 0x8000000000000000#64 ∧ s.readS 63 = 0xFFFFFFFFFFFFFFFF#64)
    ∧ (base .seq).badUse [.s 63] = none ∧ (Instr.rem true 63#8 63#8 63#8).wellFormed = true
    ∧ (Instr.remu false 63#8 0#16).wellFormed = true ∧ (Instr.sunNot true 63#8 63#8).wellFormed = true := by decide +kernel

/-- A handler and nothing outstanding; a reply outstanding; a trap on its way at a turn, in both. -/
theorem test_meets_SoftwareTraps :
    (onStrand .access handled).canEnter
    ∧ (inFlight .load (.s 1) []).drained = false
    ∧ (let trap : TrapRec := ⟨3, none, none, none, 4#64⟩
       let s := onStrand .access fun t => { t with pendTrap := some trap }
       s.mayRun = true ∧ s.strand.pendTrap = some trap ∧ s.drained = true)
    ∧ (let s := (inFlight .load (.s 1) []).updStrand fun t => { t with pendTrap := some ⟨3, none, none, none, 4#64⟩ }
       s.mayRun = true ∧ s.strand.pendTrap.isSome = true ∧ s.drained = false) := by decide +kernel

/-- No handler; a strand in its handler, its trap registers free of marks; one with a store error pending, with and without a handler. -/
theorem test_meets_UnhandledTrapsAndReturn :
    ((base .access).drained = true ∧ (base .access).strand.csr.handler = 0#64)
    ∧ ((base .compute).cur.kind ≠ .seq ∧ (base .compute).strand.csr.inHandler = false ∧ (base .compute).strand.storeErr = none)
    ∧ (let s := onStrand .access fun t => { t with csr := { t.csr with inHandler := true }, ctlBad := [0x020] }
       s.strand.csr.inHandler = true ∧ s.badUse [.ctl 0x051, .ctl 0x054, .ctl 0x056] = none ∧ s.cur.kind ≠ .seq)
    ∧ (let s := onStrand .access fun t => handled { t with storeErr := some 0x100#64 }
       s.strand.storeErr = some 0x100#64 ∧ s.canEnter) := by
  decide +kernel

/-- The last launch constant, in a strand that is not the sequencer's, and control registers without a mark, of each strand. -/
theorem test_meets_ControlReads : (31#10).toNat < 32 ∧ (base .compute).cur.kind ≠ .seq
    ∧ (base .compute).badUse [.ctl (31#10).toNat] = none ∧ (∀ n ∈ [0x020, 0x021, 0x040, 0x041, 0x050, 0x059, 0x060, 0x1C2, 0x1C4],
      (base .seq).badUse [.ctl n] = none) := by decide +kernel

/-- An operand without a mark, a register that carries one and is written whole, registers that carry none, and a control register whose
writes are discarded. -/
theorem test_meets_ControlWrites : (base .compute).badUse [.s 63] = none
    ∧ ((onStrand .compute fun t => { t with ctlBad := [0x050] }).strand.ctlBad.contains 0x050 = true)
    ∧ (∀ n ∈ [0x021, 0x041, 0x050, 0x054, 0x059], (base .compute).strand.ctlBad.contains n = false)
    ∧ (0x060#10 : BitVec 10) ∉ [0x050#10, 0x051#10, 0x055#10, 0x059#10] := by decide +kernel

/-- Operands without marks, with an integer type of each signedness and with a float type; a guard whose lanes are not all active. -/
theorem test_meets_vector_statements :
    (let s := base .compute
     s.badUse [s.useGuard, s.useV 0, s.useV 255, s.useV 128] = none ∧ isFloatType s.strand.etype = false)
    ∧ (let s := onStrand .compute fun t => { t with mode := 0x1800#16, p := [(1, 5#64)] }
       s.badUse [s.useGuard, s.useV 1, s.useV 2] = none ∧ s.guard = 5#64 ∧ s.strand.etype = 8)
    ∧ (let s := onStrand .compute fun t => { t with mode := 0x0200#16 }
       s.badUse [s.useGuard, s.useV 1, s.useV 2, s.useV 3] = none ∧ isFloatType s.strand.etype = true ∧ s.strand.etype = 2
         ∧ s.strand.flush = false) := by decide +kernel

/-- For cvt: a target element without a source element, and one of each kind with a source element. -/
theorem test_meets_ConversionsAndFunctions :
    (let s := base .compute
     s.badUse [s.useGuard, s.useV 1] = none ∧ 32 / (intType s.strand.etype).1 ≤ 1 ∧ 1 < 32 / (intType 3).1)
    ∧ (let s := onStrand .compute fun t => { t with mode := 0x0600#16 }
       s.badUse [s.useGuard, s.useV 1] = none ∧ 1 < 32 / (intType s.strand.etype).1 ∧ isFloatType s.strand.etype = true
         ∧ isFloatType 3 = false) := by decide +kernel

/-- The first and the next active lane, the last one, and no active lane. -/
theorem test_meets_ScansAndReductions :
    (let s := onStrand .compute fun t => { t with mode := 0x1000#16, p := [(1, 0x8000000000000010#64)] }
     s.badUse [s.useGuard, s.useV 255] = none ∧ maskBit s.guard 4 = true ∧ maskBit s.guard 63 = true
       ∧ (∀ j < 4, maskBit s.guard j = false) ∧ ∀ j < 63, 4 < j → maskBit s.guard j = false)
    ∧ (let s := onStrand .compute fun t => { t with mode := 0x1000#16 }
       s.badUse [s.useGuard, s.useV 255] = none ∧ s.guard = 0#64) := by decide +kernel

/-- No result outstanding for the register that is read. -/
theorem test_meets_ReadsAtIssue :
    (let s := onStrand .access fun t => { t with outs := [.s 2 9#64 false] }
     s.strand.outs.all (fun o => match o with | .s q _ _ => q != 1 | _ => true) = true) := by decide +kernel

/-- Conditions that hold and that do not, a count of 1 and of 0, and a window. -/
theorem test_meets_ControlFlow :
    ((base .access).badUse [.s 1, .s 2] = none ∧ (base .access).readS 1 = (base .access).readS 2)
    ∧ (let s := onStrand .compute fun t => { t with s := [(1, 1#64)], vwinSize := 128#8, vwinBase := 127#8 }
       s.badUse [.s 1, .s 0] = none ∧ s.readS 1 ≠ s.readS 0 ∧ s.readS 1 - 1#64 = 0#64 ∧ s.cur.kind = .compute
         ∧ 127 < s.strand.vwinSize.toNat ∧ (0 : Nat) < s.strand.vwinSize.toNat ∧ (base .compute).strand.vwinSize = 0#8) := by decide +kernel

/-- Operands without marks, and words of legal fields. -/
theorem test_meets_AddressVectors :
    (let s := base .access
     s.badUse [s.useGuard, s.useX 31, s.useX 0] = none ∧ s.badUse [s.useGuard, s.useX 31, .s 63] = none
       ∧ s.badUse [s.useGuard, .s 63, .s 0] = none) ∧ (Instr.xiota true 31#8 63#8 63#8).wellFormed = true
    ∧ (Instr.xcmpGeu true 15#4 31#8 31#8).wellFormed = true := by decide +kernel

/-- Both lanes of vsel, and words of legal fields. -/
theorem test_meets_VectorBits :
    (let s := onStrand .compute fun t => { t with mode := 0x1000#16, p := [(1, 1#64)] }
     s.badUse [s.useGuard, s.useV 0, s.useVM 255 (~~~s.guard)] = none ∧ s.badUse [s.useGuard, s.useV 9] = none
       ∧ maskBit s.guard 0 = true ∧ maskBit s.guard 1 = false) ∧ (Instr.vsel true 255#8 0#8 1#8).wellFormed = true
    ∧ (Instr.vunMov true 255#8 0#8).wellFormed = true := by decide +kernel

/-- The lanes and registers that are read carry no mark. -/
theorem test_meets_LaneMoves :
    (let s := base .compute
     s.badUse [s.useGuard, s.useVM 1 (sourceLanes s.guard fun l => l ^^^ 63), .s 2] = none
       ∧ s.badUse [s.useGuard, s.useVM 1 (sourceLanes s.guard fun _ => 0), s.useV 2] = none ∧ s.badUse [s.useGuard, .s 63, .s 0] = none
       ∧ s.badUse ([s.useGuard, s.useV 1] ++ s.tableUses 128#8 (s.vec 1)) = none) := by decide +kernel

/-- Predicates without marks; cond and fn values that are unassigned, at both ends, and a pb of not. -/
theorem test_meets_ComparesAndPredicates :
    (let s := base .compute
     s.badUse [.p 1, .p 15] = none ∧ s.badUse [s.useGuard, .p 15] = none ∧ s.badUse [s.useGuard, s.useV 1, s.useV 2] = none)
    ∧ 7 < (8#4).toNat ∧ 7 < (15#4).toNat ∧ 5 < (6#4).toNat ∧ 15 < (16#8).toNat ∧ ((4#4 = 4#4 ∨ 4#4 = 5#4) ∧ 1#8 ≠ 0#8)
    ∧ (Instr.vcmpUnord true 15#4 255#8 0#8).wellFormed = true ∧ (Instr.plogMov true 15#4 15#4).wellFormed = true
    ∧ (Instr.predMask true 63#8 15#8).wellFormed = true := by decide +kernel

/-- The client's word, the lowest slot's word, no word; a flight, no client, a full and a free completion queue. -/
theorem test_meets_Mailbox :
    (let e : QEntry := ⟨7#64, false, 0⟩
     let s := onSeq .seq fun q => { q with client := 31#8, cmdQ := [(31, [e])] }
     s.strand.ctlBad.contains 0x1C2 = false ∧ (s.cluster 0).seq.client.toNat = 31 ∧ SMap.get [] (s.cluster 0).seq.cmdQ 31 = [e] ∧ e.parityBad = false)
    ∧ (let q := ((onSeq .seq fun q => { q with cmdQ := [(2, [⟨7#64, false, 0⟩])] }).cluster 0).seq
       q.client = 0xFF#8 ∧ 2 < 32 ∧ SMap.get [] q.cmdQ 2 ≠ [] ∧ ∀ j < 2, SMap.get [] q.cmdQ j = [])
    ∧ (let q := ((base .seq).cluster 0).seq
       q.client = 0xFF#8 ∧ (∀ k < 32, SMap.get [] q.cmdQ k = []) ∧ q.flight = [] ∧ (base .seq).clientSlot 0 = none
         ∧ (base .seq).badUse [.s 1] = none)
    ∧ ((onSeq .seq fun q => { q with flight := [MatOp.none] }).cluster 0).seq.flight ≠ []
    ∧ (let s := onSeq .seq fun q => { q with client := 0#8, doneQ := [(0, List.replicate 8 ⟨0#64, false, 0⟩)] }
       s.clientSlot 0 = some 0 ∧ 8 ≤ (SMap.get [] (s.cluster 0).seq.doneQ 0).length)
    ∧ (let s := onSeq .seq fun q => { q with client := 0#8, doneQ := [(0, List.replicate 7 ⟨0#64, false, 0⟩)] }
       s.clientSlot 0 = some 0 ∧ (SMap.get [] (s.cluster 0).seq.doneQ 0).length < 8) := by decide +kernel

/-- The result is not an error: some value makes `x = .ok value` hold. -/
def isOk {ε α : Type} : Except ε α → Bool
  | .ok _ => true
  | .error _ => false
/-- The result is a value with a property. -/
def okAnd {ε α : Type} (x : Except ε α) (p : α → Bool) : Bool :=
  match x with
  | .ok a => p a
  | .error _ => false
theorem exists_of_isOk {ε α : Type} {x : Except ε α} (h : isOk x = true) : ∃ a, x = .ok a := by
  cases x with
  | ok a => exact ⟨a, rfl⟩
  | error e => cases h

/-- A matrix instruction that issues, one that waits, one that fails its check and enters the handler; the boundary tile of mzero; a
good and a bad format descriptor; tile steps that run, that wait and that find poison. -/
theorem test_meets_MatrixUnit :
    (let s := base .seq
     let o := { MatOp.none with op := 1, a := 31 }
     s.matCheck o = none ∧ s.matCheck { o with a := 32 } = some 0x12 ∧ (s.cluster 0).seq.tiles = 32 ∧ s.badUse [.s 2, .s 3] = none
       ∧ s.badUse [] = none)
    ∧ (let s := onSeq .seq fun q => { q with flight := List.replicate 8 { MatOp.none with op := 1, a := 31 } }
       s.matCheck { MatOp.none with op := 1, a := 31 } = none
         ∧ 8 ≤ ((s.cluster 0).seq.flight.filter fun x => x.unit == { MatOp.none with op := 1, a := 31 }.unit).length)
    ∧ (let s := onSeq .seq fun q => { q with strand := handled q.strand, tiles := 4 }
       s.canEnter ∧ (s.cluster 0).seq.tiles ≤ (4#8).toNat)
    ∧ (let s := onSeq .seq fun q => { q with strand := handled { q.strand with s := [(1, 0xC3FFE000#64)] } }
       s.badUse [.s 1] = none ∧ fmtWordOk ((s.readS 1).setWidth 32) = true ∧ fmtWordOk ((s.readS 0).setWidth 32) = false) := by
  decide +kernel

/-- A cluster whose sequencer has one mzero in flight, and one behind it that must wait. -/
def tiling (bad : Bool) : State :=
  (onSeq .seq fun q => { q with flight := [{ MatOp.none with op := 1, a := 3 }, { MatOp.none with op := 1, a := 3 }],
                                accPoison := if bad then [(5, true)] else [] })

theorem test_meets_tile_step :
    (let s := tiling false
     let o := { MatOp.none with op := 1, a := 3 }
     (s.cluster 0).seq.flight[0]? = some o ∧ s.seqRuns 0 = true ∧ ((s.cluster 0).seq.flight.take 0).any (fun x => x.mustWait o) = false
       ∧ o.blocks ≠ 0 ∧ s.stepPoison 0 o = none ∧ (s.cluster 0).seq.flight[1]? = some o
       ∧ ((s.cluster 0).seq.flight.take 1).any (fun x => x.mustWait o) = true)
    ∧ (let o := { MatOp.none with op := 4, a := 1, recA := (0, 0x100) }
       let s := onSeq .seq fun q => { q with flight := [o], accPoison := [(0, true)] }
       s.seqRuns 0 = true ∧ o.blocks ≠ 0 ∧ (s.stepPoison 0 o).isSome = true) := by decide +kernel

/-- Queues that are empty, that hold a good and a bad head, and that hold 7 and 8. -/
theorem test_meets_StrandQueues :
    (let q := fun n bad => List.replicate n (QEntry.mk 5#64 bad 0)
     (base .compute).curWave.hq0 = [] ∧ (base .compute).badUse [.s 1] = none
     ∧ (onWave .compute fun w => { w with hq0 := q 8 false }).curWave.hq0 = ⟨5#64, false, 0⟩ :: q 7 false
     ∧ 8 ≤ (onWave .access fun w => { w with hq0 := q 8 false }).curWave.hq0.length
     ∧ (onWave .access fun w => { w with hq0 := q 7 false }).curWave.hq0.length < 8
     ∧ (let s := onWave .compute fun w => { w with hq0 := q 1 true, cmp := handled w.cmp }
        s.curWave.hq0 = ⟨5#64, true, 0⟩ :: [] ∧ s.canEnter))
    ∧ (let e : VEntry := ⟨Lanes.zero32, 1#64, 0#64, 0#64, 0, 0⟩
       let s := onWave .compute fun w => { w with lq := [(7, [e])], wq := [(3, [e])] }
       s.badUse [s.useGuard] = none ∧ SMap.get [] s.curWave.lq 7 = e :: [] ∧ e.missing = 0 ∧ e.parityBad = 0#64
         ∧ SMap.get [] s.curWave.wq 3 = e :: [] ∧ SMap.get [] s.curWave.lq 0 = [] ∧ SMap.get [] s.curWave.wq 0 = []
         ∧ (SMap.get [] (onWave .compute fun w => { w with lq := [(7, [{ e with missing := 1 }])] }).curWave.lq 7).head?.map VEntry.missing
           = some 1
         ∧ (SMap.get [] (onWave .compute fun w => { w with wq := [(3, List.replicate 7 e)] }).curWave.wq 3).length < 8
         ∧ 8 ≤ (SMap.get [] (onWave .compute fun w => { w with wq := [(3, List.replicate 8 e)] }).curWave.wq 3).length) := by
  decide +kernel

/-- Pushes that go in, that find 7 or 8 words, that wait for a store, and to a mailbox of one's own and of another's sequencer;
completions that are there and that are not. -/
theorem test_meets_EngineQueues :
    (let s := base .access
     s.badUse [.s 1] = none ∧ (SMap.get [] s.curWave.eqCmd 0).length < 8 ∧ s.pushWaits 0 0#64 = false ∧ s.storesOut = false
       ∧ (s.cluster 0).seq.owner = s.curUnit ∧ (SMap.get [] (s.cluster 0).seq.cmdQ 0).length < 8
       ∧ SMap.get [] s.curWave.eqDone 0 = [] ∧ SMap.get [] (s.cluster 0).seq.doneQ 0 = [])
    ∧ (inFlight .store .none []).storesOut = true ∧ (onSeq .access fun q => { q with owner := 9 }).curUnit ≠ 9
    ∧ 8 ≤ (SMap.get [] (onWave .access fun w => { w with eqCmd := [(5, List.replicate 8 ⟨0#64, false, 0⟩)] }).curWave.eqCmd 5).length
    ∧ (let s := onUnit .access fun x => { x with depthScout := 1 }
       s.pushWaits 0 (BitVec.ofNat 64 (1 * 2 ^ 56)) = true ∨ s.pushWaits 2 0#64 = true)
    ∧ 8 ≤ (SMap.get [] ((onSeq .access fun q => { q with cmdQ := [(0, List.replicate 8 ⟨0#64, false, 0⟩)] }).cluster 0).seq.cmdQ 0).length
    ∧ (let e : QEntry := ⟨1#64, false, 3⟩
       SMap.get [] (onWave .access fun w => { w with eqDone := [(0, [e])] }).curWave.eqDone 0 = e :: [] ∧ e.parityBad = false ∧ e.tag ≠ 0
         ∧ SMap.get [] ((onSeq .access fun q => { q with doneQ := [(0, [e])] }).cluster 0).seq.doneQ 0 = e :: []) := by decide +kernel

/-- Loads and stores of every active lane, through the probe, with room in the queue and without, and with the largest sizes. -/
theorem test_meets_VectorAccesses :
    (let s := onStrand .access fun t => { t with mode := 0x1000#16, p := [(1, 0x8000000000000001#64)] }
     s.cur.kind = .access ∧ s.strand.storeErr = none ∧ s.badUse [s.useGuard, .s 0, s.useX 0] = none
       ∧ (SMap.get [] s.curWave.lq 7).length < 8 ∧ s.afterOthers = false
       ∧ isOk (s.probeLanes false .read (gatherLanes s s.guard 0 0 (2 ^ (2#2).toNat) fun _ => 0#64)) = true
       ∧ isOk (s.probeLanes true .read (gatherLanes s s.guard 0 0 (2 ^ (2#2).toNat) fun _ => 0#64)) = true
       ∧ SMap.get [] s.curWave.wq 0 = [])
    ∧ (let e : VEntry := ⟨Lanes.zero32, 1#64, 0#64, 0#64, 0, 0⟩
       let s := onWave .access fun w => { w with wq := [(3, [e])], lq := [(7, List.replicate 8 e)] }
       8 ≤ (SMap.get [] s.curWave.lq 7).length ∧ SMap.get [] s.curWave.wq 3 = e :: [] ∧ s.isScout = false ∧ e.parityBad = 0#64
         ∧ e.poison &&& (s.guard &&& e.valid) = 0#64 ∧ s.badUse [s.useGuard, .s 0, .x 0 (s.guard &&& e.valid)] = none
         ∧ isOk (s.probeLanes false .write (gatherLanes s (s.guard &&& e.valid) 0 0 4
             fun l => (Lanes.get32 e.data l).setWidth 64)) = true
         ∧ isOk (s.probeLanes true .write (gatherLanes s (s.guard &&& e.valid) 0 0 4
             fun l => (Lanes.get32 e.data l).setWidth 64)) = true) := by decide +kernel

/-- A scalar load, a store with and without a token, and atomics, at an address that passes the probe. -/
theorem test_meets_ScalarAccesses :
    (let s := base .access
     s.cur.kind = .access ∧ s.strand.storeErr = none ∧ s.isScout = false ∧ s.afterOthers = false ∧ s.badUse [.s 0] = none ∧ s.badUse [.s 0, .s 63] = none
       ∧ s.scalarOps < 8 ∧ isOk (s.probeLanes false .read [⟨0, 0, 2 ^ (3#2).toNat, 0#64, 0#64⟩]) = true
       ∧ isOk (s.probeLanes false .write [⟨0, 0, 2 ^ (3#2).toNat, s.readS 63, 0#64⟩]) = true
       ∧ SMap.get 8 s.courier (s.cur.wave / 8) ≠ 0 ∧ SMap.get 8 { s with courier := [(0, 0)] }.courier (s.cur.wave / 8) = 0
       ∧ s.badUse [.s 0, .s 31, .s 63] = none
       ∧ isOk (s.probeLanes false .atomic [⟨0, 0, 4 * 2 ^ (1#1).toNat, s.readS 31, s.readS 63⟩]) = true) := by decide +kernel

/-- A poisoned operand and a handler; loads whose lane fails the probe in each way, the lane before it passing. -/
theorem test_meets_OperandAndProbeTraps :
    (let s := onStrand .access fun t => handled { t with sPoison := 2#64 }
     (s.readSM 1).2 = true ∧ s.canEnter)
    ∧ (let s := onStrand .access fun t => handled { t with mode := 0x1000#16, p := [(1, 3#64)] }
       let s := s.updWave 0 fun w => { w with x := [(0, Lanes.ofFn fun l => if l = 0 then 0#64 else 0x200000#64),
                                                      (1, Lanes.ofFn fun l => if l = 0 then 0#64 else 2#64)] }
       let lane := fun l x => LaneReq.mk l (Lanes.get64 (s.curWave.xreg x) l).toNat 4 0#64 0#64
       s.badUse [s.useGuard, .s 0, s.useX 0] = none ∧ (SMap.get [] s.curWave.lq 0).length < 8
         ∧ gatherLanes s s.guard 0 0 4 (fun _ => 0#64) = [lane 0 0] ++ lane 1 0 :: []
         ∧ isOk (s.probeLane false .read (lane 0 0)) = true ∧ isOk (s.probeLane false .read (lane 1 0)) = false
         ∧ isOk (s.probeLane false .read (lane 1 1)) = false ∧ isOk (s.probeLane true .read (lane 0 1)) = true
         ∧ isOk (s.probeLane true .read (lane 1 1)) = false) := by decide +kernel

/-- A lane of global memory at virtual address `va` of the loaded page, with a data word. -/
def lane (va size : Nat) (data : W64) : LaneAcc := ⟨0, va, 0x200000 + va, size, data, 0#64, .page 0 0, 0⟩
/-- The state with the page at 0 one of 64 KiB whose leaf entry is `leaf`. -/
def paged (s : State) (leaf : Nat) : State :=
  { s with mem := Mem.writes (Mem.writes s.mem 0x20000 (leBytes 8 (2 ^ 63 + 0x300))) 0x30000 (leBytes 8 leaf) }
/-- A leaf entry of four backings from 2 MiB on, written and fetched from: L, V, S and W are the backings 0 to 3. -/
def leaf4 : Nat := 2 ^ 63 + 2 ^ 62 + 2 ^ 61 + 2 ^ 60 + 3 * 2 ^ 57 + 2 ^ 41 + 2 * 2 ^ 39 + 3 * 2 ^ 37 + 32

/-- An access that is not in flight; a store, a scalar load and an atomic that nothing keeps from being accepted. -/
theorem test_meets_AcceptedAccesses :
    (base .access).flight = []
    ∧ (let s := inFlight .store .none [lane 0x40 8 9#64]
       ∃ a, SMap.find s.flight 0 = some a ∧ a.kind = .store ∧ a.overlay = false ∧ s.acceptable a = true ∧ s.stale a = false
         ∧ a.lanes.all (fun l => !(s.unreachable a.part l.loc || a.hostRefuses l.loc)) = true)
    ∧ (let s := inFlight .load (.s 63) [lane 0x40 8 0#64]
       ∃ a, SMap.find s.flight 0 = some a ∧ a.kind = .load ∧ a.lanes = [lane 0x40 8 0#64] ∧ a.dest = .s 63 ∧ (s.unit a.unit).life = .resident
         ∧ (∀ r ∈ s.hist, ∀ i < 8, r.hits (0x200040 + i) = false) ∧ (∀ i < 8, s.overlayByte a.unit a.space (0x40 + i) = none) ∧ s.acceptable a = true ∧ s.stale a = false
         ∧ a.lanes.all (fun l => !(s.unreachable a.part l.loc || a.hostRefuses l.loc)) = true)
    ∧ (let s := inFlight (.atomic 6) (.s 1) [lane 0x40 4 9#64]
       ∃ a, SMap.find s.flight 0 = some a ∧ a.kind = .atomic 6 ∧ a.lanes = [lane 0x40 4 9#64] ∧ a.dest = .s 1
         ∧ (s.unit a.unit).life = .resident ∧ (∀ i < 4, s.poisonedAt (0x200040 + i) = false ∧ isPeer (0x200040 + i) = false)
         ∧ s.acceptable a = true ∧ s.stale a = false
         ∧ a.lanes.all (fun l => !(s.unreachable a.part l.loc || a.hostRefuses l.loc)) = true) := by
  refine ⟨by decide +kernel, ⟨_, rfl, ?_⟩, ⟨_, rfl, ?_⟩, ⟨_, rfl, ?_⟩⟩ <;> decide +kernel

/-- A stale access, one that cannot be reached, a rejected one with a lane whose page is mapped and one whose is not, and error replies of a store and of a load. -/
theorem test_meets_TurnedAway :
    (let s := { inFlight .store .none [lane 0 8 9#64] with spaces := [(0, { Space.none with part := 0, changed := [(0, 1, 0)] })] }
     ∃ a, SMap.find s.flight 0 = some a ∧ s.acceptable a = true ∧ s.stale a = true ∧ a.kind = .store)
    ∧ (let s := inFlight .load (.s 1) [{ lane 0 8 0#64 with loc := 0x4000000000 }]
       ∃ a, SMap.find s.flight 0 = some a ∧ s.acceptable a = true ∧ s.stale a = false ∧ a.kind = .load
         ∧ (a.lanes.any fun l => s.unreachable a.part l.loc || a.hostRefuses l.loc) = true)
    ∧ (let s := base .access
       s.retranslate { s.access false .load (.s 1) 0 with rejected := true } [lane 0 8 0#64, lane 0x200000 8 0#64]
         = ([lane 0 8 0#64], [lane 0x200000 8 0#64], none))
    ∧ (let s := base .access
       let a := { s.access false .store .none 0 with errored := true, lanes := [lane 0 8 0#64] }
       let s := { s with flight := [(0, a)] }
       s.inOrder a = true ∧ (s.unit a.unit).life = .resident)
    ∧ (let s := base .access
       let a := { s.access false .load (.s 63) 0 with errored := true, lanes := [lane 0 8 0#64] }
       let s := { s with flight := [(0, a)] }
       s.inOrder a = true ∧ (s.unit a.unit).life = .resident) := by
  refine ⟨⟨_, rfl, ?_⟩, ⟨_, rfl, ?_⟩, ?_, ?_, ?_⟩ <;> decide +kernel

/-- Words that are in the state that cldf or cste requires and that are not; the waiting instruction. -/
theorem test_meets_FullEmptyWords :
    (let s := onStrand .access fun t => { t with mode := 0x1000#16, p := [(1, 1#64)] }
     let full := { s with full := [(0, true)] }
     let rs := gatherLanes s s.guard 0 0 4 fun _ => 0#64
     let one := [LaneAcc.mk 0 0 creelLoc 4 0#64 0#64 .creel 0]
     s.cur.kind = .access ∧ s.isScout = false ∧ s.strand.wait = .none ∧ s.quiet = true ∧ s.badUse [s.useGuard, .s 0, s.useX 0] = none
       ∧ (SMap.get [] s.curWave.lq 7).length < 8 ∧ isOk (s.probeLanes true .read rs) = true ∧ isOk (s.probeLanes true .write rs) = true
       ∧ (s.feReady true one && !s.feEarlier s.feOrder) = false ∧ (full.feReady true one && !full.feEarlier full.feOrder) = true
       ∧ (s.feReady false one && !s.feEarlier s.feOrder) = true ∧ (full.feReady false one && !full.feEarlier full.feOrder) = false)
    ∧ (let e : VEntry := ⟨Lanes.zero32, 1#64, 0#64, 0#64, 0, 0⟩
       let s := onWave .access fun w => { w with wq := [(3, [e])] }
       SMap.get [] s.curWave.wq (11 - 8) = e :: [] ∧ e.parityBad = 0#64 ∧ e.poison &&& (s.guard &&& e.valid) = 0#64
         ∧ s.badUse [s.useGuard, .s 0, .x 0 (s.guard &&& e.valid)] = none)
    ∧ (let h := FeWait.mk 0 true 0 false [(0, 0, 0#64)]
       let s := onStrand .access fun t => { t with wait := .fullEmpty h }
       ∃ k, s.slotBy (32 * s.curUnit) = some k ∧ (s.wave k).acc.wait = .fullEmpty h
         ∧ isOk (({ s with cur := ⟨k, .access⟩ } : State).probeLanes true .read [⟨0, 0, 4, 0#64, 0#64⟩]) = true) := by
  refine ⟨by decide +kernel, by decide +kernel, ⟨_, rfl, ?_⟩⟩
  decide +kernel

/-- A strand whose turn it is, that may run and that may not, and whose word decodes, is unassigned and is another strand's. -/
theorem test_meets_StepRunsDecoded :
    (let s := { (base .access).placeWord 0x00030102#32 with hist := [] }
     s.turns = .strand 0 .access :: [] ∧ s.mayRun = true ∧ s.strand.pendTrap = none ∧ s.badRecord = none ∧ s.strand.parked = false ∧ s.hist = []
       ∧ isOk s.fetch = true ∧ isOk (s.probeGlobal s.curUnit 0 0 s.strand.pc.toNat 4 .fetch) = true)
    ∧ (onStrand .access fun t => { t with yielded := true }).mayRun = false
    ∧ ((base .seq).placeWord 0x79040700#32).turns = .sequencer 0 :: []
    ∧ (match decodeCheck .access 0x00030102#32 with | .ok _ => true | .error _ => false) = true
    ∧ (match decodeCheck .access 0xFF000000#32 with | .error .unassigned => true | _ => false) = true
    ∧ (match decodeCheck .access 0x3F050102#32 with | .error .wrongStrand => true | _ => false) = true := by decide +kernel

/-- Instructions that are well formed and have words, at the ends of their fields; a word that is none. -/
theorem test_meets_DecodeEncode : (Instr.add true 63#8 63#8 63#8).wellFormed = true ∧ encode (.add true 63#8 63#8 63#8) = some 0x803F3F3F#32
    ∧ (Instr.jmp true 0xFFFFFF#24).wellFormed = true ∧ encode (.jmp true 0xFFFFFF#24) = some 0x9FFFFFFF#32
    ∧ decodeWord 0xFFFFFFFF#32 = none := by decide +kernel

/-- For each check of a word one that fails it, and one that passes all of them. -/
theorem test_meets_Decoding : opAssigned (opOf 0x15000000#32) = false ∧ opAssigned (opOf 0x7E000000#32) = false
    ∧ (opAssigned (opOf 0x3F050102#32) = true ∧ opAllowed (opOf 0x3F050102#32) .access = false)
    ∧ (opAllowed (opOf 0x602041C0#32) .access = true ∧ (match decodeCheck .access 0x602041C0#32 with | .error .wrongStrand => true | _ => false) = true)
    ∧ (opAllowed (opOf 0x610041C0#32) .access = true ∧ (match decodeCheck .access 0x610041C0#32 with | .error .wrongStrand => true | _ => false) = true)
    ∧ (opAllowed (opOf 0x603041C0#32) .access = true ∧ (match decodeCheck .access 0x603041C0#32 with | .error .unassigned => true | _ => false) = true)
    ∧ (opAllowed (opOf 0x600841C0#32) .access = true ∧ (decodeWord 0x600841C0#32).isSome = true)
    ∧ (decodeWord 0x3E04090F#32 = none ∧ opAssigned (opOf 0x3E04090F#32) = true ∧ opAllowed (opOf 0x3E04090F#32) .compute = true) := by
  decide +kernel

/-- Memories in canonical form, the empty ones of reset and the loaded unit's; a step from each is in the tests of steps. -/
theorem test_meets_StepKeepsMemoryForm : State.reset.memOk = true ∧ (base .access).memOk = true := by decide +kernel

/-- Writes at different places, one of them the creel's last byte; a monitor of another wave on the line that is written. -/
theorem test_meets_PerformedWrites :
    (let es : List (Nat × Byte) := [(0x200000, 1#8), (0x20007F, 2#8), (creelLoc + 4194303, 3#8)]
     (es.map Prod.fst).Nodup ∧ isPeer 0x200000 = false ∧ 0x200080 ∉ es.map Prod.fst ∧ isCreel 0x20007F = false)
    ∧ (let s := onStrand .access fun t => { t with monitor := some ⟨0x20007F / 128, 0⟩ }
       s.memOk = true ∧ ∃ w, SMap.find s.waves 0 = some w ∧ w.who ≠ 0 ∧ w.acc.monitor = some ⟨0x20007F / 128, 0⟩) := by
  refine ⟨by decide +kernel, by decide +kernel, ⟨_, rfl, ?_⟩⟩
  decide +kernel

/-- A quiet strand, one with a load and one with a store in flight, and one with a store error; at the barrier and not yet there. -/
theorem test_meets_Synchronisation :
    (let s := base .access
     s.strand.storeErr = none ∧ s.quiet = true ∧ s.flight = [] ∧ s.strand.wait = .none)
    ∧ (let s := inFlight .load (.s 1) []
       s.quiet = false ∧ ∃ e, e ∈ s.flight ∧ e.2.unit = s.curUnit ∧ e.2.idx = s.curWave.pos ∧ e.2.kind ≠ .store)
    ∧ (let s := inFlight .store .none []
       ∀ e ∈ s.flight, e.2.kind = .store)
    ∧ (let s := onStrand .access fun t => handled { t with storeErr := some 8#64 }
       s.canEnter)
    ∧ (let s := onStrand .access fun t => { t with wait := .gbar true false }
       (s.unit s.curUnit).life = .resident ∧ (s.unit s.curUnit).slots = [0] ∧ (s.wave 0).acc.wait = .gbar true false) := by
  refine ⟨by decide +kernel, ⟨by decide +kernel, _, .head _, ?_⟩, by decide +kernel, by decide +kernel, by decide +kernel⟩
  decide +kernel

/-- A page of two and of one backing, a misaligned address; a scout task; batches that are complete, and 16 that are not. -/
theorem test_meets_Publication :
    (let s := paged (base .access) leaf4
     let u := s.unit s.curUnit
     s.strand.storeErr = none ∧ s.badUse [.s 0] = none ∧ isOk (s.bufferPages s.curUnit u.part u.space 0 1) = true
       ∧ okAnd (s.bufferPages s.curUnit u.part u.space 0 1) (fun ps => ps.length == 1 && uniformPages ps
         && !(s.writesOut 0 65536 || s.rotateWaits u.space 0 65536 ps)) = true
       ∧ okAnd (s.bufferPages s.curUnit u.part u.space 4 1) (fun ps => ps.all fun p => 4 % p.2.size != 0) = true)
    ∧ (let s := base .access
       okAnd (s.bufferPages s.curUnit 0 0 0 1) (fun ps => !uniformPages ps) = true)
    ∧ (paged (onUnit .access fun x => { x with depthScout := 1 }) leaf4).isScout = true
    ∧ (let s := { paged (base .access) leaf4 with flight := [(0, { (base .access).access false .store .none 0 with lanes := [lane 0 8 0#64] })] }
       s.writesOut 0 65536 = true)
    ∧ (let b : Batch := ⟨1#32, 0, 0, true, [3]⟩
       let s := onWave .access fun w => { w with closed := [b], openBatch := ⟨2#32, 0, 0, false, []⟩ }
       s.badUse [.s 0] = none ∧ (s.curWave.closed.filter fun x => !(x.pending == 0 && x.held == 0)).length < 16
         ∧ (∀ x ∈ s.curWave.closed, ¬ (x.pending ≠ 0 ∨ x.held ≠ 0)))
    ∧ (let b : Batch := ⟨1#32, 1, 0, true, [3]⟩
       let s := onWave .access fun w => { w with closed := List.replicate 16 b }
       16 ≤ (s.curWave.closed.filter fun x => !(x.pending == 0 && x.held == 0)).length ∧ (∃ x, x ∈ s.curWave.closed ∧ x.pending ≠ 0)) := by
  refine ⟨by decide +kernel, by decide +kernel, by decide +kernel, by decide +kernel, by decide +kernel, by decide +kernel, _, .head _, ?_⟩
  decide +kernel

/-- The state with bytes at a virtual address of the loaded page. -/
def withBytes (s : State) (va : Nat) (bs : List Byte) : State := { s with mem := Mem.writes s.mem (0x200000 + va) bs }
/-- The same with scalar register 1 of the strand holding a number. -/
def operand (s : State) (x : Nat) : State := s.updStrand fun t => { t with s := [(1, BitVec.ofNat 64 x)] }
/-- Fields of 8 bytes, one after another. -/
def words (xs : List Nat) : List Byte := xs.flatMap (leBytes 8)

/-- A queue entry without a parity error. -/
def good (x : W64) : QEntry := ⟨x, false, 0⟩

/-- A resident wave with room in its completion queues: a finished command; a STAT, another word, one that fails parity, TOLs that fail
in each way and one that does not; a word for the collective engine. -/
theorem test_meets_EngineAnswers :
    (let s := onWave .access fun w => { w with fin := [(0, [⟨7, 0xFF, 0, 0⟩])], eqCmd := [(4, [good (BitVec.ofNat 64 (2 ^ 56 + 63))]), (2, [good 0#64])] }
     s.slotBy 32 = some 0 ∧ (SMap.get [] (s.waveBy 32).fin 0)[0]? = some ⟨7, 0xFF, 0, 0⟩
       ∧ (SMap.get [] (s.waveBy 32).eqDone 0).length < 8 ∧ SMap.get [] (s.waveBy 32).eqCmd 4 = good (BitVec.ofNat 64 (2 ^ 56 + 63)) :: []
       ∧ (good 0#64).parityBad = false ∧ (QEntry.mk 0#64 true 0).parityBad = true
       ∧ (BitVec.ofNat 64 (2 ^ 56 + 63)).toNat / 2 ^ 56 = 1 ∧ (BitVec.ofNat 64 (2 ^ 56 + 63)).toNat / 64 % 2 ^ 50 = 0
       ∧ (0#64).toNat / 2 ^ 56 ≠ 1 ∧ (0#64).toNat / 2 ^ 56 ≠ 2 ∧ SMap.get [] (s.waveBy 32).eqCmd 2 ≠ [])
    ∧ (let x := BitVec.ofNat 64 (2 * 2 ^ 56)
       let s := onWave .access fun w => { w with eqCmd := [(4, [good x, good 0x3F80000080000000#64])] }
       SMap.get [] (s.waveBy 32).eqCmd 4 = good x :: good 0x3F80000080000000#64 :: [] ∧ x.toNat / 2 ^ 56 = 2 ∧ x.toNat / 64 % 2 ^ 50 = 0
         ∧ (SMap.get Stream.closed (s.cluster 0).streams 0).isOpen = false
         ∧ tolOk ((0x3F80000080000000#64).toNat % 2 ^ 32) = true
         ∧ tolOk ((0x3F80000080000000#64).toNat / 2 ^ 32) = true ∧ tolOk 0xBF800000 = false ∧ tolOk 0x7F800000 = false
         ∧ (BitVec.ofNat 64 (2 * 2 ^ 56 + 64)).toNat / 64 % 2 ^ 50 ≠ 0)
    ∧ (SMap.get Stream.closed ((base .access).setCluster 0 { (base .access).cluster 0 with
        streams := [(0, { Stream.closed with isOpen := true })] } |>.cluster 0).streams 0).isOpen = true := by decide +kernel

/-- A copy of creel bytes to the creel: refused, to be started, to be read, and to be written. -/
def copyCmd : EngCmd :=
  { num := 1, view := [], gather := false, words := 2, refusal := none, dk := 1, sk := 1, fe := 0, note := false, tag := 0, length := 64,
    src := 0x10, dst := 0x100, list := 0, pitch := 0, rowBytes := 0, batch := none, joined := false, started := true, read := 0, done := 0,
    buf := [], rowIdx := 0 }

theorem test_meets_EngineCommands :
    (let s := onWave .access fun w => { w with eng := [(0, [copyCmd])] }
     s.waveLives 32 = true ∧ (s.waveBy 32).cmdBad 0 2 = false
       ∧ (onWave .access fun w => { w with eqCmd := [(0, [good 0#64, ⟨0#64, true, 0⟩])] }).curWave.cmdBad 0 2 = true ∧ SMap.get [] (s.waveBy 32).eng 0 = [copyCmd] ∧ copyCmd.batch = none ∧ copyCmd.started = true
       ∧ copyCmd.read < copyCmd.length ∧ copyCmd.done = copyCmd.read ∧ copyCmd.buf = [] ∧ copyCmd.selfOverlaps = false
       ∧ s.reach 1 1 1 0x10 64 .read = .ok (creelLoc + 0x10) .creel ∧ (∀ i < 64, s.poisonedAt (creelLoc + 0x10 + i) = false)
       ∧ s.reach 1 1 1 0x100 64 .engine = .ok (creelLoc + 0x100) .creel ∧ (∀ i < 64, isPeer (creelLoc + 0x100 + i) = false)
       ∧ { copyCmd with started := false, refusal := some 1 }.refusal = some 1 ∧ { copyCmd with started := false }.length ≠ 0
       ∧ { copyCmd with read := 64, buf := List.replicate 64 7#8 }.length ≤ 64) := by decide +kernel

/-- A unit with a tree whose node 0 is live, and a mask command of one query and one key, at the least and at the greatest number of
keys. -/
def oneNode : Tree :=
  { part := 0, space := 0, pslots := 4, die := 0, decode := false, slotBytes := 65536, trunk := 3, maxpos := 4095, tokarea := 0, ring := 0,
    rentries := 0, kvpages := 16, kvbase := 0x40000000, nodes := [(0, ⟨0xFFFF, 3, 5#32, 0, 3⟩)],
    pages := [(0, ⟨1, 1, false, true, [], false⟩)], trunkPages := [], held := [], tail := 0, rels := [], asked := [] }
def withTree (s : State) (t : Tree) : State := (s.setDie 1 Die.running).updPart 0 fun p => { p with trees := [(0, t)], asn := { p.asn with maxTrees := 1 } }

theorem test_meets_mask :
    (let w0 := BitVec.ofNat 64 (2 ^ 56 + 1)
     let s := withTree (onWave .access fun w => { w with eqCmd := [(3, [w0, 0#64, 0x100#64, 0x200#64].map good)] }) oneNode
     s.slotBy 32 = some 0 ∧ SMap.get [] (s.waveBy 32).eqCmd 3 = good w0 :: good 0#64 :: good 0x100#64 :: good 0x200#64 :: []
       ∧ (s.waveBy 32).cmdBad 3 4 = false
       ∧ (SMap.get [] (s.waveBy 32).eqDone 3).length < 8 ∧ bitsOf w0.toNat 63 56 = 1 ∧ bitsOf w0.toNat 55 54 = 0
       ∧ bitsOf w0.toNat 15 13 = 0 ∧ bitsOf w0.toNat 12 0 = 1 ∧ bitsOf (2 ^ 56 + 4096) 12 0 = 4096 ∧ bitsOf w0.toNat 53 48 + 1 = 1
       ∧ (∀ e ∈ [(0, 4), (0x100, 4), (0x200, 8)], e.1 < 2 ^ 22 ∧ s.creelOutside 1 e.1 e.2 = false)
       ∧ bitsOf (leNat ((List.range 4).map fun j => s.byteNow (locOfCreel 0 j))) 31 12 = 0
       ∧ SMap.has (s.part 0).trees (bitsOf w0.toNat 47 32) = true ∧ (s.tree 0 0).decode = (s.cluster 0).decode) := by decide +kernel

/-- No monitor; a monitor with each kind of wake; asleep, in time and late; a token and none. -/
theorem test_meets_MonitorInstructions :
    (let s := base .access
     s.strand.storeErr = none ∧ s.badUse [.s 1] = none ∧ s.scalarOps < 8 ∧ s.isScout = false ∧ s.afterOthers = false ∧ SMap.get 8 s.courier 0 ≠ 0 ∧ s.strand.monitor = none
       ∧ isOk (s.probeLanes false .read [⟨0, 0x1FFFFF, 1, 0#64, 0#64⟩]) = true)
    ∧ (let s := onStrand .access fun t => { t with monitor := some ⟨0x4000, 0⟩, wait := .mwait 0 1 }
       s.slotBy 32 = some 0 ∧ (s.wave 0).acc.wait = .mwait 0 1 ∧ s.cycle < 0 + 1 ∧ { s with cycle := 1 }.cycle = 0 + 1
         ∧ s.strand.monitor = some ⟨0x4000, 0⟩)
    ∧ (onStrand .access fun t => { t with monitor := some ⟨0x4000, 1⟩ }).strand.monitor = some ⟨0x4000, 1⟩
    ∧ (onStrand .access fun t => { t with monitor := some ⟨0x4000, 3⟩ }).strand.monitor = some ⟨0x4000, 3⟩
    ∧ (base .access).strand.wait = .none := by decide +kernel

/-- A timeline that meets its threshold, one that does not, a broken one; waits of both kinds; a signal that would move it backward and
one past 64 bits. -/
theorem test_meets_TimelineInstructions :
    (let s := operand (base .access) 5
     let at' := fun (v : W64) b => { s.updPart 0 fun p => { p with timelines := [(511, ⟨v, [], b, []⟩)] } with cur := s.cur }
     s.strand.storeErr = none ∧ s.badUse [.s 1] = none ∧ s.scalarOps < 8 ∧ s.strand.wait = .none ∧ s.isScout = false ∧ s.quiet = true
       ∧ (s.unit s.curUnit).part = 0 ∧ (0x1FF#10).toNat % 512 = 511
       ∧ (let l := ((at' 5#64 false).part 0).timeline 511
          l.broken = false ∧ (s.readS 1).toNat ≤ l.value.toNat)
       ∧ (let l := ((at' 4#64 false).part 0).timeline 511
          l.broken = false ∧ l.value.toNat < (s.readS 1).toNat ∧ l.value.toNat ≤ 4 + 5 ∧ (0x3FF#10).getLsbD 9 = true)
       ∧ (((at' 4#64 true).part 0).timeline 511).broken = true
       ∧ ¬ (6 ≤ (s.readS 1).toNat) ∧ ¬ ((2 ^ 64 - 1) + (s.readS 1).toNat < 2 ^ 64))
    ∧ (onStrand .access fun t => { t with wait := .released 5#64 true [] }).strand.wait = .released 5#64 true []
    ∧ (let s := onStrand .access fun t => { t with wait := .timeline 0 0#64 }
       s.slotBy 32 = some 0 ∧ (s.wave 0).acc.wait = .timeline 0 0#64) := by decide +kernel

/-- A join that succeeds at the last slot, and one for each status; a unit that is in a weave and leaves it. -/
theorem test_meets_WeaveInstructions :
    (let s := operand (base .access) (2 ^ 48 + 5)
     s.strand.storeErr = none ∧ s.badUse [.s 1] = none ∧ s.scalarOps < 8 ∧ s.isScout = false ∧ s.strand.wait = .none ∧ s.quiet = true
       ∧ s.weaveOfCluster s.curCluster = 0 ∧ s.joinStatus (s.readS 1) 15 = 0
       ∧ (let J := s.join (bitsOf (s.readS 1).toNat 47 0) 15
          J.weaveOfUnit s.curUnit = 0 + 1 ∧ (J.weave 0).members.length < bitsOf (s.readS 1).toNat 51 48 + 1))
    ∧ bitsOf (operand (base .access) (2 ^ 52)).strand.s.head!.2.toNat 63 52 ≠ 0
    ∧ (let s := { base .access with weaves := [(0, ⟨0, 0, 5, [(15, 9)], []⟩)] }
       s.joinStatus 5#64 15 = 2 ∧ s.joinStatus 5#64 14 = 0)
    ∧ ({ base .access with weaves := (List.range 32).map fun n => (n, ⟨1, 0, n, [(0, 9)], []⟩) } : State).joinStatus 5#64 15 = 3
    ∧ (let s := { base .access with weaves := [(0, ⟨0, 0, 5, [(15, 1)], []⟩)] }
       s.weaveOfCluster s.curCluster = 0 + 1 ∧ s.joinStatus 5#64 0 = 1 ∧ s.quiet = true ∧ s.memberAccessOut s.curCluster = false
         ∧ (s.weave 0).members.find? (fun m => (s.unit m.2).life == .resident && (s.unit m.2).cluster == s.curCluster) = some (15, 1)) := by
  decide +kernel

/-- The bytes of a sprout's kernel descriptor (a wave, no tiles, no creel), and of a spawn descriptor that names it. -/
def sproutBytes : List Byte := leBytes 4 0 ++ [1, 1, 1, 0] ++ leBytes 4 0 ++ [0, 3, 0, 0] ++ words [0x100000, 0x100000, 0] ++ List.replicate 88 0#8
def spawnBytes (count : Nat) : List Byte := words [0x80] ++ leBytes 4 count ++ leBytes 4 1 ++ leBytes 4 1 ++ List.replicate 108 0#8

/-- A spawn that is misaligned, malformed, of a kernel that is no sprout's, too deep, and one with clusters on which to lie and with
none; a dependence count of 0 and of 2; cancels of each kind. -/
theorem test_meets_SpawnAndCancel :
    (let s := withBytes (withBytes (operand (base .access) 0x100) 0x80 sproutBytes) 0x100 (spawnBytes 65535)
     let u := s.unit s.curUnit
     s.strand.storeErr = none ∧ s.badUse [.s 1] = none ∧ s.scalarOps < 8 ∧ s.isScout = false ∧ s.afterOthers = false ∧ s.storesOut = false
       ∧ s.strand.wait = .none
       ∧ okAnd (s.probeLanes false .read [⟨0, 0x100, 1, 0#64, 0#64⟩]) (fun a => a.length == 1) = true ∧ 0x100 % 128 = 0 ∧ 0x101 % 128 ≠ 0
       ∧ okAnd (s.readVa s.curUnit u.part u.space 0x100 128) (fun b => spawnOk b && fieldOf b 0 8 == 0x80) = true
       ∧ (s.kernelAt u.part u.space 0x80).map Kernel.sprout = some true ∧ u.depth < 4
       ∧ spawnOk (spawnBytes 0) = false ∧ spawnOk (spawnBytes 65536) = false
       ∧ ({ s with clusters := [] } : State).spawnClusters { loadKernel with sprout := true, tiles := 32 } = []
       ∧ 4 ≤ ((onUnit .access fun x => { x with depth := 4 }).unit 1).depth)
    ∧ (let s := operand (base .access) 0x40
       (0x41 : Nat) % 64 ≠ 0 ∧ (s.readS 1).toNat % 64 = 0 ∧ s.quiet = true
         ∧ okAnd (s.probeLanes false .atomic [⟨0, 0x48, 4, 0#64, 0#64⟩]) (fun a => a.length == 1) = true
         ∧ s.unreachable 0 0x200048 = false ∧ (SMap.find (s.part 0).graphs (s.graphOfUnit s.curUnit)).isSome = true
         ∧ okAnd (s.vaLocs 0 0 0 0x48 4 .atomic) (fun l => l == [0x200048, 0x200049, 0x20004A, 0x20004B]) = true
         ∧ (∀ i < 4, s.poisonedAt (0x200048 + i) = false ∧ isPeer (0x200048 + i) = false) ∧ s.word 0x200048 4 = 0
         ∧ 2 ≤ (withBytes s 0x48 [2]).word 0x200048 4)
    ∧ (let p := (base .access).part 0
       (match p.target 0 1#64 with | .hit ls gs => (p.reached ls gs).contains 1 | _ => false) = true
         ∧ (match p.target 0 9#64 with | .unknown => true | _ => false) = true
         ∧ (match { p with doneLaunches := [9] }.target 0 9#64 with | .past => true | _ => false) = true)
    ∧ (onStrand .access fun t => { t with wait := .cancel 3 }).cancels = [] := by decide +kernel

/-- Where a spawn has a cluster, a slot and a creel place to choose, it has a spot. -/
theorem spawnSpot_isSome (s : State) (k : Kernel) (hc : s.spawnClusters k ≠ [])
    (hp : ∀ c ∈ s.spawnClusters k, ((List.range 32).filter fun i => s.slotFree c i) ≠ []
      ∧ ((List.range (Config.creelBytes / 128)).filter fun i => s.creelFree c (128 * i) k.creel) ≠ []) : (s.spawnSpot k).isSome = true := by
  have pick : ∀ {α : Type} (n : Nat) (l : List α), l ≠ [] → ∃ x, l[n % l.length]? = some x := by
    intro α n l h
    exact ⟨_, List.getElem?_eq_getElem (Nat.mod_lt n (List.length_pos_iff.mpr h))⟩
  obtain ⟨c, h⟩ := pick (Config.pick s.fresh 11) _ hc
  obtain ⟨h1, h2⟩ := hp c (List.mem_of_getElem? h)
  obtain ⟨i, hi⟩ := pick (Config.pick s.fresh 12) _ h1
  obtain ⟨j, hj⟩ := pick (Config.pick s.fresh 13) _ h2
  simp [State.spawnSpot, h, hi, hj]

theorem test_meets_spawn_spot : ((base .access).spawnSpot { loadKernel with sprout := true, tiles := 0, hasSeq := false, creel := 0 }).isSome
    = true :=
  spawnSpot_isSome _ _ (by decide +kernel) (by decide +kernel)

/-- The bytes of a stream descriptor: 64 KiB from `base` on, tolerances 0. -/
def streamBytes (base len : Nat) : List Byte := words [base, len] ++ List.replicate 48 0#8
/-- An open stream on the page at 0. -/
def openStream : Stream := { Stream.closed with isOpen := true, base := 0, length := 65536, h := 1, k := 7#32 }
/-- A take of it with a status and a verdict. -/
def takeOf (version : BitVec 32) (status verdict : Nat) : Take := ⟨0, 3, version, status, [0], verdict, 0, 0#64, 0, 0, 65536⟩
def withStream (s : State) (y : Stream) : State := s.setCluster 0 { s.cluster 0 with streams := [(3, y)] }
/-- The page at 0 stands in spill, as page 0 of tree 0. -/
def inSpill (s : State) : State :=
  withTree (paged s (2 ^ 62 + 2 ^ 36)) { oneNode with kvbase := 0, pages := [(0, ⟨1, 1, false, false, [], false⟩)] }

/-- Descriptors for each status of scout.open, an open and a closed stream, each case of scout.take, and a scout task. -/
theorem test_meets_StreamInstructions :
    (let s := withBytes (operand (paged (base .access) leaf4) 0x100) 0x100 (streamBytes 0 65536)
     let u := s.unit s.curUnit
     s.badUse [.s 1] = none ∧ s.scalarOps < 8 ∧ s.isScout = false ∧ s.afterOthers = false ∧ 0x100 % 64 = 0 ∧ 0x101 % 64 ≠ 0
       ∧ isOk (s.probeLanes false .read [⟨0, 0x100, 64, 0#64, 0#64⟩]) = true
       ∧ okAnd (s.readVa s.curUnit u.part u.space 0x100 64) (fun b => streamOk b) = true ∧ (s.stream 0 3).isOpen = false
       ∧ streamOk (streamBytes 0 64) = false ∧ streamOk (streamBytes 0 4194432) = false ∧ streamOk (streamBytes 0 4194304) = true
       ∧ s.fourBackings u.part u.space 0 65536 = true ∧ (base .access).fourBackings 0 0 0 65536 = false ∧ s.baseHeld u.space 0 = false
       ∧ (withStream s openStream).baseHeld u.space 0 = true ∧ ((withStream s openStream).stream 0 3).isOpen = true)
    ∧ (onUnit .access fun x => { x with depthScout := 1 }).isScout = true
    ∧ (let s := withStream (operand (base .access) 8) openStream
       let u := s.unit s.curUnit
       (s.stream 0 3).isOpen = true ∧ u.takes.find? (fun t => t.cluster == 0 && t.stream == 3) = none ∧ u.takes.length < 8
         ∧ (s.readS 1).setWidth 32 = (s.stream 0 3).k + 1#32 ∧ (s.readS 1).setWidth 32 ≠ (s.stream 0 3).k ∧ u.rerun = false
         ∧ s.holderOf (s.stream 0 3) = none ∧ s.scoutPinned 0 3 8#32 = false ∧ s.readsOut = false
         ∧ (∀ a b d, s.strand.wait ≠ .take a b d)
         ∧ ((withStream s { openStream with formed := true }).stream 0 3).formed = true
         ∧ (withStream (onUnit .access fun x => { x with depthScout := 1, held := [⟨0, 0, 0, 1⟩] }) openStream).holderOf openStream = some 1
         ∧ (onUnit .access fun x => { x with takes := [takeOf 7#32 1 0] }).scoutPinned 0 3 8#32 = true
         ∧ ((onUnit .access fun x => { x with rerun := true }).unit 1).rerun = true
         ∧ ((onUnit .access fun x => { x with takes := [takeOf 7#32 1 0] }).unit 1).takes.find?
             (fun t => t.cluster == 0 && t.stream == 3) = some (takeOf 7#32 1 0)
         ∧ 8 ≤ ((onUnit .access fun x => { x with takes := List.replicate 8 { takeOf 7#32 1 0 with stream := 4 } }).unit 1).takes.length)
    ∧ (inFlight .load (.s 1) [lane 0x40 8 0#64]).readsOut = true
    ∧ (let s := withStream ((base .access).updStrand fun t => { t with wait := .take 0 3 7#32 }) openStream
       s.strand.wait = .take 0 3 7#32 ∧ (7#32 : BitVec 32) = (s.stream 0 3).k
         ∧ ((withStream s { openStream with k := 8#32 }).stream 0 3).k ≠ 7#32) := by
  refine ⟨by decide +kernel, by decide +kernel, ⟨by decide +kernel, by decide +kernel, by decide +kernel, by decide +kernel, by decide +kernel,
    by decide +kernel, by decide +kernel, by decide +kernel, by decide +kernel, (fun _ _ _ h => nomatch h), ?_⟩, by decide +kernel,
    by decide +kernel⟩
  decide +kernel

/-- A stream with a compare due and one without; scout tasks that may commit, that must wait, whose verdict is not in, and that failed. -/
theorem test_meets_ScoutResolution :
    (let s := withStream (base .access) { openStream with due := true }
     (s.stream 0 3).isOpen = true ∧ (s.stream 0 3).due = true ∧ ((base .access).stream 0 3).isOpen = false
       ∧ (SMap.find s.units 1).isSome = true)
    ∧ (let x := (onUnit .access fun x => { x with depthScout := 1, takes := [takeOf 8#32 1 1, takeOf 7#32 0 0] }).unit 1
       x.life ≠ .gone ∧ 0 < x.depthScout ∧ x.held = [] ∧ ∀ a ∈ x.takes, a.status = 0 ∨ a.verdict = 1)
    ∧ (let s := withStream (paged (onUnit .access fun x => { x with depthScout := 1, held := [⟨0, 0, 0, 1⟩] }) leaf4) { openStream with due := true }
       (s.unit 1).held.any (s.heldWaits 1) = true)
    ∧ (let s := inFlight .store .none [lane 0x40 8 0#64]
       ({ s with flight := s.flight.map fun e => (e.1, { e.2 with overlay := true }) } : State).flight.any
         (fun e => e.2.unit == 1 && e.2.overlay) = true)
    ∧ (let s := paged (onUnit .access fun x => { x with depthScout := 1, held := [⟨0, 0, 0, 1⟩] }) leaf4
       ((s.flight.any fun e => e.2.unit == 1 && e.2.overlay) || (s.unit 1).held.any (s.heldWaits 1)) = false)
    ∧ (let x := (onUnit .access fun x => { x with depthScout := 1, takes := [takeOf 8#32 1 2] }).unit 1
       x.life ≠ .gone ∧ 0 < x.depthScout ∧ (∃ a, a ∈ x.takes ∧ a.status ≠ 0 ∧ a.verdict ≠ 1) ∧ ∃ a, a ∈ x.takes ∧ a.status = 1 ∧ a.verdict = 2)
    ∧ ((base .access).unit 1).depthScout = 0 ∧ ((base .access).unit 1).takes = [] := by
  refine ⟨by decide +kernel, by decide +kernel, by decide +kernel, by decide +kernel, by decide +kernel,
    ⟨by decide +kernel, by decide +kernel, ⟨_, .head _, ?_⟩, _, .head _, ?_⟩, ?_, ?_⟩
    <;> decide +kernel

/-- A tree with one live node, of this side and of the other; each status of an operation on it. -/
theorem test_meets_TreeRemovals :
    (let s := withTree (operand (base .access) 0) oneNode
     (s.badUse [.s 1] = none ∧ s.scalarOps < 8 ∧ s.isScout = false ∧ s.quiet = true ∧ s.afterOthers = false ∧ s.flight = []
         ∧ ∀ d < 2, s.offline d = false)
       ∧ s.spilledIn s.curUnit 0 (s.tree 0 0).space ((s.tree 0 0).tokarea + 4 * (s.tree 0 0).trunk) (4 * ((s.tree 0 0).ancestors 0).length) .write
         = none
       ∧ SMap.has (s.part 0).trees 0 = true ∧ (s.tree 0 0).decode = (s.cluster 0).decode ∧ (s.tree 0 0).live 0 = true
       ∧ (s.tree 0 0).live 4095 = false ∧ SMap.has (s.part 0).trees 65535 = false ∧ (s.tree 0 0).held = [] ∧ (s.tree 0 0).die = bitsOf 0 16 16)
    ∧ ((withTree (base .access) { oneNode with decode := true }).tree 0 0).decode ≠ ((base .access).cluster 0).decode
    ∧ ((withTree (base .access) { oneNode with held := [(3, 5#32)] }).tree 0 0).held ≠ []
    ∧ ¬ ((2 : Nat) ^ 28 < 2 ^ 28) ∧ ¬ ((2 : Nat) ^ 18 < 2 ^ 18) ∧ ¬ ((65536 : Nat) < 65536) := by decide +kernel

/-- A tree descriptor, and the blocks of a fork and of an ahead of tree 0. -/
def treeBytes (die : Nat) : List Byte :=
  [0, BitVec.ofNat 8 die, 0, 0] ++ leBytes 4 16384 ++ leBytes 4 0 ++ leBytes 4 4095 ++ words [0, 0] ++ leBytes 4 0 ++ leBytes 4 16 ++ words [0x40000000]
    ++ List.replicate 16 0#8
def growBytes (n : Nat) : List Byte := leBytes 2 0 ++ leBytes 2 0 ++ [BitVec.ofNat 8 n, 0, 0, 0] ++ leBytes 4 9 ++ List.replicate 116 0#8
def aheadBytes (q : Nat) : List Byte := leBytes 2 0 ++ leBytes 2 1 ++ leBytes 4 0 ++ words [0x400] ++ leBytes 4 64 ++ leBytes 4 0 ++ leBytes 2 q
  ++ List.replicate 102 0#8

/-- A good descriptor and two bad ones, a share of no trees; a block that is barred and one that is not; an ahead of each kind. -/
theorem test_meets_TreeGrowth :
    (let s := withBytes (operand (base .access) 0x100) 0x100 (treeBytes 0)
     let s := s.updPart 0 fun p => { p with asn := { p.asn with kvBase := 0x40000000, kvSize := 2 ^ 30, maxTrees := 1 } }
     let u := s.unit s.curUnit
     isOk (s.probeLanes false .read [⟨0, 0x100, 1, 0#64, 0#64⟩]) = true ∧ 0x101 % 64 ≠ 0
       ∧ okAnd (s.readVa s.curUnit u.part u.space 0x100 64) (fun b => treeDescOk b && (s.part u.part).kvRangeOk (treeOf u.part u.space b)
         && (treeOf 0 0 b).decode == (s.cluster 0).decode && (treeOf 0 0 b).trunk == 0 && (treeOf 0 0 b).ring == 0) = true
       ∧ s.spilledIn s.curUnit u.part u.space (0x80 + 0x40) 8 .write = none
       ∧ treeDescOk (treeBytes 2) = false ∧ (s.part 0).trees.length < (s.part 0).asn.maxTrees
       ∧ (Partition.idle.asn.maxTrees ≤ Partition.idle.trees.length) ∧ Partition.idle.kvRangeOk (treeOf 0 0 (treeBytes 0)) = false)
    ∧ (let s := withTree (withBytes (operand (base .access) 0x100) 0x100 (growBytes 1)) oneNode
       isOk (s.probeLanes false .write [⟨0, 0x100, 1, 0#64, 0#64⟩]) = true ∧ s.growBar false (growBytes 1) = none
         ∧ s.growBar true (growBytes 9) = some 2 ∧ s.growBar true (growBytes 0) = some 2 ∧ fieldOf (growBytes 1) 4 1 = 1
         ∧ okAnd (s.readVa 1 0 0 0x100 128) (fun b => b == growBytes 1) = true ∧ 0x101 % 128 ≠ 0
         ∧ (((s.updPart 0 fun p => { p with kv := [(0, ⟨[40, 41, 42, 43], 0, 0, 0⟩)] }).treeBegin 0 0).placeAll 0 0 true 0 [9#32]).isSome = true)
    ∧ (let s := withTree (withBytes (operand (base .access) 0x100) 0x100 (aheadBytes 0)) oneNode
       s.strand.storeErr = none ∧ s.strand.wait = .none
         ∧ (s.aheadRanges (aheadBytes 0)).all (fun e => s.spilledIn s.curUnit 0 0 e.1 e.2 .write == none) = true
         ∧ s.aheadBar (aheadBytes 0) true true = none ∧ s.aheadBar (aheadBytes 1) true true = some 5
         ∧ aheadQueries (aheadBytes 0) = [0] ∧ ((s.ahead (aheadBytes 0) true true).tree 0 0).absent [0] = []
         ∧ ((withTree s { oneNode with pages := [(0, ⟨1, 1, false, false, [], false⟩)] }).ahead (aheadBytes 0) true true |>.tree 0 0).absent [0]
           ≠ []) := by decide +kernel

/-- A token-ready block whose target is met and one whose is not, a release; a ring with room; pools below and at their marks; a page
that is wanted. -/
theorem test_meets_TokensAndPages :
    (let s := operand (base .access) 0x40
     s.badUse [.s 1] = none ∧ s.scalarOps < 8 ∧ s.isScout = false ∧ s.afterOthers = false ∧ 0x40 % 64 = 0 ∧ s.quiet = true
       ∧ s.strand.storeErr = none ∧ s.strand.wait = .none ∧ s.blockAt s.curUnit 0x40 = some 0x200040
       ∧ okAnd (s.probeLanes false .atomic [⟨0, 0x40, 1, 0#64, 0#64⟩]) (fun a => a.length == 1) = true
       ∧ okAnd (s.probeLanes false .read [⟨0, 0x40, 1, 0#64, 0#64⟩]) (fun a => a.length == 1) = true ∧ s.unreachable 0 0x200040 = false
       ∧ (∀ i < 0x1E, s.poisonedAt (0x200040 + i) = false) ∧ (∀ i < 0x20, isPeer (0x200040 + i) = false)
       ∧ s.word (0x200040 + 8) 8 ≤ s.word (0x200040 + 0x10) 8
       ∧ (let t := withBytes s 0x48 [1]; t.word (0x200040 + 0x10) 8 < t.word (0x200040 + 8) 8))
    ∧ (let s := onStrand .access fun t => { t with wait := .tokrdy 0x40 0 0 false }
       s.slotBy 32 = some 0 ∧ (s.wave 0).acc.wait = .tokrdy 0x40 0 0 false ∧ s.strand.wait = .tokrdy 0x40 0 0 false
         ∧ s.blockAt s.curUnit 0x40 = some 0x200040 ∧ s.word (0x200040 + 0x10) 8 = 0)
    ∧ (onStrand .access fun t => { t with wait := .tokrdy 0x40 9 0 true }).strand.wait = .tokrdy 0x40 9 0 true
    ∧ (let s := withTree (base .access) { oneNode with ring := 0x80, rentries := 16, held := [(3, 5#32)], tail := 0 }
       let y := s.tree 0 0
       isOk (s.ringOpen 0 0 y 1) = true ∧ isOk (s.ringOpen 0 0 { y with ring := 0x200000 } 1) = false ∧ y.ring ≠ 0 ∧ y.held ≠ [] ∧ (y.tail + 2 ^ 64 - 0) % 2 ^ 64 < y.rentries ∧ okAnd (s.readVa 0 0 y.space y.ring 8) (fun b => leNat b == 0) = true)
    ∧ (let s := (base .access).updPart 0 fun p => { p with kv := [(0, ⟨[9], 2, 3, 0⟩)] }
       (s.pool 0 0).free.length < (s.pool 0 0).low ∧ (s.pool 0 1).low ≤ (s.pool 0 1).free.length
         ∧ ∀ d < 2, (s.setDie 1 Die.running).offline d = false)
    ∧ (let s := withTree (base .access) { oneNode with slotBytes := 0 }
       let s := (s.setDie 0 { Die.running with step := 3 }).updPart 0 fun p => { p with kv := [(0, ⟨[9], 2, 3, 0⟩)], spillFree := [1, 2, 3, 4] }
       s.touchesOffline (s.makeRoom 0 0 3) 0 = true)
    ∧ (let s := (withTree (base .access) { oneNode with pages := [(0, ⟨1, 1, false, false, [], true⟩)] }).updPart 0 fun p =>
         { p with kv := [(0, ⟨[40, 41, 42, 43, 44], 0, 0, 0⟩)] }
       let y := s.tree 0 0
       SMap.has (s.part 0).trees 0 = true ∧ SMap.has y.pages 0 = true ∧ (y.page 0).fetching = true ∧ (y.page 0).resident = false
         ∧ y.pageFrames ≤ (s.pool 0 y.die).free.length ∧ s.genBusy y.space = false ∧ (y.page 1).fetching = false
         ∧ y.nextAsked ≠ some 1 ∧ ∀ d < 2, s.offline d = false)
    ∧ ({ oneNode with pages := [(0, ⟨1, 1, false, false, [], false⟩)], asked := [0] } : Tree).nextAsked = some 0 := by decide +kernel

/-- A group whose one member is this device. -/
def ownGroup : CollGroup := ⟨[Config.deviceNumber], false, [true], 0#8, []⟩
def withGroup (s : State) (g : CollGroup) : State := s.updPart 0 fun p => { p with groups := [(2, g)] }
theorem ownGroup_mine : ownGroup.mine = 0 := by simp [ownGroup, CollGroup.mine]

/-- An engine range that is reached, that has to wait, and that faults. -/
def reaches (s : State) : EngRange → Bool
  | .reaches ls t => ls.all fun l => !(s.poisonedAt l || t.poisonedAt l)
  | _ => false
def waitsFor : EngRange → Bool
  | .waits _ => true
  | _ => false
def faultsAt : EngRange → Bool
  | .faults _ => true
  | _ => false
/-- What becomes of a write: 0 written, 1 waiting, 2 a fault. -/
def wroteAt : EngWrote → Nat
  | .wrote _ => 0
  | .waits _ => 1
  | .faults _ => 2
/-- The page at 0 lies in die 1, and the link is being trained. -/
def crossing : State :=
  let s := paged (base .access) (2 ^ 63 + 2 ^ 62 + 2 ^ 61 + 2 ^ 60 + 0x400020)
  { (s.updPart 0 fun p => { p with asn := { p.asn with frames := 0x20001 :: p.asn.frames } }).setDie 1 Die.running with
    links := ⟨16, 0, true, []⟩ }

/-- Host accesses in and out of reach; a strand that sends; an arrival for a partition that runs and for one that does not. -/
theorem test_meets_CountersAndSends :
    (let s := base .access
     s.scalarOps < 8 ∧ s.afterOthers = false ∧ s.hostReaches 0 0x200000 128 = true ∧ paKind 0x200000 ≠ .flash ∧ s.hostReaches 1 0x200000 128 = false ∧ s.imageIn 0x1000 8 = none
       ∧ s.strand.storeErr = none ∧ s.badUse [.s 1] = none ∧ s.isScout = false ∧ s.quiet = true ∧ (2#2 : BitVec 2) ≠ 3#2 ∧ s.storesOut = false
       ∧ (s.part 0).started = true ∧ (s.part 31).started = false ∧ (s.part 0).asn.grants 0x3FFFFF 1 = true ∧ paKind 0x3FFFFF = .hbm 0
       ∧ s.offline 0 = false ∧ 0x3FFFFF + 1 ≤ 0x8000000000 ∧ 255 < 256)
    ∧ (let b := words [0x80] ++ leBytes 2 2 ++ leBytes 2 0 ++ leBytes 4 0xFFFFFC ++ words [0x100, 0x2010305, 9] ++ List.replicate 24 0#8
       let s := withBytes (operand (base .access) 0x40) 0x40 b
       let s := withGroup (s.updPart 0 fun p => { p with asn := { p.asn with maxTriggers := 1 } }) ⟨[128], false, [true], 0#8, []⟩
       isOk (s.probeLanes false .read [⟨0, 0x40, 1, 0#64, 0#64⟩]) = true ∧ 0x40 % 64 = 0 ∧ 0x41 % 64 ≠ 0 ∧ s.storesOut = false
         ∧ okAnd (s.readVa 1 0 0 0x40 64) (fun b => triggerOk (s.part 0) b) = true ∧ s.freeTrigger 0 = some 0
         ∧ (base .access).freeTrigger 0 = none ∧ triggerOk Partition.idle b = false)
    ∧ (let y : Trigger := ⟨1, 0, 0, 32, 1, 1, 0x80, 0x100, 128, 2, 0, 5, none, some 0, 0#64, true, [], 0⟩
       let s := { base .access with triggers := [(1023, y)] }
       SMap.find s.triggers 1023 = some y ∧ y.fired = true ∧ reaches s (s.engRange y.unit y.part y.space 0x80 128 .read) = true
         ∧ faultsAt (s.engRange y.unit y.part y.space 0x200000 128 .read) = true
         ∧ waitsFor (crossing.engRange y.unit y.part y.space 0x80 128 .read) = true
         ∧ wroteAt (s.engWrite y.num y.unit y.part y.space 0x100 (List.replicate 128 7#8)) = 0
         ∧ wroteAt (crossing.engWrite y.num y.unit y.part y.space 0x100 [7#8]) = 1
         ∧ wroteAt (s.engWrite y.num y.unit y.part y.space 0x200000 [7#8]) = 2
         ∧ y.done + 128 = y.length ∧ { y with length := 256 }.done + 128 ≠ 256 ∧ { y with fired := false }.fired = false)
    ∧ (let s := State.reset
       hostOwn 0x200000000000 1 = true ∧ s.hostReaches 0 0x200000000000 1 = false ∧ s.imageIn 0x200000000000 1 = none
         ∧ s.debugIn 0x200000000000 1 = none) := by decide +kernel

/-- A stopped unit whose image a debugger has mapped, out of every function's reach. -/
def debugged : State := onUnit .access fun x => { x with life := .stopped, mappedAt := some 0x8000000000000000, image := [Wave.start 1 0 0 0 0#64 0#64] }
theorem test_meets_debugger_access :
    debugged.imageIn 0x8000000000000A08 8 = some (1, 0, 0xA08) ∧ debugged.hostReaches 0 0x8000000000000A08 8 = false
      ∧ debugged.imageIn (0x8000000000000000 + (debugged.unit 1).imageBytes 0 - 7) 8 = none := by decide +kernel

/-- Both dies are off line. -/
def dark : State := ((base .access).setDie 0 { Die.running with state := .off }).setDie 1 { Die.running with state := .off }
/-- A command of a debugger: wherever its block is mapped, it is in no function's reach here. -/
theorem test_meets_debug_command (n : Nat) : dark.hostReaches 0 (Config.debugBlock 0) n = false
    ∧ dark.imageIn (Config.debugBlock 0) n = none ∧ dark.debugIn (Config.debugBlock 0) 8 = some (0, 0) := by
  have h0 : dark.offline 0 = true := by decide +kernel
  have h1 : dark.offline 1 = true := by decide +kernel
  obtain ⟨x, hx, hs⟩ : ∃ x, dark.parts = [(0, x)] ∧ x.started = true := ⟨_, rfl, rfl⟩
  refine ⟨?_, rfl, by simp [State.debugIn, hx, hs]⟩
  have h : ∀ d, homeDie (Config.debugBlock 0) = some d → dark.offline d = true := by
    intro d
    rw [homeDie, paKind]
    split
    · rename_i e
      (repeat' split at e) <;> simp_all <;> rintro rfl <;> assumption
    all_goals simp_all
    all_goals rintro rfl; assumption
  rw [State.hostReaches]
  cases e : homeDie (Config.debugBlock 0) with
  | none => simp
  | some d => simp [h d e]

/-- R375: what a debugger writes in the image is the register's value after a resume (R372: scalars of the access strand at 0x200). -/
theorem test_debugger_writes_register :
    (match exec (.resume 0 1 0) (debugged.imageWrite 1 0 (0xA00 + 8 * 63) (leBytes 8 0x123456789ABCDEF0)) with
      | .next t => let w := (t.unit 1).image.getD 0 Wave.idle
          w.acc.sreg 63 == 0x123456789ABCDEF0#64 && w.cmp.sreg 63 == 0#64 && (t.unit 1).life == .saved
      | _ => false) = true := by decide +kernel

/-- Both devices of a send: this one, and one that is in reach over a fibre. -/
theorem test_meets_send_devices :
    ((withGroup (base .access) ownGroup).part 0).deviceOf 2 0 = Config.deviceNumber := rfl
theorem test_meets_send_reach :
    (let s := (base .access).updPart 0 fun p => { p with asn := { p.asn with fibres := [(0, [128])] } }
     ((withGroup s ⟨[128], false, [true], 0#8, []⟩).part 0).reaches 128) = true := by decide +kernel

/-- A member on this device and one on another. -/
def pairGroup : CollGroup := ⟨[Config.deviceNumber, Config.deviceNumber + 1], false, [true, true], 0#8, []⟩
theorem pairGroup_mine : pairGroup.mine = 0 ∧ pairGroup.members.getD 1 128 ≠ Config.deviceNumber := by simp [pairGroup, CollGroup.mine]
/-- A collective block of group 2: an allreduce of one 4-byte element. -/
def collBytes : List Byte :=
  [0, 0, 0, 0] ++ leBytes 2 2 ++ leBytes 2 0 ++ leBytes 4 9 ++ [5, 1, 0, 0] ++ words [0x80, 0x100, 1] ++ List.replicate 88 0#8
/-- Its collective, alone in its group, with the chunks it holds and what it has written. -/
def collOf (chunks : List (Nat × Nat × List Byte)) (written : List (Nat × Nat)) : Coll :=
  ⟨0, 32, 1, 0, collBytes, 2, 9, 0, 1, false, chunks, written, none⟩

/-- Blocks and groups for each status of coll; a chunk that comes from another device; a chunk refused 1,999 and 2,000 cycles ago; a
collective that has all its steps to take, one that has its result to write and one that has only to complete. -/
theorem test_meets_Collectives :
    (let s := withGroup (withBytes (operand (base .access) 0x80) 0x80 collBytes) ownGroup
     s.strand.storeErr = none ∧ s.badUse [.s 1] = none ∧ s.scalarOps < 8 ∧ s.isScout = false ∧ s.afterOthers = false ∧ s.storesOut = false
       ∧ isOk (s.probeLanes false .read [⟨0, 0x80, 1, 0#64, 0#64⟩]) = true ∧ 0x80 % 128 = 0 ∧ 0x81 % 128 ≠ 0
       ∧ okAnd (s.readVa 1 0 0 0x80 128) (fun b => b == collBytes) = true ∧ fieldOf collBytes 4 2 = 2
       ∧ SMap.find (s.part 0).groups 3 = none
       ∧ collOk collBytes 1 false = true ∧ collOk (leBytes 1 5 ++ collBytes.drop 1) 1 false = false ∧ s.colls = [])
    ∧ SMap.find ((withGroup (base .access) ownGroup).part 0).groups 2 = some ownGroup ∧ ownGroup.mine < ownGroup.members.length
    ∧ (∃ e ∈ [((7 : Nat), collOf [] [])], e.2.part = 0 ∧ e.2.group = 2 ∧ e.2.seq = 9)
    ∧ (let s := (base .access).updPart 0 fun p => { p with groups := [(2, pairGroup)] }
       SMap.find (s.part 0).groups 2 = some pairGroup ∧ (s.part 0).started = true ∧ 1 < pairGroup.members.length
         ∧ pairGroup.members.getD 1 128 ≠ Config.deviceNumber)
    ∧ (let s := (base .access).updPart 0 fun p => { p with retries := [(0, ⟨2, 9, 0, 1, [7#8]⟩)] }
       (s.part 0).retries[0]? = some (0, ⟨2, 9, 0, 1, [7#8]⟩) ∧ { s with cycle := 1999 }.cycle < 0 + 2000
         ∧ 0 + 2000 ≤ { s with cycle := 2000 }.cycle)
    ∧ (let c := collOf [] []
       c.ended = none ∧ c.nextRead = some 0
         ∧ reaches (base .access) ((base .access).engRange c.unit c.part c.space (0x80 + 0 * c.chunk) (c.len 0) .read) = true)
    ∧ (let c := collOf [(0, 0, [1, 2, 3, 4])] []
       c.nextRead = none ∧ c.nextWrite = some (0, 0) ∧ wroteAt ((base .access).engWrite 7 c.unit c.part c.space (c.output (0, 0)).1 (c.output (0, 0)).2) = 0)
    ∧ (let c := collOf [(0, 0, [1, 2, 3, 4])] [(0, 0)]
       let s := base .access
       c.finished = true ∧ c.nextRead = none ∧ c.nextWrite = none ∧ (s.unit 1).life ≠ .gone ∧ s.slotBy 32 = some 0
         ∧ (s.waveBy 32).doneRoom 2 = true ∧ { c with ended := some 3 }.ended = some 3
         ∧ (onWave .access fun w => { w with eqDone := [(2, List.replicate 8 (good 0#64))] }).curWave.doneRoom 2 = false) := by
  refine ⟨by decide +kernel, rfl, by rw [ownGroup_mine]; decide, ⟨_, .head _, by decide⟩, ⟨rfl, by decide +kernel, by decide, pairGroup_mine.2⟩, ?_, ?_, ?_, ?_⟩
    <;> decide +kernel

/-- An exchange descriptor of group 2, whose demand array is at 0x180, with rows of 128 bytes. -/
def exBytes (size : Nat) : List Byte :=
  leBytes 2 2 ++ leBytes 2 1 ++ leBytes 4 9 ++ leBytes 4 size ++ leBytes 4 4 ++ leBytes 4 1 ++ [5, 1, 0, 0]
    ++ words [0x180, 0x1A0, 0x1C0, 0x200, 0x400, 0x500, 0x600] ++ leBytes 4 4096 ++ List.replicate 44 0#8
/-- The exchange that it opens at rank 0. -/
def exOf : Exchange :=
  ⟨5, 9, 32, 1, 0, exBytes 128, 0, ⟨9, 0, 128, 4, true, 1, [0, 128]⟩, 0, false, false, false, false, false, [], [], [], 0, 0, [],
    ⟨9, [], 0, 0, false, false, [], []⟩⟩
def withEx (s : State) (x : Exchange) : State := s.updPart 0 fun p => { p with exchanges := [(2, x)] }
/-- The arbiter of the group, with this member's post. -/
def arbOf : Arb := ⟨9, [(0, exOf.post)], 0, 0, false, false, [], []⟩
def withArb (s : State) (y : Arb) : State := s.updPart 0 fun p => { p with arbs := [(2, y)] }

/-- How a block of bytes is not read: 1 its page is not there, 2 it is marked, 3 an error reply, 4 its page is spilled. -/
def refusedBy : Except PFault (List Byte) → Nat
  | .error .poisoned => 2
  | .error .refused => 3
  | .error (.spilled _) => 4
  | .error _ => 1
  | .ok _ => 0
/-- Descriptors and groups for each status of dpost and of dcal. -/
theorem test_meets_ExchangePosts :
    (let s := withGroup (withBytes (operand (base .access) 0x80) 0x80 (exBytes 128)) ownGroup
     s.strand.storeErr = none ∧ s.badUse [.s 1] = none ∧ s.scalarOps < 8 ∧ s.isScout = false ∧ s.afterOthers = false ∧ s.storesOut = false
       ∧ s.quiet = true
       ∧ isOk (s.probeLanes false .read [⟨0, 0x80, 1, 0#64, 0#64⟩]) = true ∧ 0x81 % 128 ≠ 0
       ∧ okAnd (s.readVa 1 0 0 0x80 128) (fun b => b == exBytes 128) = true ∧ fieldOf (exBytes 128) 0 2 = 2
       ∧ refusedBy (s.readVa 1 0 0 0x200000 128) = 1 ∧ exDescOk (exBytes 128) = true ∧ exDescOk (exBytes 64) = false ∧ exDescOk (exBytes 262144) = true
       ∧ exDescOk (exBytes 524288) = false ∧ SMap.has (s.part 0).groups 2 = true ∧ SMap.has (base .access |>.part 0).groups 2 = false
       ∧ isOk (s.readVa 1 0 0 0x180 (8 * ownGroup.members.length)) = true ∧ ownGroup.live.getD 0 false = true
       ∧ { ownGroup with live := [false] }.live.getD 0 false = false ∧ ((s.part 0).openEx 2) = none)
    ∧ ownGroup.mine < ownGroup.members.length
    ∧ (((withEx (base .access) exOf).part 0).openEx 2 = some exOf ∧ SMap.find ((withEx (base .access) exOf).part 0).exchanges 2 = some exOf
       ∧ SMap.find ((base .access).part 0).exchanges 2 = none ∧ exOf.xseq = 9 ∧ exOf.xseq ≠ 8 ∧ exOf.refused = false ∧ exOf.closed = false
       ∧ exOf.written = false ∧ { exOf with refused := true }.refused = true ∧ { exOf with closed := true }.closed = true
       ∧ { exOf with written := true }.written = true) := by
  refine ⟨by decide +kernel, by rw [ownGroup_mine]; decide, by decide +kernel⟩

/-- Posts of this epoch, of an older and of a newer one, own and not; the first post 54,999 and 55,000 cycles ago; a beat 10,999 and
11,000 cycles ago; a post missing and none; a calendar written, go received, and silence of 54,999 and 55,000 cycles. -/
theorem test_meets_ExchangeArbiter :
    ((0 : Nat) < 128 ∧ 0 < [5, 6].length)
    ∧ (0 < pairGroup.members.length ∧ pairGroup.live.getD 1 false = true ∧ (1 : Nat) ≠ 0
       ∧ (BitVec.ofNat 8 0 - pairGroup.epoch).toNat = 0 ∧ (BitVec.ofNat 8 128 - pairGroup.epoch).toNat = 128
       ∧ (BitVec.ofNat 8 255 - pairGroup.epoch).toNat = 255 ∧ (BitVec.ofNat 8 127 - pairGroup.epoch).toNat = 127
       ∧ (BitVec.ofNat 8 1 - pairGroup.epoch).toNat = 1)
    ∧ ((SMap.find ((base .access).part 0).arbs 2) = none
       ∧ SMap.find ((withArb (base .access) arbOf).part 0).arbs 2 = some arbOf ∧ arbOf.decided = false ∧ arbOf.xseq = exOf.post.xseq
       ∧ (∀ e ∈ arbOf.posts, e.1 ≠ 1) ∧ { base .access with cycle := 54999 }.cycle < arbOf.firstPost + 55000
       ∧ arbOf.firstPost + 55000 ≤ { base .access with cycle := 55000 }.cycle ∧ { base .access with cycle := 10999 }.cycle < arbOf.beat + 11000
       ∧ arbOf.beat + 11000 ≤ { base .access with cycle := 11000 }.cycle)
    ∧ (pairGroup.missing arbOf ≠ [] ∧ pairGroup.missing { arbOf with posts := [(0, exOf.post), (1, exOf.post)] } = [] ∧ ownGroup.missing arbOf = [])
    ∧ (let s := withEx (base .access) exOf
       (s.part 0).openEx 2 = some exOf ∧ exOf.written = false ∧ exOf.going = false ∧ exOf.xseq = arbOf.xseq
         ∧ ((s.part 0).group 2).epoch = BitVec.ofNat 8 0 ∧ ((s.part 0).group 2).epoch ≠ BitVec.ofNat 8 1
         ∧ { s with cycle := 54999 }.cycle < exOf.heard + 55000 ∧ exOf.heard + 55000 ≤ { s with cycle := 55000 }.cycle)
    ∧ (((withEx (base .access) { exOf with written := true }).part 0).openEx 2 = some { exOf with written := true }
       ∧ ((withEx (base .access) { exOf with going := true }).part 0).openEx 2 = some { exOf with going := true })
    ∧ (withEx (base .access) exOf).calendarWaits 0 exOf = none
    ∧ SMap.has ((withGroup (base .access) ownGroup).part 0).groups 2 = true ∧ ownGroup.live.getD exOf.rank false = true := by
  decide +kernel

/-- The plan of two ranks, in which this member, of rank 0, sends 128 bytes in convoy 0 and receives as many. -/
def goingArb : Arb := { arbOf with decided := true, plan := [⟨0, 0, 1, 0, 128, false⟩, ⟨0, 1, 0, 0, 128, false⟩] }
/-- Its exchange, after go. -/
def goingEx : Exchange := { exOf with written := true, going := true, arb := goingArb }

/-- The state in which it stands: its group's other member is in reach of a fibre. -/
def goingState : State :=
  (withEx (withBytes (withBytes (base .access) 0x1A0 (words [0, 0])) 0x1C0 (words [0, 128])) goingEx).updPart 0 fun p =>
    { p with groups := [(2, pairGroup)], asn := { p.asn with fibres := [(0, [Config.deviceNumber + 1, 128])] } }
/-- No member is lost. -/
theorem test_going_not_lost (r : Nat) : goingState.exLost 0 2 goingEx r = false := by
  have hf : (goingState.part 0).asn.fibres = [(0, [Config.deviceNumber + 1, 128])] := by rfl
  have ho : (goingState.part 0).fibresOut = [] := by rfl
  have h : (goingState.part 0).reaches (Config.deviceNumber + 1) = true ∧ (goingState.part 0).reaches 128 = true := by
    simp [Partition.reaches, hf, ho]
  have hd : (goingState.part 0).deviceOf 2 r = pairGroup.members.getD r 128 := by rfl
  simp only [State.exLost, Partition.cutOff, hd]
  rcases r with _ | _ | r <;> simp [pairGroup, h, goingEx, exOf]
/-- Both of the group's members are cut off from one that is neither. -/
theorem test_cut_off : ((withGroup (base .access) pairGroup).part 0).cutOff 2 1 = true := by
  have hd : ((withGroup (base .access) pairGroup).part 0).deviceOf 2 1 = Config.deviceNumber + 1 := by rfl
  have hp : ((withGroup (base .access) pairGroup).part 0).asn.fibres = [] := by rfl
  simp [Partition.cutOff, hd, Partition.reaches, hp]

/-- What a member reads of its source: 0 a number of bytes, 1 it waits, 2 it stops. -/
def readAt (n : Nat) : ExRead → Nat
  | .bytes bs _ => if bs.length = n then 0 else 3
  | .waits _ => 1
  | .stops _ _ => 2

/-- Each step of a member after go; a quantum that is new, one that came before, and one without a byte; a source that must wait and one
that faults. -/
theorem test_meets_ExchangeSteps :
    (let s := goingState
     (s.part 0).openEx 2 = some goingEx ∧ goingEx.arb = goingArb ∧ goingEx.going = true
       ∧ okAnd (s.exMove 0 goingArb goingEx 0 (goingArb.grantOf 0 0).granted false) (fun r => isOk (r.1.exMove 0 goingArb r.2
           (goingArb.grantOf 0 0).granted (goingArb.grantOf 0 0).spilled true)) = true
       ∧ goingEx.localDone = false ∧ (convoysFor goingArb.plan 0).filter (fun k => !goingEx.passed (fun _ => false) goingArb.plan k) = [0]
       ∧ goingArb.plan.find? (fun c => c.num == 0 && c.src == goingEx.rank && !(fun _ => false) c.dst) = some ⟨0, 0, 1, 0, 128, false⟩ ∧ 0 ∉ goingEx.sent
       ∧ readAt 128 (s.exBytes 0 goingEx 1 0 128) = 0
       ∧ readAt 0 (crossing.exBytes 0 goingEx 1 0 128) = 1
       ∧ readAt 0 (s.exBytes 0 { goingEx with desc := exBytes 128 |>.set 0x22 255#8 } 1 0 128) = 2 ∧ s.calendarWaits 0 goingEx = none
       ∧ (s.unit 1).life ≠ .gone ∧ s.slotBy 32 = some 0 ∧ (s.waveBy 32).doneRoom 5 = true
       ∧ goingArb.plan.find? (fun c => c.num == 0 && c.dst == goingEx.rank) = some ⟨0, 1, 0, 0, 128, false⟩ ∧ 0 ∉ goingEx.recv
       ∧ wroteAt (s.engWrite goingEx.num goingEx.unit 0 0 (goingArb.rowBase goingEx 1 false + 0) (List.replicate 128 7#8)) = 0
       ∧ wroteAt (crossing.engWrite goingEx.num goingEx.unit 0 0 (goingArb.rowBase goingEx 1 false + 0) [7#8]) = 1
       ∧ wroteAt (s.engWrite goingEx.num goingEx.unit 0 0 0x200000 [7#8]) = 2)
    ∧ (let x := { goingEx with localDone := true, sent := [0], recv := [0] }
       x.localDone = true ∧ (convoysFor goingArb.plan x.rank).filter (fun k => !x.passed (fun _ => false) goingArb.plan k) = [] ∧ 0 ∈ x.recv)
    ∧ { goingEx with fault := 4 }.fault = 4 := by decide +kernel
/-- A queue whose descriptor stands at 0x200400 and whose ring at 0x800, with one packet at its head. -/
def queueOf : HwQueue := { HwQueue.unset with set := true, desc := 0x200400, ring := 0x800, affinity := 1, status := 0 }
def packetBytes (kind flags addr value : Nat) : List Byte :=
  [BitVec.ofNat 8 kind, BitVec.ofNat 8 flags, 0, 0] ++ leBytes 4 3 ++ words [addr, value] ++ List.replicate 40 0#8
def withQueues (s : State) (qs : SMap HwQueue) : State := s.updPart 0 fun p => { p with queues := qs }
def atHead (kind flags addr value : Nat) : State :=
  withQueues (withBytes (withBytes (base .access) 0x800 (packetBytes kind flags addr value)) 0x418 [1]) [(0, queueOf)]
/-- The same with every earlier graph complete, and a timeline 511 of a value. -/
def alone (s : State) (v : W64) (broken : Bool) : State :=
  s.updPart 0 fun p => { p with graphs := [], timelines := [(511, ⟨v, [], broken, []⟩)] }
/-- A kernel descriptor of one gang of one wave, a launch block of it, a node of it that is a sink with one successor, and a header. -/
def gangBytes : List Byte := leBytes 4 0 ++ [0, 1, 1, 0] ++ leBytes 4 0 ++ [0, 3, 0, 0] ++ words [0x100000, 0x100000, 0] ++ List.replicate 88 0#8
def blockBytes : List Byte := words [0x1000] ++ leBytes 4 1 ++ leBytes 4 1 ++ leBytes 4 1 ++ [0, 0, 0, 1] ++ words [0] ++ List.replicate 96 0#8
def nodeBytes (block : Nat) : List Byte :=
  words [block] ++ leBytes 4 1 ++ leBytes 2 1 ++ [1, 0] ++ words [0xD00, 0xF00] ++ List.replicate 32 0#8
def headerBytes : List Byte := words [0xA40] ++ leBytes 2 1 ++ [0, 0] ++ leBytes 4 7 ++ words [0xB00, 0]
def withGraph (s : State) (block : Nat) : State :=
  withBytes (withBytes (withBytes (withBytes (withBytes (withBytes s 0xA00 headerBytes) 0xA40 (words [0xB00])) 0xB00 (nodeBytes block)) 0xC00
    blockBytes) 0x1000 gangBytes) 0xD00 (words [0xE00])

/-- A header of two sources, of which the first is empty. -/
def pairHeader : List Byte := words [0xA40] ++ leBytes 2 2 ++ [0, 0] ++ leBytes 4 7 ++ words [0xB00, 0]
def twoSources : State :=
  withBytes (withBytes (withBytes (withGraph (atHead 1 1 0xA00 0) 0xC00) 0xA00 pairHeader) 0xA40 (words [0xB40, 0xB00])) 0xB40 (nodeBytes 0)

/-- Packets of each kind, malformed ones, an empty queue; earlier graphs complete and not; a timeline that has the value, that has not, and
a broken one; an interval of 65,535 and of 65,536 cycles, with nothing to place. -/
theorem test_meets_QueuePackets :
    ((atHead 1 0 0xA00 0).headPacket 0 0 = some (packetBytes 1 0 0xA00 0) ∧ packetOk (packetBytes 1 0 0xA00 0) = true
      ∧ packetOk (packetBytes 5 0 0 0) = false ∧ packetOk (packetBytes 0 0 0 0) = false ∧ packetOk (packetBytes 2 0 512 0) = false
      ∧ packetOk (packetBytes 2 0 511 9) = true ∧ packetOk (packetBytes 3 0 511 9) = true ∧ packetOk (packetBytes 4 2 0 0) = true
      ∧ packetOk (packetBytes 1 1 0xA00 0) = true ∧ (fieldOf (packetBytes 1 1 0xA00 0) 1 1).testBit 0 = true
      ∧ (fieldOf (packetBytes 4 2 0 0) 1 1).testBit 1 = true ∧ fieldOf (packetBytes 1 0 0xA00 0) 0 1 = 1
      ∧ (withQueues (base .access) [(0, queueOf)]).headPacket 0 0 = none)
    ∧ queueOf.doneTo queueOf.phase = true ∧ { queueOf with phase := 1, phaseGraphs := [(0, 1)], closedPhases := [0] }.doneTo 1 = false
    ∧ (queueOf.phase ∉ queueOf.cancelledPhases ∧ (3 : Nat) ∉ queueOf.cancelledJobs
       ∧ queueOf.phase ∈ { queueOf with cancelledPhases := [0] }.cancelledPhases)
    ∧ (((atHead 1 0 0xA00 0).part 0).graphsDone 0 = false ∧ ((alone (atHead 2 0 511 9) 9#64 false).part 0).graphsDone 0 = true
      ∧ (((alone (atHead 2 0 511 9) 9#64 false).part 0).timeline 511).value = 9#64
      ∧ (((alone (atHead 2 0 511 9) 8#64 false).part 0).timeline 511).value.toNat < 9
      ∧ (((alone (atHead 2 0 511 9) 9#64 true).part 0).timeline 511).broken = true)
    ∧ (let s := withGraph (atHead 1 1 0xA00 0) 0xC00
       let C := s.consume 0 0 (packetBytes 1 1 0xA00 0)
       okAnd (C.readVa 0 0 0 0xA00 32) (fun b => b == headerBytes) = true ∧ C.headerNodes 0 0 headerBytes = some [0xB00]
         ∧ (s.part 0).liveGraph (fieldOf headerBytes 0xC 4) = none ∧ okAnd (C.readVa 0 0 0 0xB00 64) (fun b => b == nodeBytes 0xC00) = true
         ∧ fieldOf (nodeBytes 0xC00) 0 8 = 0xC00 ∧ (C.launchOf 0 0 0xC00 queueOf.affinity).isSome = true ∧ fieldOf (nodeBytes 0) 0 8 = 0
         ∧ s.graphSpill 0 0 0xA00 = none ∧ s.ringSpill 0 0 = none ∧ C.nodeSpill 0 0 0xB00 = none ∧ (s.part 0).nextLaunch + 1 < 2 ^ 32)
    ∧ (let C := twoSources.consume 0 0 (packetBytes 1 1 0xA00 0)
       C.headerNodes 0 0 pairHeader = some [0xB40, 0xB00] ∧ C.nodeSpill 0 0 0xB40 = none ∧ C.nodeSpill 0 0 0xB00 = none
         ∧ okAnd (C.readVa 0 0 0 0xB40 64) (fun b => fieldOf b 0 8 == 0) = true ∧ twoSources.graphSpill 0 0 0xA00 = none)
    ∧ (let s := inSpill (atHead 1 1 0xA00 0)
       s.ringSpill 0 0 = some 0x800 ∧ s.graphSpill 0 0 0xA00 = some 0xA00)
    ∧ (let s := withQueues (base .access) [(0, queueOf)]
       ((s.part 0).queue 0).set = true ∧ { s with cycle := 65535 }.cycle < queueOf.ageFrom + 65536
         ∧ queueOf.ageFrom + 65536 ≤ { s with cycle := 65536 }.cycle ∧ s.nextUnitOf 0 0 = none) := by decide +kernel

/-- A launch of the gang at 0x1000 that waits for its place, and one of sprouts. -/
def waitingLaunch : Launch := { Launch.empty with kdesc := 0x1000, counts := (1, 1, 1), graph := 1, queue := 0 }
def withLaunch (s : State) (l : Launch) : State := s.updPart 0 fun p => { p with launches := SMap.put 2 l p.launches, queues := [(0, queueOf), (1, { queueOf with base := 2 })] }
/-- Kernels as the descriptors give them. -/
def gangKernel : Kernel := (kernelOf gangBytes).getD loadKernel
def sproutKernel : Kernel := (kernelOf sproutBytes).getD loadKernel
/-- Every slot of cluster 0 but the last holds a wave. -/
def crowded (s : State) : State := { s with waves := (List.range 31).map fun k => (k, Wave.start 1 0 0 0 0#64 0#64) }

/-- A gang that fits and one that does not; sprouts with a free place, with their reserved one, and with it taken; a unit that may retire
and one that may not. -/
theorem test_meets_PlacementAndRetirement :
    (let s := withLaunch (withBytes (base .access) 0x1000 gangBytes) waitingLaunch
     s.nextUnitOf 0 0 = some (.fresh 2) ∧ s.kernelAt 0 0 0x1000 = some gangKernel ∧ waitingLaunch.spawn = false
       ∧ s.dieAllows 0 (s.launchMask 0 waitingLaunch) 0 = true ∧ s.gangFits gangKernel 0 [1] 0 = true ∧ s.gangFits gangKernel 0 [31] 0 = true
       ∧ s.gangFits gangKernel 0 [0] 0 = false ∧ s.served 0 0 0 = true)
    ∧ (let l := { waitingLaunch with spawn := true }
       let s := withLaunch (withBytes (base .access) 0x1000 sproutBytes) l
       s.nextSprout 0 2 0 = some (.fresh 2) ∧ s.kernelAt 0 0 0x1000 = some sproutKernel ∧ l.resv ≠ some ⟨0, 1, 0, sproutKernel.creel, sproutKernel.tiles⟩
         ∧ s.dieAllows 0 (s.launchMask 0 l) 0 = true ∧ s.gangFits { sproutKernel with waves := 1, groups := 1 } 0 [1] 0 = true
         ∧ s.sproutHasPlace 0 l (.fresh 2) { sproutKernel with waves := 1, groups := 1 } 0 = true
         ∧ s.dieAllows 0 (s.launchMask 0 l) 287 = false)
    ∧ (let l := { waitingLaunch with spawn := true, resv := some ⟨0, 31, 0, sproutKernel.creel, sproutKernel.tiles⟩ }
       let s := crowded (withLaunch (withBytes (base .access) 0x1000 sproutBytes) l)
       s.nextSprout 0 2 0 = some (.fresh 2) ∧ s.kernelAt 0 0 0x1000 = some sproutKernel ∧ l.resvBusy = false
         ∧ s.dieAllows 0 (s.launchMask 0 l) 0 = true
         ∧ (∀ c < Config.clusters, ¬ s.sproutHasPlace 0 l (.fresh 2) { sproutKernel with waves := 1, groups := 1 } c = true)
         ∧ { l with resvBusy := true }.resvBusy = true)
    ∧ (base .access).mayRetire 1 = false
    ∧ (let s := onWave .access fun w => { w with acc := { w.acc with ended := true }, cmp := { w.cmp with ended := true } }
       let s := s.updSeq 0 fun q => { q with strand := { q.strand with ended := true } }
       s.mayRetire 1 = true ∧ (s.unit 1).hasSeq = true ∧ (s.cluster 0).seq.owner = 1) := by decide +kernel

/-- A graph with a completed node that has a successor left, in a partition of its own. -/
def nodeGraph : Graph := { loadGraph with complete := [(0xB00, 0, [])] }
def withNode : State := (withGraph (base .access) 0).updPart 0 fun p => { p with graphs := [(1, nodeGraph)] }

/-- A launch that is done and one that is not, of a node and of a spawn; completed nodes with a successor left, whose count is 0, 1 and 2,
and without; a graph that is done, with a place for its record, and one that is not. -/
theorem test_meets_Completion :
    ((SMap.find ((base .access).part 0).launches 1).map (fun l => (l.done, l.live)) = some (false, 1)
      ∧ (let s := withLaunch (base .access) { waitingLaunch with next := 1 }
         SMap.find (s.part 0).launches 2 = some { waitingLaunch with next := 1 } ∧ { waitingLaunch with next := 1 }.waiting = false
           ∧ s.cancels = [] ∧ (SMap.find (s.part 0).graphs 1).isSome = true)
      ∧ (let l := { waitingLaunch with next := 1, spawn := true, tl := some (511, 5#64) }
         l.tl = some (511, 5#64) ∧ l.waiting = false ∧ l.cancelled = false ∧ (((base .access).part 0).timeline 511).broken = false))
    ∧ ((withNode.part 0).liveGraph 1 = some (1, nodeGraph) ∧ SMap.find (withNode.part 0).graphs 1 = some nodeGraph
       ∧ (nodeGraph.complete.find? (fun e => e.1 == 0xB00)).map (fun e => e.2.1) = some 0
       ∧ okAnd (withNode.readVa 0 0 0 0xB00 64) (fun b => b == nodeBytes 0) = true ∧ fieldOf (nodeBytes 0) 0xC 2 = 1
       ∧ okAnd (withNode.readVa 0 0 0 0xD00 8) (fun b => leNat b == 0xE00) = true
       ∧ okAnd (withNode.vaLocs 0 0 0 0xE08 4 .atomic) (fun l => l == [0x200E08, 0x200E09, 0x200E0A, 0x200E0B]) = true
       ∧ (∀ i < 4, withNode.poisonedAt (0x200E08 + i) = false) ∧ nodeGraph.cancelled = false ∧ withNode.word 0x200E08 4 = 0
       ∧ (withBytes withNode 0xE08 [1]).word 0x200E08 4 = 1 ∧ (withBytes withNode 0xE08 [2]).word 0x200E08 4 = 2
       ∧ (({ nodeGraph with complete := [(0xB00, 1, [])] } : Graph).complete.find? (fun e => e.1 == 0xB00) |>.map fun e => e.2.1) = some 1)
    ∧ (let g := { loadGraph with openNodes := 0, sinkDone := true, sink := 0xB00 }
       let s := (withGraph (base .access) 0).updPart 0 fun p => { p with graphs := [(1, g)], launches := [] }
       (s.part 0).liveGraph 1 = some (1, g) ∧ (s.part 0).launches = [] ∧ g.sink % 64 = 0 ∧ fieldOf (nodeBytes 0) 0x18 8 % 32 = 0
         ∧ isOk (s.vaLocs 0 0 0 0xF00 32 .write) = true ∧ loadGraph.openNodes ≠ 0 ∧ s.recordSpill 0 0 0xB00 = none)
    ∧ (let g := { loadGraph with waiting := [(0xB00, [])] }
       let s := (withGraph (base .access) 0xC00).updPart 0 fun p => { p with graphs := [(1, g)] }
       let t := inSpill s
       (s.part 0).liveGraph 1 = some (1, g) ∧ g.complete = [] ∧ g.cancelled = false ∧ g.waiting.find? (fun e => e.1 == 0xB00) = some (0xB00, [])
         ∧ s.nodeSpill 0 0 0xB00 = none ∧ t.nodeSpill 0 0 0xB00 = some 0xB00 ∧ t.recordSpill 0 0 0xB00 = some 0xB00
         ∧ okAnd (s.readVa 0 0 0 0xB00 64) (fun b => fieldOf b 0 8 == 0xC00) = true ∧ (s.launchOf 0 0 0xC00 ((s.part 0).queue g.queue).affinity).isSome = true) := by
  refine ⟨?_, ?_, ?_, ?_⟩ <;> decide +kernel
/-- A unit of queue 0 where a gang of queue 1, two steps above, asks for a whole creel and fits nowhere. -/
def pressedState : State :=
  withBytes (withLaunch (base .access) { waitingLaunch with queue := 1 }) 0x1000 (leBytes 4 0 ++ [0, 1, 1, 0] ++ leBytes 4 4194304 ++ gangBytes.drop 12)
/-- The unit's request is made, with a reason and a deadline. -/
def requested (why deadline : Nat) : State := onUnit .access fun x => { x with preReq := true, why := why, deadline := deadline }
/-- The same with every strand of the unit yielded. -/
def yielding (why : Nat) : State :=
  (requested why 0).updWave 0 fun w => { w with acc := { w.acc with yielded := true }, cmp := { w.cmp with yielded := true } }
/-- The unit is saved, with a byte of its creel. -/
def savedState : State :=
  let s := onUnit .access fun x => { x with life := .saved, image := [Wave.start 1 0 0 0 0#64 0#64], imageSeq := some (Seq.start 1 loadKernel),
                                            imageCreel := [(5, 7#8)] }
  { s.updSeq 0 fun _ => Seq.idle with waves := [] }

/-- A unit that is pressed and one that is not; a request that may be withdrawn, one before its deadline and one at it; a unit at rest that
may be saved, for the scheduler and for the debugger; a saved unit that fits and one that does not. -/
theorem test_meets_Preemption :
    ((pressedState.unit 1).life = .resident ∧ (pressedState.unit 1).preReq = false
      ∧ pressedState.pressed 1 = true
      ∧ ¬ (∃ v ∈ pressedState.units, v.2.life = .resident ∧ pressedState.unitPriority v.1 < pressedState.unitPriority 1)
      ∧ (base .access).pressed 1 = false)
    ∧ (let s := onWave .access fun w => { w with acc := { w.acc with monitor := some ⟨9, 0⟩ } }
       ∃ m, SMap.find s.waves 0 = some m ∧ m.unit = 1 ∧ m.acc.monitor = some ⟨9, 0⟩)
    ∧ (let s := requested 0 1
       (s.unit 1).life = .resident ∧ (s.unit 1).preReq = true ∧ s.unitAtRest 1 = false ∧ (s.unit 1).why = 0 ∧ s.cycle < (s.unit 1).deadline
         ∧ (s.unit 1).deadline ≤ { s with cycle := 1 }.cycle ∧ ((requested 3 0).unit 1).why ≠ 0)
    ∧ (∀ w ∈ [0, 2], ((yielding w).unit 1).life = .resident ∧ ((yielding w).unit 1).preReq = true ∧ (yielding w).unitAtRest 1 = true
       ∧ (yielding w).saveReady 1 = true ∧ ((yielding w).unit 1).why = w)
    ∧ (let s := savedState
       let x := s.unit 1
       x.life = .saved ∧ s.dieAllows x.part (s.launchMask x.part (s.launchOfUnit 1)) 0 = true ∧ s.weaveAllows 1 0 = true
         ∧ s.replyOut 1 = false ∧ s.served x.part x.queue 0 = true ∧ s.resvFits 1 0 [31] = false
         ∧ ({ s.updUnit 1 fun x => { x with sprout := true } with waves := [] }.updPart 0 fun p => { p with launches :=
             [(1, { s.launchOfUnit 1 with resv := some ⟨0, 31, x.creelOff, x.creelBytes, x.tiles⟩, resvBusy := false })] }).resvFits 1 0 [31]
           = true
         ∧ s.gangFits x.shape 0 [31] x.creelOff = true ∧ s.gangFits x.shape 0 [32] x.creelOff = false ∧ Mem.wf x.imageCreel = true
         ∧ x.replies = [] ∧ x.stepping = none ∧ x.image.length = [31].length ∧ x.imageSeq = some (Seq.start 1 loadKernel)) := by
  refine ⟨by decide +kernel, ⟨_, rfl, ?_⟩, by decide +kernel, by decide +kernel, by decide +kernel⟩
  decide +kernel

/-- A leaf of one backing at 2 MiB. -/
def leaf1 : Nat := 2 ^ 63 + 2 ^ 62 + 2 ^ 61 + 2 ^ 60 + 32
/-- A frame of die 1, and a page that it may go to after 192 atomics of die 1 and 48 of die 0. -/
def farFrame : Nat := 0x4000200000 / 65536
def migrating (near far : Nat) : State :=
  let s := (paged (base .access) leaf1).updPart 0 fun p => { p with migPool := [farFrame] }
  { s.setDie 1 Die.running with atomCounts := [(0x200000 / 65536 * 32 + 31, near, far)] }

/-- Strand numbers that name a strand and that do not; units that are resident, saved, stopped and not there, with an access in flight and
without; a page that moves and one that stays; counts that are not due and due. -/
theorem test_meets_DebuggerAndMigration :
    ((55 < 64 ∧ (55 : Nat).testBit 3 = false) ∧ ¬ ((64 : Nat) < 64) ∧ (8 : Nat).testBit 3 = true)
    ∧ ((base .access).debugUnit 0 1 0 = some 1 ∧ (base .access).debugUnit 0 1 1 = none ∧ ((base .access).unit 1).life = .resident
       ∧ (base .access).flight = [] ∧ savedState.debugUnit 0 1 0 = some 1 ∧ (savedState.unit 1).life = .saved ∧ savedState.flight = [])
    ∧ (let s := onUnit .access fun x => { x with life := .stopped }
       s.debugUnit 0 1 0 = some 1 ∧ (s.unit 1).life = .stopped ∧ (s.unit 1).edits = [])
    ∧ (let s := debugged.imageWrite 1 0 (0xA00 + 8 * 63) (leBytes 8 0x123456789ABCDEF0)
       let x := s.unit 1
       s.debugUnit 0 1 0 = some 1 ∧ x.life = .stopped ∧ 0 < x.image.length ∧ 0 < x.groupWaves
         ∧ ∀ j < 8, SMap.find x.edits (0x800 + 0 * waveRecordBytes + 0x200 + 8 * 63 + j) = some ((leBytes 8 0x123456789ABCDEF0).getD j 0#8))
    ∧ (let s := inFlight .load (.s 1) [lane 0x40 8 0#64]
       s.debugUnit 0 1 0 = some 1 ∧ ∃ e ∈ s.flight, e.2.unit = 1)
    ∧ (let s := migrating 48 192
       okAnd (s.walk 0 0 0) (fun l => !l.big && l.backings == 1 && !l.nomig && l.frame == 0x200000 && paKind l.frame == .hbm 0) = true
         ∧ (s.space 0).part = 0 ∧ paKind (65536 * farFrame) = .hbm 1 ∧ farFrame ∈ (s.part 0).migPool ∧ 192 ≤ (s.atomicCounts 0x200000 0 31).2
         ∧ 4 * (s.atomicCounts 0x200000 0 31).1 ≤ (s.atomicCounts 0x200000 0 31).2 ∧ (s.part 0).inKv 0 0 = false ∧ s.genBusy 0 = false ∧ s.offline 0 = false ∧ s.offline 1 = false
         ∧ s.links.training = false ∧ (∀ i < 8, isPeer (0x30000 + i) = false))
    ∧ (¬ (∃ k < 32, 192 ≤ ((migrating 0 191).atomicCounts 0x200000 0 k).2)
       ∧ ¬ (∃ k < 32, 192 ≤ ((migrating 49 195).atomicCounts 0x200000 0 k).2
         ∧ 4 * ((migrating 49 195).atomicCounts 0x200000 0 k).1 ≤ ((migrating 49 195).atomicCounts 0x200000 0 k).2))
    ∧ { base .access with cycle := 1048575 }.cycle < (base .access).halvedAt + 1048576
    ∧ (base .access).halvedAt + 1048576 ≤ { base .access with cycle := 1048576 }.cycle := by
  refine ⟨by decide +kernel, by decide +kernel, by decide +kernel, by decide +kernel, ⟨by decide +kernel, ⟨_, .head _, rfl⟩⟩, by decide +kernel, by decide +kernel,
    by decide +kernel, by decide +kernel⟩

/-- Register numbers within and past each range; a wave that is there, with a queue entry; granules of an owned and of an unowned frame;
each state of the link; a fibre that is the partition's and one that is not. -/
theorem test_meets_ErrorsAndLinks :
    ((base .access).slotBy 32 ≠ none ∧ 63 ≤ 63 ∧ 63 < 64 ∧ 31 < 32 ∧ 287 < Config.clusters ∧ 1048575 < 1048576)
    ∧ (let s := onWave .access fun w => { w with lq := [(7, [⟨Lanes.zero32, 0#64, 0#64, 0#64, 0, 0⟩])] }
       ((SMap.get [] (s.waveBy 32).lq 7)[0]?).isSome = true)
    ∧ (let s := (onSeq .access fun q => { q with cmdQ := [(31, [good 1#64])], doneQ := [(0, [good 2#64])] }).updWave 0 fun w =>
         { w with eqCmd := [(5, [good 3#64])] }
       (SMap.get [] (s.waveBy 32).eqCmd 5)[0]? = some (good 3#64) ∧ (SMap.get [] (s.cluster 0).seq.cmdQ 31)[0]? = some (good 1#64)
         ∧ (SMap.get [] (s.cluster 0).seq.doneQ 0)[0]? = some (good 2#64))
    ∧ (paKind 0x200000 = .hbm 0 ∧ (base .access).frameOwner 0x200000 = some 0 ∧ paKind 0x3FFFFFFFFF = .hbm 0
       ∧ (base .access).frameOwner 0x3FFFFFFFFF = none ∧ paKind 0x4000000000 = .hbm 1)
    ∧ (let at' := fun (k : Links) => { (base .access).setDie 1 Die.running with links := k }
       (at' ⟨15, 0, false, []⟩).links.retries < 16 ∧ (at' ⟨16, 0, false, []⟩).links.training = false ∧ ¬ (at' ⟨16, 0, false, []⟩).links.retries < 16
         ∧ (at' ⟨16, 1, true, []⟩).links.failedTrainings < 2 ∧ (at' ⟨16, 2, true, []⟩).links.training = true
         ∧ 2 ≤ (at' ⟨16, 2, true, []⟩).links.failedTrainings ∧ (at' ⟨16, 2, true, []⟩).mgmt.monitorDie ≤ 1
         ∧ ((at' ⟨16, 2, true, []⟩).die (otherDie (at' ⟨16, 2, true, []⟩).mgmt.monitorDie)).state = .live)
    ∧ (let s := (base .access).updPart 0 fun p => { p with asn := { p.asn with fibres := [(31, [128])] } }
       (∃ f ∈ (s.part 0).asn.fibres, f.1 = 31) ∧ ¬ ∃ f ∈ (s.part 0).asn.fibres, f.1 = 30) := by decide +kernel

/-- A die at a step of its reset, with the other one running. -/
def resetting (n : Nat) (st : DieState) : State := ((base .access).setDie 1 Die.running).setDie 0 { Die.running with step := n, state := st }

/-- A die that fails with the other one dead, and with it live; a unit, a timeline and an access that it takes along; each step of a reset,
with what it waits for done and not done; a live and a dead die. -/
theorem test_meets_FatalAndReset :
    (((base .access).die 0).state = .live ∧ (base .access).mgmt.monitorDie = 0 ∧ (base .access).offline (otherDie 0) = true
      ∧ ((base .access).die (otherDie 0)).state ≠ .live ∧ ¬ ((2 : Nat) ≤ 1))
    ∧ ((resetting 0 .live).offline (otherDie 0) = false ∧ ((resetting 3 .reset).die 0).state = .reset ∧ ((resetting 3 .live).die 0).fatalStart = false
       ∧ ((resetting 0 .live).die 0).state = .live ∧ ((resetting 0 .live).die (otherDie 0)).state = .live ∧ ((resetting 0 .live).die 0).step = 0
       ∧ ((resetting 0 .live).die (otherDie 0)).step = 0)
    ∧ (∃ v g, SMap.find (base .access).units 1 = some v ∧ v.life = .resident ∧ dieOfCluster v.cluster = 0
       ∧ SMap.find ((base .access).part v.part).graphs ((base .access).graphOfUnit 1) = some g)
    ∧ (let s := (base .access).updPart 0 fun p => { p with timelines := [(511, ⟨1#64, [0], false, []⟩)] }
       ∃ P l, SMap.find s.parts 0 = some P ∧ SMap.find P.timelines 511 = some l ∧ 0 ∈ l.dies)
    ∧ (let s := inFlight .load (.s 1) [lane 0x40 8 0#64]
       ∃ a, SMap.find s.flight 0 = some a ∧ a.creel = false ∧ ∃ l ∈ a.lanes, homeDie l.loc = some 0)
    ∧ ((resetting 1 .live).unitsOn 0 ≠ [] ∧ ({ resetting 1 .live with units := [] } : State).unitsOn 0 = [] ∧ ((resetting 1 .live).die 0).step = 1
       ∧ ((resetting 2 .live).die 0).step = 2 ∧ (resetting 3 .live).flightTo 0 = false
       ∧ (inFlight .load (.s 1) [lane 0x40 8 0#64]).flightTo 0 = true ∧ ((resetting 7 .reset).die 0).state = .reset
       ∧ ((resetting 7 .live).die 0).state ≠ .reset)
    ∧ (let s := onWave .access fun w => { w with acc := { w.acc with monitor := some ⟨9, 0⟩ } }
       ∃ w m, SMap.find s.waves 0 = some w ∧ w.acc.monitor = some m ∧ homeDie (128 * m.line) = some 0)
    ∧ (dieOfCluster 143 = 0 ∧ 4194303 < Config.creelBytes) := by
  refine ⟨by decide +kernel, by decide +kernel, ⟨_, _, rfl, by decide +kernel, by decide +kernel, rfl⟩, ⟨_, _, rfl, rfl, .head _⟩,
    ⟨_, rfl, by decide +kernel, _, .head _, by decide +kernel⟩, by decide +kernel, ⟨_, _, rfl, rfl, by decide +kernel⟩, by decide +kernel⟩
/-- A header with two sections, the second of which is the signature, and their headers. -/
def signedHead : List Byte :=
  leBytes 4 0x04464F48 ++ leBytes 2 1 ++ leBytes 2 3 ++ leBytes 4 0 ++ leBytes 2 2 ++ [0, 0] ++ leBytes 8 64 ++ [0, 0] ++ leBytes 2 1 ++ leBytes 4 0
    ++ [0x100000, 0x1000, 4867, 0].flatMap (leBytes 8) ++ List.replicate 52 0#8 ++ leBytes 2 10 ++ [0, 0] ++ [0, 160, 4707, 0, 0].flatMap (leBytes 8)
/-- A type 3 file of that header with a key's first bytes, a digest and a signature of zeros. -/
def signedFile (kid digest : List Byte) : List Byte :=
  (signedHead ++ ([1, 0, 0, 0] ++ kid ++ [0x13, 0x12, 0, 0, 0, 0, 0, 0])) ++ (digest ++ List.replicate 4627 0#8)

/-- An accepted image (R73): a verifier with the key accepts the file above where SHA3-512 gives 64 bytes and ML-DSA-87 accepts the
signature. Both are constants without a body, so of no file can more be shown. -/
theorem test_meets_signed (k kid : List Byte) (hk : kid = (Config.sha3 k).take 4) (h4 : kid.length = 4)
    (hd : (Config.sha3 signedHead).length = 64) (hv : Config.mldsaVerify k (Config.sha3 signedHead) (List.replicate 4627 0#8) = true) :
    signedBy [k] (signedFile kid (Config.sha3 signedHead)) = true := by
  have hl : signedHead.length = 160 := by decide +kernel
  generalize hD : Config.sha3 signedHead = D at *
  have hp : (signedHead ++ ([1, 0, 0, 0] ++ kid ++ [0x13, 0x12, 0, 0, 0, 0, 0, 0])).length = 176 := by simp [hl, h4]
  have hf : (signedFile kid D).length = 4867 := by
    rw [signedFile, List.length_append, hp, List.length_append, hd, List.length_replicate]
  have hF : ∀ off n, off + n ≤ 160 → ((signedFile kid D).drop off).take n = (signedHead.drop off).take n := by
    intro off n h
    rw [signedFile, List.append_assoc, List.drop_append_of_le_length (by omega), List.take_append_of_le_length (by simp; omega)]
  have ht : (signedFile kid D).take 160 = signedHead := by simpa [← hl] using hF 0 160 (by omega)
  have hdr : (signedFile kid D).drop 176 = D ++ List.replicate 4627 0#8 := List.drop_left' hp
  have hdr2 : (signedFile kid D).drop 240 = List.replicate 4627 0#8 := by
    rw [show 240 = 176 + 64 from rfl, ← List.drop_drop, hdr, List.drop_left' hd]
  have hdr3 : ((signedFile kid D).drop 240).take 4627 = List.replicate 4627 0#8 := by
    rw [hdr2]; exact List.take_of_length_le (Nat.le_of_eq List.length_replicate)
  have hdr4 : ((signedFile kid D).drop 176).take 64 = D := by rw [hdr]; exact List.take_left' hd
  clear hdr hdr2
  have hg : ∀ off n, 160 ≤ off → off + n ≤ 176 → ((signedFile kid D).drop off).take n
      = (([1, 0, 0, 0] ++ kid ++ [0x13, 0x12, 0, 0, 0, 0, 0, 0] : List Byte).drop (off - 160)).take n := by
    intro off n h1 h2
    obtain ⟨m, rfl⟩ := Nat.exists_eq_add_of_le h1
    have hm : ([1, 0, 0, 0] ++ kid ++ [0x13, 0x12, 0, 0, 0, 0, 0, 0] : List Byte).length = 16 := by simp [h4]
    rw [signedFile, List.append_assoc, ← List.drop_drop, List.drop_left' hl, Nat.add_sub_cancel_left, List.drop_append_of_le_length (by omega),
      List.take_append_of_le_length (by simp only [List.length_drop]; omega)]
  obtain ⟨a, b, c, d, rfl⟩ : ∃ a b c d, kid = [a, b, c, d] := by
    match kid, h4 with
    | [a, b, c, d], _ => exact ⟨a, b, c, d, rfl⟩
  generalize signedFile [a, b, c, d] D = f at *
  generalize List.replicate 4627 0#8 = R at *
  have hF' : ∀ off n, off + n ≤ 160 → fieldOf f off n = fieldOf signedHead off n := fun off n h => by rw [fieldOf, hF off n h, fieldOf]
  have hZ : ∀ lo hi, lo ≤ hi → hi ≤ 160 → zeros f lo hi = zeros signedHead lo hi := fun lo hi h h' => by rw [zeros, hF lo (hi - lo) (by omega), zeros]
  have e10 : fieldOf f 0x10 8 = 64 := by rw [hF' _ _ (by omega)]; decide +kernel
  have sec : sectionOf f 1 = ⟨10, 0, 0, 160, 4707, 0, 0, 0, 0⟩ := by
    simp (disch := omega) only [sectionOf, sectionAt, e10, Nat.reduceMul, Nat.reduceAdd, hF']; decide +kernel
  have hs : sectionsOk f = true := by
    have e0C : fieldOf f 0xC 2 = 2 := by rw [hF' _ _ (by omega)]; decide +kernel
    simp (disch := omega) only [sectionsOk, e0C, sectionAt, e10, Nat.reduceMul, Nat.reduceAdd, Nat.reduceSub, List.range, List.range.loop,
      List.all, sec, hZ]
    decide +kernel
  have ho : hofOk f = true := by
    rw [hofOk, hs, e10]
    simp (disch := omega) only [hF', hZ]
    decide +kernel
  have e1A : fieldOf f 0x1A 2 = 1 := by rw [hF' _ _ (by omega)]; decide +kernel
  have e30 : fieldOf f 0x30 8 = 4867 := by rw [hF' _ _ (by omega)]; decide +kernel
  simp only [signedBy, imageDigest, sigSection, e1A, sec, ht, hD, ho, hf, e30, hdr3, hdr4, Nat.reduceAdd]
  simp only [fieldOf, zeros, Nat.reduceSub, hg 160 4 (by omega) (by omega), hg 168 4 (by omega) (by omega), hg 172 4 (by omega) (by omega),
    hg 164 4 (by omega) (by omega), List.any_cons, ← hk]
  simp [hv, leNat]

/-- A booted device whose record for partition 31 takes cluster 1 and space 1. -/
def record31 : Record := { Record.empty with cores := [0], clusters := [(1, false)], spaces := [(1, 0)] }
def booted : State :=
  let s := base .access
  { s with mgmt := { s.mgmt with booted := true, records := [(31, record31)] } }

/-- A device that has booted, one that failed, and one whose directory is empty; a partition that may start, on an image that no owner has
signed, and two that may not; a started partition with and without an access in flight, a fired trigger, and a frame on a die off line. -/
theorem test_meets_BootAndPartitions :
    (booted.mgmt.booted = true ∧ State.reset.mgmt.booted = false ∧ State.reset.mgmt.bootFailed = false
      ∧ ¬ (fieldOf (State.reset.phys flashBase 0x28) 0 4 = 0x31444248))
    ∧ (let d := ({ State.reset with mem := Mem.writes [] flashBase (leBytes 4 0x31444248 ++ [4]) } : State).phys flashBase 0x28
       fieldOf d 0 4 = 0x31444248 ∧ 1 ≤ fieldOf d 4 4 ∧ fieldOf d 4 4 ≤ 4)
    ∧ ((booted.part 31).started = false ∧ SMap.has booted.mgmt.records 31 = true ∧ booted.recordFree 31 record31 = true ∧ ¬ ((32 : Nat) ≤ 31)
       ∧ signedBy record31.owners (booted.phys 0x200000 (fieldOf (booted.phys 0x200000 64) 0x30 8)) = false)
    ∧ (booted.recordFree 31 { record31 with clusters := [(0, false)] } = false ∧ State.reset.mgmt.booted = false
       ∧ (State.reset.die 0).state = .reset)
    ∧ (((base .access).part 31).started = false ∧ ((base .access).part 0).started = true ∧ (base .access).flight = []
       ∧ (base .access).triggers = [] ∧ (base .access).scrubFails 0 = none ∧ 1 ∈ (base .access).lastHeld 0
       ∧ (inFlight .load (.s 1) []).flight ≠ [] ∧ ((base .access).setDie 0 { Die.running with state := .fatal }).scrubFails 0 ≠ none
       ∧ paKind (2097152 * 1 + 2097151) = .hbm 0
       ∧ (0, false) ∈ ((base .access).part 0).asn.clusters ∧ (0, 0) ∈ ((base .access).part 0).asn.spaces) := by decide +kernel

/-- The bytes of a queue descriptor of space `a` with an affinity. -/
def queueBytes (entries affinity a : Nat) : List Byte :=
  words [0x800] ++ leBytes 4 entries ++ [7, BitVec.ofNat 8 affinity] ++ leBytes 2 a ++ List.replicate 48 0#8

/-- A partition that may call and one that may not; calls for each error of each function, at the ends of each range. -/
theorem test_meets_MonitorCalls :
    ((booted.mgmt.booted = true ∧ (booted.part 0).started = true ∧ booted.mgmt.callsCut = false) ∧ ¬ (booted.part 31).started = true)
    ∧ ((booted.space 0).part = 0 ∧ (booted.space 1).part ≠ 0 ∧ (0xFFFFFFFFFF0000 % 65536 = 0 ∧ 0xFFFFFFFFFF0000 + 65536 * 1 ≤ 2 ^ 56)
       ∧ ¬ ((2 : Nat) ^ 24 + 1 ≤ 2 ^ 24) ∧ booted.genBusy 0 = false ∧ booted.offline 0 = false
       ∧ booted.commitWaits 0 0 0xFFFFFFFFFF0000 1 = false
       ∧ (let s := booted.setDie 0 { Die.running with step := 3 }
          (s.space 0).part = 0 ∧ s.commitWaits 0 0 0 1 = true))
    ∧ (let s := withBytes booted 0x400 (queueBytes 16 1 0)
       queueDescOk (s.phys 0x200400 64) = true ∧ (s.part 0).asn.grants 0x200400 64 = true ∧ 0x200400 % 64 = 0 ∧ 0x200401 % 64 ≠ 0
         ∧ queueCoreOk (s.part 0).asn (s.phys 0x200400 64) = true ∧ queueCoreOk { (s.part 0).asn with cores := [] } (leBytes 8 (2 ^ 63) ++
             List.replicate 0x20 0#8 ++ [1, 128] ++ List.replicate 22 0#8) = false ∧ fieldOf (s.phys 0x200400 64) 0xE 2 = 0
         ∧ queueDescOk (queueBytes 8 1 0) = false ∧ queueDescOk (queueBytes 65536 3 1) = true ∧ queueDescOk (queueBytes 131072 1 0) = false
         ∧ (s.part 0).asn.grants 0x400000 64 = false ∧ (s.space 1).part ≠ 0 ∧ fieldOf (s.phys 0x200400 64) 0xD 1 = 1
         ∧ ((1 : Nat).testBit 0 = true ∧ 0 ∈ (s.part 0).asn.dies ∧ (s.die 0).state = .live ∧ (s.die 0).placing = true)
         ∧ (let t := s.setDie 0 { Die.running with state := .fatal }
            ∀ n < 2, (1 : Nat).testBit n = true → n ∈ (t.part 0).asn.dies → (t.die n).state ≠ .live))
    ∧ ((booted.part 0).queue 255).set = false ∧ ((withQueues booted [(255, queueOf)]).part 0 |>.queue 255).set = true
    ∧ (SMap.has (booted.part 0).groups 2 = false
       ∧ (let s := withGroup booted ⟨[5, 6], false, [true, false], 0#8, []⟩
          SMap.has (s.part 0).groups 2 = true ∧ 6 ∈ ((s.part 0).group 2).members ∧ 7 ∉ ((s.part 0).group 2).members
            ∧ ((s.part 0).group 2).live.length = ((s.part 0).group 2).members.length))
    ∧ ((booted.die 0).state = .live ∧ (booted.part 0).asn.grants 0x200000 64 = true ∧ (booted.part 0).asn.grants 0x200100 4915 = true
       ∧ (booted.part 0).asn.grants 0x3FFFC1 64 = false
       ∧ (booted.setDie 0 { Die.running with state := .fatal } |>.die 0).state ≠ .live)
    ∧ (∀ i < 4915, isPeer (0x200100 + i) = false) := by
  refine ⟨?_, ?_, ?_, ?_, ?_, ?_, ?_, fun i h => ?_⟩
  case refine_8 => simp [isPeer, paKind, show 0x200100 + i < 0x004000000000 by omega]
  all_goals decide +kernel

/-- Caps at the ends of the range; a mailbox without a command, with the one that is carried out and with another; telemetry due and not due; a die that may be reset, one that may not, one that is off, one that is held
and one that is free; a counter page that is there and one that is not. -/
theorem test_meets_ManagementAndCounters :
    ((600 ≤ 600 ∧ 600 ≤ 2400) ∧ 599 < 600 ∧ 2400 < 2401)
    ∧ ((base .access).mgmt.command = 0#64
       ∧ (let m : Mgmt := { (base .access).mgmt with command := 4#64, argument := 1#64 }
          m.command ≠ 0#64 ∧ (m.command ≠ 4#64 ∨ m.argument ≠ 0#64) ∧ m.command = 4#64 ∧ m.argument = BitVec.ofNat 64 1))
    ∧ (let s := { base .access with mgmt := { (base .access).mgmt with telemetry := [1] } }
       s.cycle < s.mgmt.telemetryCycle + 1100000 ∧ s.mgmt.telemetry ≠ [] ∧ s.mgmt.telemetryCycle + 1100000 ≤ { s with cycle := 1100000 }.cycle)
    ∧ (((base .access).die 0).state ≠ .off ∧ (base .access).mayReset 0 = false ∧ (resetting 0 .live).mayReset 0 = true
       ∧ ((resetting 0 .off).die 0).state = .off)
    ∧ ((base .access).dieHeld 0 = true ∧ (base .access).dieHeld 1 = false
       ∧ (let s := { State.reset with mgmt := { State.reset.mgmt with monitorDie := 1 } }
          s.dieHeld 1 = false ∧ s.mgmt.monitorDie = 1 ∧ s.offline 0 = true)
       ∧ ¬ ((base .access).mgmt.monitorDie = 1 ∧ (base .access).offline 0 = true))
    ∧ (let s := (base .access).updPart 0 fun p => { p with counterPages := [(1, CounterPage.zero)] }
       SMap.find (s.part 0).counterPages 1 = some CounterPage.zero ∧ SMap.find (s.part 0).counterPages 0 = none ∧ 15 ≤ 15) := by
  decide +kernel

/-- An event of each list, in a state with a wave. -/
theorem test_meets_EventFrames :
    ((∃ t, exec .flitRetry (base .access) = .next t ∧ (SMap.find t.waves 0).isSome = true)
      ∧ (∃ t, exec (.retirement 1) (base .access) = .next t) ∧ ∃ t, exec (.copy 32) (base .access) = .next t)
    ∧ ∃ t, exec (.gbarDeparture 32) (base .access) = .next t :=
  ⟨⟨⟨_, rfl, by decide +kernel⟩, ⟨_, rfl⟩, ⟨_, rfl⟩⟩, ⟨_, rfl⟩⟩
/-! ## Small results

One step each, on numbers that the specification works out, or that follow from its tables by hand. -/

/-- The state after an instruction. -/
def after (i : Instr) (s : State) : State :=
  match exec i s with
  | .next t => t
  | _ => State.reset
/-- A strand with s1 and s2. -/
def ss (k : StrandKind) (x y : W64) : State := onStrand k fun t => { t with s := [(1, x), (2, y)] }
/-- A compute strand with a mode word and with v1, v2 of one value in each lane. -/
def vs (mode : BitVec 16) (x y : W32) : State :=
  (onStrand .compute fun t => { t with mode := mode }).updWave 0 fun w => { w with v := [(1, List.replicate 64 x), (2, List.replicate 64 y)] }
/-- Scalar register 3, and the last lane of v3, after an instruction. -/
def s3 (i : Instr) (s : State) : W64 := (after i s).strand.sreg 3
def v3 (i : Instr) (s : State) : W32 := Lanes.get32 ((after i s).curWave.vreg 3) 63

/-- R101, R102: −7 ÷ 2 gives −3 and −1; a sum wraps; a shift amount is its low 6 bits; s0 stays 0. -/
theorem test_scalar_arithmetic : s3 (.div false 3#8 1#8 2#8) (ss .access (-7) 2) = -3 ∧ s3 (.rem false 3#8 1#8 2#8) (ss .access (-7) 2) = -1
    ∧ s3 (.add false 3#8 1#8 2#8) (ss .compute (-1) 2) = 1 ∧ s3 (.sub false 3#8 0#8 1#8) (ss .seq 1 0) = -1
    ∧ (after (.add false 0#8 1#8 2#8) (ss .access 5 6)).readS 0 = 0 := by decide +kernel

/-- R105 to R107: a taken branch back by 4 words, one that is not taken, a call and its link. -/
theorem test_branches : (after (.beq false 1#6 2#6 0xFFC#12) (ss .access 9 9)).strand.pc = 0x100000 - 16
    ∧ (after (.beq false 1#6 2#6 0xFFC#12) (ss .access 9 8)).strand.pc = 0x100004
    ∧ (after (.blt false 1#6 2#6 0x7FF#12) (ss .access (-1) 0)).strand.pc = 0x100000 + 4 * 2047
    ∧ (after (.call false 100#24) (base .access)).strand.pc = 0x100190 ∧ (after (.call false 100#24) (base .access)).strand.sreg 63 = 0x100004
    ∧ (after (.jr false 1#8 1#8) (ss .access 0x100200 0)).strand.pc = 0x100200 := by decide +kernel

/-- R77, R110: i8x4 sums and products of 100 and 50, 100 and 3, wrapped and saturated; the absolute difference of −128 and 127. -/
theorem test_vector_integers : v3 (.vadd false 3#8 1#8 2#8) (vs 0x0700#16 0x64646464#32 0x32323232#32) = 0x96969696#32
    ∧ v3 (.vadd false 3#8 1#8 2#8) (vs 0x0710#16 0x64646464#32 0x32323232#32) = 0x7F7F7F7F#32
    ∧ v3 (.vmul false 3#8 1#8 2#8) (vs 0x0700#16 0x64640064#32 0x03030303#32) = 0x2C2C002C#32
    ∧ v3 (.vmul false 3#8 1#8 2#8) (vs 0x0710#16 0x64640064#32 0x03030303#32) = 0x7F7F007F#32
    ∧ v3 (.vabsd false 3#8 1#8 2#8) (vs 0x0700#16 0x80808080#32 0x7F7F7F7F#32) = 0xFFFFFFFF#32 := by decide +kernel

/-- R118, R119: fmax of a subnormal and −1.0, flushed and not; rint of −0.5 in modes 0 and 4. -/
theorem test_floats : v3 (.fmax false 3#8 1#8 2#8) (vs 0x0208#16 1#32 0xBF800000#32) = 0#32
    ∧ v3 (.fmax false 3#8 1#8 2#8) (vs 0x0200#16 1#32 0xBF800000#32) = 1#32
    ∧ v3 (.funRint false 3#8 1#8) (vs 0x0200#16 0xBF000000#32 0#32) = 0x80000000#32
    ∧ v3 (.funRint false 3#8 1#8) (vs 0x0280#16 0xBF000000#32 0#32) = 0xBF800000#32 := by decide +kernel

/-- R89, R91: n32 4,294,967,295 to binary32; i32 70,000 to binary16 in modes 0 and 1, and saturated. -/
theorem test_conversions : v3 (.cvt false 3#8 1#8 2#8) (vs 0x0100#16 0xFFFFFFFF#32 0#32) = 0x4F800000#32
    ∧ v3 (.cvt false 3#8 1#8 6#8) (vs 0x0000#16 70000#32 0#32) = 0x7C00#32
    ∧ v3 (.cvt false 3#8 1#8 6#8) (vs 0x0020#16 70000#32 0#32) = 0x7BFF#32
    ∧ v3 (.cvt false 3#8 1#8 6#8) (vs 0x0010#16 70000#32 0#32) = 0x7BFF#32 := by decide +kernel

/-- R122: sinpi and cospi of 0.5, and cospi of 1.0. -/
theorem test_special_functions : v3 (.sfuSinpi false 3#8 1#8) (vs 0x0200#16 0x3F000000#32 0#32) = 0x3F800000#32
    ∧ v3 (.sfuCospi false 3#8 1#8) (vs 0x0200#16 0x3F000000#32 0#32) = 0#32
    ∧ v3 (.sfuCospi false 3#8 1#8) (vs 0x0200#16 0x3F800000#32 0#32) = 0xBF800000#32 := by decide +kernel

/-- R21, R183: physical 0x0040_0012_0000 homes on die 1; R22: cluster 200 lies on die 1. -/
theorem test_homes : homeDie 0x004000120000 = some 1 ∧ homeDie 0x003FFFFFFFFF = some 0 ∧ dieOfCluster 200 = 1 ∧ dieOfCluster 143 = 0 := by
  decide +kernel

/-- R355, R356: a trap with a handler saves the address of its instruction and goes to the handler; sys.ret returns. -/
theorem test_traps :
    (let t := after (.sysTrap false 0x42#16) (onStrand .access handled)
     t.strand.pc = 0x100100 ∧ t.strand.csr.inHandler = true ∧ (after (.sysRet false) t).strand.csr.inHandler = false) := by decide +kernel

/-- R185, R186: lds leaves one access of 8 bytes at its base; sts one that brings its data; ld one of each line that its lanes touch. -/
theorem test_accesses :
    (let s := (onStrand .access fun t => { t with s := [(4, 0x40#64), (5, 7#64)] }).updWave 0 fun w => { w with x := [(3, List.replicate 64 8#64)] }
     ((after (.lds false 5#6 4#6 3#2 0#2 0#3) s).flight.map fun e => e.2.lanes.map fun l => (l.loc, l.size)) = [[(0x200040, 8)]]
       ∧ ((after (.sts false 5#6 4#6 3#2 0#2 0#3) s).flight.map fun e => e.2.lanes.map fun l => (l.loc, l.size, l.data)) = [[(0x200040, 8, 7#64)]]
       ∧ ((after (.ld false 2#6 4#6 3#5 2#2 0#2 0#3) s).flight.map fun e => (e.2.lanes.length, (e.2.lanes.map fun l => (l.loc, l.size)).head?))
         = [(64, some (0x200048, 4))]) := by decide +kernel

/-- The first step after reset that is given a word fetches and runs it: here, sys.nop. -/
theorem test_step_runs :
    (match step (State.reset.withFetchWord 32 0x23000000) with
     | .next t => t.strand.pc == 0x100004#64
     | _ => false) = true := by decide +kernel

/-! ## More states, for the clauses of the statements that a form or a value of its own meets -/

/-- The sequencer's client is slot 0, whose wave is its owner's; no client. -/
theorem test_meets_ControlReads_sequencer :
    (let s := onSeq .seq fun q => { q with client := 0#8 }
     let q := (s.cluster s.curCluster).seq
     s.cur.kind = .seq ∧ q.client.toNat < 32 ∧ (s.wave 0).live = true ∧ (s.wave 0).unit = q.owner ∧ q.owner ≠ 0 ∧ s.badUse [.ctl 31] = none)
    ∧ ¬ ((0xFF#8 : BitVec 8).toNat < 32) := by decide +kernel

/-- Elements that convert to a float type: of an integer type and of a float type. -/
theorem test_meets_Conversions_to_float : isFloatType 2 = true ∧ (0 : Nat) < 32 / 32 ∧ isFloatType 0 = false := by decide +kernel

/-- A block of mmul on an accumulator of 1.0 whose one element is a product of zeros, one with a NaN operand; an msacc on 1.0; an mfill and
a raw mdrain of one row. -/
def blockOp : MatOp := { MatOp.none with op := 0, recA := (0x800000#64, 0#64), recB := (0x800000#64, 0#64), fmtA := 0xC3FFE000#32, fmtB := 0xC3FFE000#32 }
def blockState (o : MatOp) : State := onSeq .seq fun q => { q with flight := [o], acc := [(0, 0x3F800000#32)] }
theorem test_meets_values : Fmt.b32.val 0x3F800000 = .fin false 0x800000 (-23) ∧ Fmt.b32.val 0 = .fin false 0 (-149)
    ∧ (fmtOf 0xC3FFE000#32).val 0 = .fin false 0 (-133) ∧ (fmtOf 0xC3FFE000#32).val 0x7FC0 = .nan := by decide +kernel
theorem test_meets_HasRat : HasRat (Fmt.b32.val 0) 0 ∧ HasRat (Fmt.b32.val 0x3F800000) 1 ∧ HasRat ((fmtOf 0xC3FFE000#32).val 0) 0 ∧ (1 : Rat) + 0 ≠ 0 := by
  rw [test_meets_values.1, test_meets_values.2.1, test_meets_values.2.2.1]
  exact ⟨⟨false, 0, -149, rfl, by decide +kernel⟩, ⟨false, 0x800000, -23, rfl, by decide +kernel⟩, ⟨false, 0, -133, rfl, by decide +kernel⟩,
    by decide +kernel⟩
theorem test_meets_block_product :
    (let s := blockState blockOp
     s.seqRuns 0 = true ∧ (s.cluster 0).seq.flight[0]? = some blockOp ∧ blockOp.blocks ≠ 0 ∧ s.stepPoison 0 blockOp = none
       ∧ blockOp.shapeA.rows = 1 ∧ blockOp.shapeB.chunks = 1 ∧ (fmtOf blockOp.fmtA).slot = 16 ∧ blockOp.shapeA.inner * 8 / 16 = 1
       ∧ s.rowElem 0 blockOp.shapeA 0 16 0 = 0 ∧ SMap.get 0#32 (s.cluster 0).seq.acc 0 = 0x3F800000#32
       ∧ ({ s with creel := [(0, 0xC0#8), (1, 0x7F#8)] } : State).rowElem 0 blockOp.shapeA 0 16 0 = 0x7FC0)
    ∧ (let o := { MatOp.none with op := 4, a := 1, recA := (0#64, 0x100#64) }
       (blockState o).stepPoison 0 o = none ∧ (blockState o).scale 0 0 0 = Fmt.b32.val 0)
    ∧ (let o := { blockOp with op := 2, code := 8, recA := (0x1000000#64, 0#64) }
       (blockState o).stepPoison 0 o = none ∧ o.shapeA.inner * 8 / 32 = 1 ∧ ({ o with op := 3 } : MatOp).code = 8) := by decide +kernel

/-- A scout task's store to a page of two backings, with room in the overlay and with none, and one to a page of one backing; to its own
creel and to another member's. -/
def scouting (f : UnitRec → UnitRec) : State := paged (onUnit .access fun x => f { x with depthScout := 1 }) leaf4
theorem test_meets_scout_store :
    (let s := scouting id
     s.isScout = true ∧ [lane 0x40 8 0#64].all (fun l => s.shadowed 0 0 l.va) = true ∧ s.strand.wait ≠ .overlay ∧ s.overlayFull [lane 0x40 8 0#64] = false
       ∧ [lane 0x40 8 0#64].all (fun l => (base .access).shadowed 0 0 l.va) = false
       ∧ (onStrand .access fun t => { t with wait := .overlay }).strand.wait = .overlay ∧ bitsOf 0x400000 25 22 ≠ 0 ∧ bitsOf 0x3FFFFF 25 22 = 0) := by
  decide +kernel
/-- A store that is in flight to its unit's overlay. -/
theorem test_meets_overlay_accept :
    (let a := { (base .access).access false .store .none 0 with lanes := [lane 0x40 8 5#64], overlay := true }
     a.kind = .store ∧ a.overlay = true) := by decide +kernel

/-- A word on a die that cannot be reached, and one in a marked granule. -/
theorem test_meets_fetch :
    (let s := { (base .access).placeWord 0x00030102#32 with hist := [] }
     okAnd (s.probeGlobal s.curUnit 0 0 s.strand.pc.toNat 4 .fetch) (fun x => !s.unreachable 0 x.2
       && ({ s with gPoison := [(x.2 / 32, true)] } : State).poisonedAt (x.2 + 3) && !s.poisonedAt x.2
       && (s.setDie 0 { Die.running with state := .fatal }).unreachable 0 x.2) = true) := by decide +kernel
/-- A strand that has parked, whose results have returned, and that may not run. -/
theorem test_meets_parked :
    (let s := onStrand .access fun t => { t with parked := true, yielded := true }
     s.mayRun = false ∧ s.strand.parked = true ∧ s.drained = true) := by decide +kernel

/-- A block that is marked, and one in a die that gives error replies. -/
theorem test_meets_block_stops :
    refusedBy ({ base .access with gPoison := [(0x200040 / 32, true)] }.readVa 1 0 0 0x40 64) = 2
    ∧ refusedBy ((paged (base .access) (2 ^ 63 + 2 ^ 62 + 2 ^ 61 + 2 ^ 60 + 0x40000000)).readVa 1 0 0 0x40 64) = 3 := by decide +kernel

/-- A dependence count of 1 at a node of a live graph whose block names a gang's kernel, and at one of a graph that has completed. -/
theorem test_meets_last_ddec :
    (let s := withBytes (withGraph (operand (base .access) 0xB00) 0xC00) 0xB08 [1]
     let s := s.updPart 0 fun p => { p with queues := [(0, queueOf)] }
     let g := SMap.find (s.part 0).graphs (s.graphOfUnit s.curUnit)
     g.isSome = true ∧ s.word 0x200B08 4 = 1 ∧ g.map Graph.done = some false ∧ g.map Graph.cancelled = some false
       ∧ okAnd (s.readVa 0 0 0 0xB00 64) (fun b => fieldOf b 0 8 == 0xC00) = true
       ∧ (s.launchOf 0 0 0xC00 ((s.part 0).queue 0).affinity).isSome = true ∧ g.map Graph.queue = some 0) := by decide +kernel

/-- A take of status 0 that the unit holds and that it asks for again, with its reads returned and one outstanding. -/
theorem test_meets_take_again :
    (let s := withStream (operand (onUnit .access fun x => { x with takes := [takeOf 7#32 0 0] }) 7) openStream
     (s.unit 1).takes.find? (fun t => t.cluster == 0 && t.stream == 3) = some (takeOf 7#32 0 0) ∧ s.readsOut = false
       ∧ ({ s with flight := (inFlight .load (.s 1) [lane 0x40 8 0#64]).flight } : State).readsOut = true
       ∧ (takeOf 7#32 1 0).status ≠ 0) := by decide +kernel
/-- A descriptor whose read waits for a store of the strand. -/
theorem test_meets_open_waits : (inFlight .store .none [lane 0x40 8 0#64]).storesOut = true := by decide +kernel

/-- A tree of one resident page of one frame, handed to die 1, whose pool has a frame, and has none. -/
def handed (free : List Nat) : State :=
  (withTree (operand (base .access) 0x10000) { oneNode with pslots := 1, slotBytes := 65536, pages := [(0, ⟨1, 1, false, true, [40], false⟩)] }).updPart 0
    fun p => { p with kv := [(1, ⟨free, 0, 0, 0⟩)], asn := { p.asn with frames := [] } }
theorem test_meets_handover :
    (let s := handed [0x400050]
     let y := s.tree 0 0
     bitsOf 0x10000 16 16 = 1 ∧ y.die = 0 ∧ SMap.has (s.part 0).trees 0 = true ∧ y.decode = (s.cluster 0).decode
       ∧ (y.pages.filter fun g => g.2.resident).map Prod.fst = [0] ∧ y.pageFrames = 1 ∧ (s.pool 0 1).free = [0x400050] ∧ (y.page 0).frames = [40]
       ∧ s.memOk = true ∧ 65536 * 40 + 65536 ≤ creelLoc ∧ 65536 * 0x400050 + 65536 ≤ creelLoc
       ∧ paKind (65536 * 40) = .hbm 0 ∧ paKind (65536 * 0x400050 + 65535) = .hbm 1)
    ∧ ((((handed []).treeBegin 0 0).makeRoom 0 1 1).pool 0 1).free.length < 1 := by decide +kernel

theorem test_meets_handover_entry :
    (let B := (handed [0x400050]).treeBegin 0 0
     let M := B.moveRange (65536 * 40) (65536 * 0x400050) 65536 (B.vaObj 0 0 ((B.tree 0 0).pageVa 0))
     M.leafSlot 0 0 ((B.tree 0 0).pageVa 0) = none) := rfl

/-- A tree with a trunk of five tokens on two pages, with frames for them, and in a range of one page; an append of two nodes. -/
def trunkBytes (pages : Nat) : List Byte :=
  [0, 0, 0, 0] ++ leBytes 4 16384 ++ leBytes 4 5 ++ leBytes 4 4095 ++ words [0x100, 0] ++ leBytes 4 0 ++ leBytes 4 pages ++ words [0x40000000]
    ++ List.replicate 16 0#8
theorem test_meets_trunk :
    (let s := (withBytes (operand (base .access) 0x100) 0x100 (trunkBytes 16)).updPart 0 fun p =>
       { p with asn := { p.asn with kvBase := 0x40000000, kvSize := 2 ^ 30, maxTrees := 1 }, kv := [(0, ⟨[40, 41], 0, 0, 0⟩)] }
     let y := treeOf 0 0 (trunkBytes 16)
     treeDescOk (trunkBytes 16) = true ∧ (s.part 0).kvRangeOk y = true ∧ y.ring = 0 ∧ (y.trunk + y.pslots - 1) / y.pslots = 2 ∧ y.kvpages = 16
       ∧ y.pageFrames = 1 ∧ (s.pool 0 y.die).free = [40, 41] ∧ treeDescOk (trunkBytes 1) = true ∧ (treeOf 0 0 (trunkBytes 1)).kvpages = 1) := by
  decide +kernel
theorem test_meets_grow_several :
    (let s := withTree (withBytes (operand (base .access) 0x100) 0x100 (growBytes 2))
       { oneNode with nodes := [(0, ⟨0xFFFF, 4, 5#32, 0, 0⟩)], pages := [(0, ⟨1, 1, false, true, [], false⟩)] }
     s.growBar false (growBytes 2) = none ∧ s.growBar true (growBytes 2) = none ∧ fieldOf (growBytes 2) 4 1 = 2
       ∧ ((s.treeBegin 0 0).placeAll 0 0 true 0 [9#32, 10#32]).isSome = true) := by decide +kernel
/-- A block that the barrier must read again and that is gone for good. -/
theorem test_meets_lost_block :
    (let s := (crossing.setDie 1 { Die.running with state := .fatal }).updStrand fun t => { t with wait := .tokrdy 0x40 9 0 false }
     s.blockAt 1 0x40 = none ∧ s.tokLost 1 0x40 = true) := by decide +kernel

/-- A collective that still needs a member that no fibre reaches; a source that is marked, and one that faults. -/
theorem test_meets_collective_stops :
    (let c := { collOf [] [] with ranks := 2 }
     c.ended = none ∧ c.waitsFor = [1])
    ∧ (let c := collOf [] []
       let s := { base .access with gPoison := [(0x200080 / 32, true)] }
       (match s.engRange c.unit c.part c.space 0x80 4 .send with | .reaches ls S => ls.any S.poisonedAt | _ => false) = true
         ∧ faultsAt (s.engRange c.unit c.part c.space 0x200000 4 .send) = true ∧ (s.unit c.unit).life ≠ .gone
         ∧ wroteAt (s.engWrite (2 ^ 40) c.unit c.part c.space 0x200000 [7#8]) = 2) := by decide +kernel

/-- A queue at whose head a saved unit stands. -/
theorem test_meets_head_units :
    (let s := onUnit .access fun x => { x with life := .saved }
     s.headUnits 0 (s.unit 1).queue = [.back 1]) := by decide +kernel

/-- A granule of a partition whose log has room for an entry. -/
theorem test_meets_granule_log :
    (let s := (base .access).updPart 0 fun p => { p with asn := { p.asn with logRing := some (0x200800, 4) } }
     let x := s.part 0
     homeDie 0x200000 = some 0 ∧ s.frameOwner 0x200000 = some 0 ∧ x.asn.logRing = some (0x200800, 4) ∧ s.logWritable x 0x200800 4 = true ∧ x.logLost = 0
       ∧ x.logTail - s.word 0x200808 8 < 4 ∧ (∀ i < 64, isPeer (0x200880 + i) = false ∧ (0x200880 + i) / 32 ≠ 0x200000 / 32)
       ∧ (∀ i < 8, isPeer (0x200840 + i) = false) ∧ homeDie 0x200000000000 = some 0 ∧ homeDie 0x100000000000 = some 0) := by decide +kernel

/-- A host access to host memory while die 0 is in reset, and a command that another has made wait. -/
theorem test_meets_arrival_off_line : paKind 0x200000000000 = .host ∧ (resetting 3 .live).offline 0 = true := by decide +kernel
theorem test_meets_second_command :
    (let m := { (base .access).mgmt with command := 2#64 }
     m.command ≠ 0#64 ∧ m.command ≠ 1#64 ∧ m.telemetry = []) := by decide +kernel

/-- R392: a freeze word keeps bit 0 alone. -/
theorem test_freeze_word : (match exec (.freeze 0 0 0xFFFFFFFFFFFFFFFF#64) ((base .access).updPart 0 fun p => { p with counterPages := [(0, ⟨[], [], 0#64⟩)] }) with
    | .next t => (SMap.find (t.part 0).counterPages 0).map (fun c => c.freeze) == some 1#64
    | _ => false) = true := by decide +kernel
/-- R83: zero differences of unlike signs are +0, and in mode 2 are -0. -/
theorem test_zero_difference : v3 (.fsub false 3#8 1#8 2#8) (vs 0x0200#16 0x80000000#32 0#32) = 0#32
    ∧ v3 (.fsub false 3#8 1#8 2#8) (vs 0x0240#16 0#32 0x80000000#32) = 0x80000000#32 := by decide +kernel

/-! ## States for the clauses on what is spilled, marked, released or written by a debugger -/

/-- A strand whose release covers a store of it in flight, and one whose does not; a batch that has commands. -/
theorem test_meets_covered_writes :
    (let s := (inFlight .store .none [lane 0x40 8 0#64]).updStrand fun t => { t with rels := [⟨.all, 2, hostPlace, 9, []⟩] }
     s.relsOut = true ∧ (inFlight .store .none [lane 0x40 8 0#64]).relsOut = false) ∧ ({ (Batch.mk 0#32 0 0 false [3]) with num := 1#32 }).cmds ≠ [] := by
  decide +kernel

/-- A copy out of a scout's creel, and the same of a unit that is none. -/
theorem test_meets_scout_copy :
    (let c := { copyCmd with gather := false, sk := 1, dk := 0 }
     (onUnit .access fun x => { x with depthScout := 1 }).cmdScouts 1 c = c.leaves ∧ (base .access).cmdScouts 1 c = false) := by decide +kernel

/-- A marked word of a mask command's list, and got marked in a barrier's block, with a wait that has been broken and one that has not. -/
theorem test_meets_marks :
    (let s := { base .access with creelPoison := [(0x100 / 4, true)] }
     s.poisonedAt (locOfCreel 0 0x100) = true)
    ∧ (let s := { onStrand .access (fun t => { t with wait := .tokrdy 0x40 9 0 false }) with gPoison := [(0x200040 / 32, true)] }
       s.blockAt 1 0x40 = some 0x200040 ∧ s.poisonedAt (0x200040 + 0x10) = true
         ∧ (onStrand .access (fun t => { t with wait := .tokrdy 0x40 9 0 false })).poisonedAt (0x200040 + 0x10) = false) := by decide +kernel

/-- A block whose page stands in spill. -/
theorem test_meets_block_spilled : refusedBy ((inSpill (base .access)).readVa 1 0 0 0x100 128) = 4 := by decide +kernel

/-- A take that a strand waits for, on its cluster and on one that it has left, and one that it has been given there. -/
theorem test_meets_take_moved :
    (let s := onStrand .access fun t => { t with wait := .take 1 3 8#32 }
     s.takeCluster 3 = 0 ∧ s.strand.wait ≠ .take 0 3 8#32
       ∧ (s.updUnit 1 fun x => { x with takes := [{ takeOf 8#32 0 1 with cluster := 1 }] }).takeCluster 3 = 1) := by decide +kernel

/-- The result fields of a grow block lie in plain memory at places of their own. -/
theorem test_meets_grow_fields :
    (let s := withTree (withBytes (operand (base .access) 0x100) 0x100 (growBytes 1)) oneNode
     let B := s.treeBegin 0 0
     okAnd (s.vaLocs 1 0 0 0x128 16 .write) (fun l => l == (List.range 16).map fun i => 0x200128 + i) = true
       ∧ okAnd ((s.treeWrite 0 0x128 [] (List.replicate 16 0xFF#8)).vaLocs 1 0 0 0x140 64 .write)
         (fun l => l == (List.range 64).map fun i => 0x200140 + i) = true
       ∧ s.memOk = true ∧ (∀ i < 128, isPeer (0x200100 + i) = false)
       ∧ (B.updTree 0 0 fun t => { t with pages := [(0, ⟨4, 1, false, true, [], false⟩)], kvpages := 1 }).placeAll 0 0 true 0 [9#32] = none) := by decide +kernel

/-- A chunk whose place in the waystation is on a die that is off line. -/
theorem test_meets_chunk_off_line :
    (let s := ((base .access).updPart 0 fun p => { p with asn := { p.asn with wayFrames := [1], wayBytes := 2097152 } }).setDie 0 { Die.running with step := 3 }
     let e : WayEntry := ⟨2, 9, 0, 1, [7]⟩
     let p := s.part 0
     wayBytes (p.way ++ [e]) ≤ p.asn.wayBytes ∧ (p.wayPlace e).any (fun f => (homeDie (2097152 * f)).any s.offline) = true
       ∧ ((base .access).part 0).wayPlace e = []) := by decide +kernel

/-- Each command in a block, of the unit that its event names and of another. -/
theorem test_meets_debug_block :
    ∀ c ∈ [1, 2, 3, 4], (let s := { base .access with debug := [(0, ⟨c, 1, 0, 5, 0, 0, false⟩)] }
      (s.dbg 0).cmd = c ∧ (s.dbg 0).launch = 1 ∧ (s.dbg 0).pos = 0 ∧ (s.dbg 0).strand = 5 ∧ 1 ≤ (s.dbg 0).cmd ∧ (s.dbg 0).cmd ≤ 4
        ∧ s.debugUnit 0 1 0 = some 1) := by decide +kernel

/-- A strand of a resident unit that blocks on a timeline of a die. -/
theorem test_meets_timeline_breaks :
    (let s := ((onStrand .access fun t => { t with blocked := true, wait := .timeline 7 3#64 }).setDie 1 Die.running).updPart 0 fun p =>
       { p with timelines := [(7, ⟨2#64, [1], false, []⟩)] }
     (SMap.find s.waves 0).map (fun w => w.acc.wait) = some (.timeline 7 3#64) ∧ (s.part 0).timelines = [(7, ⟨2#64, [1], false, []⟩)]
       ∧ (after (.fatalError 1) s).strand.wait = .released 2#64 true [] ∧ ((after (.fatalError 1) s).unit 1).life = .resident) := by
  decide +kernel

/-- What the argument word asks of die 1: bit 0 names it and bit 8 begins; other bits ask nothing. -/
theorem test_meets_mailbox_argument :
    dieresetSays 1 true 0xF101#64 = true ∧ dieresetSays 1 false 0xF001#64 = true ∧ dieresetSays 0 true 0xF101#64 = false
      ∧ dieresetSays 1 false 0xF101#64 = false := by decide +kernel

/-- A join of the weave of key 5: its slot 2 is free, slot 1 is taken, and with 32 weaves of other keys there is none to be had; a join
that waits and has its count, and one that has not. -/
theorem test_meets_weave_statuses :
    (let w : Weave := ⟨0, 0, 5, [(1, 7)], []⟩
     let s := operand { base .access with weaves := [(0, w)] } 5
     s.joinStatus 5#64 1 = 2 ∧ s.joinStatus 5#64 2 = 0 ∧ s.weaveOfCluster 0 = 0 ∧ s.weaveOfUnit 1 = 0
       ∧ ((s.join 5 2).weave 0).members.length = 2 ∧ (s.join 5 2).weaveOfUnit 1 = 1
       ∧ ({ s with weaves := (List.range 32).map fun k => (k, { w with key := k + 6 }) } : State).joinStatus 5#64 1 = 3)
    ∧ (let s := { onStrand .access (fun t => { t with wait := .wjoin 2 3 }) with weaves := [(0, (⟨0, 0, 5, [(1, 7), (3, 1)], []⟩ : Weave))] }
       s.strand.wait = .wjoin 2 3 ∧ s.weaveOfUnit s.curUnit = 0 + 1 ∧ (s.weave 0).members.length = 2) := by decide +kernel

/-- Arguments that are an integer, an integer and a half, 128, −150, and a power of 2, with R122's values of them. -/
theorem test_meets_sfu_rows :
    (Fmt.b32.val 0x40200000 = .fin false 0xA00000 (-22) ∧ (0xA00000 : Nat) * 2 ^ ((-22 : Int) + 1).toNat = 5 * 2 ^ (-((-22 : Int) + 1)).toNat)
    ∧ sfuSinpi 0 0x40200000#32 = 0x3F800000#32 ∧ sfuCospi 0 0x40200000#32 = 0#32 ∧ sfuSinpi 0 0xC0400000#32 = 0x80000000#32
    ∧ sfuCospi 0 0x40400000#32 = 0xBF800000#32 ∧ sfuExp2 0x43000000#32 = 0x7F800000#32 ∧ sfuExp2 0xC3160000#32 = 0#32
    ∧ sfuExp2 0xC3150000#32 = 1#32 ∧ sfuExp2 0x42FE0000#32 = 0x7F000000#32 ∧ sfuExp2 0xC2FC0000#32 = 0x00800000#32
    ∧ sfuLog2 0x3F800000#32 = 0#32 ∧ sfuLog2 0x3F000000#32 = 0xBF800000#32 ∧ sfuLog2 0xBF800000#32 = 0x7FC00000#32
    ∧ sfuRsqrt 0xBF800000#32 = 0x7FC00000#32 := by decide +kernel

end Sys2Proof.Tests.Slice0
end

/-! SUPPORT. Proofs of the statements about the scalar and vector instructions (R98 to R116, R125 to R128). -/

section
namespace Sys2Proof.Machine

/-! ## Tables -/

/-- `p` holds of each entry of a table: the conjunction that a proof of it gives row by row. -/
def AllOf {α : Type} (p : α → Prop) : List α → Prop
  | [] => True
  | [a] => p a
  | a :: b :: l => p a ∧ AllOf p (b :: l)

theorem allOf_iff {α : Type} {p : α → Prop} {l : List α} : AllOf p l ↔ ∀ a ∈ l, p a := by
  induction l with
  | nil => simp [AllOf]
  | cons a l ih =>
    cases l with
    | nil => simp [AllOf]
    | cons b l => rw [AllOf, ih, List.forall_mem_cons (a := a)]

/-! ## The fields of a word, by format (R27, R28) -/

@[simp] theorem opOf_threeReg (w : Bool) (op : BitVec 7) (d a b : BitVec 8) : opOf (threeReg w op d a b) = op.toNat := by
  have h : (threeReg w op d a b).extractLsb' 24 7 = op := by
    ext i hi
    simp only [threeReg, BitVec.getElem_extractLsb', BitVec.getLsbD_append]
    grind
  rw [opOf, h]

@[simp] theorem threeReg_switch (w : Bool) (op : BitVec 7) (d a b : BitVec 8) : (threeReg w op d a b)[31] = w := by
  unfold threeReg
  grind

@[simp] theorem threeReg_d (w : Bool) (op : BitVec 7) (d a b : BitVec 8) : (threeReg w op d a b).extractLsb' 16 8 = d := by
  ext i hi
  simp only [threeReg, BitVec.getElem_extractLsb', BitVec.getLsbD_append]
  grind

@[simp] theorem threeReg_a (w : Bool) (op : BitVec 7) (d a b : BitVec 8) : (threeReg w op d a b).extractLsb' 8 8 = a := by
  ext i hi
  simp only [threeReg, BitVec.getElem_extractLsb', BitVec.getLsbD_append]
  grind

@[simp] theorem threeReg_b (w : Bool) (op : BitVec 7) (d a b : BitVec 8) : (threeReg w op d a b).extractLsb' 0 8 = b := by
  ext i hi
  simp only [threeReg, BitVec.getElem_extractLsb', BitVec.getLsbD_append]
  grind

/-- A word of the register-immediate format has the fields of one of the three-register format. -/
theorem regImm_eq_threeReg (w : Bool) (op : BitVec 7) (d : BitVec 8) (i : BitVec 16) :
    regImm w op d i = threeReg w op d (i.extractLsb' 8 8) (i.extractLsb' 0 8) := by
  ext k hk
  unfold regImm threeReg
  grind

@[simp] theorem regImm_imm (w : Bool) (op : BitVec 7) (d : BitVec 8) (i : BitVec 16) :
    (regImm w op d i).extractLsb' 0 16 = i := by
  ext k hk
  simp only [regImm, BitVec.getElem_extractLsb', BitVec.getLsbD_append]
  grind

/-- A word of the compare format is one of the three-register format whose d field is `cond` and the predicate. -/
theorem compareWord_eq_threeReg (w : Bool) (op : BitVec 7) (cond p : BitVec 4) (a b : BitVec 8) :
    compareWord w op cond p a b = threeReg w op (cond ++ p) a b := by
  ext k hk
  unfold compareWord threeReg
  grind

theorem nibble_of_byte {x : BitVec 32} {i : Nat} {y : BitVec 8} (h : x.extractLsb' i 8 = y) (j : Nat) (hj : j ≤ 4) :
    x.extractLsb' (i + j) 4 = y.extractLsb' j 4 := by
  ext k hk
  simp only [← h, BitVec.getElem_extractLsb', BitVec.getLsbD_extractLsb', Nat.add_assoc]
  rw [decide_eq_true (by omega), Bool.true_and]

section
variable (w : Bool) (op : BitVec 7) (c p : BitVec 4) (a b : BitVec 8)

@[simp] theorem opOf_compareWord : opOf (compareWord w op c p a b) = op.toNat := by
  rw [compareWord_eq_threeReg, opOf_threeReg]

@[simp] theorem compareWord_switch : (compareWord w op c p a b)[31] = w := by
  unfold compareWord
  grind

theorem compareWord_d : (compareWord w op c p a b).extractLsb' 16 8 = c ++ p := by
  rw [compareWord_eq_threeReg, threeReg_d]

@[simp] theorem compareWord_a : (compareWord w op c p a b).extractLsb' 8 8 = a := by
  rw [compareWord_eq_threeReg, threeReg_a]

@[simp] theorem compareWord_b : (compareWord w op c p a b).extractLsb' 0 8 = b := by
  rw [compareWord_eq_threeReg, threeReg_b]

@[simp] theorem compareWord_cond : (compareWord w op c p a b).extractLsb' 20 4 = c := by
  refine (nibble_of_byte (compareWord_d w op c p a b) 4 (by omega)).trans ?_
  ext i hi
  simp only [BitVec.getElem_extractLsb', BitVec.getLsbD_append]
  grind

@[simp] theorem compareWord_pd : (compareWord w op c p a b).extractLsb' 16 4 = p := by
  refine (nibble_of_byte (compareWord_d w op c p a b) 0 (by omega)).trans ?_
  ext i hi
  simp only [BitVec.getElem_extractLsb', BitVec.getLsbD_append]
  grind

@[simp] theorem compareWord_a_low : (compareWord w op c p a b).extractLsb' 8 4 = a.extractLsb' 0 4 :=
  nibble_of_byte (compareWord_a w op c p a b) 0 (by omega)

@[simp] theorem compareWord_a_high : (compareWord w op c p a b).extractLsb' 12 4 = a.extractLsb' 4 4 :=
  nibble_of_byte (compareWord_a w op c p a b) 4 (by omega)

@[simp] theorem compareWord_b_low : (compareWord w op c p a b).extractLsb' 0 4 = b.extractLsb' 0 4 :=
  nibble_of_byte (compareWord_b w op c p a b) 0 (by omega)

@[simp] theorem compareWord_b_high : (compareWord w op c p a b).extractLsb' 4 4 = b.extractLsb' 4 4 :=
  nibble_of_byte (compareWord_b w op c p a b) 4 (by omega)

end

/-! A field of plog holds a predicate under four zeros (R115). -/

@[simp] theorem setWidth_low (x : BitVec 4) : (x.setWidth 8).extractLsb' 0 4 = x := by
  ext i hi
  simp only [BitVec.getElem_extractLsb', BitVec.getLsbD_setWidth, Nat.zero_add]
  grind

@[simp] theorem setWidth_high (x : BitVec 4) : (x.setWidth 8).extractLsb' 4 4 = 0#4 := by
  ext i hi
  simp

theorem high_ne_zero {x : BitVec 8} (h : 15 < x.toNat) : x.extractLsb' 4 4 ≠ 0#4 := by
  intro h0
  have hv : x.toNat / 2 ^ 4 % 2 ^ 4 = 0 := by
    rw [← Nat.shiftRight_eq_div_pow, ← BitVec.extractLsb'_toNat, h0]
    rfl
  have := x.isLt
  omega

/-! ## Words that decode to their instruction

For each format: the decoder, given the word's opcode and sub-op, reads the instruction from the word's fields. -/

theorem hasWord_threeReg (i : Bool → BitVec 8 → BitVec 8 → BitVec 8 → Instr) {w : Bool} {op : BitVec 7} {d a b : BitVec 8}
    (he : encode (i w d a b) = some (threeReg w op d a b))
    (hd : ∀ x, opOf x = op.toNat →
      decodeWord x = some (i (x.getLsbD 31) (x.extractLsb' 16 8) (x.extractLsb' 8 8) (x.extractLsb' 0 8))) :
    HasWord (i w d a b) (threeReg w op d a b) :=
  ⟨he, fun _ => by simpa using hd _ (opOf_threeReg w op d a b)⟩

theorem hasWord_unary (i : Bool → BitVec 8 → BitVec 8 → Instr) {w : Bool} {op : BitVec 7} {d a sub : BitVec 8}
    (he : encode (i w d a) = some (threeReg w op d a sub))
    (hd : ∀ x, opOf x = op.toNat → x.extractLsb' 0 8 = sub →
      decodeWord x = some (i (x.getLsbD 31) (x.extractLsb' 16 8) (x.extractLsb' 8 8))) :
    HasWord (i w d a) (threeReg w op d a sub) :=
  ⟨he, fun _ => by simpa using hd _ (opOf_threeReg w op d a sub) (threeReg_b w op d a sub)⟩

theorem hasWord_regImm (i : Bool → BitVec 8 → BitVec 16 → Instr) {w : Bool} {op : BitVec 7} {d : BitVec 8} {k : BitVec 16}
    (he : encode (i w d k) = some (regImm w op d k))
    (hd : ∀ x, opOf x = op.toNat → decodeWord x = some (i (x.getLsbD 31) (x.extractLsb' 16 8) (x.extractLsb' 0 16))) :
    HasWord (i w d k) (regImm w op d k) := by
  refine ⟨he, fun _ => ?_⟩
  have hop : opOf (regImm w op d k) = op.toNat := by rw [regImm_eq_threeReg, opOf_threeReg]
  have h := hd _ hop
  rw [regImm_imm] at h
  simpa [regImm_eq_threeReg] using h

theorem hasWord_compare (i : Bool → BitVec 4 → BitVec 8 → BitVec 8 → Instr) {w : Bool} {op : BitVec 7} {cond p : BitVec 4}
    {a b : BitVec 8} (he : encode (i w p a b) = some (compareWord w op cond p a b))
    (hd : ∀ x, opOf x = op.toNat → x.extractLsb' 20 4 = cond →
      decodeWord x = some (i (x.getLsbD 31) (x.extractLsb' 16 4) (x.extractLsb' 8 8) (x.extractLsb' 0 8))) :
    HasWord (i w p a b) (compareWord w op cond p a b) :=
  ⟨he, fun _ => by simpa using hd _ (opOf_compareWord w op cond p a b) (compareWord_cond w op cond p a b)⟩

theorem plogWord_eq (w : Bool) (fn p x y : BitVec 4) : compareWord w 0x58 fn p (x.setWidth 8) (y.setWidth 8)
    = BitVec.ofBool w ++ 0x58#7 ++ fn ++ p ++ 0x0#4 ++ x ++ 0x0#4 ++ y := by
  apply BitVec.eq_of_getLsbD_eq
  intro i hi
  simp only [compareWord, BitVec.getLsbD_append, BitVec.getLsbD_setWidth, BitVec.getLsbD_zero]
  grind

theorem plogUnaryWord_eq (w : Bool) (fn p x : BitVec 4) : compareWord w 0x58 fn p (x.setWidth 8) 0
    = BitVec.ofBool w ++ 0x58#7 ++ fn ++ p ++ 0x0#4 ++ x ++ 0x0#8 := by
  apply BitVec.eq_of_getLsbD_eq
  intro i hi
  simp only [compareWord, BitVec.getLsbD_append, BitVec.getLsbD_setWidth, BitVec.getLsbD_zero]
  grind

theorem hasWord_plog (i : Bool → BitVec 4 → BitVec 4 → BitVec 4 → Instr) {w : Bool} {fn p x y : BitVec 4}
    (he : encode (i w p x y) = some (BitVec.ofBool w ++ 0x58#7 ++ fn ++ p ++ 0x0#4 ++ x ++ 0x0#4 ++ y))
    (hd : ∀ z, opOf z = 0x58 → z.extractLsb' 20 4 = fn → z.extractLsb' 12 4 = 0#4 → z.extractLsb' 4 4 = 0#4 →
      decodeWord z = some (i (z.getLsbD 31) (z.extractLsb' 16 4) (z.extractLsb' 8 4) (z.extractLsb' 0 4))) :
    HasWord (i w p x y) (compareWord w 0x58 fn p (x.setWidth 8) (y.setWidth 8)) := by
  refine ⟨he.trans (congrArg some (plogWord_eq w fn p x y).symm), fun _ => ?_⟩
  simpa using hd (compareWord w 0x58 fn p (x.setWidth 8) (y.setWidth 8)) (by simp) (by simp) (by simp) (by simp)

theorem hasWord_plogUnary (i : Bool → BitVec 4 → BitVec 4 → Instr) {w : Bool} {fn p x : BitVec 4}
    (he : encode (i w p x) = some (BitVec.ofBool w ++ 0x58#7 ++ fn ++ p ++ 0x0#4 ++ x ++ 0x0#8))
    (hd : ∀ z, opOf z = 0x58 → z.extractLsb' 20 4 = fn → z.extractLsb' 12 4 = 0#4 → z.extractLsb' 0 8 = 0#8 →
      decodeWord z = some (i (z.getLsbD 31) (z.extractLsb' 16 4) (z.extractLsb' 8 4))) :
    HasWord (i w p x) (compareWord w 0x58 fn p (x.setWidth 8) 0) := by
  refine ⟨he.trans (congrArg some (plogUnaryWord_eq w fn p x).symm), fun _ => ?_⟩
  simpa using hd (compareWord w 0x58 fn p (x.setWidth 8) 0) (by simp) (by simp) (by simp) (by simp)

/-! ## An instruction that uses its operands and completes with one result (R32, R364) -/

section
variable {s : State} {i : Instr} {us : List Use} {sw : Bool} {d : Nat}

theorem exec_scalarResult {v v' : W64} (hi : exec i s = s.using us (s.resultS sw d v)) (h : s.badUse us = none) (hv : v = v') :
    ∃ t, exec i s = .next t ∧ ScalarResult s t sw d v' := by
  rw [hi, ← hv]
  exact s.resultS_next us sw d v h

theorem exec_predResult {v v' : W64} (hi : exec i s = s.using us (s.resultP sw d v)) (h : s.badUse us = none) (hv : v = v') :
    ∃ t, exec i s = .next t ∧ PredResult s t sw d v' := by
  rw [hi, ← hv]
  exact s.resultP_next us sw d v h

theorem exec_vecResult {m : W64} {f f' : Nat → W32} (hi : exec i s = s.using us (s.resultV sw d m f)) (h : s.badUse us = none)
    (hf : f = f') : ∃ t, exec i s = .next t ∧ VecResult s t sw d m f' := by
  rw [hi, ← hf]
  exact s.resultV_next us sw d m f h

theorem exec_addrResult {m : W64} {f f' : Nat → W64} (hi : exec i s = s.using us (s.resultX sw d m f)) (h : s.badUse us = none)
    (hf : f = f') : ∃ t, exec i s = .next t ∧ AddrResult s t sw d m f' := by
  rw [hi, ← hf]
  exact s.resultX_next us sw d m f h

end

end Sys2Proof.Machine
end

section
namespace Sys2Proof.Machine

/-! ## Scalar results as the tables of R101 to R104 give them -/

theorem mulHigh_eq (a b : W64) : mulHigh a b = (a.signExtend 128 * b.signExtend 128).extractLsb' 64 64 := by
  have hp : a.signExtend 128 * b.signExtend 128 = BitVec.ofInt 128 (a.toInt * b.toInt) := by
    rw [BitVec.ofInt_mul]
    rfl
  apply BitVec.eq_of_toNat_eq
  rw [mulHigh, hp, BitVec.extractLsb'_toNat, BitVec.toNat_ofInt, BitVec.toNat_ofInt, Nat.shiftRight_eq_div_pow]
  omega

theorem mulHighU_eq (a b : W64) : mulHighU a b = (a.setWidth 128 * b.setWidth 128).extractLsb' 64 64 := by
  have h : a.toNat * b.toNat < 2 ^ 128 :=
    calc a.toNat * b.toNat < 2 ^ 64 * 2 ^ 64 := Nat.mul_lt_mul'' a.isLt b.isLt
      _ = 2 ^ 128 := by rw [← Nat.pow_add]
  apply BitVec.eq_of_toNat_eq
  simp only [mulHighU, BitVec.toNat_ofNat, BitVec.extractLsb'_toNat, Nat.shiftRight_eq_div_pow, BitVec.toNat_mul,
    BitVec.toNat_setWidth_of_le (show 64 ≤ 128 by omega), Nat.mod_eq_of_lt h]

theorem bit64_slt (a b : W64) : bit64 (a.slt b) = if a.toInt < b.toInt then 1#64 else 0#64 := by simp [bit64, BitVec.slt]

theorem bit64_ult (a b : W64) : bit64 (a.ult b) = if a.toNat < b.toNat then 1#64 else 0#64 := by simp [bit64, BitVec.ult]

theorem divS_eq (a b : W64) : divS a b = if b = 0#64 then BitVec.allOnes 64 else BitVec.ofInt 64 (a.toInt.tdiv b.toInt) := by
  have h : a.sdiv b = BitVec.ofInt 64 (a.toInt.tdiv b.toInt) := by
    apply BitVec.eq_of_toInt_eq
    rw [BitVec.toInt_sdiv, BitVec.toInt_ofInt]
  rw [divS, h]

theorem divU_eq (a b : W64) : divU a b = if b = 0#64 then BitVec.allOnes 64 else BitVec.ofNat 64 (a.toNat / b.toNat) := by
  rw [divU, show a.udiv b = BitVec.ofNat 64 (a.toNat / b.toNat) from BitVec.udiv_def]

theorem remS_eq (a b : W64) : remS a b = if b = 0#64 then a else BitVec.ofInt 64 (a.toInt.tmod b.toInt) := by
  rw [remS, ← BitVec.toInt_srem, BitVec.ofInt_toInt]

theorem remU_zext64 (a : W64) (i : BitVec 16) :
    remU a (zext64 i) = if i = 0#16 then a else BitVec.ofNat 64 (a.toNat % i.toNat) := by
  have hn : (zext64 i).toNat = i.toNat := BitVec.toNat_setWidth_of_le (by omega)
  have h0 : zext64 i = 0#64 ↔ i = 0#16 := by
    rw [← BitVec.toNat_inj, ← BitVec.toNat_inj, hn]
    rfl
  have hm : a.umod (zext64 i) = BitVec.ofNat 64 (a.toNat % i.toNat) := by
    rw [← hn]
    exact BitVec.umod_def
  rw [remU, hm]
  simp only [h0]

theorem extractLsb'_zero (n : Nat) (x : W64) : x.extractLsb' 0 n = x.setWidth n := by
  apply BitVec.eq_of_toNat_eq
  simp

theorem zext64_low (n : Nat) (x : W64) : zext64 (x.extractLsb' 0 n) = BitVec.ofNat 64 (x.toNat % 2 ^ n) := by
  rw [extractLsb'_zero]
  apply BitVec.eq_of_toNat_eq
  simp [zext64]

/-! ## Counts of bits -/

/-- The zero bits above the highest set bit are those passed by a search from the top. -/
theorem clz_eq_find (w x : Nat) (h : x < 2 ^ w) :
    clz w x = ((List.range w).find? fun i => x.testBit (w - 1 - i)).getD w := by
  by_cases hx : x = 0
  · subst hx
    simp [clz, List.find?_eq_none.2]
  · have hl : x.log2 < w := (Nat.log2_lt hx).2 h
    have hf : ((List.range w).find? fun i => x.testBit (w - 1 - i)) = some (w - 1 - x.log2) := by
      rw [List.find?_range_eq_some]
      refine ⟨?_, List.mem_range.2 (by omega), fun j hj => ?_⟩
      · rw [show w - 1 - (w - 1 - x.log2) = x.log2 by omega]
        exact Nat.testBit_log2 hx
      · have hlt : x < 2 ^ (w - 1 - j) :=
          Nat.lt_of_lt_of_le Nat.lt_log2_self (Nat.pow_le_pow_right (by omega) (by omega))
        simp [Nat.testBit_lt_two_pow hlt]
    rw [clz, if_neg hx, hf, Option.getD_some]

theorem popCount_eq_length (n x : Nat) : popCount n x = ((List.range n).filter fun i => x.testBit i).length := by
  unfold popCount
  induction n with
  | zero => rfl
  | succ n ih =>
    rw [List.range_succ, List.foldl_append, ih, List.filter_append, List.length_append]
    by_cases hn : x.testBit n <;> simp [hn]

/-! ## Scalar instructions (R101 to R104) -/

theorem words_scalar3 (w : Bool) (d a b : BitVec 8) :
    ∀ e ∈ ([(.add w d a b, 0), (.sub w d a b, 1), (.mul w d a b, 2), (.mulh w d a b, 3), (.mulhu w d a b, 4), (.and w d a b, 5),
      (.or w d a b, 6), (.xor w d a b, 7), (.sll w d a b, 8), (.srl w d a b, 9), (.sra w d a b, 10), (.slt w d a b, 11),
      (.sltu w d a b, 12), (.div w d a b, 13), (.divu w d a b, 14), (.rem w d a b, 15)] : List (Instr × BitVec 7)),
      HasWord e.1 (threeReg w e.2 d a b) := by
  refine allOf_iff.1 ⟨hasWord_threeReg .add rfl ?_, hasWord_threeReg .sub rfl ?_, hasWord_threeReg .mul rfl ?_,
    hasWord_threeReg .mulh rfl ?_, hasWord_threeReg .mulhu rfl ?_, hasWord_threeReg .and rfl ?_, hasWord_threeReg .or rfl ?_,
    hasWord_threeReg .xor rfl ?_, hasWord_threeReg .sll rfl ?_, hasWord_threeReg .srl rfl ?_, hasWord_threeReg .sra rfl ?_,
    hasWord_threeReg .slt rfl ?_, hasWord_threeReg .sltu rfl ?_, hasWord_threeReg .div rfl ?_, hasWord_threeReg .divu rfl ?_,
    hasWord_threeReg .rem rfl ?_⟩
  all_goals exact fun x h => by rw [decodeWord, h]; rfl

theorem words_scalarI (w : Bool) (d : BitVec 8) (i : BitVec 16) :
    ∀ e ∈ ([(.addi w d i, 16), (.movi w d i, 17), (.orhi w d i, 18), (.andi w d i, 19), (.remu w d i, 20)]
      : List (Instr × BitVec 7)), HasWord e.1 (regImm w e.2 d i) := by
  refine allOf_iff.1 ⟨hasWord_regImm .addi rfl ?_, hasWord_regImm .movi rfl ?_, hasWord_regImm .orhi rfl ?_,
    hasWord_regImm .andi rfl ?_, hasWord_regImm .remu rfl ?_⟩
  all_goals exact fun x h => by rw [decodeWord, h]; rfl

theorem words_sun (w : Bool) (d a : BitVec 8) :
    ∀ e ∈ ([(.sunClz w d a, 0), (.sunCtz w d a, 1), (.sunPopc w d a, 2), (.sunSext8 w d a, 3), (.sunSext16 w d a, 4),
      (.sunSext32 w d a, 5), (.sunZext8 w d a, 6), (.sunZext16 w d a, 7), (.sunZext32 w d a, 8), (.sunNeg w d a, 9),
      (.sunNot w d a, 10)] : List (Instr × BitVec 8)), HasWord e.1 (threeReg w 0x16 d a e.2) := by
  refine allOf_iff.1 ⟨hasWord_unary .sunClz rfl ?_, hasWord_unary .sunCtz rfl ?_, hasWord_unary .sunPopc rfl ?_,
    hasWord_unary .sunSext8 rfl ?_, hasWord_unary .sunSext16 rfl ?_, hasWord_unary .sunSext32 rfl ?_,
    hasWord_unary .sunZext8 rfl ?_, hasWord_unary .sunZext16 rfl ?_, hasWord_unary .sunZext32 rfl ?_,
    hasWord_unary .sunNeg rfl ?_, hasWord_unary .sunNot rfl ?_⟩
  all_goals exact fun x h hs => by rw [decodeWord, h]; change decodeOp16 x = _; rw [decodeOp16, hs]; rfl

/-- Settles O1: each instruction is `State.using` over one scalar result, whose value is the table's. -/
theorem scalarArithmetic : Obligations.ScalarArithmetic := by
  unfold Obligations.ScalarArithmetic
  refine ⟨?threeRegisters, ?immediates, ?unary, fun w d a b i => ⟨words_scalar3 w d a b, words_scalarI w d i, words_sun w d a⟩⟩
  case threeRegisters =>
    intro s w d a b h A B
    exact allOf_iff.1 ⟨exec_scalarResult rfl h rfl, exec_scalarResult rfl h rfl, exec_scalarResult rfl h rfl,
      exec_scalarResult rfl h (mulHigh_eq A B), exec_scalarResult rfl h (mulHighU_eq A B), exec_scalarResult rfl h rfl,
      exec_scalarResult rfl h rfl, exec_scalarResult rfl h rfl, exec_scalarResult rfl h rfl, exec_scalarResult rfl h rfl,
      exec_scalarResult rfl h rfl, exec_scalarResult rfl h (bit64_slt A B), exec_scalarResult rfl h (bit64_ult A B),
      exec_scalarResult rfl h (divS_eq A B), exec_scalarResult rfl h (divU_eq A B), exec_scalarResult rfl h (remS_eq A B)⟩
  case immediates =>
    intro s w d i h D
    have movi : ∃ t, exec (.movi w d i) s = .next t ∧ ScalarResult s t w d.toNat (i.signExtend 64) :=
      ⟨_, rfl, scalarResult_writeS s w d.toNat _⟩
    exact allOf_iff.1 ⟨exec_scalarResult rfl h rfl, movi, exec_scalarResult rfl h rfl,
      exec_scalarResult rfl h rfl, exec_scalarResult rfl h (remU_zext64 D i)⟩
  case unary =>
    intro s w d a h A
    have sext (n : Nat) : sext64 (A.extractLsb' 0 n) = (A.setWidth n).signExtend 64 := by rw [extractLsb'_zero, sext64]
    exact allOf_iff.1
      ⟨exec_scalarResult rfl h (congrArg (BitVec.ofNat 64) (clz_eq_find 64 A.toNat A.isLt)), exec_scalarResult rfl h rfl,
      exec_scalarResult rfl h (congrArg (BitVec.ofNat 64) (popCount_eq_length 64 A.toNat)),
      exec_scalarResult rfl h (sext 8), exec_scalarResult rfl h (sext 16), exec_scalarResult rfl h (sext 32),
      exec_scalarResult rfl h (zext64_low 8 A), exec_scalarResult rfl h (zext64_low 16 A),
      exec_scalarResult rfl h (zext64_low 32 A), exec_scalarResult rfl h (BitVec.zero_sub A), exec_scalarResult rfl h rfl⟩

end Sys2Proof.Machine
end

section
namespace Sys2Proof.Machine

/-! ## Address vectors (R108, R109) -/

theorem words_addresses (w : Bool) (d a b : BitVec 8) :
    ∀ e ∈ ([(.xadd w d a b, 36), (.xaddsc w d a b, 37), (.xmulsc w d a b, 38), (.xshl w d a b, 39), (.xiota w d a b, 40)]
      : List (Instr × BitVec 7)), HasWord e.1 (threeReg w e.2 d a b) := by
  refine allOf_iff.1 ⟨hasWord_threeReg .xadd rfl ?_, hasWord_threeReg .xaddsc rfl ?_,
    hasWord_threeReg .xmulsc rfl ?_, hasWord_threeReg .xshl rfl ?_, hasWord_threeReg .xiota rfl ?_⟩
  all_goals exact fun x h => by rw [decodeWord, h]; rfl

theorem words_xcmp (w : Bool) (p : BitVec 4) (a b : BitVec 8) :
    ∀ e ∈ ([(.xcmpEq w p a b, 0), (.xcmpNe w p a b, 1), (.xcmpLt w p a b, 2), (.xcmpGe w p a b, 3), (.xcmpLtu w p a b, 4),
      (.xcmpGeu w p a b, 5)] : List (Instr × BitVec 4)), HasWord e.1 (compareWord w 0x29 e.2 p a b) := by
  refine allOf_iff.1 ⟨hasWord_compare .xcmpEq rfl ?_, hasWord_compare .xcmpNe rfl ?_,
    hasWord_compare .xcmpLt rfl ?_, hasWord_compare .xcmpGe rfl ?_, hasWord_compare .xcmpLtu rfl ?_,
    hasWord_compare .xcmpGeu rfl ?_⟩
  all_goals exact fun x h hs => by rw [decodeWord, h]; change decodeOp29 x = _; rw [decodeOp29, hs]; rfl

/-- A compare of addresses completes with the guarded condition, lane by lane. -/
theorem exec_xcmp {s : State} {i : Instr} {w : Bool} {p : BitVec 4} {a b : BitVec 8} {c : BrCond} {f : Nat → Bool}
    (hi : exec i s = s.xcmp w p a b c) (h : s.badUse [s.useGuard, s.useX a.toNat, s.useX b.toNat] = none)
    (hf : ∀ l, c.holds (Lanes.get64 (s.readX a.toNat) l) (Lanes.get64 (s.readX b.toNat) l) = f l) :
    ∃ t m, exec i s = .next t ∧ PredResult s t w p.toNat m ∧ ∀ l, l < 64 → maskBit m l = (maskBit s.guard l && f l) := by
  obtain ⟨t, ht, hr⟩ := exec_predResult hi h rfl
  exact ⟨t, _, ht, hr, fun l hl => by rw [maskBit_maskOf _ l hl, hf]⟩

theorem bne_eq_decide_ne (a b : W64) : (a != b) = decide (a ≠ b) := by
  rw [Bool.eq_iff_iff]
  simp

theorem not_slt_eq (a b : W64) : (!a.slt b) = decide (b.toInt ≤ a.toInt) := by
  rw [Bool.eq_iff_iff]
  simp [BitVec.slt]

theorem not_ult_eq (a b : W64) : (!a.ult b) = decide (b.toNat ≤ a.toNat) := by
  rw [Bool.eq_iff_iff]
  simp [BitVec.ult]

/-- Settles O12: each address instruction is `State.using` over one address-vector result, and each compare over one predicate. -/
theorem addressVectors : Obligations.AddressVectors := by
  unfold Obligations.AddressVectors
  refine ⟨?arithmetic, ?compares, fun w p d a b => ⟨words_addresses w d a b, words_xcmp w p a b⟩⟩
  case arithmetic =>
    intro s w d a b X A B
    exact ⟨fun h => exec_addrResult rfl h rfl,
      fun h => allOf_iff.1 ⟨exec_addrResult rfl h rfl, exec_addrResult rfl h rfl, exec_addrResult rfl h rfl⟩,
      fun h => exec_addrResult rfl h rfl⟩
  case compares =>
    intro s w p a b h A B
    exact allOf_iff.1 ⟨exec_xcmp rfl h fun l => rfl, exec_xcmp rfl h fun l => bne_eq_decide_ne (A l) (B l),
      exec_xcmp rfl h fun l => rfl, exec_xcmp rfl h fun l => not_slt_eq (A l) (B l), exec_xcmp rfl h fun l => rfl,
      exec_xcmp rfl h fun l => not_ult_eq (A l) (B l)⟩

end Sys2Proof.Machine
end

section
namespace Sys2Proof.Machine

/-! ## Elements of a lane (R77) -/

theorem packSum_lt (w : Nat) (f : Nat → Nat) (m : Nat) :
    (List.range m).foldl (fun acc k => acc + f k % 2 ^ w * 2 ^ (w * k)) 0 < 2 ^ (w * m) := by
  induction m with
  | zero => simp
  | succ m ih =>
    rw [List.range_succ, List.foldl_append]
    have hq : f m % 2 ^ w + 1 ≤ 2 ^ w := Nat.mod_lt _ (Nat.two_pow_pos w)
    calc _ < 2 ^ (w * m) + f m % 2 ^ w * 2 ^ (w * m) := Nat.add_lt_add_right ih _
      _ = (f m % 2 ^ w + 1) * 2 ^ (w * m) := by rw [Nat.add_mul, Nat.one_mul, Nat.add_comm]
      _ ≤ 2 ^ w * 2 ^ (w * m) := Nat.mul_le_mul_right _ hq
      _ = 2 ^ (w * (m + 1)) := by rw [← Nat.pow_add, Nat.mul_succ, Nat.add_comm]

theorem packSum_elem (w : Nat) (f : Nat → Nat) (m k : Nat) (hk : k < m) :
    (List.range m).foldl (fun acc k => acc + f k % 2 ^ w * 2 ^ (w * k)) 0 / 2 ^ (w * k) % 2 ^ w = f k % 2 ^ w := by
  induction m with
  | zero => omega
  | succ m ih =>
    rw [List.range_succ, List.foldl_append]
    simp only [List.foldl_cons, List.foldl_nil]
    by_cases hkm : k = m
    · subst hkm
      rw [Nat.add_mul_div_right _ _ (Nat.two_pow_pos _), Nat.div_eq_of_lt (packSum_lt w f k), Nat.zero_add, Nat.mod_mod]
    · obtain ⟨j, rfl⟩ : ∃ j, m = k + 1 + j := ⟨m - (k + 1), by omega⟩
      have hp : 2 ^ (w * (k + 1 + j)) = 2 ^ (w * j) * 2 ^ w * 2 ^ (w * k) := by
        rw [← Nat.pow_add, ← Nat.pow_add, Nat.mul_add, Nat.mul_succ]
        congr 1
        omega
      rw [hp, ← Nat.mul_assoc, ← Nat.mul_assoc, Nat.add_mul_div_right _ _ (Nat.two_pow_pos _), Nat.add_mul_mod_self_right, ih (by omega)]

/-- Element `k` of a packed lane, for every element that the lane holds. -/
theorem elemOf_packLane (w : Nat) (f : Nat → Nat) (k : Nat) (hk : k < 32 / w) : elemOf w k (packLane w f) = f k % 2 ^ w := by
  have hlt := packSum_lt w f (32 / w)
  have hle : 2 ^ (w * (32 / w)) ≤ 2 ^ 32 := Nat.pow_le_pow_right (by omega) (Nat.mul_div_le 32 w)
  rw [elemOf, packLane, BitVec.toNat_ofNat, Nat.mod_eq_of_lt (Nat.lt_of_lt_of_le hlt hle), packSum_elem w f _ k hk]

theorem elemOf_lt (w k : Nat) (x : W32) : elemOf w k x < 2 ^ w := Nat.mod_lt _ (Nat.two_pow_pos w)

theorem wrapInt_lt (w : Nat) (x : Int) : wrapInt w x < 2 ^ w := by
  have hp : (0 : Int) < 2 ^ w := Int.pow_pos (by decide)
  rw [wrapInt, Int.toNat_lt (Int.emod_nonneg x (Int.ne_of_gt hp)), Int.natCast_pow]
  exact Int.emod_lt_of_pos x hp

theorem fitInt_lt (w : Nat) (sg sat : Bool) (x : Int) : fitInt w sg sat x < 2 ^ w := by
  cases sat
  · exact wrapInt_lt w x
  · exact wrapInt_lt w _

theorem clz_le (w x : Nat) : clz w x ≤ w := by
  unfold clz; split <;> omega

theorem find_range_le (p : Nat → Bool) (n : Nat) : ((List.range n).find? p).getD n ≤ n := by
  cases h : (List.range n).find? p with
  | none => simp
  | some k =>
    have := List.mem_range.1 (List.mem_of_find?_eq_some h)
    rw [Option.getD_some]
    omega

theorem filter_range_le (p : Nat → Bool) (n : Nat) : ((List.range n).filter p).length ≤ n := by
  simpa using List.length_filter_le p (List.range n)

/-! ## Bitwise and unary instructions and loads of a constant (R110 to R113) -/

theorem typeWidth_pos (t : Nat) : 0 < typeWidth t := by
  unfold typeWidth intType
  split <;> decide

theorem elemOf_patLane1 (t : Nat) (f : Nat → Nat → Nat) (x : W32) (k : Nat) (hk : k < 32 / typeWidth t)
    (hf : f (typeWidth t) (elemOf (typeWidth t) k x) < 2 ^ typeWidth t) :
    elemOf (typeWidth t) k (patLane1 t f x) = f (typeWidth t) (elemOf (typeWidth t) k x) := by
  rw [patLane1, elemOf_packLane _ _ k hk, Nat.mod_eq_of_lt hf]

theorem elemOf_intLane (t : Nat) (sat : Bool) (f : Int → Int → Int) (x y : W32) (k : Nat) (hk : k < 32 / typeWidth t) :
    elemOf (typeWidth t) k (intLane t sat f x y)
      = fitInt (typeWidth t) (intType t).2 sat (f (intVal (typeWidth t) (intType t).2 (elemOf (typeWidth t) k x))
        (intVal (typeWidth t) (intType t).2 (elemOf (typeWidth t) k y))) := by
  have h := elemOf_packLane (typeWidth t) (fun k => fitInt (typeWidth t) (intType t).2 sat
    (f (intVal (typeWidth t) (intType t).2 (elemOf (typeWidth t) k x))
      (intVal (typeWidth t) (intType t).2 (elemOf (typeWidth t) k y)))) k hk
  rw [Nat.mod_eq_of_lt (fitInt_lt _ _ _ _)] at h
  exact h

/-- Element by element, neg is what R112 says. -/
theorem elemOf_negLane (t : Nat) (sat : Bool) (x : W32) (k : Nat) (hk : k < 32 / typeWidth t) :
    elemOf (typeWidth t) k (negLane t sat x)
      = if isFloatType t then elemOf (typeWidth t) k x ^^^ 2 ^ (typeWidth t - 1)
        else fitInt (typeWidth t) (intType t).2 sat (-intVal (typeWidth t) (intType t).2 (elemOf (typeWidth t) k x)) := by
  have hw := typeWidth_pos t
  unfold negLane
  by_cases hf : isFloatType t = true
  · simp only [hf, if_true]
    refine elemOf_patLane1 t _ x k hk (Nat.xor_lt_two_pow (elemOf_lt _ k x) ?_)
    exact Nat.pow_lt_pow_right (by omega) (by omega)
  · simp only [hf, Bool.false_eq_true, if_false]
    exact elemOf_intLane t sat _ x x k hk

/-- Element by element, abs is what R112 says. -/
theorem elemOf_absLane (t : Nat) (sat : Bool) (x : W32) (k : Nat) (hk : k < 32 / typeWidth t) :
    elemOf (typeWidth t) k (absLane t sat x)
      = if isFloatType t then elemOf (typeWidth t) k x % 2 ^ (typeWidth t - 1)
        else fitInt (typeWidth t) (intType t).2 sat (intVal (typeWidth t) (intType t).2 (elemOf (typeWidth t) k x)).natAbs := by
  unfold absLane
  by_cases hf : isFloatType t = true
  · simp only [hf, if_true]
    refine elemOf_patLane1 t _ x k hk (Nat.lt_of_lt_of_le (Nat.mod_lt _ (Nat.two_pow_pos _)) ?_)
    exact Nat.pow_le_pow_right (by omega) (by omega)
  · simp only [hf, Bool.false_eq_true, if_false]
    exact elemOf_intLane t sat _ x x k hk

/-- An instruction over the elements of one register completes with its function of each element. -/
theorem exec_elements {s : State} {i : Instr} {w : Bool} {d a : BitVec 8} {g : W32 → W32} {n : Nat} {f : Nat → Nat}
    (hi : exec i s = s.v1 w d a g) (h : s.badUse [s.useGuard, s.useV a.toNat] = none)
    (hg : ∀ x k, k < 32 / n → elemOf n k (g x) = f (elemOf n k x)) :
    ∃ t r, exec i s = .next t ∧ VecResult s t w d.toNat s.guard r
      ∧ ∀ l k, l < 64 → k < 32 / n → elemOf n k (r l) = f (elemOf n k (Lanes.get32 (s.vec a.toNat) l)) := by
  obtain ⟨t, ht, hr⟩ := exec_vecResult hi h rfl
  exact ⟨t, _, ht, hr, fun l k _ hk => hg _ k hk⟩

/-- vmovhi's lane is the immediate above the low half. -/
theorem append_low_half (i : BitVec 16) (x : W32) :
    i ++ x.extractLsb' 0 16 = (i.setWidth 32 <<< 16) ||| (x.setWidth 16).setWidth 32 := by
  ext k hk
  simp only [BitVec.getElem_append, BitVec.getElem_or]
  grind

theorem words_bitwise (w : Bool) (d a b : BitVec 8) :
    ∀ e ∈ ([(.vand w d a b, 0x36), (.vor w d a b, 0x37), (.vxor w d a b, 0x38), (.vsel w d a b, 0x3D)] : List (Instr × BitVec 7)),
      HasWord e.1 (threeReg w e.2 d a b) := by
  refine allOf_iff.1 ⟨hasWord_threeReg .vand rfl ?_, hasWord_threeReg .vor rfl ?_, hasWord_threeReg .vxor rfl ?_,
    hasWord_threeReg .vsel rfl ?_⟩
  all_goals exact fun x h => by rw [decodeWord, h]; rfl

theorem words_vun (w : Bool) (d a : BitVec 8) :
    ∀ e ∈ ([(.vunClz w d a, 0), (.vunFfs w d a, 1), (.vunPopc w d a, 2), (.vunNeg w d a, 3), (.vunAbs w d a, 4),
      (.vunNot w d a, 5), (.vunMov w d a, 6)] : List (Instr × BitVec 8)), HasWord e.1 (threeReg w 0x3E d a e.2) := by
  refine allOf_iff.1 ⟨hasWord_unary .vunClz rfl ?_, hasWord_unary .vunFfs rfl ?_, hasWord_unary .vunPopc rfl ?_,
    hasWord_unary .vunNeg rfl ?_, hasWord_unary .vunAbs rfl ?_, hasWord_unary .vunNot rfl ?_, hasWord_unary .vunMov rfl ?_⟩
  all_goals exact fun x h hs => by rw [decodeWord, h]; change decodeOp3E x = _; rw [decodeOp3E, hs]; rfl

/-- Settles O13: each instruction is `State.using` over one vector result, and an element of a packed lane is the table's value. -/
theorem vectorBits : Obligations.VectorBits := by
  unfold Obligations.VectorBits
  refine ⟨?whole, ?elements, ?words⟩
  case whole =>
    intro s w d a b i V
    exact ⟨fun h => allOf_iff.1 ⟨exec_vecResult rfl h rfl, exec_vecResult rfl h rfl, exec_vecResult rfl h rfl⟩,
      fun h => exec_vecResult rfl h rfl, fun h => exec_vecResult rfl h rfl,
      fun h => exec_vecResult rfl h (funext fun l => append_low_half i (V d l))⟩
  case elements =>
    intro s w d a h t0 n sg fit E
    have hn {x : Nat} (hx : x ≤ n) : x < 2 ^ n := Nat.lt_of_le_of_lt hx Nat.lt_two_pow_self
    refine ⟨allOf_iff.1 ⟨exec_elements rfl h fun x k hk => ?clz, exec_elements rfl h fun x k hk => ?ffs,
      exec_elements rfl h fun x k hk => ?popc, exec_elements rfl h fun x k hk => elemOf_negLane t0 s.strand.sat x k hk,
      exec_elements rfl h fun x k hk => elemOf_absLane t0 s.strand.sat x k hk⟩,
      exec_vecResult rfl h rfl, exec_vecResult rfl h rfl⟩
    case clz => exact (elemOf_patLane1 t0 clz x k hk (hn (clz_le _ _))).trans (clz_eq_find n _ (elemOf_lt n k x))
    case ffs => exact elemOf_patLane1 t0 ctz x k hk (hn (find_range_le _ n))
    case popc =>
      have hle : popCount n (elemOf n k x) ≤ n := by rw [popCount_eq_length]; exact filter_range_le _ n
      exact (elemOf_patLane1 t0 popCount x k hk (hn hle)).trans (popCount_eq_length n _)
  case words =>
    intro w d a b i
    refine ⟨words_bitwise w d a b, hasWord_regImm .vmovi rfl ?_, hasWord_regImm .vmovhi rfl ?_, words_vun w d a⟩
    all_goals exact fun x h => by rw [decodeWord, h]; rfl

end Sys2Proof.Machine
end

section
namespace Sys2Proof.Machine

/-! ## Compares and predicates (R114 to R116) -/

/-- A compare holds of a lane where it holds of every element (R114). -/
theorem vcmpLane_iff (t : Nat) (flush : Bool) (c : VCond) (x y : W32) :
    vcmpLane t flush c x y = true ↔ ∀ k, k < 32 / typeWidth t →
      if isFloatType t then
        c.onFp ((floatType t).input flush (elemOf (typeWidth t) k x)) ((floatType t).input flush (elemOf (typeWidth t) k y)) = true
      else c.onOrd (compare (intVal (typeWidth t) (intType t).2 (elemOf (typeWidth t) k x))
        (intVal (typeWidth t) (intType t).2 (elemOf (typeWidth t) k y))) = true := by
  simp only [vcmpLane, List.all_eq_true, List.mem_range]
  by_cases hf : isFloatType t = true <;> simp only [hf, if_true, Bool.false_eq_true, if_false]

/-- A vector compare completes, and its bit in an active lane is its condition on every element of the lane. -/
theorem exec_vcmp {s : State} {i : Instr} {w : Bool} {p : BitVec 4} {a b : BitVec 8} (c : VCond)
    (hi : exec i s = s.vcmp w p a b c) (h : s.badUse [s.useGuard, s.useV a.toNat, s.useV b.toNat] = none) :
    let E := fun (r : BitVec 8) l k => elemOf (typeWidth s.strand.etype) k (Lanes.get32 (s.vec r.toNat) l)
    let I := fun r l k => intVal (typeWidth s.strand.etype) (intType s.strand.etype).2 (E r l k)
    let F := fun r l k => (floatType s.strand.etype).input s.strand.flush (E r l k)
    ∃ t m, exec i s = .next t ∧ PredResult s t w p.toNat m
      ∧ ∀ l, l < 64 → (maskBit m l = true ↔ maskBit s.guard l = true ∧ ∀ k, k < 32 / typeWidth s.strand.etype →
          if isFloatType s.strand.etype then c.onFp (F a l k) (F b l k) = true
          else c.onOrd (compare (I a l k) (I b l k)) = true) := by
  obtain ⟨t, ht, hr⟩ := exec_predResult hi h rfl
  exact ⟨t, _, ht, hr, fun l hl => by rw [maskBit_maskOf _ l hl, Bool.and_eq_true, vcmpLane_iff]⟩

theorem words_vcmp (w : Bool) (p : BitVec 4) (a b : BitVec 8) :
    ∀ e ∈ ([(.vcmpEq w p a b, 0), (.vcmpNe w p a b, 1), (.vcmpLt w p a b, 2), (.vcmpGe w p a b, 3), (.vcmpLe w p a b, 4),
      (.vcmpGt w p a b, 5), (.vcmpOrd w p a b, 6), (.vcmpUnord w p a b, 7)] : List (Instr × BitVec 4)),
      HasWord e.1 (compareWord w 0x3F e.2 p a b) := by
  refine allOf_iff.1 ⟨hasWord_compare .vcmpEq rfl ?_, hasWord_compare .vcmpNe rfl ?_,
    hasWord_compare .vcmpLt rfl ?_, hasWord_compare .vcmpGe rfl ?_, hasWord_compare .vcmpLe rfl ?_, hasWord_compare .vcmpGt rfl ?_,
    hasWord_compare .vcmpOrd rfl ?_, hasWord_compare .vcmpUnord rfl ?_⟩
  all_goals exact fun x h hs => by rw [decodeWord, h]; change decodeOp3F x = _; rw [decodeOp3F, hs]; rfl

theorem words_plog (w : Bool) (p x y : BitVec 4) :
    ∀ e ∈ ([(.plogAnd w p x y, 0), (.plogOr w p x y, 1), (.plogXor w p x y, 2), (.plogAndn w p x y, 3)] : List (Instr × BitVec 4)),
      HasWord e.1 (compareWord w 0x58 e.2 p (x.setWidth 8) (y.setWidth 8)) := by
  refine allOf_iff.1 ⟨hasWord_plog .plogAnd rfl ?_, hasWord_plog .plogOr rfl ?_, hasWord_plog .plogXor rfl ?_,
    hasWord_plog .plogAndn rfl ?_⟩
  all_goals exact fun z h hf ha hb => by rw [decodeWord, h]; change decodeOp58 z = _; rw [decodeOp58, hf, ha, hb]; rfl

theorem words_plogUnary (w : Bool) (p x : BitVec 4) :
    ∀ e ∈ ([(.plogNot w p x, 4), (.plogMov w p x, 5)] : List (Instr × BitVec 4)),
      HasWord e.1 (compareWord w 0x58 e.2 p (x.setWidth 8) 0) := by
  refine allOf_iff.1 ⟨hasWord_plogUnary .plogNot rfl ?_, hasWord_plogUnary .plogMov rfl ?_⟩
  all_goals exact fun z h hf ha hb => by rw [decodeWord, h]; change decodeOp58 z = _; rw [decodeOp58, hf, ha, hb]; rfl

theorem words_pred (w : Bool) (d a : BitVec 8) :
    ∀ e ∈ ([(.predPopc w d a, 0), (.predAny w d a, 1), (.predAll w d a, 2), (.predFirst w d a, 3), (.predMask w d a, 4)]
      : List (Instr × BitVec 8)), HasWord e.1 (threeReg w 0x59 d a e.2) := by
  refine allOf_iff.1 ⟨hasWord_unary .predPopc rfl ?_, hasWord_unary .predAny rfl ?_,
    hasWord_unary .predAll rfl ?_, hasWord_unary .predFirst rfl ?_, hasWord_unary .predMask rfl ?_⟩
  all_goals exact fun x h hs => by rw [decodeWord, h]; change decodeOp59 x = _; rw [decodeOp59, hs]; rfl

/-- A vcmp word whose cond is 8 or more is no instruction (R38, R114). -/
theorem decodeWord_vcmp_unassigned (w : Bool) (c p : BitVec 4) (a b : BitVec 8) (hc : 7 < c.toNat) :
    decodeWord (compareWord w 0x3F c p a b) = none := by
  have hne (k : BitVec 4) (hk : k.toNat ≤ 7) : c ≠ k := by rintro rfl; omega
  rw [decodeWord, opOf_compareWord]
  change decodeOp3F _ = none
  simp [decodeOp3F, hne]

/-- A plog word is no instruction where its fn is 6 or more, where a field's high half is not 0, and, for not and mov, where b is
not 0 (R38, R115). -/
theorem decodeWord_plog_unassigned (w : Bool) (c p : BitVec 4) (a b : BitVec 8)
    (h : 5 < c.toNat ∨ 15 < a.toNat ∨ 15 < b.toNat ∨ (c = 4 ∨ c = 5) ∧ b ≠ 0) :
    decodeWord (compareWord w 0x58 c p a b) = none := by
  rw [decodeWord, opOf_compareWord]
  change decodeOp58 _ = none
  obtain hc | ha | hb | ⟨rfl | rfl, hb⟩ := h
  · have hne (k : BitVec 4) (hk : k.toNat ≤ 5) : c ≠ k := by rintro rfl; omega
    simp [decodeOp58, hne]
  · simp [decodeOp58, high_ne_zero ha]
  · have hb0 : b ≠ 0#8 := by rintro rfl; simp at hb
    simp [decodeOp58, high_ne_zero hb, hb0]
  · simp [decodeOp58, show b ≠ 0#8 from hb]
  · simp [decodeOp58, show b ≠ 0#8 from hb]

/-- Settles O15: each instruction is `State.using` over one predicate or scalar result; a word outside the tables fails every test of
its opcode's decoder. -/
theorem comparesAndPredicates : Obligations.ComparesAndPredicates := by
  unfold Obligations.ComparesAndPredicates
  refine ⟨?compares, ?predicates, fun w p x y c d a b => ⟨words_vcmp w p a b, decodeWord_vcmp_unassigned w c p a b,
    words_plog w p x y, words_plogUnary w p x, decodeWord_plog_unassigned w c p a b, words_pred w d a⟩⟩
  case compares =>
    intro s w p a b h t0 n E I F
    exact allOf_iff.1 ⟨exec_vcmp .eq rfl h, exec_vcmp .ne rfl h, exec_vcmp .lt rfl h, exec_vcmp .ge rfl h,
      exec_vcmp .le rfl h, exec_vcmp .gt rfl h, exec_vcmp .ord rfl h, exec_vcmp .unord rfl h⟩
  case predicates =>
    intro s w d a b e f A B m
    refine ⟨fun h => ?_, fun h => ?_, fun h => ?_⟩
    · exact allOf_iff.1
        ⟨exec_predResult rfl h rfl, exec_predResult rfl h rfl, exec_predResult rfl h rfl, exec_predResult rfl h rfl⟩
    · exact allOf_iff.1 ⟨exec_predResult rfl h rfl, exec_predResult rfl h rfl⟩
    · exact allOf_iff.1 ⟨exec_scalarResult rfl h (congrArg (BitVec.ofNat 64) (popCount_eq_length 64 m.toNat)),
        exec_scalarResult rfl h rfl, exec_scalarResult rfl h rfl, exec_scalarResult rfl h rfl, exec_scalarResult rfl h rfl⟩

end Sys2Proof.Machine
end

section
namespace Sys2Proof.Machine

/-! ## Lane movement (R125 to R128)

vsetr writes several registers: first the state after a change of lane registers alone. -/

/-- The state whose current wave has the vector registers `v` with the marks `marks`, and whose strand awaits `outs`. -/
def State.withLanes (s : State) (v : SMap Vec) (marks : SMap W64) (outs : List OutReg) : State :=
  (s.updWave s.cur.wave fun w => { w with v := v, vPoison := marks }).setStrand { s.strand with outs := outs }

section
variable (s : State) (v v' : SMap Vec) (marks marks' : SMap W64) (outs outs' : List OutReg)

theorem lanesOnly_registers : LanesOnly fun w => { w with v := v, vPoison := marks } := ⟨fun _ => rfl⟩

@[simp] theorem State.withLanes_cur : (s.withLanes v marks outs).cur = s.cur := by simp [State.withLanes]

@[simp] theorem State.withLanes_strand : (s.withLanes v marks outs).strand = { s.strand with outs := outs } := by
  simp [State.withLanes]

@[simp] theorem State.withLanes_v : (s.withLanes v marks outs).curWave.v = v := by
  rw [State.withLanes, (keepsV_setStrand _ _).1, State.curWave_updWave]

@[simp] theorem State.withLanes_vPoison : (s.withLanes v marks outs).curWave.vPoison = marks := by
  rw [State.withLanes, (keepsV_setStrand _ _).2, State.curWave_updWave]

/-- Of two changes of the lane registers the second stands. -/
theorem State.withLanes_withLanes : (s.withLanes v marks outs).withLanes v' marks' outs' = s.withLanes v' marks' outs' := by
  rw [State.withLanes, State.withLanes_strand, State.withLanes_cur]
  unfold State.withLanes
  cases hk : s.cur.kind <;>
    simp [State.setStrand, hk, State.updWave, State.setWave, State.wave, State.updSeq, State.setCluster, State.cluster,
      State.curCluster]

/-- The strand issues from the lane registers that it leaves. -/
theorem State.retire_withLanes (sw : Bool) : (s.withLanes v marks outs).retire sw
    = (s.updWave s.cur.wave fun w => { w with v := v, vPoison := marks }).setStrand
        (({ s.strand with outs := outs } : Strand).issuedAt sw s.drained (s.strand.pc + 4#64)) := by
  have hd : (s.withLanes v marks outs).drained = s.drained := by
    rw [State.withLanes, State.drained_setStrand, State.drained_updWave s _ (lanesOnly_registers v marks)]
  rw [State.retire, State.retireTo_eq, hd, State.withLanes_strand, State.withLanes, State.setStrand_setStrand]

/-- Issuing after a change of the wave's vector registers alone (R31, R98). -/
theorem issues_withLanes (sw : Bool) :
    Outside s ((s.withLanes v marks outs).retire sw) ∧ Issues s ((s.withLanes v marks outs).retire sw) sw (s.strand.pc + 4#64) outs
      ∧ KeepsS s ((s.withLanes v marks outs).retire sw) ∧ KeepsP s ((s.withLanes v marks outs).retire sw)
      ∧ KeepsX s ((s.withLanes v marks outs).retire sw) ∧ Replies s ((s.withLanes v marks outs).retire sw) 0 := by
  obtain ⟨g, hg⟩ : ∃ g : Wave → Wave, (fun w => { w with v := v, vPoison := marks }) = g := ⟨_, rfl⟩
  have hl : LanesOnly g := hg ▸ lanesOnly_registers v marks
  have hx := keepsX_setStrand (s.updWave s.cur.wave g)
  rw [State.retire_withLanes, hg]
  refine ⟨outside_updWave _ _ _, issues_updWave _ _ hl _ _ _ _ (issues_setStrand _ _ _ _ _ rfl rfl rfl ?_ ?_), ?_, ?_, ?_, ?_⟩
  · rw [State.drained_updWave s g hl, State.strand_updWave s g hl]; rfl
  · rw [State.strand_updWave s g hl]; rfl
  · simp [KeepsS, Strand.issuedAt]
  · simp [KeepsP, Strand.issuedAt]
  · simp only [KeepsX, State.curWave_updWave] at hx ⊢
    rw [(hx _).1, (hx _).2, ← hg]
    exact ⟨rfl, rfl⟩
  · intro n; simp

/-- A vector register written with good data, as a change of the lane registers. -/
theorem State.writeV_eq (r : Nat) (m : W64) (f : Nat → W32) : s.writeV r m f = s.withLanes
    (SMap.put r (Lanes.ofFn fun l => if maskBit m l then f l else Lanes.get32 (s.curWave.vreg r) l) s.curWave.v)
    (SMap.put r ((SMap.get 0#64 s.curWave.vPoison r &&& ~~~m) ||| (0#64 &&& m)) s.curWave.vPoison) (s.outsV r) := by
  unfold State.writeV State.writeVP State.updStrand
  simp only
  rw [State.strand_updWave]
  · rfl
  · exact ⟨fun _ => rfl⟩

theorem State.writeV_vreg (r : Nat) (m : W64) (f : Nat → W32) (q l : Nat) (hl : l < 64) :
    Lanes.get32 ((s.writeV r m f).curWave.vreg q) l
      = if q = r ∧ maskBit m l = true then f l else Lanes.get32 (s.curWave.vreg q) l := by
  rw [State.writeV_eq, Wave.vreg, State.withLanes_v, SMap.get_put]
  by_cases hq : q = r
  · subst hq; simp [Lanes.get32_ofFn _ _ hl]
  · simp [hq, Wave.vreg]

theorem State.writeV_vPoison (r : Nat) (m : W64) (f : Nat → W32) (q l : Nat) (hl : l < 64) :
    maskBit (SMap.get 0#64 (s.writeV r m f).curWave.vPoison q) l
      = (maskBit (SMap.get 0#64 s.curWave.vPoison q) l && !decide (q = r ∧ maskBit m l = true)) := by
  rw [State.writeV_eq, State.withLanes_vPoison, SMap.get_put]
  by_cases hq : q = r
  · subst hq; simp [maskBit, hl]
  · simp [hq]

end

/-! ### The scatter of vsetr: by induction on the registers that are named -/

section
variable (base : BitVec 8) (idx : Vec) (g : W64) (v : Vec)

/-- A scatter leaves the state alone or changes lane registers. -/
theorem State.scatterV_shape (rs : List Nat) (s : State) :
    s.scatterV base idx g v rs = s ∨ ∃ new marks outs, s.scatterV base idx g v rs = s.withLanes new marks outs := by
  induction rs generalizing s with
  | nil => exact .inl rfl
  | cons r rs ih =>
    rw [State.scatterV]
    split
    · exact ih s
    · rw [State.writeV_eq]
      obtain h | ⟨new, marks, outs, h⟩ := ih (s.withLanes _ _ _)
      · exact .inr ⟨_, _, _, h⟩
      · exact .inr ⟨new, marks, outs, by rw [h, State.withLanes_withLanes]⟩

/-- The lanes that name register `r`, as a test. -/
theorem maskBit_named (p : Nat → Nat) (r l : Nat) (hl : l < 64) :
    maskBit (maskOf fun l => maskBit g l && p l == r) l = true ↔ maskBit g l = true ∧ p l = r := by
  rw [maskBit_maskOf _ l hl, Bool.and_eq_true, beq_iff_eq]

/-- The first register of a scatter, written in the lanes that name it and with the window left as it is. -/
def State.scatterStep (s : State) (r : Nat) : State :=
  let m := maskOf fun l => maskBit g l && s.strand.phys (laneReg base idx l) == r
  if m = 0#64 then s else s.writeV r m fun l => Lanes.get32 v l

theorem State.scatterV_cons (s : State) (r : Nat) (rs : List Nat) :
    s.scatterV base idx g v (r :: rs) = (s.scatterStep base idx g v r).scatterV base idx g v rs := rfl

theorem State.scatterStep_phys (s : State) (r : Nat) : (s.scatterStep base idx g v r).strand.phys = s.strand.phys := by
  unfold State.scatterStep
  simp only
  split
  · rfl
  · rw [State.writeV_eq, State.withLanes_strand]
    rfl

theorem State.scatterStep_vreg (s : State) (r q l : Nat) (hl : l < 64) :
    Lanes.get32 ((s.scatterStep base idx g v r).curWave.vreg q) l
      = if q = r ∧ maskBit g l = true ∧ s.strand.phys (laneReg base idx l) = r then Lanes.get32 v l
        else Lanes.get32 (s.curWave.vreg q) l := by
  have hm := maskBit_named g (fun l => s.strand.phys (laneReg base idx l)) r l hl
  unfold State.scatterStep
  simp only
  split
  · rename_i h0
    rw [h0] at hm
    rw [if_neg fun h => absurd (hm.2 h.2) (by simp [maskBit])]
  · rw [State.writeV_vreg s r _ _ q l hl]
    exact ite_congr (propext (and_congr_right' hm)) (fun _ => rfl) fun _ => rfl

theorem State.scatterStep_vPoison (s : State) (r q l : Nat) (hl : l < 64) :
    maskBit (SMap.get 0#64 (s.scatterStep base idx g v r).curWave.vPoison q) l
      = (maskBit (SMap.get 0#64 s.curWave.vPoison q) l
        && !decide (q = r ∧ maskBit g l = true ∧ s.strand.phys (laneReg base idx l) = r)) := by
  have hm := maskBit_named g (fun l => s.strand.phys (laneReg base idx l)) r l hl
  unfold State.scatterStep
  simp only
  split
  · rename_i h0
    rw [h0] at hm
    rw [decide_eq_false fun h => absurd (hm.2 h.2) (by simp [maskBit])]
    simp
  · rw [State.writeV_vPoison s r _ _ q l hl, decide_eq_decide.2 (and_congr_right' hm)]

/-- A lane of a register after the scatter. -/
theorem State.scatterV_vreg (rs : List Nat) (s : State) (q l : Nat) (hl : l < 64) :
    Lanes.get32 ((s.scatterV base idx g v rs).curWave.vreg q) l
      = if q ∈ rs ∧ maskBit g l = true ∧ s.strand.phys (laneReg base idx l) = q then Lanes.get32 v l
        else Lanes.get32 (s.curWave.vreg q) l := by
  induction rs generalizing s with
  | nil => simp [State.scatterV]
  | cons r rs ih =>
    rw [State.scatterV_cons, ih, State.scatterStep_phys, State.scatterStep_vreg _ _ _ _ s r q l hl]
    grind

/-- A lane's mark of a register after the scatter. -/
theorem State.scatterV_vPoison (rs : List Nat) (s : State) (q l : Nat) (hl : l < 64) :
    maskBit (SMap.get 0#64 (s.scatterV base idx g v rs).curWave.vPoison q) l
      = (maskBit (SMap.get 0#64 s.curWave.vPoison q) l
        && !decide (q ∈ rs ∧ maskBit g l = true ∧ s.strand.phys (laneReg base idx l) = q)) := by
  induction rs generalizing s with
  | nil => simp [State.scatterV]
  | cons r rs ih =>
    rw [State.scatterV_cons, ih, State.scatterStep_phys, State.scatterStep_vPoison _ _ _ _ s r q l hl]
    grind

/-- The registers of vsetr's scatter include the one that an active lane names. -/
theorem mem_named (p : Nat → Nat) (l : Nat) (hl : l < 64) (hg : maskBit g l = true) :
    p l ∈ ((maskLanes g).map p).eraseDups := by
  rw [List.mem_eraseDups]
  exact List.mem_map_of_mem (List.mem_filter.2 ⟨List.mem_range.2 hl, hg⟩)

end

/-- Issuing after a scatter (R31, R128). -/
theorem issues_scatterV (s : State) (base : BitVec 8) (idx : Vec) (g : W64) (v : Vec) (rs : List Nat) (sw : Bool) :
    ∃ outs, Outside s ((s.scatterV base idx g v rs).retire sw)
      ∧ Issues s ((s.scatterV base idx g v rs).retire sw) sw (s.strand.pc + 4#64) outs
      ∧ KeepsS s ((s.scatterV base idx g v rs).retire sw) ∧ KeepsP s ((s.scatterV base idx g v rs).retire sw)
      ∧ KeepsX s ((s.scatterV base idx g v rs).retire sw) ∧ Replies s ((s.scatterV base idx g v rs).retire sw) 0 := by
  obtain h | ⟨new, marks, outs, h⟩ := State.scatterV_shape base idx g v rs s
  · obtain ⟨ho, hi, hs, hp, -, hx, hr⟩ := goesTo_retireTo s sw (s.strand.pc + 4#64)
    rw [h]
    exact ⟨_, ho, hi, hs, hp, hx, hr⟩
  · rw [h]
    exact ⟨outs, issues_withLanes s new marks outs sw⟩

/-- vbcast's lane is the sum modulo 2^32. -/
theorem bcast_lane (a b : W64) (l : Nat) :
    a.setWidth 32 + BitVec.ofNat 32 l * b.setWidth 32 = BitVec.ofNat 32 (a.toNat + l * b.toNat) := by
  rw [BitVec.ofNat_add, BitVec.ofNat_mul]
  rfl

theorem words_laneMoves (w : Bool) (d a b : BitVec 8) :
    ∀ e ∈ ([(.vperm w d a b, 0x52), (.vxshuf w d a b, 0x53), (.vbcast w d a b, 0x54), (.vgetr w d a b, 0x56),
      (.vsetr w d a b, 0x57)] : List (Instr × BitVec 7)), HasWord e.1 (threeReg w e.2 d a b) := by
  refine allOf_iff.1 ⟨hasWord_threeReg .vperm rfl ?_, hasWord_threeReg .vxshuf rfl ?_,
    hasWord_threeReg .vbcast rfl ?_, hasWord_threeReg .vgetr rfl ?_, hasWord_threeReg .vsetr rfl ?_⟩
  all_goals exact fun x h => by rw [decodeWord, h]; rfl

/-- Settles O14: the four moves are `State.using` over one vector result; vsetr is a scatter, whose lanes follow by induction on the
registers that it names. -/
theorem laneMoves : Obligations.LaneMoves := by
  unfold Obligations.LaneMoves
  refine ⟨?moves, ?setr, words_laneMoves⟩
  case moves =>
    intro s w d a b V p x reg
    exact ⟨fun h => exec_vecResult rfl h rfl, fun h => exec_vecResult rfl h rfl,
      fun h => exec_vecResult rfl h (funext fun l => bcast_lane _ _ l), fun h => exec_vecResult rfl h rfl⟩
  case setr =>
    intro s w d a b h reg
    let rs := ((maskLanes s.guard).map fun l => s.strand.phys (laneReg d (s.vec a.toNat) l)).eraseDups
    let u := s.scatterV d (s.vec a.toNat) s.guard (s.vec b.toNat) rs
    have hexec : exec (.vsetr w d a b) s = .next (u.retire w) := s.using_good _ _ h
    obtain ⟨outs, hout, hiss, hs, hp, hx, hr⟩ := issues_scatterV s d (s.vec a.toNat) s.guard (s.vec b.toNat) rs w
    obtain ⟨-, -, -, -, ⟨hv, hm⟩, -⟩ := goesTo_retireTo u w (u.strand.pc + 4#64)
    refine ⟨u.retire w, outs, hexec, hout, hiss, hs, hp, hx, hr, fun r l hl => ?_⟩
    have hmem : r ∈ rs ∧ maskBit s.guard l = true ∧ reg l = r ↔ maskBit s.guard l = true ∧ reg l = r := by
      refine ⟨And.right, fun hgr => ⟨?_, hgr⟩⟩
      rw [← hgr.2]
      exact mem_named s.guard (fun l => s.strand.phys (laneReg d (s.vec a.toNat) l)) l hl hgr.1
    constructor
    · rw [Wave.vreg, State.retire, hv]
      exact (State.scatterV_vreg d (s.vec a.toNat) s.guard (s.vec b.toNat) rs s r l hl).trans
        (ite_congr (propext hmem) (fun _ => rfl) fun _ => rfl)
    · rw [State.retire, hm, State.scatterV_vPoison d (s.vec a.toNat) s.guard (s.vec b.toNat) rs s r l hl]
      change (_ && !decide (r ∈ rs ∧ maskBit s.guard l = true ∧ reg l = r)) = _
      rw [decide_eq_decide.2 hmem, Bool.decide_and, Bool.decide_eq_true]
      rfl

end Sys2Proof.Machine
end
